-- ==== Sys2Proof/Word.lean ====
section
/-! DEFINITION. The data sizes of the ring: a byte and a 16-bit value (00_scope.md 0.6.3). -/

namespace Sys2Proof

/-- One data byte of a character. -/
abbrev Byte := BitVec 8

/-- A 16-bit value: a level, a target, a duty16, a curve point, a counter, a CRC. -/
abbrev Word := BitVec 16

/-- A set of channels: bit k is channel k (R30, Table 2-9). -/
abbrev ChannelSet := BitVec 24

/-- A set of attention reasons: bit k is the reason of Table 8-4 with that bit (R30). -/
abbrev ReasonSet := BitVec 6

end Sys2Proof
end

