-- ==== Sys2Proof/Syntax.lean ====
section
/-! DEFINITION. The commands: one constructor per row of spec/opcode_table.json. -/

namespace Sys2Proof

/-- The sampled bits of one character (Table 1-1, R1): D0 to D7 as `data` (D0 its least significant
bit), the mark bit M, the parity bit P, and the level at the middle of the stop bit
(`stop = true`: the stop level). -/
structure LineChar where
  data : Byte
  mark : Bool
  parity : Bool
  stop : Bool
deriving DecidableEq, Repr

/-- What the two CRC characters of an arriving frame carry, against the CRC of the frame's bytes as
they arrive (R17): the correct CRC, its complement (a poisoned frame), or a given value. -/
inductive CrcArrival where
  | correct
  | complement
  | other (crc : Word)
deriving DecidableEq, Repr

/-- The end of a frame (Table 2-1): the attention byte as it arrives and the two CRC characters. -/
structure FrameTail where
  attention : Byte
  crc : CrcArrival
deriving DecidableEq, Repr

/-- A management record as it arrives, less its command code (Table 2-6), with the end of the frame
that carries it: plen is the length of `params`, rlen that of `reply`. -/
structure Record where
  target : Byte
  params : List Byte
  status : Byte
  reply : List Byte
  tail : FrameTail
deriving DecidableEq, Repr

/-- What the read-back of a page shows after a write completion (R152, stage 3): the bytes
programmed, or other bytes. -/
inductive ReadBack where
  | asProgrammed
  | holds (bytes : List Byte)
deriving DecidableEq, Repr

/-- The commands of the block: the rows of spec/opcode_table.json, in the table's order.
A `rate` operand is the level of RATE1:RATE0 at that moment (R3). -/
inductive Instr where
  | characterReceived (c : LineChar)
  | characterTransmit
  | frameForwarded (rate : BitVec 2)
  | stallTimeout
  | bypassOpen
  | levelFrame (flags fade : Byte) (count : Word) (slots : List Byte) (tail : FrameTail)
  | foreignKindFrame (kind : Byte) (body : List Byte) (tail : FrameTail)
  | identify (r : Record)
  | readStatus (r : Record)
  | readFaults (r : Record)
  | readLink (r : Record)
  | readPatch (r : Record)
  | writePatch (r : Record)
  | readGroups (r : Record)
  | writeGroup (r : Record)
  | readCurve (r : Record)
  | writeCurve (r : Record)
  | readNode (r : Record)
  | writeNode (r : Record)
  | setMasks (r : Record)
  | recallScene (r : Record)
  | captureScene (r : Record)
  | saveConfig (r : Record)
  | setLock (r : Record)
  | eraseStore (r : Record)
  | readStore (r : Record)
  | force (r : Record)
  | release (r : Record)
  | readLevels (r : Record)
  | clearFaults (r : Record)
  | ackAttention (r : Record)
  | standby (r : Record)
  | wake (r : Record)
  | restart (r : Record)
  | enumerate (r : Record)
  | addressById (r : Record)
  | unknownCommand (code : Byte) (r : Record)
  | tick
  | lossTimerExpiry
  | holdOffExpiry
  | forceExpiry (channel : Fin 24)
  | quietTimerExpiry
  | wakeComplete
  | periodStart
  /-- `sinkMv`: the voltage of the channel's sink at that moment, in mV (R118). -/
  | onPhaseEnd (channel : Fin 24) (sinkMv : Nat)
  | rotationDue
  /-- `raw`: the 12-bit result of the conversion (R141). -/
  | temperatureResult (raw : BitVec 12)
  | supplyResult (raw : BitVec 12)
  | auxResult (raw : BitVec 12)
  /-- `late`: the completion of a write that has already failed by its timer (R152). -/
  | pageWriteCompletion (late : Bool) (readBack : ReadBack)
  | pageWriteTimeout
  /-- `late`: the completion of an erase that has already failed by its timer (R155). -/
  | eraseCompletion (late : Bool)
  | eraseTimeout
  | rstnFall
  /-- `lowMicros`: how long the discriminator has timed the low period, in µs (R132). -/
  | rstnRise (lowMicros : Nat) (rate : BitVec 2)
  | rstnLongPulse
  | powerOn
  | vddReachesThreshold (rate : BitVec 2)
  | brownOut
  /-- `low`: LIN is still at the start level at the middle of the start bit (R1, R14). -/
  | startBitConfirmed (low : Bool)
  | stopLevelRegained
  | characterSent
deriving DecidableEq, Repr

end Sys2Proof
end

