-- ==== Sys2Proof/Decode.lean ====
section
/-! DEFINITION. Words to commands. The block has no instruction decoder: its commands are events and
records, and no row of spec/opcode_table.json gives bits ("fields" is empty in every row and no row
has "fixed"). -/

namespace Sys2Proof

/-- The command that a word spells by the table's bits: none, since no row gives any. -/
def decodeTableWord (_nbits _w : Nat) : Option Instr := none

end Sys2Proof
end

