-- ==== Sys2Proof/Config.lean ====
section
/-! DEFINITION. What one part fixes, and the values the manual leaves open. None has a body: no
proof can see a value of them. -/

namespace Sys2Proof

/-- The 48-bit unique ID, fixed in manufacture (R34, Table 2-13; R167). Log 15. -/
opaque Config.uniqueId : BitVec 48

/-- The byte at a place of a page whose content is indeterminate (R146, R153, R155, R157): the n-th
time a page became so, page p, byte k. Log 13. -/
opaque Config.freeByte : Nat → Nat → Nat → Byte

/-- What the mode field would hold in RESET and START, which have no code (R34, R131). No record is
answered in those modes. Log 15. -/
opaque Config.noModeCode : Byte

end Sys2Proof
end

