-- ==== Sys2Proof/Machine/Types.lean ====
section
/-! DEFINITION. The pieces of state of each block (00_scope.md, Table 0-1), as plain data. -/

namespace Sys2Proof.Machine

/-! ## Configuration records (02, section 2.5) -/

/-- The fade rule of a patch entry or group record (R31, R51): the frame's code, or its own, 0 to 254. -/
inductive FadeRule where
  | frame
  | own (code : Fin 255)
deriving DecidableEq, Repr

/-- The source of a patch entry (R31, R48): a slot offset, or a park level byte. -/
inductive PatchSource where
  | slot (offset : Byte)
  | park (level : Byte)
deriving DecidableEq, Repr

/-- The curve of a patch entry (R31, R90). -/
inductive Curve where
  | linear
  | log
  | table (t : Fin 4)
deriving DecidableEq, Repr

/-- One patch entry (R31, Table 3-4); `master` none, or group 0 to 3. -/
structure PatchEntry where
  source : PatchSource
  master : Option (Fin 4)
  curve : Curve
  trim : Byte
  fade : FadeRule
deriving DecidableEq, Repr

/-- The kind of a group master record (R32, R54). -/
inductive GroupKind where
  | none
  | slot (offset : Byte)
deriving DecidableEq, Repr

/-- One group master record (R32). -/
structure GroupRecord where
  kind : GroupKind
  fade : FadeRule
deriving DecidableEq, Repr

/-- The loss action of the node settings (R33). -/
inductive LossAction where
  | hold
  | black
  | scene
deriving DecidableEq, Repr

/-- The node settings record (R33, Table 2-12). -/
structure NodeSettings where
  address : Fin 251
  slotBase : Fin 1024
  lossTimeout : Byte
  lossAction : LossAction
  lossScene : Fin 16
  lossFade : Byte
  ceiling : Fin 65
  periodCode : Fin 4
  stagger : Bool
  dither : Bool
  quiet : Bool
  confirmCode : Fin 4
deriving DecidableEq, Repr

/-- The selected fields of a WRITE_NODE record (R165): `none` where the mask does not select it. -/
structure NodeWrite where
  address : Option (Fin 251)
  slotBase : Option (Fin 1024)
  lossTimeout : Option Byte
  lossAction : Option LossAction
  lossScene : Option (Fin 16)
  lossFade : Option Byte
  ceiling : Option (Fin 65)
  periodCode : Option (Fin 4)
  options : Option (Bool × Bool × Bool)
  confirmCode : Option (Fin 4)
deriving DecidableEq, Repr

/-! ## Link Port Unit (01) -/

/-- One place of the repeat buffer (section 1.3). `covered`: the character enters the sent-side CRC at
its release (R11, R12). `forwards`: it is the CRC low character of a frame decided at its last CRC
character, whose sending gives the frame-forwarded event (R16); `restarts`: that frame committed a
RESTART (R145). -/
structure Place where
  data : Byte
  mark : Bool
  released : Bool
  sub : Option Byte
  covered : Bool
  forwards : Bool
  restarts : Bool
deriving DecidableEq, Repr

/-- The receiver (R1): hunting for a start edge, sampling a character whose start bit is confirmed, or
waiting for the stop level after a missing stop bit. -/
inductive Receiver where
  | hunting
  | sampling
  | awaitStop
deriving DecidableEq, Repr

/-- The Frame Tracker states that hold a frame (Table 1-3). -/
inductive Phase where
  | head
  | body
  | trail
deriving DecidableEq, Repr

/-- The frame context (section 1.5), with the node address that stood at the frame start (R25, R127). -/
structure FrameCtx where
  kind : Byte
  phase : Phase
  length : Nat
  position : Nat
  charError : Bool
  overrun : Bool
  format : Bool
  rxCrc : Word
  txCrc : Word
  crcIn : Word
  address : Fin 251
deriving DecidableEq, Repr

/-- The Frame Tracker (Table 1-3): there is a context in HEAD, BODY and TRAIL only. -/
inductive Tracker where
  | idle
  | pass
  | frame (f : FrameCtx)
deriving DecidableEq, Repr

/-- The frame outcomes (Table 1-4). -/
inductive FrameOutcome where
  | good
  | poisoned
  | damaged
  | format
  | truncated
  | stalled
  | overlong
deriving DecidableEq, Repr

/-- The link counter record (R19, Table 1-5). -/
structure LinkCounters where
  good : Word
  damaged : Word
  poisoned : Word
  charErrors : Word
  overruns : Word
  stalls : Word
  truncated : Word
deriving DecidableEq, Repr

/-- The Link Port Unit. `bypass`: the switch is closed. `lout`: what LOUT has carried, oldest first
(the model's own record, log 16). -/
structure Lpu where
  rate : BitVec 2
  bypass : Bool
  rx : Receiver
  tx : Option Place
  buffer : List Place
  tracker : Tracker
  stallTimer : Bool
  counters : LinkCounters
  lout : List LineChar
deriving DecidableEq, Repr

/-! ## Slot Intake (03) -/

/-- The intake states (Table 3-3). -/
inductive IntakeState where
  | flags
  | fade
  | count
  | slots
  | stopped
  | ended
deriving DecidableEq, Repr

/-- The feed of a capture place and its fade rule, as the window map of one frame holds them
(R39, R40). -/
structure Feed where
  offset : Option Byte
  fade : FadeRule
deriving DecidableEq, Repr

/-- The intake context of a level frame (section 3.3) and the window map built at its frame start,
held by place (R40, log 32). -/
structure Intake where
  state : IntakeState
  wide : Bool
  seize : Bool
  fade : Byte
  count : Nat
  slot : Nat
  high : Option Byte
  base : Fin 1024
  feeds : List Feed
deriving DecidableEq, Repr

/-- The Slot Intake: 28 capture places, `none` a clear mark with value 0 (R38). -/
structure SlotIntake where
  places : List (Option Word)
  intake : Option Intake
deriving DecidableEq, Repr

/-- One item of a captured set (R46): place, value, resolved fade code. -/
structure Item where
  place : Nat
  value : Word
  code : Byte
deriving DecidableEq, Repr

/-- The Patch Table: 24 entries, 4 group master records. -/
structure PatchTable where
  entries : List PatchEntry
  groups : List GroupRecord
deriving DecidableEq, Repr

/-! ## Source Selector (04) -/

/-- The source states (Table 4-1). -/
inductive Source where
  | stream
  | cue (n : Fin 16)
  | lossHold
  | lossCue (n : Fin 16)
  | lossBlack
deriving DecidableEq, Repr

/-- The loss timer (R59); RUNNING holds the ticks left. -/
inductive LossTimer where
  | off
  | expired
  | running (left : Nat)
deriving DecidableEq, Repr

/-- The Source Selector; `live`: the stream flag is LIVE. -/
structure SourceSelector where
  source : Source
  lossTimer : LossTimer
  live : Bool
deriving DecidableEq, Repr

/-! ## Fade Engine (05) and Output Shaper (06) -/

/-- One fade context (R73). -/
structure FadeContext where
  level : Word
  target : Word
  remaining : Nat
deriving DecidableEq, Repr

/-- The Fade Engine: 28 contexts, and whether the 1 ms timebase runs (R78). -/
structure FadeEngine where
  contexts : List FadeContext
  timebase : Bool
deriving DecidableEq, Repr

/-- A force record (R99); the countdown is `none` until released, or the ticks left (R101). -/
inductive Force where
  | inactive
  | active (level : Word) (left : Option Nat)
deriving DecidableEq, Repr

/-- The Output Shaper: four loaded tables of 33 points (R93), 24 force records (R99), and the duty16
last handed on for each channel (R88, R97). -/
structure OutputShaper where
  tables : List (List Word)
  forces : List Force
  duty : List Word
deriving DecidableEq, Repr

/-! ## PWM Output Unit (07) -/

/-- The channel block states (Table 7-4). -/
inductive BlockState where
  | driving
  | blocked
  | resuming
deriving DecidableEq, Repr

/-- One channel: block state, latched on-count, and whether the on-phase of this period has its end
still to come (R104, R109). -/
structure PwmChannel where
  block : BlockState
  onCount : Nat
  endDue : Bool
deriving DecidableEq, Repr

/-- The sink drivers (R113): up, powered down in QUIET, or powering up in the wake. -/
inductive Drivers where
  | up
  | down
  | powering
deriving DecidableEq, Repr

/-- The PWM Output Unit. `count`: the counter position reached at the last PWM event (log 22). -/
structure Pwu where
  running : Bool
  count : Nat
  code : Fin 4
  phase : Fin 8
  stagger : Bool
  dither : Bool
  drivers : Drivers
  channels : List PwmChannel
deriving DecidableEq, Repr

/-! ## Fault Monitor and Attention Logic (08) -/

/-- The Fault Monitor (Table 8-1), less the confirm code, which the node settings hold. -/
structure FaultMonitor where
  openCount : List Nat
  shortCount : List Nat
  openLatch : ChannelSet
  shortLatch : ChannelSet
  openMask : ChannelSet
  shortMask : ChannelSet
deriving DecidableEq, Repr

/-- The attention reasons (Table 8-4). -/
inductive Reason where
  | start
  | fault
  | thermal
  | supply
  | store
  | loss
deriving DecidableEq, Repr

/-- The Attention Logic (R124); `holdOff` none is STOPPED, else the ticks left. -/
structure Attention where
  reasons : ReasonSet
  mask : ReasonSet
  holdOff : Option Nat
  claim : Bool
deriving DecidableEq, Repr

/-! ## Monitor and Mode Controller (09) -/

/-- The thermal states (Table 9-3). -/
inductive Thermal where
  | normal
  | warm
  | derate
  | hot
deriving DecidableEq, Repr

/-- The supply states (R144). -/
inductive SupplyState where
  | normal
  | preUv
deriving DecidableEq, Repr

/-- The conversions of a rotation (R140). -/
inductive Conversion where
  | temperature
  | supply
  | aux
deriving DecidableEq, Repr

/-- The Monitor. `sinceStart`: the rotation timer, stopped or the ticks since the last rotation began
(R140); `dueAgain`: a rotation fell due while one was converting. -/
structure Monitor where
  temperature : Int
  supply : Nat
  aux : BitVec 12
  thermal : Thermal
  ceiling : Nat
  supplyState : SupplyState
  converting : Option Conversion
  sinceStart : Option Nat
  dueAgain : Bool
deriving DecidableEq, Repr

/-- The node modes (Table 9-1). -/
inductive Mode where
  | reset
  | start
  | run
  | quiet
  | standby
  | hot
deriving DecidableEq, Repr

/-- The return mode kept during HOT (R131). -/
inductive ReturnMode where
  | run
  | standby
deriving DecidableEq, Repr

/-- The Mode Controller; `quietTimer` none is STOPPED, else the ticks left (R136). `timingLow`: the
RSTn discriminator times a low period; `longReached`: that period has reached 20 ms (R132). -/
structure ModeController where
  mode : Mode
  returnMode : ReturnMode
  quietTimer : Option Nat
  restartPending : Bool
  timingLow : Bool
  longReached : Bool
deriving DecidableEq, Repr

/-- The input pins whose level outlasts a command: RSTn, RATE1:RATE0, and VDD against 4.00 V. -/
structure Pins where
  rstnLow : Bool
  rate : BitVec 2
  vddOk : Bool
deriving DecidableEq, Repr

/-! ## Store Controller (10) -/

/-- One page of the store (R146): its 128 bytes, or a page whose write a node reset cut off, of which
the spec says only that it is corrupt (R157, log 14). -/
inductive Page where
  | bytes (b : List Byte)
  | cutOff
deriving DecidableEq, Repr

/-- The classes of a page at the load (R147). -/
inductive PageClass where
  | blank
  | valid
  | corrupt
deriving DecidableEq, Repr

/-- One scene shadow record (R149): 28 targets, contexts 0 to 23 then the four masters. -/
structure SceneRecord where
  valid : Bool
  targets : List Word
  fade : Byte
deriving DecidableEq, Repr

/-- The kinds of queue entry and of reservation (Table 10-2). -/
inductive StoreKind where
  | config
  | scene (n : Fin 16)
  | lock
  | erase
deriving DecidableEq, Repr

/-- One write queue entry (R150). -/
structure QueueEntry where
  kind : StoreKind
  started : Bool
  again : Bool
deriving DecidableEq, Repr

/-- What the store does or waits to do: one page write, or the erase. -/
inductive StoreWork where
  | page (p : Fin 23)
  | erase
deriving DecidableEq, Repr

/-- The store state (Table 10-3): WRITING and ERASING are `running`. -/
inductive StoreActivity where
  | idle
  | running (w : StoreWork)
  | waiting (w : StoreWork)
deriving DecidableEq, Repr

/-- The cause of a store failure (R153). -/
inductive FailureCause where
  | timeout
  | verify
deriving DecidableEq, Repr

/-- The last-failure record (R153): the kind of the entry, the page (none for an erase), the cause. -/
structure StoreFailure where
  kind : StoreKind
  page : Option (Fin 23)
  cause : FailureCause
deriving DecidableEq, Repr

/-- The Store Controller. -/
structure Store where
  pages : List Page
  pageBuffer : Option (List Byte)
  snapshot : Option (List (List Byte))
  shadow : List SceneRecord
  queue : List QueueEntry
  activity : StoreActivity
  lock : Bool
  lastFailure : Option StoreFailure
  loadFaults : BitVec 23
deriving DecidableEq, Repr

/-! ## Management Executor (11) -/

/-- The commands of Table 11-4. -/
inductive Cmd where
  | identify
  | readStatus
  | readFaults
  | readLink
  | readPatch
  | writePatch
  | readGroups
  | writeGroup
  | readCurve
  | writeCurve
  | readNode
  | writeNode
  | setMasks
  | recallScene
  | captureScene
  | saveConfig
  | setLock
  | eraseStore
  | readStore
  | force
  | release
  | readLevels
  | clearFaults
  | ackAttention
  | standby
  | wake
  | restart
  | enumerate
  | addressById
deriving DecidableEq, Repr

/-- The status codes (Table 2-8). -/
inductive Status where
  | unanswered
  | done
  | busy
  | locked
  | badParam
  | unknown
  | noRoom
  | empty
deriving DecidableEq, Repr

/-- The answer of store admission (Table 10-4). -/
inductive Admission where
  | busy
  | accept
  | coalesce
  | alreadyLocked
deriving DecidableEq, Repr

/-- One entry of the commit list (R162): a staged write with its params. -/
inductive Staged where
  | linkClear
  | writePatch (first : Nat) (entries : List PatchEntry)
  | writeGroup (g : Fin 4) (r : GroupRecord)
  | writeCurve (t : Fin 4) (first : Nat) (points : List Word)
  | writeNode (w : NodeWrite)
  | setMasks (openMask shortMask : ChannelSet) (mask : ReasonSet)
  | recallScene (n : Fin 16) (fade : Option Byte)
  | capture (n : Fin 16) (fade : Byte) (how : Admission)
  | saveConfig (how : Admission)
  | setLock (how : Admission)
  | eraseStore
  | force (set : ChannelSet) (level : Word) (seconds : Byte)
  | release (set : ChannelSet)
  | clearFaults (opens shorts : ChannelSet)
  | ack (set : ReasonSet)
  | standby
  | wake
  | restart
  /-- The address found in reply byte 0, once that byte is complete (R166). -/
  | enumerate (v : Option (Fin 251))
  | addressById (a : Fin 251)
deriving DecidableEq, Repr

/-- What the checks of R160 decide for one record, before the arrived status is looked at: leave it
untouched, refuse it, or accept it with a reply and perhaps a staged write. -/
inductive Verdict where
  | untouched
  | refuse (st : Status)
  | accept (reply : List Byte) (staged : Option Staged)
deriving DecidableEq, Repr

/-- The answer to the current record: the verdict, and whether the node writes its status (R158,
Table 11-2). -/
structure Answer where
  verdict : Verdict
  writes : Bool
deriving DecidableEq, Repr

/-- The field of the body being read (Tables 2-5, 2-6), with the bytes of it still to come. -/
inductive Field where
  | count
  | target
  | command
  | plen
  | params (left : Nat)
  | status
  | rlen
  | reply (left : Nat)
  | done
deriving DecidableEq, Repr

/-- The parser context of a management frame (R25). `out`: reply bytes still to be written;
`running`: the next reply byte is reply byte 0 of an accepted ENUMERATE (R166). The count of body
bytes remaining follows from the frame context's length and position. -/
structure Parser where
  total : Nat
  index : Nat
  field : Field
  target : Byte
  command : Byte
  params : List Byte
  status : Byte
  rlen : Nat
  answer : Answer
  out : List Byte
  running : Bool
deriving DecidableEq, Repr

/-- The Management Executor. `coalesced`: the kinds of queued entries into which records of the frame
in passage coalesced (R151). -/
structure Executor where
  parser : Option Parser
  commits : List Staged
  reservations : List StoreKind
  coalesced : List StoreKind
  restartMark : Bool
deriving DecidableEq, Repr

end Sys2Proof.Machine
end

