-- ==== Sys2Proof/Machine/Defaults.lean ====
section
/-! DEFINITION. The default and node-reset contents that the spec lists. -/

namespace Sys2Proof.Machine

/-- Channel i's default entry (R31, R52): SLOT offset i, no master, LINEAR, trim 255, FRAME. -/
def defaultPatchEntry (i : Nat) : PatchEntry :=
  { source := .slot (BitVec.ofNat 8 i), master := none, curve := .linear, trim := 0xFF,
    fade := .frame }

/-- The default group record (R32, R52): NONE, FRAME. -/
def defaultGroup : GroupRecord := { kind := .none, fade := .frame }

def defaultPatchTable : PatchTable :=
  { entries := (List.range 24).map defaultPatchEntry, groups := List.replicate 4 defaultGroup }

/-- The defaults of Table 2-12. -/
def defaultNode : NodeSettings :=
  { address := 0, slotBase := 0, lossTimeout := 30, lossAction := .hold, lossScene := 0,
    lossFade := 20, ceiling := 64, periodCode := 1, stagger := true, dither := true, quiet := true,
    confirmCode := 1 }

/-- Default point k of a loaded table (R93): 2048 × k, or 65535 where that exceeds 65535. -/
def defaultPoint (k : Nat) : Word := BitVec.ofNat 16 (min (2048 * k) 65535)

def defaultTable : List Word := (List.range 33).map defaultPoint

/-- An invalid scene shadow record (R148, R155): targets and fade code 0. -/
def invalidScene : SceneRecord :=
  { valid := false, targets := List.replicate 28 0, fade := 0 }

/-- A blank page (R147): 128 bytes of 0FFH. -/
def blankPage : Page := .bytes (List.replicate 128 0xFF)

/-- A fade context at rest at 0 (R87). -/
def restContext : FadeContext := { level := 0, target := 0, remaining := 0 }

def zeroCounters : LinkCounters :=
  { good := 0, damaged := 0, poisoned := 0, charErrors := 0, overruns := 0, stalls := 0,
    truncated := 0 }

/-- A channel held off with no on-phase (R115). -/
def blockedChannel : PwmChannel := { block := .blocked, onCount := 0, endDue := false }

/-- No parser, empty commit list, no reservation, no restart mark (R157, R162). -/
def emptyExecutor : Executor :=
  { parser := none, commits := [], reservations := [], coalesced := [], restartMark := false }

/-- Every capture place clear, no intake context (R38). -/
def clearIntake : SlotIntake := { places := List.replicate 28 none, intake := none }

end Sys2Proof.Machine
end

