-- ==== Sys2Proof/Machine/State.lean ====
section
/-! DEFINITION. The state of the node, the reasons a step could stop, and the state right after
reset. -/

namespace Sys2Proof.Machine

/-- The block never stops with a fault: what the spec calls a refusal is a status byte (Table 2-8), and
a broken frame is a frame outcome (Table 1-4); both are next states. -/
inductive Fault where
deriving DecidableEq, Repr

/-- Why a command is refused by the model. -/
inductive Refusal where
  /-- Raised by an arm of exec whose command has no meaning yet; safe. No arm does. -/
  | notModelled (mnemonic : String)
deriving DecidableEq, Repr

/-- The node (00_scope.md, Table 0-1): one field per block, the node settings (R33), the pins, and the
queue of commands that wait. `freeCount` is the model's own counter of free values (log 13). -/
structure State where
  pending : List Instr
  pins : Pins
  lpu : Lpu
  si : SlotIntake
  pt : PatchTable
  ss : SourceSelector
  fe : FadeEngine
  os : OutputShaper
  pwu : Pwu
  fm : FaultMonitor
  al : Attention
  mon : Monitor
  mc : ModeController
  stc : Store
  me : Executor
  node : NodeSettings
  freeCount : Nat
deriving DecidableEq, Repr

/-- Right after reset: a power-on node reset has begun, VDD is still under 4.00 V and RSTn is high
(R133). The node-reset values of every block; for what START loads, and for what the spec gives no
value, the values of logs 6 to 11. -/
def State.reset : State where
  pending := []
  pins := { rstnLow := false, rate := 0, vddOk := false }
  lpu :=
    { rate := 0, bypass := true, rx := .hunting, tx := none, buffer := [], tracker := .idle,
      stallTimer := false, counters := zeroCounters, lout := [] }
  si := clearIntake
  pt := defaultPatchTable
  ss := { source := .stream, lossTimer := .off, live := false }
  fe := { contexts := List.replicate 28 restContext, timebase := false }
  os :=
    { tables := List.replicate 4 defaultTable, forces := List.replicate 24 .inactive,
      duty := List.replicate 24 0 }
  pwu :=
    { running := false, count := 0, code := 1, phase := 0, stagger := true, dither := true,
      drivers := .up, channels := List.replicate 24 blockedChannel }
  fm :=
    { openCount := List.replicate 24 0, shortCount := List.replicate 24 0, openLatch := 0,
      shortLatch := 0, openMask := 0, shortMask := 0 }
  al := { reasons := 1, mask := 0, holdOff := none, claim := false }
  mon :=
    { temperature := 0, supply := 0, aux := 0, thermal := .normal, ceiling := 64,
      supplyState := .normal, converting := none, sinceStart := none, dueAgain := false }
  mc :=
    { mode := .reset, returnMode := .run, quietTimer := none, restartPending := false,
      timingLow := false, longReached := false }
  stc :=
    { pages := List.replicate 23 blankPage, pageBuffer := none, snapshot := none,
      shadow := List.replicate 16 invalidScene, queue := [], activity := .idle, lock := false,
      lastFailure := none, loadFaults := 0 }
  me := emptyExecutor
  node := defaultNode
  freeCount := 0

end Sys2Proof.Machine
end

