-- ==== Sys2Proof/Machine/Ops.lean ====
section
/-! DEFINITION. The operations shared by the blocks: replacing one block's state, byte order, sets, the
CRC, raising a reason, and retargeting a fade. -/

namespace Sys2Proof.Machine

/-! ## Replacing one block's state -/

def State.setPins (s : State) (x : Pins) : State := { s with pins := x }
def State.setLpu (s : State) (x : Lpu) : State := { s with lpu := x }
def State.setSi (s : State) (x : SlotIntake) : State := { s with si := x }
def State.setPt (s : State) (x : PatchTable) : State := { s with pt := x }
def State.setSs (s : State) (x : SourceSelector) : State := { s with ss := x }
def State.setFe (s : State) (x : FadeEngine) : State := { s with fe := x }
def State.setOs (s : State) (x : OutputShaper) : State := { s with os := x }
def State.setPwu (s : State) (x : Pwu) : State := { s with pwu := x }
def State.setFm (s : State) (x : FaultMonitor) : State := { s with fm := x }
def State.setAl (s : State) (x : Attention) : State := { s with al := x }
def State.setMon (s : State) (x : Monitor) : State := { s with mon := x }
def State.setMc (s : State) (x : ModeController) : State := { s with mc := x }
def State.setStc (s : State) (x : Store) : State := { s with stc := x }
def State.setMe (s : State) (x : Executor) : State := { s with me := x }
def State.setNode (s : State) (x : NodeSettings) : State := { s with node := x }

/-! ## Bytes, words and sets -/

/-- A value of two bytes is sent high byte first (00_scope.md 0.6.3). -/
def be16 (hi lo : Byte) : Word := hi ++ lo

def hiByte (w : Word) : Byte := w.extractLsb' 8 8

def loByte (w : Word) : Byte := w.extractLsb' 0 8

def wordBytes (w : Word) : List Byte := [hiByte w, loByte w]

def natByte (n : Nat) : Byte := BitVec.ofNat 8 n

def natWord (n : Nat) : Word := BitVec.ofNat 16 n

/-- Whether member k is in a set (R30). -/
def has {w : Nat} (set : BitVec w) (k : Nat) : Bool := set.getLsbD k

/-- A list of the 24 channels' values, from the old one and the channel number. -/
def perChannel {α : Type} (f : Nat → α) : List α := (List.range 24).map f

/-! ## The CRC (R15) -/

def crcBit (crc : Word) (bit : Bool) : Word :=
  if crc.msb != bit then (crc <<< 1) ^^^ 0x1021 else crc <<< 1

/-- Feeds one byte, most significant bit first (R15). -/
def crcByte (crc : Word) (b : Byte) : Word :=
  [7, 6, 5, 4, 3, 2, 1, 0].foldl (fun c k => crcBit c (b.getLsbD k)) crc

/-- The CRC of a run of bytes, from 0FFFFH (R15). -/
def crc16 (bytes : List Byte) : Word := bytes.foldl crcByte 0xFFFF

/-! ## Attention reasons (R125) -/

/-- The bit of a reason in the reason set (Table 8-4). -/
def Reason.bit : Reason → Nat
  | .start => 0
  | .fault => 1
  | .thermal => 2
  | .supply => 3
  | .store => 4
  | .loss => 5

def Reason.set (r : Reason) : ReasonSet := BitVec.ofNat 6 (2 ^ r.bit)

/-- Adds a reason to the pending set; a new reason that is not masked stops the hold-off (R125). -/
def Attention.raise (a : Attention) (r : Reason) : Attention :=
  if has a.reasons r.bit then a
  else { a with reasons := a.reasons ||| r.set,
                holdOff := if has a.mask r.bit then a.holdOff else none }

def State.raise (s : State) (r : Reason) : State := s.setAl (s.al.raise r)

/-! ## Fade contexts (R75) -/

/-- A retarget: code 0 snaps, any other code leaves the level and sets code × 100 ticks (R75). -/
def FadeContext.retarget (c : FadeContext) (t : Word) (code : Byte) : FadeContext :=
  if code = 0 then { level := t, target := t, remaining := 0 }
  else { c with target := t, remaining := code.toNat * 100 }

/-- Context i of the Fade Engine. -/
def State.context (s : State) (i : Nat) : FadeContext := s.fe.contexts.getD i restContext

/-- Retargets context i. -/
def State.retarget (s : State) (i : Nat) (t : Word) (code : Byte) : State :=
  s.setFe { s.fe with contexts := s.fe.contexts.set i ((s.context i).retarget t code) }

/-- The targets of one list, from context 0 on, with one code (R64, R67). -/
def State.retargetAll (s : State) (targets : List Word) (code : Byte) : State :=
  (List.range 28).foldl (fun s i => s.retarget i (targets.getD i 0) code) s

/-! ## Patch entries and group records by number -/

def State.entry (s : State) (i : Nat) : PatchEntry := s.pt.entries.getD i (defaultPatchEntry i)

def State.group (s : State) (g : Nat) : GroupRecord := s.pt.groups.getD g defaultGroup

/-- The park level of a park level byte (R31, R48). -/
def parkLevel (b : Byte) : Word := natWord (b.toNat * 257)

/-- A narrow slot value as a 16-bit value (R23). -/
def widen (b : Byte) : Word := natWord (b.toNat * 257)

/-- Every PARK channel is retargeted to its park level with one code (R57, R58). -/
def State.retargetPark (s : State) (code : Byte) : State :=
  (List.range 24).foldl
    (fun s i =>
      match (s.entry i).source with
      | .park b => s.retarget i (parkLevel b) code
      | .slot _ => s)
    s

/-- The modes in which ticks are taken, duties computed and frames processed (Table 9-1). -/
def Mode.operating : Mode → Bool
  | .run => true
  | .quiet => true
  | .standby => true
  | .hot => true
  | .reset => false
  | .start => false

end Sys2Proof.Machine
end

