-- ==== Sys2Proof/Machine/Flags.lean ====
section
/-! DEFINITION. The codes of statuses, modes, states and sets as replies carry them. -/

namespace Sys2Proof.Machine

/-- Table 2-8. -/
def Status.code : Status → Byte
  | .unanswered => 0x00
  | .done => 0x01
  | .busy => 0x02
  | .locked => 0x03
  | .badParam => 0x04
  | .unknown => 0x05
  | .noRoom => 0x06
  | .empty => 0x07

/-- Table 2-15; RESET and START have no code (R131, log 15). -/
def Mode.code : Mode → Byte
  | .run => 0x01
  | .quiet => 0x02
  | .standby => 0x03
  | .hot => 0x04
  | .reset => Config.noModeCode
  | .start => Config.noModeCode

/-- Table 2-15: high four bits the state, low four the scene. -/
def Source.code : Source → Byte
  | .stream => 0x00
  | .cue n => 0x10 + natByte n.val
  | .lossHold => 0x20
  | .lossCue n => 0x30 + natByte n.val
  | .lossBlack => 0x40

/-- Table 2-15. -/
def Thermal.code : Thermal → Byte
  | .normal => 0
  | .warm => 1
  | .derate => 2
  | .hot => 3

/-- Byte 2 of READ_STATUS (Table 2-14): bits 0 to 1 the thermal state, bit 7 PRE_UV. -/
def thermalSupplyByte (t : Thermal) (u : SupplyState) : Byte :=
  match u with
  | .normal => t.code
  | .preUv => 0x80 + t.code

/-- Table 2-15, Table 10-3. -/
def StoreActivity.code : StoreActivity → Byte
  | .idle => 0x00
  | .running (.page _) => 0x01
  | .running .erase => 0x02
  | .waiting _ => 0x03

/-- The failure kinds of Table 2-18. -/
def StoreKind.code : StoreKind → Byte
  | .config => 0x01
  | .scene _ => 0x02
  | .lock => 0x03
  | .erase => 0x04

def FailureCause.code : FailureCause → Byte
  | .timeout => 0x01
  | .verify => 0x02

/-- Bytes 3 to 5 of READ_STORE (Table 2-18, R153): none reads 00H, 0FFH, 00H. -/
def failureBytes : Option StoreFailure → List Byte
  | none => [0x00, 0xFF, 0x00]
  | some f =>
    [f.kind.code, (match f.page with | some p => natByte p.val | none => 0xFF), f.cause.code]

def boolByte (b : Bool) : Byte := if b then 0x01 else 0x00

/-- A channel set, high byte first (Table 2-9). -/
def channelSetBytes (c : ChannelSet) : List Byte :=
  [c.extractLsb' 16 8, c.extractLsb' 8 8, c.extractLsb' 0 8]

/-- A channel set from its three bytes. -/
def channelSetOf (a b c : Byte) : ChannelSet := a ++ b ++ c

/-- A reason set; bits 6 and 7 are sent as 0 (R30). -/
def reasonByte (r : ReasonSet) : Byte := r.setWidth 8

/-- A reason set from its byte; bits 6 and 7 are ignored (R30). -/
def reasonOf (b : Byte) : ReasonSet := b.setWidth 6

/-- A page set; bit 23 is sent as 0 (R30). -/
def pageSetBytes (p : BitVec 23) : List Byte := channelSetBytes (p.setWidth 24)

/-- The scene valid set of the shadow (Table 2-18). -/
def sceneValidSet (shadow : List SceneRecord) : Word :=
  (List.range 16).foldl
    (fun acc n =>
      if (shadow.getD n invalidScene).valid then acc ||| natWord (2 ^ n) else acc)
    0

end Sys2Proof.Machine
end

