-- ==== Sys2Proof/Machine/Operands.lean ====
section
/-! DEFINITION. The wire forms of params, replies and page contents: reading and writing them. -/

namespace Sys2Proof.Machine

/-- A byte as a number below n, where it is one. -/
def finOf? (n : Nat) (v : Nat) : Option (Fin n) :=
  if h : v < n then some ⟨v, h⟩ else none

/-! ## Patch entries and group records (R31, R32) -/

def FadeRule.ofByte (b : Byte) : FadeRule :=
  if h : b.toNat < 255 then .own ⟨b.toNat, h⟩ else .frame

def FadeRule.toByte : FadeRule → Byte
  | .frame => 0xFF
  | .own c => natByte c.val

/-- Curve codes 0 to 5 (Table 2-10); 6 and 7 are out of range. -/
def Curve.ofCode? : Nat → Option Curve
  | 0 => some .linear
  | 1 => some .log
  | 2 => some (.table 0)
  | 3 => some (.table 1)
  | 4 => some (.table 2)
  | 5 => some (.table 3)
  | _ => none

def Curve.toCode : Curve → Nat
  | .linear => 0
  | .log => 1
  | .table t => 2 + t.val

/-- Master codes 0 to 4 (Table 2-10); 5 to 15 are out of range. -/
def masterOfCode? : Nat → Option (Option (Fin 4))
  | 0 => some none
  | 1 => some (some 0)
  | 2 => some (some 1)
  | 3 => some (some 2)
  | 4 => some (some 3)
  | _ => none

def masterToCode : Option (Fin 4) → Nat
  | none => 0
  | some g => 1 + g.val

/-- A patch entry from its four bytes (Table 2-10). -/
def PatchEntry.ofBytes? (mode value trim rule : Byte) : Option PatchEntry :=
  match Curve.ofCode? (mode.toNat / 16 % 8), masterOfCode? (mode.toNat % 16) with
  | some curve, some master =>
    some { source := if has mode 7 then .park value else .slot value, master := master,
           curve := curve, trim := trim, fade := FadeRule.ofByte rule }
  | _, _ => none

def PatchEntry.toBytes (e : PatchEntry) : List Byte :=
  let low := e.curve.toCode * 16 + masterToCode e.master
  match e.source with
  | .slot o => [natByte low, o, e.trim, e.fade.toByte]
  | .park b => [natByte (128 + low), b, e.trim, e.fade.toByte]

/-- A run of patch entries; none where the bytes do not divide by four or an entry is out of range. -/
def patchEntries? : List Byte → Option (List PatchEntry)
  | [] => some []
  | a :: b :: c :: d :: rest =>
    match PatchEntry.ofBytes? a b c d, patchEntries? rest with
    | some e, some es => some (e :: es)
    | _, _ => none
  | _ => none

/-- A group record from its three bytes (Table 2-11). -/
def GroupRecord.ofBytes? (kind offset rule : Byte) : Option GroupRecord :=
  if kind = 0x00 then some { kind := .none, fade := FadeRule.ofByte rule }
  else if kind = 0x01 then some { kind := .slot offset, fade := FadeRule.ofByte rule }
  else none

def GroupRecord.toBytes (r : GroupRecord) : List Byte :=
  match r.kind with
  | .none => [0x00, 0x00, r.fade.toByte]
  | .slot o => [0x01, o, r.fade.toByte]

/-- A run of 16-bit values, high byte first. -/
def wordsOf : List Byte → List Word
  | hi :: lo :: rest => be16 hi lo :: wordsOf rest
  | _ => []

/-! ## Node settings (R33, R165) -/

def LossAction.ofByte? (b : Byte) : Option LossAction :=
  if b = 0x00 then some .hold
  else if b = 0x01 then some .black
  else if b = 0x02 then some .scene
  else none

def LossAction.toByte : LossAction → Byte
  | .hold => 0x00
  | .black => 0x01
  | .scene => 0x02

/-- The options byte: bit 0 stagger, bit 1 dither, bit 2 quiet; bits 3 to 7 ignored (Table 2-12). -/
def optionsOf (b : Byte) : Bool × Bool × Bool := (has b 0, has b 1, has b 2)

def optionsByte (n : NodeSettings) : Byte :=
  natByte ((if n.stagger then 1 else 0) + (if n.dither then 2 else 0) + (if n.quiet then 4 else 0))

/-- The node settings record of READ_NODE (Table 2-12). -/
def NodeSettings.toBytes (n : NodeSettings) : List Byte :=
  [natByte n.address.val, hiByte (natWord n.slotBase.val), loByte (natWord n.slotBase.val),
   n.lossTimeout, n.lossAction.toByte, natByte n.lossScene.val, n.lossFade, natByte n.ceiling.val,
   natByte n.periodCode.val, optionsByte n, natByte n.confirmCode.val]

/-- A field that the mask selects must lie in its range; one that it does not is not looked at. -/
def selected {α : Type} (mask : Word) (k : Nat) (v : Option α) : Option (Option α) :=
  if has mask k then v.map some else some none

/-- The selected fields of WRITE_NODE (R165); none where one of them is out of range. -/
def NodeWrite.ofBytes? (mask : Word) : List Byte → Option NodeWrite
  | [b1, b2, b3, b4, b5, b6, b7, b8, b9, b10, b11] => do
    let address ← selected mask 0 (finOf? 251 b1.toNat)
    let slotBase ← selected mask 1 (finOf? 1024 (be16 b2 b3).toNat)
    let lossTimeout ← selected mask 2 (some b4)
    let lossAction ← selected mask 3 (LossAction.ofByte? b5)
    let lossScene ← selected mask 4 (finOf? 16 b6.toNat)
    let lossFade ← selected mask 5 (some b7)
    let ceiling ← selected mask 6 (finOf? 65 b8.toNat)
    let periodCode ← selected mask 7 (finOf? 4 b9.toNat)
    let options ← selected mask 8 (some (optionsOf b10))
    let confirmCode ← selected mask 9 (finOf? 4 b11.toNat)
    some { address, slotBase, lossTimeout, lossAction, lossScene, lossFade, ceiling, periodCode,
           options, confirmCode }
  | _ => none

/-- Each selected field replaced, the others kept (R165). -/
def NodeSettings.write (n : NodeSettings) (w : NodeWrite) : NodeSettings :=
  { address := w.address.getD n.address
    slotBase := w.slotBase.getD n.slotBase
    lossTimeout := w.lossTimeout.getD n.lossTimeout
    lossAction := w.lossAction.getD n.lossAction
    lossScene := w.lossScene.getD n.lossScene
    lossFade := w.lossFade.getD n.lossFade
    ceiling := w.ceiling.getD n.ceiling
    periodCode := w.periodCode.getD n.periodCode
    stagger := (w.options.map (·.1)).getD n.stagger
    dither := (w.options.map (·.2.1)).getD n.dither
    quiet := (w.options.map (·.2.2)).getD n.quiet
    confirmCode := w.confirmCode.getD n.confirmCode }

/-! ## Unique ID (R34, R167) -/

/-- The six bytes of the unique ID, high byte first (Table 2-13). -/
def uniqueIdBytes : List Byte :=
  [Config.uniqueId.extractLsb' 40 8, Config.uniqueId.extractLsb' 32 8,
   Config.uniqueId.extractLsb' 24 8, Config.uniqueId.extractLsb' 16 8,
   Config.uniqueId.extractLsb' 8 8, Config.uniqueId.extractLsb' 0 8]

/-! ## Page contents (R146, Table 10-1). The places of the fields are the model's (log 12). -/

/-- The number of content bytes of a page. -/
def pageContentLength : Nat := 126

/-- Content bytes padded to a page's 126 (log 12). -/
def padContent (content : List Byte) : List Byte :=
  content ++ List.replicate (pageContentLength - content.length) 0xFF

/-- The 128 bytes of a page: 126 content bytes, then their CRC (R146). That the CRC's high byte comes first,
at byte 126, is the model's choice (log 12): the spec gives that order for the ring only. -/
def pageImage (content : List Byte) : List Byte :=
  padContent content ++ wordBytes (crc16 (padContent content))

/-- The one form of the lock record (R146; its bytes are log 12). -/
def lockContent : List Byte := [0x01]

/-- Page 1: the node settings record and the open, short and reason masks. -/
def settingsContent (n : NodeSettings) (opens shorts : ChannelSet) (mask : ReasonSet) : List Byte :=
  n.toBytes ++ channelSetBytes opens ++ channelSetBytes shorts ++ [reasonByte mask]

/-- Page 2: the 24 patch entries and the four group records. -/
def patchContent (t : PatchTable) : List Byte :=
  t.entries.flatMap PatchEntry.toBytes ++ t.groups.flatMap GroupRecord.toBytes

/-- Pages 3 to 6: the 33 points of a table. -/
def curveContent (points : List Word) : List Byte := points.flatMap wordBytes

/-- Pages 7 to 22: 28 targets and the fade code. -/
def sceneContent (r : SceneRecord) : List Byte := r.targets.flatMap wordBytes ++ [r.fade]

/-- A stored field outside its range is loaded as that field's default (R148). -/
def NodeSettings.ofPage (c : List Byte) : NodeSettings :=
  let b := fun k => c.getD k 0xFF
  { address := (finOf? 251 (b 0).toNat).getD defaultNode.address
    slotBase := (finOf? 1024 (be16 (b 1) (b 2)).toNat).getD defaultNode.slotBase
    lossTimeout := b 3
    lossAction := (LossAction.ofByte? (b 4)).getD defaultNode.lossAction
    lossScene := (finOf? 16 (b 5).toNat).getD defaultNode.lossScene
    lossFade := b 6
    ceiling := (finOf? 65 (b 7).toNat).getD defaultNode.ceiling
    periodCode := (finOf? 4 (b 8).toNat).getD defaultNode.periodCode
    stagger := (optionsOf (b 9)).1
    dither := (optionsOf (b 9)).2.1
    quiet := (optionsOf (b 9)).2.2
    confirmCode := (finOf? 4 (b 10).toNat).getD defaultNode.confirmCode }

/-- The masks of page 1 (R148). -/
def masksOfPage (c : List Byte) : ChannelSet × ChannelSet × ReasonSet :=
  let b := fun k => c.getD k 0x00
  (channelSetOf (b 11) (b 12) (b 13), channelSetOf (b 14) (b 15) (b 16), reasonOf (b 17))

/-- A stored entry or record with a code out of range is loaded as its default (R52). -/
def PatchTable.ofPage (c : List Byte) : PatchTable :=
  let b := fun k => c.getD k 0xFF
  { entries := (List.range 24).map fun i =>
      (PatchEntry.ofBytes? (b (4 * i)) (b (4 * i + 1)) (b (4 * i + 2)) (b (4 * i + 3))).getD
        (defaultPatchEntry i)
    groups := (List.range 4).map fun g =>
      (GroupRecord.ofBytes? (b (96 + 3 * g)) (b (97 + 3 * g)) (b (98 + 3 * g))).getD defaultGroup }

def tableOfPage (c : List Byte) : List Word := (wordsOf c).take 33

def SceneRecord.ofPage (c : List Byte) : SceneRecord :=
  { valid := true, targets := (wordsOf c).take 28, fade := c.getD 56 0 }

end Sys2Proof.Machine
end

