-- ==== Sys2Proof/Machine/Shaper.lean ====
section
/-! DEFINITION. The Output Shaper's arithmetic (06_curves_and_output_shaping.md). -/

namespace Sys2Proof.Machine

/-- The fixed LOG table (R92, Table 6-3). -/
def logTable : List Word :=
  [0, 49, 106, 175, 257, 354, 470, 607, 771, 966, 1197] ++
  [1472, 1799, 2188, 2651, 3201, 3855, 4633, 5558, 6659, 7967, 9523] ++
  [11373, 13574, 16191, 19303, 23004, 27405, 32639, 38863, 46265, 55067, 65535]

/-- Interpolation in a table of 33 points; the quotient is rounded toward zero (R91). -/
def interpolate (points : List Word) (x : Word) : Word :=
  let i := x.toNat / 2048
  let f := x.toNat % 2048
  let p := (points.getD i 0).toNat
  let q := (points.getD (i + 1) 0).toNat
  natWord ((p : Int) + (((q : Int) - p) * f).tdiv 2048).toNat

/-- The master stage (R89). -/
def masterStage (level master : Word) : Word := natWord (level.toNat * master.toNat / 65535)

/-- The curve stage (R90). -/
def curveStage (tables : List (List Word)) (c : Curve) (x : Word) : Word :=
  match c with
  | .linear => x
  | .log => interpolate logTable x
  | .table t => interpolate (tables.getD t.val defaultTable) x

/-- The trim stage (R94). -/
def trimStage (y : Word) (trim : Byte) : Word := natWord (y.toNat * trim.toNat / 255)

/-- The ceiling stage (R96), and the forced duty16 (R100): a value in 64ths. -/
def ceilingStage (z : Word) (ceiling : Nat) : Word := natWord (z.toNat * ceiling / 64)

/-- The master level of a channel (R49, R89). -/
def State.masterLevel (s : State) (e : PatchEntry) : Word :=
  match e.master with
  | none => 0xFFFF
  | some g =>
    match (s.group g.val).kind with
    | .none => 0xFFFF
    | .slot _ => (s.context (24 + g.val)).level

/-- The lower of the configured and the thermal ceiling (R96). -/
def State.effectiveCeiling (s : State) : Nat := min s.node.ceiling.val s.mon.ceiling

/-- The duty16 of an unforced channel: the four stages of Table 6-1 (R88). -/
def State.shapedDuty (s : State) (ch : Nat) : Word :=
  let e := s.entry ch
  let x := masterStage (s.context ch).level (s.masterLevel e)
  let y := curveStage s.os.tables e.curve x
  ceilingStage (trimStage y e.trim) s.effectiveCeiling

/-- A channel's duty16 from the inputs standing now (R88, R100). -/
def State.computedDuty (s : State) (ch : Nat) : Word :=
  match s.os.forces.getD ch .inactive with
  | .active level _ => ceilingStage level s.mon.ceiling
  | .inactive => s.shapedDuty ch

/-- The Shaper computes every channel from the inputs standing now (R97, R98). A channel none of whose
inputs changed gets the value it has (log 36). -/
def State.shapeAll (s : State) : State := s.setOs { s.os with duty := perChannel s.computedDuty }

/-- Every channel's duty16 is 0 (R136). -/
def State.dark (s : State) : Bool := s.os.duty.all (· = 0)

/-! ## Forces (R99) -/

/-- The countdown of a FORCE duration: 0 is until released, else seconds of 1000 ticks (R99, R101). -/
def forceTicks (seconds : Byte) : Option Nat :=
  if seconds = 0 then none else some (seconds.toNat * 1000)

def OutputShaper.force (o : OutputShaper) (set : ChannelSet) (level : Word) (seconds : Byte) :
    OutputShaper :=
  { o with forces := perChannel fun i =>
      if has set i then .active level (forceTicks seconds) else o.forces.getD i .inactive }

def OutputShaper.release (o : OutputShaper) (set : ChannelSet) : OutputShaper :=
  { o with forces := perChannel fun i =>
      if has set i then .inactive else o.forces.getD i .inactive }

/-- One tick of a countdown (R101); one that has run down waits at 0 for FORCE_EXPIRY (log 4). -/
def Force.tick : Force → Force
  | .inactive => .inactive
  | .active level none => .active level none
  | .active level (some n) => .active level (some (n - 1))

end Sys2Proof.Machine
end

