-- ==== Sys2Proof/Machine/Pwm.lean ====
section
/-! DEFINITION. The PWM Output Unit's counter, latches and blocking (07_pwm_output_unit.md). -/

namespace Sys2Proof.Machine

/-- b of a period code (Table 7-1). -/
def periodBits (code : Fin 4) : Nat := 13 - code.val

/-- Counts per period (Table 7-1). -/
def periodCounts (code : Fin 4) : Nat := 2 ^ periodBits code

/-- The on-count of a duty16 d at period code, dither setting and phase j (R105). -/
def onCountOf (d : Word) (code : Fin 4) (dither : Bool) (j : Nat) : Nat :=
  let b := periodBits code
  if d = 0xFFFF then periodCounts code
  else
    let base := d.toNat / 2 ^ (16 - b)
    let residue := d.toNat / 2 ^ (13 - b) % 8
    if dither && decide (j < residue) then base + 1 else base

/-- The start offset of a channel's on-phase (R108). -/
def startOffset (stagger : Bool) (code : Fin 4) (ch : Nat) : Nat :=
  if stagger then ch / 3 * (periodCounts code / 8) else 0

/-- The last position of an on-phase of n counts (R108, R109). -/
def lastPosition (counts offset n : Nat) : Nat := (offset + n + counts - 1) % counts

/-- A position lies in the on-phase that begins at `offset` and lasts n counts, wrapping (R108). -/
def inOnPhase (counts offset n pos : Nat) : Bool :=
  decide ((pos + counts - offset) % counts < n)

def State.channel (s : State) (i : Nat) : PwmChannel := s.pwu.channels.getD i blockedChannel

/-- OUT<ch> at a count position of the period in progress (R108): on in the on-phase of the latched
on-count, while the counter runs. -/
def State.sinkOn (s : State) (ch pos : Nat) : Bool :=
  s.pwu.running &&
    inOnPhase (periodCounts s.pwu.code) (startOffset s.pwu.stagger s.pwu.code ch)
      (s.channel ch).onCount pos

/-- A block cause holds on the channel (R110): SHORT while its short latch is set, MODE while the mode
is not RUN (log 35). -/
def State.blockCause (s : State) (ch : Nat) : Bool :=
  has s.fm.shortLatch ch || decide (s.mc.mode ≠ .run)

/-- What the causes standing now make of a channel (R110 to R112): BLOCKED and off at once under a
cause; RESUMING when the last cause has ended. -/
def PwmChannel.reblock (c : PwmChannel) (cause : Bool) : PwmChannel :=
  if cause then blockedChannel
  else
    match c.block with
    | .blocked => { block := .resuming, onCount := 0, endDue := false }
    | .driving => c
    | .resuming => c

def State.reblock (s : State) : State :=
  s.setPwu { s.pwu with
    channels := perChannel fun i => (s.channel i).reblock (s.blockCause i) }

/-- A channel's latch at a period start (R104, step 4). -/
def PwmChannel.latch (c : PwmChannel) (n : Nat) : PwmChannel :=
  match c.block with
  | .blocked => blockedChannel
  | .driving => { block := .driving, onCount := n, endDue := decide (0 < n) }
  | .resuming => { block := .driving, onCount := n, endDue := decide (0 < n) }

/-- A period start with the phase it sets (R104). -/
def State.beginPeriod (s : State) (phase : Fin 8) : State :=
  s.setPwu { s.pwu with
    count := 0
    code := s.node.periodCode
    phase := phase
    stagger := s.node.stagger
    dither := s.node.dither
    channels := perChannel fun i =>
      (s.channel i).latch
        (onCountOf (s.os.duty.getD i 0) s.node.periodCode s.node.dither phase.val) }

/-- A wrap of the running counter (R103, R107): a changed code begins the dither cycle again. -/
def State.wrapPeriod (s : State) : State :=
  s.beginPeriod (if s.node.periodCode = s.pwu.code then s.pwu.phase + 1 else 0)

/-- A counter start (R102, R107): the first period of a cycle, with the drivers up. -/
def State.counterStart (s : State) : State :=
  (s.setPwu { s.pwu with running := true, drivers := .up }).beginPeriod 0

end Sys2Proof.Machine
end

