-- ==== Sys2Proof/Machine/Modes.lean ====
section
/-! DEFINITION. The Mode Controller: changes of mode, QUIET, STANDBY, HOT, and MON's rotation timer
that depends on them (09_node_modes_temperature_and_supply.md). -/

namespace Sys2Proof.Machine

/-- The quiet timer's start value (R136). -/
def quietTicks : Nat := 2000

/-- The rotation interval of a mode, in ticks (R140). -/
def rotationInterval : Mode → Nat
  | .quiet => 1000
  | _ => 10

/-- The quiet timer runs while the mode is RUN, the quiet option is on and every duty16 is 0; it starts
afresh when the three come to hold together and stops when one ceases to (R136). -/
def State.quietReview (s : State) : State :=
  if s.mc.mode = .run ∧ s.node.quiet = true ∧ s.dark = true then
    match s.mc.quietTimer with
    | none => s.setMc { s.mc with quietTimer := some quietTicks }
    | some _ => s
  else s.setMc { s.mc with quietTimer := none }

/-- A rotation begins with the temperature conversion (R140). -/
def Monitor.beginRotation (m : Monitor) : Monitor :=
  { m with converting := some .temperature, dueAgain := false,
           sinceStart := m.sinceStart.map fun _ => 0 }

/-- A rotation falls due: it begins, or waits for the end of the one converting (R140). -/
def Monitor.rotationFallsDue (m : Monitor) : Monitor :=
  match m.converting with
  | none => m.beginRotation
  | some _ => { m with dueAgain := true }

/-- The time of the next rotation has passed, at an interval (R140). -/
def Monitor.rotationDue (m : Monitor) (interval : Nat) : Bool :=
  match m.sinceStart with
  | none => false
  | some n => decide (interval ≤ n)

/-- Leaving QUIET for an operating mode: the wake begins (R113, R114), and a rotation whose time by
the 10 ms interval has passed starts at once (R140). -/
def State.leaveQuiet (s : State) : State :=
  let s := s.setPwu { s.pwu with drivers := .powering }
  if s.mon.rotationDue (rotationInterval s.mc.mode) then s.setMon s.mon.rotationFallsDue else s

/-- MC enters a mode outside RESET and START and hands it to the blocks that act on it (R131). -/
def State.enterMode (s : State) (m : Mode) : State :=
  let wasQuiet := decide (s.mc.mode = .quiet)
  let s := s.setMc { s.mc with mode := m }
  let s := if wasQuiet && decide (m ≠ .quiet) then s.leaveQuiet else s
  s.reblock.quietReview

/-- The quiet timer has run out: QUIET, with the counter stopped and the drivers down (R113, R137). -/
def State.enterQuiet (s : State) : State :=
  (s.setPwu { s.pwu with running := false, count := 0, drivers := .down }).enterMode .quiet

/-- The Shaper hands its duties on: a non-zero one ends QUIET (R137), and the quiet timer is looked at
(R136). -/
def State.dutiesHandedOn (s : State) : State :=
  if s.mc.mode = .quiet ∧ s.dark = false then s.enterMode .run else s.quietReview

/-- Recomputes the duties after an event and hands them on (R97); not in RESET and START (R98). -/
def State.reshape (s : State) : State :=
  if s.mc.mode.operating then s.shapeAll.dutiesHandedOn else s

/-! ## STANDBY, WAKE and HOT -/

def ReturnMode.toMode : ReturnMode → Mode
  | .run => .run
  | .standby => .standby

/-- The commit of a STANDBY record (R138). -/
def State.commitStandby (s : State) : State :=
  match s.mc.mode with
  | .run => s.enterMode .standby
  | .quiet => s.enterMode .standby
  | .hot => s.setMc { s.mc with returnMode := .standby }
  | .standby => s
  | .reset => s
  | .start => s

/-- The commit of a WAKE record (R138). -/
def State.commitWake (s : State) : State :=
  match s.mc.mode with
  | .standby => s.enterMode .run
  | .hot => s.setMc { s.mc with returnMode := .run }
  | .run => s
  | .quiet => s
  | .reset => s
  | .start => s

/-- MON requests HOT at the entry to T_HOT (R139). In START the thermal state itself keeps the request
until START completes (log 34). -/
def State.requestHot (s : State) : State :=
  match s.mc.mode with
  | .run => (s.setMc { s.mc with returnMode := .run }).enterMode .hot
  | .quiet => (s.setMc { s.mc with returnMode := .run }).enterMode .hot
  | .standby => (s.setMc { s.mc with returnMode := .standby }).enterMode .hot
  | .hot => s
  | .reset => s
  | .start => s

/-- The thermal state leaves T_HOT: MC ends HOT and enters the return mode (R139). -/
def State.endHot (s : State) : State :=
  if s.mc.mode = .hot then s.enterMode s.mc.returnMode.toMode else s

end Sys2Proof.Machine
end

