-- ==== Sys2Proof/Machine/Fade.lean ====
section
/-! DEFINITION. The Fade Engine's step and the 1 ms tick (05_fade_engine.md). -/

namespace Sys2Proof.Machine

/-- The distance of a context from its target (R79). -/
def FadeContext.distance (c : FadeContext) : Nat :=
  max c.level.toNat c.target.toNat - min c.level.toNat c.target.toNat

/-- The step size: the distance divided by the remaining count, rounded up (R79). -/
def FadeContext.stepSize (c : FadeContext) : Nat :=
  (c.distance + c.remaining - 1) / c.remaining

/-- One step of a context (R78, R79): a context at rest is passed over. -/
def FadeContext.step (c : FadeContext) : FadeContext :=
  if c.remaining = 0 then c
  else
    { c with
      level :=
        if c.level.toNat < c.target.toNat then natWord (c.level.toNat + c.stepSize)
        else if c.target.toNat < c.level.toNat then natWord (c.level.toNat - c.stepSize)
        else c.level
      remaining := c.remaining - 1 }

/-- One tick of the loss timer (R59); one that has run down waits at 0 for its expiry (log 4). -/
def LossTimer.tick : LossTimer → LossTimer
  | .off => .off
  | .expired => .expired
  | .running n => .running (n - 1)

/-- One tick of a count that stops at 0. -/
def countDown : Option Nat → Option Nat := Option.map (· - 1)

/-- The longest rotation interval: the rotation timer counts no further. -/
def rotationLimit : Nat := 1000

/-- What the timebase moves at a tick, before the Shaper is called on (R59, R78, R101, R129, R136,
R140). -/
def State.timebaseTick (s : State) : State :=
  { s with
    fe := { s.fe with contexts := s.fe.contexts.map FadeContext.step }
    os := { s.os with forces := s.os.forces.map Force.tick }
    ss := { s.ss with lossTimer := s.ss.lossTimer.tick }
    al := { s.al with holdOff := countDown s.al.holdOff }
    mc := { s.mc with quietTimer := countDown s.mc.quietTimer }
    mon := { s.mon with sinceStart := s.mon.sinceStart.map fun n => min (n + 1) rotationLimit } }

/-- TICK (R78): while the timebase runs, every fading context takes one step, every timer on the
timebase counts, and the Shaper computes from the new levels (R85). -/
def execTick (s : State) : Host.Outcome State Fault Refusal :=
  .next (if s.fe.timebase then s.timebaseTick.reshape else s)

/-- FORCE_EXPIRY (R101): a countdown that has run down makes the record inactive, and the channel is
computed by R88. -/
def execForceExpiry (ch : Fin 24) (s : State) : Host.Outcome State Fault Refusal :=
  .next <|
    match s.os.forces.getD ch.val .inactive with
    | .active _ (some 0) =>
      (s.setOs { s.os with forces := s.os.forces.set ch.val .inactive }).reshape
    | _ => s

/-- HOLD_OFF_EXPIRY (R129): after its 100 ticks the timer enters STOPPED. -/
def execHoldOffExpiry (s : State) : Host.Outcome State Fault Refusal :=
  .next (if s.al.holdOff = some 0 then s.setAl { s.al with holdOff := none } else s)

/-- QUIET_TIMER_EXPIRY (R137): after its 2000 ticks the node enters QUIET. -/
def execQuietTimerExpiry (s : State) : Host.Outcome State Fault Refusal :=
  .next (if s.mc.quietTimer = some 0 then s.enterQuiet else s)

end Sys2Proof.Machine
end

