-- ==== Sys2Proof/Machine/Sources.lean ====
section
/-! DEFINITION. The Source Selector (04_level_sources_and_stream_loss.md). -/

namespace Sys2Proof.Machine

/-- The loss timer started with a code: c × 100 ticks, or OFF for code 0 (R59, R71). -/
def LossTimer.started (code : Byte) : LossTimer :=
  if code = 0 then .off else .running (code.toNat * 100)

/-- The restart by a GOOD level frame with items (R60): OFF stays OFF. -/
def LossTimer.restarted (t : LossTimer) (code : Byte) : LossTimer :=
  match t with
  | .off => .off
  | .expired => .running (code.toNat * 100)
  | .running _ => .running (code.toNat * 100)

/-- Each item retargets its place's context with its resolved code (R61). -/
def State.retargetItems (s : State) (items : List Item) : State :=
  items.foldl (fun s i => s.retarget i.place i.value i.code) s

/-- The source becomes STREAM: every PARK entry retargets with the frame fade code, then the items
(R58, R62, R63). -/
def State.toStream (s : State) (items : List Item) (code : Byte) : State :=
  ((s.setSs { s.ss with source := .stream }).retargetPark code).retargetItems items

/-- A captured set with its frame fade code and SEIZE flag is taken (R60 to R63). -/
def State.takeCapturedSet (s : State) (items : List Item) (code : Byte) (seize : Bool) : State :=
  match items with
  | [] => s
  | _ :: _ =>
    let s := s.setSs { s.ss with
      lossTimer := s.ss.lossTimer.restarted s.node.lossTimeout, live := true }
    match s.ss.source with
    | .stream => s.retargetItems items
    | .cue _ => if seize then s.toStream items code else s
    | .lossHold => s.toStream items code
    | .lossCue _ => s.toStream items code
    | .lossBlack => s.toStream items code

/-- Shadow record n (R149). -/
def State.scene (s : State) (n : Fin 16) : SceneRecord := s.stc.shadow.getD n.val invalidScene

/-- The commit of RECALL_SCENE n (R64); with the record no longer valid it has no effect (R65). -/
def State.recall (s : State) (n : Fin 16) (fade : Option Byte) : State :=
  let r := s.scene n
  if r.valid then
    (s.setSs { s.ss with source := .cue n }).retargetAll r.targets (fade.getD r.fade)
  else s

/-- What an expiry does to the source and the contexts (R67, R68, Table 4-2). A LOSS state does not
see an expiry. -/
def State.lossAction (s : State) : State :=
  match s.ss.source with
  | .stream =>
    match s.node.lossAction with
    | .hold => s.setSs { s.ss with source := .lossHold }
    | .black =>
      (List.range 24).foldl (fun s i => s.retarget i 0 s.node.lossFade)
        (s.setSs { s.ss with source := .lossBlack })
    | .scene =>
      if (s.scene s.node.lossScene).valid then
        (s.setSs { s.ss with source := .lossCue s.node.lossScene }).retargetAll
          (s.scene s.node.lossScene).targets s.node.lossFade
      else s.setSs { s.ss with source := .lossHold }
  | .cue _ => s
  | .lossHold => s
  | .lossCue _ => s
  | .lossBlack => s

/-- Expiry (R67): EXPIRED, the stream flag ABSENT, LOSS raised, the loss action taken. -/
def State.lossExpires (s : State) : State :=
  (((s.setSs { s.ss with lossTimer := .expired, live := false }).raise .loss).lossAction).reshape

/-- LOSS_TIMER_EXPIRY (R67): the timer has run down its time. -/
def execLossTimerExpiry (s : State) : Host.Outcome State Fault Refusal :=
  .next (if s.ss.lossTimer = .running 0 then s.lossExpires else s)

/-- The source is one of the three LOSS states. -/
def Source.isLoss : Source → Bool
  | .stream => false
  | .cue _ => false
  | .lossHold => true
  | .lossCue _ => true
  | .lossBlack => true

/-- A WRITE_NODE commit of the loss timeout code acts on the timer only when the code differs from the
live one (R70). -/
def LossTimer.recoded (t : LossTimer) (src : Source) (old new : Byte) : LossTimer :=
  if new = old then t
  else if new = 0 then .off
  else
    match t with
    | .running _ => .running (new.toNat * 100)
    | .off => if src.isLoss then .expired else .running (new.toNat * 100)
    | .expired => .expired

end Sys2Proof.Machine
end

