-- ==== Sys2Proof/Machine/Store.lean ====
section
/-! DEFINITION. The Store Controller: pages, the write queue, page writes, erase, failures, the load
(10_store_and_scenes.md). -/

namespace Sys2Proof.Machine

/-! ## Pages -/

/-- A page whose content is indeterminate (R146): free bytes (log 13). -/
def freePage (n p : Nat) : Page := .bytes ((List.range 128).map (Config.freeByte n p))

/-- The class of page p (R147): blank, valid, or corrupt; page 0 must also be the locked record. The stored
CRC is read high byte first, the model's choice (log 12). -/
def Page.classify (pg : Page) (p : Nat) : PageClass :=
  match pg with
  | .cutOff => .corrupt
  | .bytes b =>
    if b.all (· = 0xFF) then .blank
    else if crc16 (b.take 126) = be16 (b.getD 126 0) (b.getD 127 0) ∧
        (p ≠ 0 ∨ b.take 126 = padContent lockContent) then .valid
    else .corrupt

/-- The 126 content bytes of a page. -/
def Page.content : Page → List Byte
  | .cutOff => []
  | .bytes b => b.take 126

def State.page (s : State) (p : Nat) : Page := s.stc.pages.getD p blankPage

/-- Page p becomes indeterminate. -/
def State.spoilPage (s : State) (p : Nat) : State :=
  { s with stc := { s.stc with pages := s.stc.pages.set p (freePage s.freeCount p) },
           freeCount := s.freeCount + 1 }

/-- Every page becomes indeterminate. -/
def State.spoilAll (s : State) : State :=
  { s with stc := { s.stc with pages := (List.range 23).map (freePage s.freeCount) },
           freeCount := s.freeCount + 1 }

/-- What becomes indeterminate when a piece of work fails (R146, R153, R155). -/
def State.spoil (s : State) (w : StoreWork) : State :=
  match w with
  | .page p => s.spoilPage p.val
  | .erase => s.spoilAll

/-! ## Starting work -/

/-- The content bytes of page p as its source holds them now (Table 10-2). -/
def State.pageSource (s : State) (p : Nat) : List Byte :=
  if p = 0 then lockContent
  else if p ≤ 6 then (s.stc.snapshot.getD []).getD (p - 1) []
  else sceneContent (s.stc.shadow.getD (p - 7) invalidScene)

/-- The snapshot of pages 1 to 6, from the live configuration (R151). -/
def State.liveSnapshot (s : State) : List (List Byte) :=
  settingsContent s.node s.fm.openMask s.fm.shortMask s.al.mask :: patchContent s.pt ::
    (List.range 4).map fun t => curveContent (s.os.tables.getD t defaultTable)

/-- The first work of an entry (Table 10-2). -/
def StoreKind.firstWork : StoreKind → StoreWork
  | .config => .page 1
  | .scene n => .page ⟨7 + n.val, by omega⟩
  | .lock => .page 0
  | .erase => .erase

/-- The head entry's started mark is set (R150). -/
def Store.markHeadStarted (t : Store) : Store :=
  match t.queue with
  | [] => t
  | e :: rest => { t with queue := { e with started := true } :: rest }

/-- The head is due to start a piece of work: it starts (R150, R152, R155), or waits under PRE_UV
(R154). -/
def State.startWork (s : State) (w : StoreWork) : State :=
  match s.mon.supplyState with
  | .preUv => s.setStc { s.stc with activity := .waiting w }
  | .normal =>
    let t := s.stc.markHeadStarted
    match w with
    | .page p =>
      s.setStc { t with activity := .running w, pageBuffer := some (pageImage (s.pageSource p.val)) }
    | .erase => s.setStc { t with activity := .running w }

/-- The head of the queue starts when nothing is running or waiting (R150). -/
def State.startHead (s : State) : State :=
  match s.stc.activity, s.stc.queue with
  | .idle, e :: _ => s.startWork e.kind.firstWork
  | _, _ => s

/-! ## The end of an entry's run -/

/-- When a queued entry into which records of the frame in passage coalesced leaves, and no other of
its kind is queued, its place becomes one reservation of that frame (R151). -/
def Executor.entryLeft (m : Executor) (k : StoreKind) (queue : List QueueEntry) : Executor :=
  if m.coalesced.contains k && !(queue.any (·.kind = k)) then
    { m with reservations := m.reservations ++ [k], coalesced := m.coalesced.erase k }
  else m

/-- The head entry's run ends, by success or failure: it runs again when its repeat mark is set, else
it leaves and the next entry starts (R150, R151, R153). -/
def State.endEntry (s : State) : State :=
  match s.stc.queue with
  | [] => s.setStc { s.stc with activity := .idle }
  | e :: rest =>
    if e.again then
      let snapshot := if e.kind = .config then some s.liveSnapshot else s.stc.snapshot
      let t := { s.stc with
        activity := .idle, snapshot := snapshot,
        queue := { e with started := false, again := false } :: rest }
      (s.setStc t).startHead
    else
      let s := s.setStc { s.stc with activity := .idle, queue := rest }
      (s.setMe (s.me.entryLeft e.kind rest)).startHead

/-- A page write has ended well: the next page of a CONFIG entry starts, else the entry ends (R150). -/
def State.pageEnded (s : State) (p : Fin 23) : State :=
  if h : 1 ≤ p.val ∧ p.val < 6 then s.startWork (.page ⟨p.val + 1, by omega⟩) else s.endEntry

/-- The kind of the head entry. -/
def Store.headKind (t : Store) : StoreKind :=
  match t.queue with
  | [] => .erase
  | e :: _ => e.kind

/-- A page write or an erase fails (R153). -/
def State.storeFails (s : State) (w : StoreWork) (cause : FailureCause) : State :=
  let page := match w with
    | .page p => some p
    | .erase => none
  let s := s.setStc { s.stc with lastFailure := some ⟨s.stc.headKind, page, cause⟩ }
  ((s.raise .store).spoil w).endEntry

/-- The read-back of a page write agrees with the page buffer (R152, stage 3). -/
def State.verifies (s : State) (rb : ReadBack) : Bool :=
  match rb with
  | .asProgrammed => true
  | .holds b => decide (s.stc.pageBuffer = some b)

/-- PAGE_WRITE_COMPLETION (R152): the timer stops, the page is read back and compared; a completion
after the timer has run out is disregarded. -/
def execPageWriteCompletion (late : Bool) (readBack : ReadBack) (s : State) :
    Host.Outcome State Fault Refusal :=
  .next <|
    match late, s.stc.activity with
    | false, .running (.page p) =>
      if s.verifies readBack then
        (s.setStc { s.stc with
          pages := s.stc.pages.set p.val (.bytes (s.stc.pageBuffer.getD [])) }).pageEnded p
      else s.storeFails (.page p) .verify
    | _, _ => s

/-- PAGE_WRITE_TIMEOUT (R152): 20 ms with no completion taken. -/
def execPageWriteTimeout (s : State) : Host.Outcome State Fault Refusal :=
  .next <|
    match s.stc.activity with
    | .running (.page p) => s.storeFails (.page p) .timeout
    | _ => s

/-- ERASE_COMPLETION (R155): every page blank, the lock clear, the shadow invalid, the load-fault set
empty, and the entry leaves. -/
def execEraseCompletion (late : Bool) (s : State) : Host.Outcome State Fault Refusal :=
  .next <|
    match late, s.stc.activity with
    | false, .running .erase =>
      (s.setStc { s.stc with
        pages := List.replicate 23 blankPage
        lock := false
        shadow := List.replicate 16 invalidScene
        loadFaults := 0 }).endEntry
    | _, _ => s

/-- ERASE_TIMEOUT (R155): 60 ms with no completion taken. -/
def execEraseTimeout (s : State) : Host.Outcome State Fault Refusal :=
  .next <|
    match s.stc.activity with
    | .running .erase => s.storeFails .erase .timeout
    | _ => s

/-- PRE_UV ends: a waiting start is made at once (R154). -/
def State.preUvEnded (s : State) : State :=
  match s.stc.activity with
  | .waiting w => s.startWork w
  | .idle => s
  | .running _ => s

/-! ## Admission (R151, Table 10-4) -/

/-- An entry of a kind is queued, reserved, or the frame's: Table 10-4's counts. -/
def State.queuedKind (s : State) (k : StoreKind) : Bool := s.stc.queue.any (·.kind = k)

def State.reservedKind (s : State) (k : StoreKind) : Bool := s.me.reservations.contains k

/-- The first line: an ERASE is queued or reserved. -/
def State.eraseBusy (s : State) : Bool := s.queuedKind .erase || s.reservedKind .erase

/-- Depth plus reservations equals 4. -/
def State.queueFull (s : State) : Bool :=
  decide (4 ≤ s.stc.queue.length + s.me.reservations.length)

def State.acceptIfRoom (s : State) : Admission := if s.queueFull then .busy else .accept

/-- A queued CONFIG entry that has started. -/
def State.configStarted (s : State) : Bool :=
  s.stc.queue.any fun e => decide (e.kind = .config) && e.started

/-- A queued SCENE n entry that is not started or carries a repeat mark. -/
def State.sceneOpen (s : State) (n : Fin 16) : Bool :=
  s.stc.queue.any fun e => decide (e.kind = .scene n) && (!e.started || e.again)

def State.admitConfig (s : State) : Admission :=
  if s.eraseBusy || s.configStarted then .busy
  else if s.queuedKind .config || s.reservedKind .config then .coalesce
  else s.acceptIfRoom

def State.admitScene (s : State) (n : Fin 16) : Admission :=
  if s.eraseBusy then .busy
  else if s.sceneOpen n || s.reservedKind (.scene n) then .coalesce
  else s.acceptIfRoom

def State.admitLock (s : State) : Admission :=
  if s.eraseBusy then .busy
  else if s.stc.lock then .alreadyLocked
  else if s.reservedKind .lock then .coalesce
  else s.acceptIfRoom

def State.admitErase (s : State) : Admission :=
  if s.eraseBusy then .busy
  else if s.stc.queue.isEmpty && s.me.reservations.isEmpty then .accept
  else .busy

/-! ## Commits of the store requests (R151) -/

/-- A not-started entry joins the tail. -/
def State.joinQueue (s : State) (k : StoreKind) : State :=
  s.setStc { s.stc with queue := s.stc.queue ++ [⟨k, false, false⟩] }

/-- Sets the repeat mark on the entries of a kind. -/
def State.markAgain (s : State) (k : StoreKind) : State :=
  s.setStc { s.stc with
    queue := s.stc.queue.map fun e => if e.kind = k then { e with again := true } else e }

def State.takeSnapshot (s : State) : State :=
  s.setStc { s.stc with snapshot := some s.liveSnapshot }

/-- SAVE_CONFIG at its commit (R151). -/
def State.commitSaveConfig (s : State) (how : Admission) : State :=
  match how with
  | .accept => s.takeSnapshot.joinQueue .config
  | .coalesce =>
    if !s.queuedKind .config then s.takeSnapshot.joinQueue .config
    else if s.configStarted then s.markAgain .config
    else s.takeSnapshot
  | .busy => s
  | .alreadyLocked => s

/-- Record n receives the 28 targets and the fade code, and is valid (R149). -/
def State.captureShadow (s : State) (n : Fin 16) (fade : Byte) : State :=
  let r : SceneRecord :=
    { valid := true, targets := (List.range 28).map fun i => (s.context i).target, fade := fade }
  s.setStc { s.stc with shadow := s.stc.shadow.set n.val r }

/-- CAPTURE_SCENE n at its commit (R149, R151). -/
def State.commitCapture (s : State) (n : Fin 16) (fade : Byte) (how : Admission) : State :=
  let s := s.captureShadow n fade
  match how with
  | .accept => s.joinQueue (.scene n)
  | .coalesce =>
    if !s.queuedKind (.scene n) then s.joinQueue (.scene n)
    else if s.sceneOpen n then s
    else s.markAgain (.scene n)
  | .busy => s
  | .alreadyLocked => s

/-- SET_LOCK at its commit (R151, R156). -/
def State.commitSetLock (s : State) (how : Admission) : State :=
  match how with
  | .accept => (s.setStc { s.stc with lock := true }).joinQueue .lock
  | .coalesce => s
  | .alreadyLocked => s
  | .busy => s

/-! ## The load at START (R147, R148) -/

/-- The corrupt pages (R147). -/
def corruptSet (pages : List Page) : BitVec 23 :=
  (List.range 23).foldl
    (fun acc p =>
      if (pages.getD p blankPage).classify p = .corrupt then acc ||| BitVec.ofNat 23 (2 ^ p)
      else acc)
    0

/-- Page 0 (R148): blank clears the lock, valid or corrupt sets it. -/
def lockFromPage (pg : Page) : Bool :=
  match pg.classify 0 with
  | .blank => false
  | .valid => true
  | .corrupt => true

/-- Page 1 (R148): settings and masks. -/
def settingsFromPage (pg : Page) : NodeSettings × ChannelSet × ChannelSet × ReasonSet :=
  match pg.classify 1 with
  | .valid => (NodeSettings.ofPage pg.content, masksOfPage pg.content)
  | .blank => (defaultNode, 0, 0, 0)
  | .corrupt => (defaultNode, 0, 0, 0)

/-- Page 2 (R52). -/
def patchFromPage (pg : Page) : PatchTable :=
  match pg.classify 2 with
  | .valid => PatchTable.ofPage pg.content
  | .blank => defaultPatchTable
  | .corrupt => defaultPatchTable

/-- Pages 3 to 6 (R93). -/
def tableFromPage (pg : Page) (p : Nat) : List Word :=
  match pg.classify p with
  | .valid => tableOfPage pg.content
  | .blank => defaultTable
  | .corrupt => defaultTable

/-- Pages 7 to 22 (R148). -/
def sceneFromPage (pg : Page) (p : Nat) : SceneRecord :=
  match pg.classify p with
  | .valid => SceneRecord.ofPage pg.content
  | .blank => invalidScene
  | .corrupt => invalidScene

/-- Step 2 of START (R134): every page is classified and loaded; the PARK contexts are placed at the
end of the Patch Table's load (R57). -/
def State.loadStore (s : State) : State :=
  let (node, opens, shorts, mask) := settingsFromPage (s.page 1)
  let loaded :=
    { s with
      node := node
      fm := { s.fm with openMask := opens, shortMask := shorts }
      al := { s.al with mask := mask }
      pt := patchFromPage (s.page 2)
      os := { s.os with tables := (List.range 4).map fun t => tableFromPage (s.page (3 + t)) (3 + t) }
      stc := { s.stc with
        lock := lockFromPage (s.page 0)
        shadow := (List.range 16).map fun n => sceneFromPage (s.page (7 + n)) (7 + n)
        loadFaults := corruptSet s.stc.pages } }
  loaded.retargetPark 0

/-- What a node reset leaves in the store (R157): a write cut off leaves its page corrupt, an erase cut
off every page indeterminate. -/
def State.cutOffStore (s : State) : State :=
  let s :=
    match s.stc.activity with
    | .running (.page p) => s.setStc { s.stc with pages := s.stc.pages.set p.val .cutOff }
    | .running .erase => s.spoilAll
    | .idle => s
    | .waiting _ => s
  s.setStc { s.stc with
    queue := [], snapshot := none, pageBuffer := none, activity := .idle, lastFailure := none }

end Sys2Proof.Machine
end

