-- ==== Sys2Proof/Machine/Start.lean ====
section
/-! DEFINITION. Node reset, START, START completion, link reset, and the pin and supply events
(01, 09). -/

namespace Sys2Proof.Machine

/-! ## Node reset (R133) -/

/-- The LPU at the start of a node reset (R7): bypass closed, buffer discarded, the character being
sent cut off, no frame, counters 0. -/
def Lpu.nodeReset (l : Lpu) : Lpu :=
  { l with bypass := true, rx := .hunting, tx := none, buffer := [], tracker := .idle,
           stallTimer := false, counters := zeroCounters }

/-- The PWU at the start of a node reset (R115): stopped at 0, phase 0, a wake abandoned, every
channel off. -/
def Pwu.nodeReset (p : Pwu) : Pwu :=
  { p with running := false, count := 0, phase := 0, drivers := .up,
           channels := List.replicate 24 blockedChannel }

/-- The Fault Monitor (R116): counts 0, latches clear. -/
def FaultMonitor.nodeReset (f : FaultMonitor) : FaultMonitor :=
  { f with openCount := List.replicate 24 0, shortCount := List.replicate 24 0, openLatch := 0,
           shortLatch := 0 }

/-- The Monitor (R133, R140, R142 to R144): the rotation abandoned, its timer stopped, T_NORMAL,
ceiling 64, supply NORMAL. -/
def Monitor.nodeReset (m : Monitor) : Monitor :=
  { m with thermal := .normal, ceiling := 64, supplyState := .normal, converting := none,
           sinceStart := none, dueAgain := false }

/-- A node reset begins: every block takes its node-reset values (R133). The live lock, the node
settings, masks, Patch Table, tables and shadow stand until the load (R148, R156); the discriminator
and the pins are the outside's. -/
def State.nodeReset (s : State) : State :=
  let s := s.cutOffStore
  { s with
    lpu := s.lpu.nodeReset
    si := clearIntake
    ss := { source := .stream, lossTimer := .off, live := false }
    fe := { contexts := List.replicate 28 restContext, timebase := false }
    os := { s.os with forces := List.replicate 24 .inactive, duty := List.replicate 24 0 }
    pwu := s.pwu.nodeReset
    fm := s.fm.nodeReset
    al := { s.al with reasons := Reason.start.set, holdOff := none, claim := false }
    mon := s.mon.nodeReset
    mc := { s.mc with mode := .reset, returnMode := .run, quietTimer := none,
                      restartPending := false }
    me := emptyExecutor }

/-- START begins (R134): the link rate is sampled (R3), the store is loaded, and one rotation begins. -/
def State.enterStart (s : State) : State :=
  let s := s.setMc { s.mc with mode := .start }
  let s := (s.setLpu { s.lpu with rate := s.pins.rate }).loadStore
  s.setMon s.mon.beginRotation

/-- The node leaves RESET once VDD is at or above 4.00 V and RSTn is high (R133). -/
def State.leaveReset (s : State) : State :=
  if s.mc.mode = .reset ∧ s.pins.vddOk = true ∧ s.pins.rstnLow = false then s.enterStart else s

/-- A node reset begins, and ends at once where nothing holds it (R133). -/
def State.resetNode (s : State) : State := s.nodeReset.leaveReset

/-! ## START completion (R135) -/

/-- The third result of the START rotation has been taken: MC enters RUN, or HOT where the thermal
state is T_HOT; START is raised, and STORE where the load-fault set is not empty; the timebase, the
rotation timer, the loss timer, the PWM counter and the quiet timer begin, and the Shaper computes all
duties. The bypass opens at BYPASS_OPEN. -/
def State.completeStart (s : State) : State :=
  let s := s.setFe { s.fe with timebase := true }
  let s := s.setMon { s.mon with sinceStart := some 0 }
  let s := s.setSs { s.ss with lossTimer := LossTimer.started s.node.lossTimeout }
  let s := s.raise .start
  let s := if s.stc.loadFaults = 0 then s else s.raise .store
  let s := s.setMc { s.mc with returnMode := .run }
  (s.shapeAll.enterMode (if s.mon.thermal = .hot then .hot else .run)).counterStart

/-! ## Link reset (R21) -/

/-- The release of a link reset (R21): the waiting characters and the frame context discarded, the
capture places, the commit list, the reservations and the claim cleared, the counters 0. A character
being sent is completed. A pending restart begins its node reset (R145). -/
def State.linkReset (s : State) : State :=
  let s :=
    { s with
      lpu := { s.lpu with
        buffer := [], tracker := .idle, stallTimer := false, counters := zeroCounters }
      si := clearIntake
      me := emptyExecutor
      al := { s.al with claim := false } }
  if s.mc.restartPending then s.resetNode else s

/-! ## The pins and VDD -/

/-- BYPASS_OPEN (R8): after START has ended the switch opens and the tracker begins in IDLE. -/
def execBypassOpen (s : State) : Host.Outcome State Fault Refusal :=
  .next <|
    if s.lpu.bypass = true ∧ s.mc.mode.operating = true then
      s.setLpu { s.lpu with bypass := false, rx := .hunting, tx := none, tracker := .idle }
    else s

/-- RSTN_FALL (R132): the pin goes low; the discriminator times the low period while VDD is at or above
4.00 V. -/
def execRstnFall (s : State) : Host.Outcome State Fault Refusal :=
  .next <|
    if s.pins.rstnLow then s
    else
      { s with
        pins := { s.pins with rstnLow := true }
        mc := { s.mc with timingLow := s.pins.vddOk, longReached := false } }

/-- RSTn reaches 20 ms low (R132): a node reset begins with the pin still low; a node already in RESET
is held anyway. -/
def State.longPulse (s : State) : State :=
  if s.pins.rstnLow = true ∧ s.mc.timingLow = true ∧ s.mc.longReached = false then
    let s := s.setMc { s.mc with longReached := true }
    if s.mc.mode = .reset then s else s.resetNode
  else s

/-- RSTN_LONG_PULSE (R132). -/
def execRstnLongPulse (s : State) : Host.Outcome State Fault Refusal := .next s.longPulse

/-- The release of RSTn after a low time (R132): a node held in RESET leaves it; in an operating mode a
timed low period of 1 ms to under 20 ms is a link reset. -/
def State.releaseRstn (s : State) (lowMicros : Nat) : State :=
  let linkLong := s.mc.timingLow && !s.mc.longReached && decide (1000 ≤ lowMicros)
  let s :=
    { s with
      pins := { s.pins with rstnLow := false }
      mc := { s.mc with timingLow := false, longReached := false } }
  if s.mc.mode.operating then (if linkLong then s.linkReset else s) else s.leaveReset

/-- RSTN_RISE (R132). A low time of 20 ms or more has passed the 20 ms point before the release. -/
def execRstnRise (lowMicros : Nat) (rate : BitVec 2) (s : State) :
    Host.Outcome State Fault Refusal :=
  .next <|
    if s.pins.rstnLow then
      let s := s.setPins { s.pins with rate := rate }
      (if 20000 ≤ lowMicros then s.longPulse else s).releaseRstn lowMicros
    else s

/-- POWER_ON (R133): VDD rises from absence; the node is in reset until VDD reaches 4.00 V. -/
def execPowerOn (s : State) : Host.Outcome State Fault Refusal :=
  .next <|
    ({ s with
        pins := { s.pins with vddOk := false }
        mc := { s.mc with timingLow := false, longReached := false } } : State).resetNode

/-- BROWN_OUT (R133): VDD falls below 4.00 V and a node reset begins at once. -/
def execBrownOut (s : State) : Host.Outcome State Fault Refusal :=
  .next <|
    if s.pins.vddOk then
      ({ s with
          pins := { s.pins with vddOk := false }
          mc := { s.mc with timingLow := false, longReached := false } } : State).resetNode
    else s

/-- VDD_REACHES_THRESHOLD (R132, R133): with RSTn low the discriminator begins its period; with RSTn
high the node leaves RESET for START. -/
def execVddReachesThreshold (rate : BitVec 2) (s : State) : Host.Outcome State Fault Refusal :=
  .next <|
    if s.pins.vddOk then s
    else
      let s : State :=
        { s with
          pins := { s.pins with vddOk := true, rate := rate }
          mc := { s.mc with timingLow := s.pins.rstnLow, longReached := false } }
      s.leaveReset

end Sys2Proof.Machine
end

