-- ==== Sys2Proof/Machine/Monitoring.lean ====
section
/-! DEFINITION. MON's rotations and results, and the Fault Monitor's evaluation (08, 09). -/

namespace Sys2Proof.Machine

/-! ## Temperature (R141 to R143) -/

/-- A 12-bit temperature result in whole °C (R141), limited to -40 to 200. -/
def temperatureOf (raw : BitVec 12) : Int :=
  max (-40) (min 200 (((raw.toNat / 16 : Nat) : Int) - 50))

/-- The thermal ceiling after one step at a result t (R142). -/
def stepCeiling (ceiling : Nat) (t : Int) : Nat :=
  if 135 ≤ t then (if ceiling ≤ 16 then ceiling else ceiling - 1)
  else if t < 130 then (if 64 ≤ ceiling then ceiling else ceiling + 1)
  else ceiling

/-- The thermal state after a result t, with the ceiling already stepped (R143). -/
def Thermal.after (st : Thermal) (ceiling : Nat) (t : Int) : Thermal :=
  match st with
  | .hot => if t ≤ 145 then .derate else .hot
  | .normal =>
    if 160 ≤ t then .hot else if 135 ≤ t then .derate else if 125 ≤ t then .warm else .normal
  | .warm =>
    if 160 ≤ t then .hot else if 135 ≤ t then .derate else if t < 120 then .normal else .warm
  | .derate =>
    if 160 ≤ t then .hot
    else if ceiling = 64 ∧ t < 130 then (if 120 ≤ t then .warm else .normal)
    else .derate

/-- THERMAL is raised at each entry to T_WARM, T_DERATE or T_HOT and at each exit from T_HOT (R143). -/
def Thermal.raises (old new : Thermal) : Bool := decide (old ≠ new) && decide (new ≠ .normal)

/-- The thermal state is evaluated: THERMAL raised, HOT requested at entry to T_HOT, ended at its exit
(R139, R143). -/
def State.evaluateThermal (s : State) (t : Int) : State :=
  let old := s.mon.thermal
  let new := old.after s.mon.ceiling t
  let s := s.setMon { s.mon with thermal := new }
  let s := if old.raises new then s.raise .thermal else s
  if new = .hot ∧ old ≠ .hot then s.requestHot
  else if old = .hot ∧ new ≠ .hot then s.endHot
  else s

/-- A temperature result is taken (R141 to R143): reading, ceiling step, state. -/
def State.takeTemperature (s : State) (raw : BitVec 12) : State :=
  let t := temperatureOf raw
  let s := s.setMon { s.mon with
    temperature := t, ceiling := stepCeiling s.mon.ceiling t, converting := some .supply }
  s.reshape.evaluateThermal t

/-- TEMPERATURE_RESULT: while the temperature conversion runs. -/
def execTemperatureResult (raw : BitVec 12) (s : State) : Host.Outcome State Fault Refusal :=
  .next (if s.mon.converting = some .temperature then s.takeTemperature raw else s)

/-! ## Supply (R141, R144) -/

/-- A 12-bit supply result in mV (R141). -/
def supplyOf (raw : BitVec 12) : Nat := raw.toNat * 2

/-- The supply state is evaluated (R144). -/
def State.evaluateSupply (s : State) (mv : Nat) : State :=
  match s.mon.supplyState with
  | .normal =>
    if mv < 4500 then (s.setMon { s.mon with supplyState := .preUv }).raise .supply else s
  | .preUv =>
    if 4700 ≤ mv then (s.setMon { s.mon with supplyState := .normal }).preUvEnded else s

def State.takeSupply (s : State) (raw : BitVec 12) : State :=
  (s.setMon { s.mon with supply := supplyOf raw, converting := some .aux }).evaluateSupply
    (supplyOf raw)

/-- SUPPLY_RESULT: while the supply conversion runs. -/
def execSupplyResult (raw : BitVec 12) (s : State) : Host.Outcome State Fault Refusal :=
  .next (if s.mon.converting = some .supply then s.takeSupply raw else s)

/-! ## AUX and the end of a rotation (R134, R140, R141) -/

/-- A rotation that fell due while this one converted starts at its end (R140). -/
def Monitor.endRotation (m : Monitor) : Monitor :=
  let m := { m with converting := none }
  if m.dueAgain then m.beginRotation else m

/-- The AUX result is taken; in START it is the third result, which ends START (R134, R135). -/
def State.takeAux (s : State) (raw : BitVec 12) : State :=
  let s := s.setMon { s.mon with aux := raw }
  let s := s.setMon s.mon.endRotation
  if s.mc.mode = .start then s.completeStart else s

/-- AUX_RESULT: while the AUX conversion runs. -/
def execAuxResult (raw : BitVec 12) (s : State) : Host.Outcome State Fault Refusal :=
  .next (if s.mon.converting = some .aux then s.takeAux raw else s)

/-- ROTATION_DUE (R140): the rotation timer has reached the interval of the mode standing. -/
def execRotationDue (s : State) : Host.Outcome State Fault Refusal :=
  .next <|
    if s.mon.rotationDue (rotationInterval s.mc.mode) then s.setMon s.mon.rotationFallsDue else s

/-! ## The PWM events -/

/-- PERIOD_START (R104): a wrap of the running counter. -/
def execPeriodStart (s : State) : Host.Outcome State Fault Refusal :=
  .next (if s.pwu.running then s.wrapPeriod else s)

/-- WAKE_COMPLETE (R113, R114): 100 µs after QUIET ended the drivers are up and the counter starts. -/
def execWakeComplete (s : State) : Host.Outcome State Fault Refusal :=
  .next (if s.pwu.drivers = .powering then s.counterStart else s)

/-! ## The Fault Monitor (R117 to R120) -/

/-- The confirm count of a confirm code (Table 8-2). -/
def confirmCount (code : Fin 4) : Nat := 2 ^ (code.val + 1)

/-- One kind's count at an evaluated on-phase end (R118): a latched kind's count stands. -/
def countAfter (latched sense : Bool) (count : Nat) : Nat :=
  if latched then count else if sense then count + 1 else 0

/-- The kind latches at this on-phase end (R119): its count has risen to the confirm count. -/
def latchesNow (latched sense : Bool) (count confirm : Nat) : Bool :=
  !latched && sense && decide (confirm ≤ count + 1)

/-- The open sense is counted, and perhaps latched (R118 to R120). -/
def State.evaluateOpen (s : State) (ch : Nat) (sense : Bool) : State :=
  let latched := has s.fm.openLatch ch
  let n := s.fm.openCount.getD ch 0
  let now := latchesNow latched sense n (confirmCount s.node.confirmCode)
  let s := s.setFm { s.fm with
    openCount := s.fm.openCount.set ch (countAfter latched sense n)
    openLatch := if now then s.fm.openLatch ||| BitVec.ofNat 24 (2 ^ ch) else s.fm.openLatch }
  if now && !has s.fm.openMask ch then s.raise .fault else s

/-- The short sense is counted, and perhaps latched; a latched short blocks the channel at once (R118
to R120, R111). -/
def State.evaluateShort (s : State) (ch : Nat) (sense : Bool) : State :=
  let latched := has s.fm.shortLatch ch
  let n := s.fm.shortCount.getD ch 0
  let now := latchesNow latched sense n (confirmCount s.node.confirmCode)
  let s := s.setFm { s.fm with
    shortCount := s.fm.shortCount.set ch (countAfter latched sense n)
    shortLatch := if now then s.fm.shortLatch ||| BitVec.ofNat 24 (2 ^ ch) else s.fm.shortLatch }
  let s := if now then s.reblock else s
  if now && !has s.fm.shortMask ch then s.raise .fault else s

/-- VOPEN and VSHORT in mV (00_scope.md 0.5, R118). -/
def vOpenMv : Nat := 300

def vShortMv : Nat := 4000

/-- The conditions of R117 at an on-phase end. -/
def State.evaluates (s : State) (ch : Nat) : Bool :=
  decide (s.mc.mode = .run) && !s.blockCause ch &&
    decide (periodCounts s.pwu.code / 32 ≤ (s.channel ch).onCount)

/-- The last position of a channel's on-phase in this period (R109). -/
def State.endPosition (s : State) (ch : Nat) : Nat :=
  lastPosition (periodCounts s.pwu.code) (startOffset s.pwu.stagger s.pwu.code ch)
    (s.channel ch).onCount

/-- The on-phase end of a channel can come (R109): the counter runs, the channel drives an on-phase
whose end has not come in this period, and the counter is not past it (log 22). -/
def State.endCanCome (s : State) (ch : Nat) : Bool :=
  s.pwu.running && decide ((s.channel ch).block = .driving) && (s.channel ch).endDue &&
    decide (s.pwu.count ≤ s.endPosition ch)

/-- The counter has reached the end of a channel's on-phase. -/
def State.markEnd (s : State) (ch : Nat) : State :=
  s.setPwu { s.pwu with
    count := s.endPosition ch
    channels := s.pwu.channels.set ch { s.channel ch with endDue := false } }

/-- The evaluation of both senses (R117, R118); an unevaluated end changes nothing. -/
def State.evaluateChannel (s : State) (ch : Nat) (sinkMv : Nat) : State :=
  if s.evaluates ch then
    (s.evaluateOpen ch (decide (sinkMv < vOpenMv))).evaluateShort ch (decide (vShortMv < sinkMv))
  else s

/-- ON_PHASE_END (R109, R117 to R120). -/
def execOnPhaseEnd (ch : Fin 24) (sinkMv : Nat) (s : State) : Host.Outcome State Fault Refusal :=
  .next <|
    if s.endCanCome ch.val then (s.markEnd ch.val).evaluateChannel ch.val sinkMv else s

end Sys2Proof.Machine
end

