-- ==== Sys2Proof/Machine/Judge.lean ====
section
/-! DEFINITION. What the Management Executor decides at a record's status byte (R158 to R161, R163 to
R172), command by command, against the live state. -/

namespace Sys2Proof.Machine

/-- Table 11-4. -/
def Cmd.ofCode? (b : Byte) : Option Cmd :=
  if b = 0x01 then some .identify
  else if b = 0x02 then some .readStatus
  else if b = 0x03 then some .readFaults
  else if b = 0x04 then some .readLink
  else if b = 0x05 then some .readPatch
  else if b = 0x06 then some .writePatch
  else if b = 0x07 then some .readGroups
  else if b = 0x08 then some .writeGroup
  else if b = 0x09 then some .readCurve
  else if b = 0x0A then some .writeCurve
  else if b = 0x0B then some .readNode
  else if b = 0x0C then some .writeNode
  else if b = 0x0D then some .setMasks
  else if b = 0x10 then some .recallScene
  else if b = 0x11 then some .captureScene
  else if b = 0x12 then some .saveConfig
  else if b = 0x13 then some .setLock
  else if b = 0x14 then some .eraseStore
  else if b = 0x15 then some .readStore
  else if b = 0x18 then some .force
  else if b = 0x19 then some .release
  else if b = 0x1A then some .readLevels
  else if b = 0x20 then some .clearFaults
  else if b = 0x21 then some .ackAttention
  else if b = 0x22 then some .standby
  else if b = 0x23 then some .wake
  else if b = 0x24 then some .restart
  else if b = 0x30 then some .enumerate
  else if b = 0x31 then some .addressById
  else none

/-- The ten reads (Table 11-4). -/
def Cmd.isRead : Cmd → Bool
  | .identify | .readStatus | .readFaults | .readLink | .readPatch => true
  | .readGroups | .readCurve | .readNode | .readStore | .readLevels => true
  | .writePatch | .writeGroup | .writeCurve | .writeNode | .setMasks => false
  | .recallScene | .captureScene | .saveConfig | .setLock | .eraseStore => false
  | .force | .release | .clearFaults | .ackAttention => false
  | .standby | .wake | .restart | .enumerate | .addressById => false

/-- ENUMERATE and ADDRESS_BY_ID must be broadcast (R159). -/
def Cmd.onlyBroadcast : Cmd → Bool
  | .enumerate | .addressById => true
  | .identify | .readStatus | .readFaults | .readLink | .readPatch => false
  | .readGroups | .readCurve | .readNode | .readStore | .readLevels => false
  | .writePatch | .writeGroup | .writeCurve | .writeNode | .setMasks => false
  | .recallScene | .captureScene | .saveConfig | .setLock | .eraseStore => false
  | .force | .release | .clearFaults | .ackAttention => false
  | .standby | .wake | .restart => false

/-! ## Reads (R163) -/

/-- A read without params, with its reply. -/
def judgePlainRead (reply : List Byte) (params : List Byte) : Verdict :=
  match params with
  | [] => .accept reply none
  | _ :: _ => .refuse .badParam

/-- Table 2-13. -/
def State.identifyReply (s : State) : List Byte :=
  [0x24, 0x18, 0x01] ++ uniqueIdBytes ++ [natByte s.node.address.val] ++
    wordBytes (natWord s.node.slotBase.val) ++
    [s.mc.mode.code, s.ss.source.code, boolByte s.stc.lock]

/-- A temperature in two's complement (Table 2-14). -/
def temperatureBytes (t : Int) : List Byte := wordBytes (BitVec.ofInt 16 t)

/-- Table 2-14. -/
def State.statusReply (s : State) : List Byte :=
  [s.mc.mode.code, thermalSupplyByte s.mon.thermal s.mon.supplyState, natByte s.mon.ceiling] ++
    temperatureBytes s.mon.temperature ++ wordBytes (natWord s.mon.supply) ++
    wordBytes (s.mon.aux.setWidth 16) ++
    [reasonByte s.al.reasons, reasonByte s.al.mask, boolByte s.ss.live, s.ss.source.code,
     s.stc.activity.code, natByte s.stc.queue.length]

/-- Table 2-16. -/
def State.faultsReply (s : State) : List Byte :=
  channelSetBytes s.fm.openLatch ++ channelSetBytes s.fm.shortLatch ++
    channelSetBytes s.fm.openMask ++ channelSetBytes s.fm.shortMask ++
    [natByte s.node.confirmCode.val]

/-- Table 2-17. -/
def LinkCounters.reply (c : LinkCounters) : List Byte :=
  wordBytes c.good ++ wordBytes c.damaged ++ wordBytes c.poisoned ++ wordBytes c.charErrors ++
    wordBytes c.overruns ++ wordBytes c.stalls ++ wordBytes c.truncated

/-- Table 2-18. -/
def State.storeReply (s : State) : List Byte :=
  [s.stc.activity.code, natByte s.stc.queue.length] ++ failureBytes s.stc.lastFailure ++
    pageSetBytes s.stc.loadFaults ++ [boolByte s.stc.lock] ++ wordBytes (sceneValidSet s.stc.shadow)

/-- Group records 0 to 3 (Table 2-20). -/
def State.groupsReply (s : State) : List Byte :=
  (List.range 4).flatMap fun g => (s.group g).toBytes

def State.patchReply (s : State) (first count : Nat) : List Byte :=
  (List.range count).flatMap fun k => (s.entry (first + k)).toBytes

def State.curveReply (s : State) (t first count : Nat) : List Byte :=
  (List.range count).flatMap fun k =>
    wordBytes ((s.os.tables.getD t defaultTable).getD (first + k) 0)

/-- Per channel: level, target, duty16 (Table 2-20). -/
def State.levelsReply (s : State) (first count : Nat) : List Byte :=
  (List.range count).flatMap fun k =>
    wordBytes (s.context (first + k)).level ++ wordBytes (s.context (first + k)).target ++
      wordBytes (s.os.duty.getD (first + k) 0)

def judgeReadLink (s : State) (params : List Byte) : Verdict :=
  match params with
  | [c] =>
    if c = 0x00 then .accept s.lpu.counters.reply none
    else if c = 0x01 then .accept s.lpu.counters.reply (some .linkClear)
    else .refuse .badParam
  | _ => .refuse .badParam

def judgeReadPatch (s : State) (params : List Byte) : Verdict :=
  match params with
  | [f, c] =>
    if 1 ≤ c.toNat ∧ c.toNat ≤ 12 ∧ f.toNat + c.toNat ≤ 24 then
      .accept (s.patchReply f.toNat c.toNat) none
    else .refuse .badParam
  | _ => .refuse .badParam

def judgeReadCurve (s : State) (params : List Byte) : Verdict :=
  match params with
  | [t, f, c] =>
    if t.toNat ≤ 3 ∧ 1 ≤ c.toNat ∧ c.toNat ≤ 24 ∧ f.toNat + c.toNat ≤ 33 then
      .accept (s.curveReply t.toNat f.toNat c.toNat) none
    else .refuse .badParam
  | _ => .refuse .badParam

def judgeReadLevels (s : State) (params : List Byte) : Verdict :=
  match params with
  | [f, c] =>
    if 1 ≤ c.toNat ∧ c.toNat ≤ 8 ∧ f.toNat + c.toNat ≤ 24 then
      .accept (s.levelsReply f.toNat c.toNat) none
    else .refuse .badParam
  | _ => .refuse .badParam

/-! ## Configuration writes (R164, R165) -/

/-- Step 5 of R160 for a command marked "lock", then the acceptance. -/
def State.unlessLocked (s : State) (staged : Staged) : Verdict :=
  if s.stc.lock then .refuse .locked else .accept [] (some staged)

def judgeWritePatch (s : State) (params : List Byte) : Verdict :=
  match params with
  | f :: c :: rest =>
    if 1 ≤ c.toNat ∧ c.toNat ≤ 7 ∧ f.toNat + c.toNat ≤ 24 ∧ rest.length = 4 * c.toNat then
      match patchEntries? rest with
      | some es => s.unlessLocked (.writePatch f.toNat es)
      | none => .refuse .badParam
    else .refuse .badParam
  | _ => .refuse .badParam

def judgeWriteGroup (s : State) (params : List Byte) : Verdict :=
  match params with
  | [g, kind, offset, rule] =>
    match finOf? 4 g.toNat, GroupRecord.ofBytes? kind offset rule with
    | some g, some r => s.unlessLocked (.writeGroup g r)
    | _, _ => .refuse .badParam
  | _ => .refuse .badParam

def judgeWriteCurve (s : State) (params : List Byte) : Verdict :=
  match params with
  | t :: f :: c :: rest =>
    match finOf? 4 t.toNat with
    | some t =>
      if 1 ≤ c.toNat ∧ c.toNat ≤ 14 ∧ f.toNat + c.toNat ≤ 33 ∧ rest.length = 2 * c.toNat then
        s.unlessLocked (.writeCurve t f.toNat (wordsOf rest))
      else .refuse .badParam
    | none => .refuse .badParam
  | _ => .refuse .badParam

/-- A broadcast that selects the address field is refused (R165). -/
def judgeWriteNode (s : State) (broadcast : Bool) (params : List Byte) : Verdict :=
  match params with
  | hi :: lo :: rest =>
    match NodeWrite.ofBytes? (be16 hi lo) rest with
    | some w =>
      if broadcast && w.address.isSome then .refuse .badParam else s.unlessLocked (.writeNode w)
    | none => .refuse .badParam
  | _ => .refuse .badParam

def judgeSetMasks (s : State) (params : List Byte) : Verdict :=
  match params with
  | [o1, o2, o3, s1, s2, s3, r] =>
    s.unlessLocked (.setMasks (channelSetOf o1 o2 o3) (channelSetOf s1 s2 s3) (reasonOf r))
  | _ => .refuse .badParam

/-! ## Scenes, the store and RESTART (R168 to R170) -/

/-- Step 6 for a recall: EMPTY where the shadow record is invalid (R168). -/
def State.unlessEmpty (s : State) (n : Fin 16) (fade : Option Byte) : Verdict :=
  if (s.scene n).valid then .accept [] (some (.recallScene n fade)) else .refuse .empty

def judgeRecall (s : State) (params : List Byte) : Verdict :=
  match params with
  | [n] =>
    match finOf? 16 n.toNat with
    | some n => s.unlessEmpty n none
    | none => .refuse .badParam
  | [n, c] =>
    match finOf? 16 n.toNat with
    | some n => s.unlessEmpty n (some c)
    | none => .refuse .badParam
  | _ => .refuse .badParam

/-- Step 6 for a store request: BUSY after an accepted RESTART of the same frame, else the answer of
store admission (R151, R169). -/
def State.unlessBusy (s : State) (how : Admission) (staged : Staged) : Verdict :=
  if s.me.restartMark then .refuse .busy
  else if how = .busy then .refuse .busy
  else .accept [] (some staged)

def judgeCapture (s : State) (params : List Byte) : Verdict :=
  match params with
  | [n, fade] =>
    match finOf? 16 n.toNat with
    | some n => s.unlessBusy (s.admitScene n) (.capture n fade (s.admitScene n))
    | none => .refuse .badParam
  | _ => .refuse .badParam

def judgeSaveConfig (s : State) (params : List Byte) : Verdict :=
  match params with
  | [] =>
    if s.stc.lock then .refuse .locked else s.unlessBusy s.admitConfig (.saveConfig s.admitConfig)
  | _ :: _ => .refuse .badParam

def judgeSetLock (s : State) (params : List Byte) : Verdict :=
  match params with
  | [] => s.unlessBusy s.admitLock (.setLock s.admitLock)
  | _ :: _ => .refuse .badParam

def judgeEraseStore (s : State) (params : List Byte) : Verdict :=
  match params with
  | [] => s.unlessBusy s.admitErase .eraseStore
  | _ :: _ => .refuse .badParam

def judgeRestart (s : State) (params : List Byte) : Verdict :=
  match params with
  | [] =>
    if s.stc.activity ≠ .idle ∨ s.stc.queue ≠ [] ∨ s.me.reservations ≠ [] then .refuse .busy
    else .accept [] (some .restart)
  | _ :: _ => .refuse .badParam

/-! ## Outputs, faults, attention and modes (R171, R172) -/

def judgeForce (params : List Byte) : Verdict :=
  match params with
  | [c1, c2, c3, hi, lo, d] => .accept [] (some (.force (channelSetOf c1 c2 c3) (be16 hi lo) d))
  | _ => .refuse .badParam

def judgeRelease (params : List Byte) : Verdict :=
  match params with
  | [c1, c2, c3] => .accept [] (some (.release (channelSetOf c1 c2 c3)))
  | _ => .refuse .badParam

def judgeClearFaults (params : List Byte) : Verdict :=
  match params with
  | [o1, o2, o3, s1, s2, s3] =>
    .accept [] (some (.clearFaults (channelSetOf o1 o2 o3) (channelSetOf s1 s2 s3)))
  | _ => .refuse .badParam

def judgeAck (params : List Byte) : Verdict :=
  match params with
  | [r] => .accept [] (some (.ack (reasonOf r)))
  | _ => .refuse .badParam

def judgeStandby (params : List Byte) : Verdict :=
  match params with
  | [] => .accept [] (some .standby)
  | _ :: _ => .refuse .badParam

def judgeWake (params : List Byte) : Verdict :=
  match params with
  | [] => .accept [] (some .wake)
  | _ :: _ => .refuse .badParam

/-! ## Addressing (R166, R167) -/

def judgeEnumerate (s : State) (address : Fin 251) (params : List Byte) : Verdict :=
  match params with
  | [mode] =>
    if mode = 0x00 ∨ (mode = 0x01 ∧ address = 0) then s.unlessLocked (.enumerate none)
    else if mode = 0x01 then .untouched
    else .refuse .badParam
  | _ => .refuse .badParam

def judgeAddressById (s : State) (params : List Byte) : Verdict :=
  match params with
  | [i1, i2, i3, i4, i5, i6, a] =>
    match finOf? 251 a.toNat with
    | some v =>
      if v = 0 then .refuse .badParam
      else if [i1, i2, i3, i4, i5, i6] = uniqueIdBytes then s.unlessLocked (.addressById v)
      else .untouched
    | none => .refuse .badParam
  | _ => .refuse .badParam

/-! ## The checks in order (R160) -/

/-- Steps 3 to 7 of Table 11-3 for a command, in the form it allows. -/
def judgeCommand (s : State) (address : Fin 251) (broadcast : Bool) (c : Cmd)
    (params : List Byte) : Verdict :=
  match c with
  | .identify => judgePlainRead s.identifyReply params
  | .readStatus => judgePlainRead s.statusReply params
  | .readFaults => judgePlainRead s.faultsReply params
  | .readLink => judgeReadLink s params
  | .readPatch => judgeReadPatch s params
  | .writePatch => judgeWritePatch s params
  | .readGroups => judgePlainRead s.groupsReply params
  | .writeGroup => judgeWriteGroup s params
  | .readCurve => judgeReadCurve s params
  | .writeCurve => judgeWriteCurve s params
  | .readNode => judgePlainRead s.node.toBytes params
  | .writeNode => judgeWriteNode s broadcast params
  | .setMasks => judgeSetMasks s params
  | .recallScene => judgeRecall s params
  | .captureScene => judgeCapture s params
  | .saveConfig => judgeSaveConfig s params
  | .setLock => judgeSetLock s params
  | .eraseStore => judgeEraseStore s params
  | .readStore => judgePlainRead s.storeReply params
  | .force => judgeForce params
  | .release => judgeRelease params
  | .readLevels => judgeReadLevels s params
  | .clearFaults => judgeClearFaults params
  | .ackAttention => judgeAck params
  | .standby => judgeStandby params
  | .wake => judgeWake params
  | .restart => judgeRestart s params
  | .enumerate => judgeEnumerate s address params
  | .addressById => judgeAddressById s params

/-- R160: the code, the form, then the command's own checks. -/
def judge (s : State) (address : Fin 251) (broadcast : Bool) (code : Byte) (params : List Byte) :
    Verdict :=
  match Cmd.ofCode? code with
  | none => .refuse .unknown
  | some c =>
    if c.isRead && broadcast then .untouched
    else if c.onlyBroadcast && !broadcast then .refuse .badParam
    else judgeCommand s address broadcast c params

/-- The broadcast target (Table 2-7). -/
def broadcastTarget : Byte := 0xFF

/-- Whether the node answers or acts on a record, and whether it writes its status (R158, R159, Table
11-2). -/
def answerRecord (s : State) (address : Fin 251) (target code : Byte) (params : List Byte)
    (status : Byte) : Answer :=
  if target = broadcastTarget then
    let v := judge s address true code params
    { verdict := v
      writes :=
        match v with
        | .untouched => false
        | .accept _ _ => decide (status = 0x00)
        | .refuse _ => decide (status = 0x00) || decide (status = 0x01) }
  else if target.toNat = address.val ∧ status = 0x00 then
    { verdict := judge s address false code params, writes := true }
  else { verdict := .untouched, writes := false }

end Sys2Proof.Machine
end

