-- ==== Sys2Proof/Machine/Commit.lean ====
section
/-! DEFINITION. What each staged write does at the commit of a GOOD frame (R162), block by block. -/

namespace Sys2Proof.Machine

/-! ## Configuration -/

/-- The fade code of a PARK retarget at a commit: the entry's own rule; FRAME is a snap (R56). -/
def FadeRule.commitCode : FadeRule → Byte
  | .frame => 0
  | .own c => natByte c.val

/-- One entry is replaced; a PARK entry retargets its channel (R53, R56). -/
def State.replaceEntry (s : State) (i : Nat) (e : PatchEntry) : State :=
  let s := s.setPt { s.pt with entries := s.pt.entries.set i e }
  match e.source with
  | .park b => s.retarget i (parkLevel b) e.fade.commitCode
  | .slot _ => s

/-- WRITE_PATCH (R53, R56): the entries from the first channel onward. -/
def State.commitWritePatch (s : State) (first : Nat) : List PatchEntry → State
  | [] => s
  | e :: es => (s.replaceEntry first e).commitWritePatch (first + 1) es

/-- WRITE_GROUP (R55). -/
def State.commitWriteGroup (s : State) (g : Fin 4) (r : GroupRecord) : State :=
  s.setPt { s.pt with groups := s.pt.groups.set g.val r }

/-- Points from the first onward are replaced. -/
def replacePoints (table : List Word) (first : Nat) : List Word → List Word
  | [] => table
  | p :: ps => replacePoints (table.set first p) (first + 1) ps

/-- WRITE_CURVE (R93). -/
def State.commitWriteCurve (s : State) (t : Fin 4) (first : Nat) (points : List Word) : State :=
  s.setOs { s.os with
    tables := s.os.tables.set t.val
      (replacePoints (s.os.tables.getD t.val defaultTable) first points) }

/-- WRITE_NODE (R165): the selected fields, the loss timer by R70, the quiet timer by R136. -/
def State.commitWriteNode (s : State) (w : NodeWrite) : State :=
  let old := s.node.lossTimeout
  let s := s.setNode (s.node.write w)
  (s.setSs { s.ss with
    lossTimer := s.ss.lossTimer.recoded s.ss.source old s.node.lossTimeout }).quietReview

/-- SET_MASKS (R121, R127). -/
def State.commitSetMasks (s : State) (opens shorts : ChannelSet) (mask : ReasonSet) : State :=
  (s.setFm { s.fm with openMask := opens, shortMask := shorts }).setAl { s.al with mask := mask }

/-! ## Faults and attention -/

/-- A count becomes 0 on every channel of a set (R122). -/
def clearCounts (counts : List Nat) (set : ChannelSet) : List Nat :=
  perChannel fun i => if has set i then 0 else counts.getD i 0

/-- CLEAR_FAULTS (R122): latches and counts of the listed channels; SHORT ends on those of the short
set. -/
def State.commitClearFaults (s : State) (opens shorts : ChannelSet) : State :=
  (s.setFm { s.fm with
    openCount := clearCounts s.fm.openCount opens
    shortCount := clearCounts s.fm.shortCount shorts
    openLatch := s.fm.openLatch &&& ~~~opens
    shortLatch := s.fm.shortLatch &&& ~~~shorts }).reblock

/-- ACK_ATTENTION (R126). -/
def State.commitAck (s : State) (set : ReasonSet) : State :=
  s.setAl { s.al with reasons := s.al.reasons &&& ~~~set }

/-! ## The rest -/

/-- The address of the node settings is replaced (R166, R167). -/
def State.setAddress (s : State) (a : Fin 251) : State := s.setNode { s.node with address := a }

/-- READ_LINK's staged clear (R20): all seven counters, a stray's character error or overrun counted before
the frame included. That is the model's choice between two sentences of R20's section (log 39). -/
def State.clearCounters (s : State) : State := s.setLpu { s.lpu with counters := zeroCounters }

/-- RESTART (R145): a restart is pending. -/
def State.markRestart (s : State) : State := s.setMc { s.mc with restartPending := true }

/-- One entry of the commit list is applied by the block that owns the state (R162, Table 11-4). -/
def State.apply (s : State) (e : Staged) : State :=
  match e with
  | .linkClear => s.clearCounters
  | .writePatch first es => s.commitWritePatch first es
  | .writeGroup g r => s.commitWriteGroup g r
  | .writeCurve t first ps => s.commitWriteCurve t first ps
  | .writeNode w => s.commitWriteNode w
  | .setMasks o sh r => s.commitSetMasks o sh r
  | .recallScene n fade => s.recall n fade
  | .capture n fade how => s.commitCapture n fade how
  | .saveConfig how => s.commitSaveConfig how
  | .setLock how => s.commitSetLock how
  | .eraseStore => s.joinQueue .erase
  | .force set level seconds => s.setOs (s.os.force set level seconds)
  | .release set => s.setOs (s.os.release set)
  | .clearFaults o sh => s.commitClearFaults o sh
  | .ack set => s.commitAck set
  | .standby => s.commitStandby
  | .wake => s.commitWake
  | .restart => s.markRestart
  | .enumerate (some v) => s.setAddress v
  | .enumerate none => s
  | .addressById a => s.setAddress a

/-- The staged writes that change an input of the Shaper (R97). -/
def Staged.shapes : Staged → Bool
  | .writePatch _ _ | .writeGroup _ _ | .writeCurve _ _ _ | .recallScene _ _ => true
  | .force _ _ _ | .release _ => true
  | .writeNode w => w.ceiling.isSome
  | .linkClear | .setMasks _ _ _ | .capture _ _ _ | .saveConfig _ | .setLock _ | .eraseStore => false
  | .clearFaults _ _ | .ack _ | .standby | .wake | .restart | .enumerate _ => false
  | .addressById _ => false

/-- The staged writes that may place a queue entry (R151). -/
def Staged.queues : Staged → Bool
  | .capture _ _ _ | .saveConfig _ | .setLock _ | .eraseStore => true
  | .writePatch _ _ | .writeGroup _ _ | .writeCurve _ _ _ | .recallScene _ _ => false
  | .force _ _ _ | .release _ | .writeNode _ | .linkClear | .setMasks _ _ _ => false
  | .clearFaults _ _ | .ack _ | .standby | .wake | .restart | .enumerate _ => false
  | .addressById _ => false

/-- The commit list of a GOOD frame, in record order, as one group: then the Shaper hands on one duty16
per channel where an input changed (R77, R97), and the store may start (R150, R162). -/
def State.commitAll (s : State) (list : List Staged) : State :=
  let s := list.foldl State.apply s
  let s := if list.any Staged.shapes then s.reshape else s
  if list.any Staged.queues then s.startHead else s

/-- The list holds a RESTART. -/
def commitsRestart (list : List Staged) : Bool := list.contains .restart

end Sys2Proof.Machine
end

