-- ==== Sys2Proof/Machine/Executor.lean ====
section
/-! DEFINITION. The Management Executor's parser: what each body byte of a management frame does (R25 to
R28, R36, R158 to R167). -/

namespace Sys2Proof.Machine

/-- What a consumer does with one body byte: its new state, the substitute for this byte's character,
a new substitute for the character still held before it (R27, NO_ROOM), and a format fault. -/
structure Taken where
  me : Executor
  sub : Option Byte
  heldSub : Option Byte
  fault : Bool
deriving DecidableEq, Repr

/-- The parser at a frame start (R25). -/
def Parser.begin : Parser :=
  { total := 0, index := 0, field := .count, target := 0, command := 0, params := [], status := 0,
    rlen := 0, answer := { verdict := .untouched, writes := false }, out := [], running := false }

/-- A format fault: nothing further is read, substituted or staged (R26). -/
def Taken.faulty (m : Executor) : Taken := { me := m, sub := none, heldSub := none, fault := true }

/-- A byte that only moves the parser. -/
def Taken.move (m : Executor) (p : Parser) : Taken :=
  { me := { m with parser := some p }, sub := none, heldSub := none, fault := false }

/-- After a record: the next record's target, or the end of the body (R25). -/
def Parser.nextRecord (p : Parser) : Parser :=
  if p.index < p.total then
    { p with index := p.index + 1, field := .target, params := [], out := [], running := false }
  else { p with field := .done, out := [], running := false }

/-- The reply length of an accepted record (R27, R36): 1 for ENUMERATE, else the reply's. -/
def replyLength (reply : List Byte) (staged : Option Staged) : Nat :=
  match staged with
  | some (.enumerate _) => 1
  | _ => reply.length

/-- What an acceptance reserves at the status byte (R151, R170): a place for each accepted store request,
the entry a request coalesced into, the frame's restart mark. -/
def Executor.reserve (m : Executor) (s : State) (e : Staged) : Executor :=
  match e with
  | .capture n _ .accept => { m with reservations := m.reservations ++ [.scene n] }
  | .capture n _ .coalesce =>
    if s.sceneOpen n then { m with coalesced := m.coalesced ++ [.scene n] } else m
  | .saveConfig .accept => { m with reservations := m.reservations ++ [.config] }
  | .saveConfig .coalesce =>
    if s.queuedKind .config then { m with coalesced := m.coalesced ++ [.config] } else m
  | .setLock .accept => { m with reservations := m.reservations ++ [.lock] }
  | .eraseStore => { m with reservations := m.reservations ++ [.erase] }
  | .restart => { m with restartMark := true }
  | _ => m

/-- The reservation of a record turned to NO_ROOM is withdrawn (R27, R151). -/
def Executor.withdraw (m : Executor) (e : Staged) : Executor :=
  match e with
  | .capture n _ .accept => { m with reservations := m.reservations.erase (.scene n) }
  | .saveConfig .accept => { m with reservations := m.reservations.erase .config }
  | .setLock .accept => { m with reservations := m.reservations.erase .lock }
  | .eraseStore => { m with reservations := m.reservations.erase .erase }
  | _ => m

/-- The status byte (R27): the answer is decided against the live state, and the status substitute set. -/
def takeStatus (s : State) (m : Executor) (p : Parser) (address : Fin 251) (b : Byte) : Taken :=
  let a := answerRecord s address p.target p.command p.params b
  let m := { m with parser := some { p with field := .rlen, status := b, answer := a } }
  match a.verdict with
  | .untouched => { me := m, sub := none, heldSub := none, fault := false }
  | .refuse st =>
    { me := m, sub := if a.writes then some st.code else none, heldSub := none, fault := false }
  | .accept _ none =>
    { me := m, sub := if a.writes then some Status.done.code else none, heldSub := none,
      fault := false }
  | .accept _ (some e) =>
    { me := m.reserve s e, sub := if a.writes then some Status.done.code else none,
      heldSub := none, fault := false }

/-- The reply area, or the next record where it is empty. -/
def Parser.enterReply (p : Parser) (q : Nat) (out : List Byte) (running : Bool) : Parser :=
  if q = 0 then { p with rlen := q }.nextRecord
  else { p with rlen := q, field := .reply q, out := out, running := running }

/-- The reply bytes of a refusal: a broadcast refusal that the node writes names the node in reply byte
0, except in ENUMERATE (R36, R159, R166). -/
def refusalReply (p : Parser) (address : Fin 251) : List Byte :=
  if p.target = broadcastTarget ∧ p.answer.writes = true ∧ Cmd.ofCode? p.command ≠ some .enumerate
  then [natByte address.val]
  else []

/-- The rlen byte within the body (R27): NO_ROOM where the reply area is smaller than the reply length,
else the decided write joins the commit list. -/
def takeRoom (m : Executor) (p : Parser) (address : Fin 251) (q : Nat) : Taken :=
  match p.answer.verdict with
  | .untouched => Taken.move m (p.enterReply q [] false)
  | .refuse _ => Taken.move m (p.enterReply q (refusalReply p address) false)
  | .accept reply staged =>
    if q < replyLength reply staged then
      let m := match staged with
        | some e => m.withdraw e
        | none => m
      { Taken.move m (p.enterReply q [] false) with
        heldSub := if p.answer.writes then some Status.noRoom.code else none }
    else
      let m := { m with commits := m.commits ++ staged.toList }
      let running := match staged with
        | some (.enumerate _) => true
        | _ => false
      Taken.move m (p.enterReply q (if p.answer.writes then reply else []) running)

/-- After one reply byte. -/
def Parser.replyTaken (p : Parser) (left : Nat) (out : List Byte) : Parser :=
  if left = 1 then p.nextRecord else { p with field := .reply (left - 1), out := out, running := false }

/-- Reply byte 0 of an accepted ENUMERATE (R166): v from 1 to 250 is taken and v + 1 sent; any other is
repeated and the entry withdrawn. -/
def takeRunning (m : Executor) (p : Parser) (left : Nat) (b : Byte) : Taken :=
  let rest := m.commits.dropLast
  match finOf? 251 b.toNat with
  | some v =>
    if v = 0 then Taken.move { m with commits := rest } (p.replyTaken left [])
    else
      { Taken.move { m with commits := rest ++ [.enumerate (some v)] } (p.replyTaken left []) with
        sub := some (b + 1) }
  | none => Taken.move { m with commits := rest } (p.replyTaken left [])

/-- One byte of a reply area (R27). -/
def takeReply (m : Executor) (p : Parser) (left : Nat) (b : Byte) : Taken :=
  if p.running then takeRunning m p left b
  else
    match p.out with
    | [] => Taken.move m (p.replyTaken left [])
    | x :: xs => { Taken.move m (p.replyTaken left xs) with sub := some x }

/-- One body byte, with the count of body bytes that remain after it (R25, R26). -/
def takeBodyByte (s : State) (m : Executor) (p : Parser) (address : Fin 251) (remaining : Nat)
    (b : Byte) : Taken :=
  match p.field with
  | .count =>
    if b.toNat = 0 ∨ 8 < b.toNat then Taken.faulty m
    else Taken.move m { p with total := b.toNat, index := 1, field := .target }
  | .target => Taken.move m { p with target := b, field := .command }
  | .command => Taken.move m { p with command := b, field := .plen }
  | .plen =>
    if 32 < b.toNat ∨ remaining < b.toNat + 2 then Taken.faulty m
    else if b.toNat = 0 then Taken.move m { p with params := [], field := .status }
    else Taken.move m { p with params := [], field := .params b.toNat }
  | .params left =>
    Taken.move m
      { p with params := p.params ++ [b],
               field := if left = 1 then .status else .params (left - 1) }
  | .status => takeStatus s m p address b
  | .rlen =>
    if 48 < b.toNat ∨ remaining < b.toNat then Taken.faulty m
    else takeRoom m p address b.toNat
  | .reply left => takeReply m p left b
  | .done => Taken.faulty m

/-- The body-end event: the body may not end before the last record has (R26, condition 6). -/
def Parser.bodyEndFault (p : Parser) : Bool := decide (p.field ≠ .done)

end Sys2Proof.Machine
end

