-- ==== Sys2Proof/Machine/Intake.lean ====
section
/-! DEFINITION. The Slot Intake (R23, R24, R37 to R47, R51) and the Attention Logic's claim (R127,
R128). -/

namespace Sys2Proof.Machine

/-- The feed of a place from the live Patch Table (R39), with its fade rule. -/
def State.feed (s : State) (place : Nat) : Feed :=
  if place < 24 then
    let e := s.entry place
    { offset := (match e.source with | .slot o => some o | .park _ => none), fade := e.fade }
  else
    let r := s.group (place - 24)
    { offset := (match r.kind with | .slot o => some o | .none => none), fade := r.fade }

/-- The intake context at a level frame's start, with the window map (R37, R40). -/
def State.beginIntake (s : State) : Intake :=
  { state := .flags, wide := false, seize := false, fade := 0, count := 0, slot := 0, high := none,
    base := s.node.slotBase, feeds := (List.range 28).map s.feed }

/-- Slot s of the frame lies in the window and feeds a place at that offset (R37, R42). -/
def Intake.feeds? (t : Intake) (place : Nat) : Bool :=
  match (t.feeds.getD place { offset := none, fade := .frame }).offset with
  | none => false
  | some o => decide (t.slot = t.base.val + o.toNat)

/-- A slot value goes into every place fed from it (R42 to R44). -/
def Intake.capture (t : Intake) (places : List (Option Word)) (v : Word) : List (Option Word) :=
  (List.range 28).map fun i => if t.feeds? i then some v else places.getD i none

/-- The consistency test of R24. -/
def levelConsistent (length n : Nat) (wide : Bool) : Bool :=
  if wide then decide (length = 4 + 2 * n) && decide (n ≤ 512)
  else decide (length = 4 + n) && decide (n ≤ 1024)

/-- One body byte of a level frame (R41 to R43), with its body position and L: the new intake, and a
format fault. -/
def SlotIntake.takeByte (si : SlotIntake) (t : Intake) (pos length : Nat) (b : Byte) :
    SlotIntake × Bool :=
  match t.state with
  | .flags =>
    ({ si with intake := some { t with wide := has b 0, seize := has b 1, state := .fade } }, false)
  | .fade => ({ si with intake := some { t with fade := b, state := .count } }, false)
  | .count =>
    if pos = 3 then ({ si with intake := some { t with count := b.toNat * 256 } }, false)
    else
      let t := { t with count := t.count + b.toNat }
      if levelConsistent length t.count t.wide then
        ({ si with intake := some { t with state := .slots, slot := 0 } }, false)
      else ({ si with intake := some { t with state := .stopped } }, true)
  | .slots =>
    if t.wide then
      match t.high with
      | none => ({ si with intake := some { t with high := some b } }, false)
      | some hi =>
        ({ places := t.capture si.places (be16 hi b),
           intake := some { t with high := none, slot := t.slot + 1 } }, false)
    else
      ({ places := t.capture si.places (widen b), intake := some { t with slot := t.slot + 1 } },
       false)
  | .stopped => (si, false)
  | .ended => (si, false)

/-- The body-end event (R41, R45): a body that ends before SLOTS is a format fault. -/
def SlotIntake.bodyEnd (si : SlotIntake) (t : Intake) : SlotIntake × Bool :=
  match t.state with
  | .slots => ({ si with intake := some { t with state := .ended } }, false)
  | .flags => ({ si with intake := some { t with state := .stopped } }, true)
  | .fade => ({ si with intake := some { t with state := .stopped } }, true)
  | .count => ({ si with intake := some { t with state := .stopped } }, true)
  | .stopped => (si, false)
  | .ended => (si, false)

/-- The resolved fade code of an item (R51). -/
def FadeRule.resolve (r : FadeRule) (frameCode : Byte) : Byte :=
  match r with
  | .frame => frameCode
  | .own c => natByte c.val

/-- The captured set: one item per marked place, in place order (R46). -/
def Intake.items (t : Intake) (places : List (Option Word)) : List Item :=
  (List.range 28).filterMap fun i =>
    (places.getD i none).map fun v =>
      { place := i, value := v,
        code := ((t.feeds.getD i { offset := none, fade := .frame }).fade).resolve t.fade }

/-- The hand-over of a GOOD level frame: one group, after which the Shaper is called on (R46, R97). -/
def State.handOver (s : State) : State :=
  match s.si.intake with
  | none => s
  | some t => (s.takeCapturedSet (t.items s.si.places) t.fade t.seize).reshape

/-! ## Attention -/

/-- Attention is active (R127), with the address that stood at the frame start. -/
def State.attentionActive (s : State) (address : Fin 251) : Bool :=
  decide (s.al.reasons &&& ~~~s.al.mask ≠ 0) && decide (address ≠ 0) &&
    decide (s.al.holdOff = none)

/-- The hold-off timer's start value in ticks (R129). -/
def holdOffTicks : Nat := 100

/-- A frame's outcome at the Attention Logic (R129): the claim mark is cleared; a claim in a GOOD frame
starts the hold-off. -/
def Attention.atOutcome (a : Attention) (good : Bool) : Attention :=
  if a.claim then { a with claim := false, holdOff := if good then some holdOffTicks else a.holdOff }
  else a

end Sys2Proof.Machine
end

