-- ==== Sys2Proof/Machine/Link.lean ====
section
/-! DEFINITION. The Link Port Unit: receiver, repeat buffer, transmitter, Frame Tracker, CRC, outcomes
(01_link_ports_and_frame_repeating.md). -/

namespace Sys2Proof.Machine

/-! ## Characters (R1, R2) -/

/-- Odd parity over D0 to D7 and M (Table 1-1). -/
def oddParity (data : Byte) (mark : Bool) : Bool :=
  !([0, 1, 2, 3, 4, 5, 6, 7].foldl (fun acc k => acc ^^ data.getLsbD k) mark)

/-- A parity error or a missing stop bit (R1). -/
def charError (c : LineChar) : Bool := decide (c.parity ≠ oddParity c.data c.mark) || !c.stop

/-- A character as the transmitter sends it: parity afresh, a correct stop bit (R2, R4). -/
def freshChar (data : Byte) (mark : Bool) : LineChar :=
  { data := data, mark := mark, parity := oddParity data mark, stop := true }

/-! ## Counters (R19) -/

/-- A counter at 0FFFFH stays there. -/
def countUp (c : Word) : Word := if c = 0xFFFF then c else c + 1

/-- A frame is counted once, at its outcome (Tables 1-4, 1-5). -/
def LinkCounters.countOutcome (c : LinkCounters) (o : FrameOutcome) : LinkCounters :=
  match o with
  | .good => { c with good := countUp c.good }
  | .poisoned => { c with poisoned := countUp c.poisoned }
  | .damaged => { c with damaged := countUp c.damaged }
  | .format => { c with damaged := countUp c.damaged }
  | .overlong => { c with damaged := countUp c.damaged }
  | .truncated => { c with truncated := countUp c.truncated }
  | .stalled => { c with stalls := countUp c.stalls }

/-- A character error and an overrun are counted when they occur (R2, R6). -/
def LinkCounters.countArrival (c : LinkCounters) (err full : Bool) : LinkCounters :=
  { c with charErrors := if err then countUp c.charErrors else c.charErrors,
           overruns := if full then countUp c.overruns else c.overruns }

/-! ## The repeat buffer (R4 to R6) -/

/-- The places of the buffer. -/
def bufferPlaces : Nat := 8

/-- The data byte a place sends: its substitute where it has one (R4). -/
def Place.sent (p : Place) : Byte := p.sub.getD p.data

/-- A place for a received character. -/
def Place.of (data : Byte) (mark released covered : Bool) (sub : Option Byte) : Place :=
  { data := data, mark := mark, released := released, sub := sub, covered := covered,
    forwards := false, restarts := false }

/-- The held character is released, with its substitute (R4). -/
def releaseHeld (b : List Place) : List Place := b.map fun p => { p with released := true }

/-- The held character of a frame that ends early is sent as received (R4). -/
def releaseAsReceived (b : List Place) : List Place :=
  b.map fun p => if p.released then p else { p with released := true, sub := none }

/-- A new substitute for the held character. -/
def resubstitute (b : List Place) (sub : Option Byte) : List Place :=
  match sub with
  | none => b
  | some v => b.map fun p => if p.released then p else { p with sub := some v }

/-- A character joins the tail, or is dropped when all places are occupied (R6). -/
def joinBuffer (b : List Place) (p : Place) (full : Bool) : List Place := if full then b else b ++ [p]

/-- The held covered character enters the sent-side CRC at its release, as sent (R11, R12). -/
def feedSent (crc : Word) (b : List Place) : Word :=
  b.foldl (fun c p => if p.covered && !p.released then crcByte c p.sent else c) crc

/-- The buffer with one LPU update. -/
def State.setBuffer (s : State) (b : List Place) : State := s.setLpu { s.lpu with buffer := b }

def State.setTracker (s : State) (t : Tracker) : State := s.setLpu { s.lpu with tracker := t }

/-! ## The end of a frame (R12, R13, R14, R16) -/

/-- The outcome is handed on: a GOOD frame's captured set or commit list is taken, anything else is
discarded; the Attention Logic is told; then the frame is counted, after a staged counter clear
(R16, R20, R46, R47, R129, R162). -/
def State.frameEnds (s : State) (o : FrameOutcome) : State :=
  let good := decide (o = .good)
  let s := if good then (s.handOver).commitAll s.me.commits else s
  let s := (s.setSi clearIntake).setMe emptyExecutor
  let s := s.setAl (s.al.atOutcome good)
  s.setLpu { s.lpu with
    tracker := .idle, stallTimer := false, counters := s.lpu.counters.countOutcome o }

/-- A frame ends before its CRC: by truncation, stall or as OVERLONG (R4, R10, R13, R14). -/
def State.endsEarly (s : State) (o : FrameOutcome) : State :=
  (s.setBuffer (releaseAsReceived s.lpu.buffer)).frameEnds o

/-! ## Openers (R9, R13) -/

def levelKind : Byte := 0xA1

def managementKind : Byte := 0xA2

/-- The frame context at an opener (R2, R6, R9). A dropped opener is left out of the sent-side CRC
(R6, log 26). -/
def FrameCtx.begin (kind : Byte) (err full : Bool) (address : Fin 251) : FrameCtx :=
  { kind := kind, phase := .head, length := 0, position := 0, charError := err, overrun := full,
    format := false, rxCrc := crcByte 0xFFFF kind,
    txCrc := if full then 0xFFFF else crcByte 0xFFFF kind, crcIn := 0, address := address }

/-- The frame-start event (R9, R25, R40, R162). -/
def State.startFrame (s : State) (kind : Byte) (err full : Bool) : State :=
  let s := s.setSi
    { places := List.replicate 28 none,
      intake := if kind = levelKind then some s.beginIntake else none }
  let s := s.setMe
    { emptyExecutor with parser := if kind = managementKind then some Parser.begin else none }
  s.setLpu { s.lpu with
    tracker := .frame (FrameCtx.begin kind err full s.node.address), stallTimer := true }

/-- An opener, in any state (R9, R13). -/
def State.takeOpener (s : State) (data : Byte) (err full : Bool) : State :=
  let s :=
    match s.lpu.tracker with
    | .frame _ => s.endsEarly .truncated
    | .idle => s
    | .pass => s
  (s.setBuffer (joinBuffer s.lpu.buffer (Place.of data true false false none) full)).startFrame
    data err full

/-! ## Characters of a frame (R10 to R12) -/

/-- A character outside a frame is released at once (R4, R9, R10). -/
def State.takeStray (s : State) (data : Byte) (full : Bool) : State :=
  s.setBuffer (joinBuffer s.lpu.buffer (Place.of data false true false none) full)

/-- The frame goes on: the held character is released, this one held, and the stall timer runs again
(R4, R14). -/
def State.holdChar (s : State) (f : FrameCtx) (p : Place) (full : Bool) : State :=
  s.setLpu { s.lpu with
    buffer := joinBuffer (releaseHeld s.lpu.buffer) p full
    tracker := .frame { f with txCrc := feedSent f.txCrc s.lpu.buffer }
    stallTimer := true }

/-- The body-end event at the consumer (R11, R24, R26): the format mark. -/
def State.bodyEnds (s : State) (f : FrameCtx) : State × FrameCtx :=
  if f.format then (s, f)
  else if f.kind = levelKind then
    match s.si.intake with
    | none => (s, f)
    | some t =>
      let (si, fault) := s.si.bodyEnd t
      (s.setSi si, { f with format := fault })
  else if f.kind = managementKind then
    match s.me.parser with
    | none => (s, f)
    | some p => (s, { f with format := p.bodyEndFault })
  else (s, f)

/-- A length byte is fed into both CRC registers, unless it is dropped (R6, R10). -/
def FrameCtx.feedLength (f : FrameCtx) (data : Byte) (full : Bool) : FrameCtx :=
  { f with rxCrc := crcByte f.rxCrc data,
           txCrc := if full then f.txCrc else crcByte f.txCrc data }

/-- The length limit (R10). -/
def maxLength : Nat := 1040

/-- A length byte (R10, R22). -/
def State.takeHead (s : State) (f : FrameCtx) (data : Byte) (full : Bool) : State :=
  let f := f.feedLength data full
  if f.position = 1 then
    s.holdChar { f with length := data.toNat * 256 } (Place.of data false false false none) full
  else
    let f := { f with length := f.length + data.toNat }
    if maxLength < f.length then
      let s := s.endsEarly .overlong
      s.setLpu { s.lpu with
        buffer := joinBuffer s.lpu.buffer (Place.of data false true false none) full
        tracker := .pass }
    else if f.length = 0 then
      let (s, f) := s.bodyEnds { f with phase := .trail }
      s.holdChar f (Place.of data false false false none) full
    else s.holdChar { f with phase := .body } (Place.of data false false false none) full

/-- A body byte at its consumer (R11): the node, the substitute for this character, the format mark. -/
def State.consume (s : State) (f : FrameCtx) (data : Byte) : State × Option Byte × Bool :=
  if f.format then (s, none, true)
  else if f.kind = levelKind then
    match s.si.intake with
    | none => (s, none, false)
    | some t =>
      let (si, fault) := s.si.takeByte t (f.position - 2) f.length data
      (s.setSi si, none, fault)
  else if f.kind = managementKind then
    match s.me.parser with
    | none => (s, none, false)
    | some p =>
      let k := takeBodyByte s s.me p f.address (f.length + 2 - f.position) data
      ((s.setMe k.me).setBuffer (resubstitute s.lpu.buffer k.heldSub), k.sub, k.fault)
  else (s, none, false)

/-- A body byte (R11). -/
def State.takeBody (s : State) (f : FrameCtx) (data : Byte) (full : Bool) : State :=
  let f := { f with rxCrc := crcByte f.rxCrc data }
  let (s, sub, fault) := s.consume f data
  let f := { f with format := fault }
  let (s, f) :=
    if f.position = f.length + 2 then s.bodyEnds { f with phase := .trail } else (s, f)
  s.holdChar f (Place.of data false false true sub) full

/-- The classification at the last CRC character (R17). -/
def FrameCtx.classify (f : FrameCtx) : FrameOutcome :=
  if f.charError || f.overrun then .damaged
  else if f.format then .format
  else if f.crcIn = f.rxCrc then .good
  else if f.crcIn = ~~~f.rxCrc then .poisoned
  else .damaged

/-- The CRC the node sends (R18). -/
def FrameCtx.crcSent (f : FrameCtx) : Word :=
  if f.classify = .good then f.txCrc else ~~~f.txCrc

/-- The attention byte (R12, R128): claimed where it arrived as 00H and attention is active. -/
def State.takeAttention (s : State) (f : FrameCtx) (data : Byte) (full : Bool) : State :=
  let f := { f with rxCrc := crcByte f.rxCrc data }
  if data = 0 ∧ s.attentionActive f.address = true then
    (s.setAl { s.al with claim := true }).holdChar f
      (Place.of data false false true (some (natByte f.address.val))) full
  else s.holdChar f (Place.of data false false true none) full

/-- The last CRC character (R12, R16 to R18): both CRC characters get their substitutes and are
released, the tracker enters IDLE, and the outcome is handed on. -/
def State.takeLastCrc (s : State) (f : FrameCtx) (data : Byte) (full : Bool) : State :=
  let f := { f with crcIn := f.crcIn + natWord data.toNat }
  let crc := f.crcSent
  let restarts := decide (f.classify = .good) && commitsRestart s.me.commits
  let last : Place :=
    { data := data, mark := false, released := true, sub := some (loByte crc), covered := false,
      forwards := true, restarts := restarts }
  let b := joinBuffer (releaseHeld (resubstitute s.lpu.buffer (some (hiByte crc)))) last full
  (s.setBuffer b).frameEnds f.classify

/-- A character in TRAIL (R12). -/
def State.takeTrail (s : State) (f : FrameCtx) (data : Byte) (full : Bool) : State :=
  if f.position = f.length + 3 then s.takeAttention f data full
  else if f.position = f.length + 4 then
    s.holdChar { f with crcIn := natWord (data.toNat * 256) } (Place.of data false false false none)
      full
  else s.takeLastCrc f data full

/-- A character with M = 0 of a frame in passage (R2, R6, R10 to R12). An overrun or a character error
marks the frame, its last character included (log 17). -/
def State.takeFrameChar (s : State) (f : FrameCtx) (data : Byte) (err full : Bool) : State :=
  let f := { f with position := f.position + 1, charError := f.charError || err,
                    overrun := f.overrun || full }
  match f.phase with
  | .head => s.takeHead f data full
  | .body => s.takeBody f data full
  | .trail => s.takeTrail f data full

/-! ## The receiver (R1) -/

/-- The buffer is full at the moment a character completes (R6). -/
def State.bufferFull (s : State) : Bool := decide (bufferPlaces ≤ s.lpu.buffer.length)

/-- A character completes at LIN, outside bypass (R1, R2, R6, R9). -/
def State.takeChar (s : State) (c : LineChar) : State :=
  let err := charError c
  let full := s.bufferFull
  let s := s.setLpu { s.lpu with
    rx := if c.stop then .hunting else .awaitStop
    counters := s.lpu.counters.countArrival err full }
  if c.mark then s.takeOpener c.data err full
  else
    match s.lpu.tracker with
    | .idle => s.takeStray c.data full
    | .pass => s.takeStray c.data full
    | .frame f => s.takeFrameChar f c.data err full

/-- CHARACTER_RECEIVED's effect: in bypass the line goes through unchanged (R7, R8); after a missing
stop bit no character begins until LIN has returned to the stop level (R1). -/
def State.receive (s : State) (c : LineChar) : State :=
  if s.lpu.bypass then s.setLpu { s.lpu with lout := s.lpu.lout ++ [c] }
  else if s.lpu.rx = .awaitStop then s
  else s.takeChar c

/-- CHARACTER_RECEIVED (R1). -/
def execCharacterReceived (c : LineChar) (s : State) : Host.Outcome State Fault Refusal :=
  .next (s.receive c)

/-- START_BIT_CONFIRMED (R1, R14): a confirmed start bit stops the stall timer and sampling begins; at
the stop level the edge was a glitch. -/
def execStartBitConfirmed (low : Bool) (s : State) : Host.Outcome State Fault Refusal :=
  .next <|
    if low = true ∧ s.lpu.bypass = false ∧ s.lpu.rx = .hunting then
      s.setLpu { s.lpu with rx := .sampling, stallTimer := false }
    else s

/-- STOP_LEVEL_REGAINED (R1): the receiver hunts again. -/
def execStopLevelRegained (s : State) : Host.Outcome State Fault Refusal :=
  .next (if s.lpu.rx = .awaitStop then s.setLpu { s.lpu with rx := .hunting } else s)

/-- The idle on LIN exceeds 48 bit times in HEAD, BODY or TRAIL (R14). -/
def State.stall (s : State) : State :=
  match s.lpu.tracker with
  | .frame _ => if s.lpu.stallTimer then s.endsEarly .stalled else s
  | .idle => s
  | .pass => s

/-- STALL_TIMEOUT (R14). -/
def execStallTimeout (s : State) : Host.Outcome State Fault Refusal := .next s.stall

/-! ## The transmitter (R4, R16, R145) -/

/-- The idle transmitter takes the released head (R4). -/
def State.transmit (s : State) : State :=
  match s.lpu.tx, s.lpu.buffer with
  | none, p :: rest =>
    if p.released then s.setLpu { s.lpu with tx := some p, buffer := rest } else s
  | _, _ => s

/-- CHARACTER_TRANSMIT (R4). -/
def execCharacterTransmit (s : State) : Host.Outcome State Fault Refusal := .next s.transmit

/-- The frame-forwarded event at MC: the committing frame's begins the pending restart (R16, R145). -/
def State.frameForwarded (s : State) (p : Place) : State :=
  if p.forwards && p.restarts && s.mc.restartPending then s.resetNode else s

/-- The transmitter finishes a character and becomes idle; the last CRC character of a frame gives the
frame-forwarded event (R4, R16). -/
def State.charSent (s : State) : State :=
  match s.lpu.tx with
  | none => s
  | some p =>
    (s.setLpu { s.lpu with
      tx := none, lout := s.lpu.lout ++ [freshChar p.sent p.mark] }).frameForwarded p

/-- CHARACTER_SENT (R4). -/
def execCharacterSent (s : State) : Host.Outcome State Fault Refusal := .next s.charSent

/-- FRAME_FORWARDED (R16): the transmitter finishes a frame's CRC low character; the RATE pins stand at
`rate` should START begin (R3). -/
def execFrameForwarded (rate : BitVec 2) (s : State) : Host.Outcome State Fault Refusal :=
  .next <|
    match s.lpu.tx with
    | none => s
    | some p => if p.forwards then (s.setPins { s.pins with rate := rate }).charSent else s

/-! ## Whole frames (log 1) -/

/-- The transmitter sends all that is released: it finishes the character it is sending, then takes and
sends each released head. -/
def State.keepPaceN : Nat → State → State
  | 0, s => s
  | n + 1, s => State.keepPaceN n s.transmit.charSent

/-- As many turns as the buffer has places. -/
def State.keepPace (s : State) : State := State.keepPaceN bufferPlaces s.charSent

/-- One character of a frame that arrives back to back, with the transmitter keeping pace. -/
def State.pass (s : State) (c : LineChar) : State := s.keepPace.receive c

/-- A run of good characters with M = 0. -/
def dataChars (bytes : List Byte) : List LineChar := bytes.map (freshChar · false)

/-- The two CRC characters of an arriving frame (R15, R17). -/
def arrivingCrc (a : CrcArrival) (crc : Word) : List Byte :=
  match a with
  | .correct => wordBytes crc
  | .complement => wordBytes (~~~crc)
  | .other w => wordBytes w

/-- The bytes of a frame that its CRC covers (R15, Table 2-1). -/
def coveredBytes (kind : Byte) (body : List Byte) (attention : Byte) : List Byte :=
  kind :: wordBytes (natWord body.length) ++ body ++ [attention]

/-- The characters of a frame after its opener (Table 2-1). -/
def frameRest (kind : Byte) (body : List Byte) (tail : FrameTail) : List Byte :=
  wordBytes (natWord body.length) ++ body ++ [tail.attention] ++
    arrivingCrc tail.crc (crc16 (coveredBytes kind body tail.attention))

/-- The characters of a frame (Table 2-1). -/
def frameChars (kind : Byte) (body : List Byte) (tail : FrameTail) : List LineChar :=
  freshChar kind true :: dataChars (frameRest kind body tail)

/-- A whole frame passes, character by character; its last characters are then in the repeat buffer. -/
def State.passFrame (s : State) (kind : Byte) (body : List Byte) (tail : FrameTail) : State :=
  (frameChars kind body tail).foldl State.pass s

/-- LEVEL_FRAME (R46; R22 to R24, R37 to R47): the level body of Table 2-3. -/
def execLevelFrame (flags fade : Byte) (count : Word) (slots : List Byte) (tail : FrameTail)
    (s : State) : Host.Outcome State Fault Refusal :=
  .next (s.passFrame levelKind (flags :: fade :: wordBytes count ++ slots) tail)

/-- FOREIGN_KIND_FRAME (R22): repeated untouched apart from the attention byte and the CRC. -/
def execForeignKindFrame (kind : Byte) (body : List Byte) (tail : FrameTail) (s : State) :
    Host.Outcome State Fault Refusal :=
  .next (s.passFrame kind body tail)

/-- The bytes of one record (Table 2-6). -/
def recordBytes (code : Byte) (r : Record) : List Byte :=
  r.target :: code :: natByte r.params.length :: r.params ++
    r.status :: natByte r.reply.length :: r.reply

/-- A management frame with one record passes (Table 2-5, K = 1). -/
def State.passRecord (s : State) (code : Byte) (r : Record) : State :=
  s.passFrame managementKind (1 :: recordBytes code r) r.tail

end Sys2Proof.Machine
end

