-- ==== Sys2Proof/Machine/Records.lean ====
section
/-! DEFINITION. The management records: each is a management frame with that one record (log 1), whose
answer is decided by `answerRecord` (R158 to R160) at its status byte and whose staged write, if any, is
applied by `State.apply` at a GOOD outcome (R162). Each docstring names the rules and the definitions of
the record's own part. -/

namespace Sys2Proof.Machine

/-- IDENTIFY (R34: `State.identifyReply`, Table 2-13). -/
def execIdentify (r : Record) (s : State) : Host.Outcome State Fault Refusal :=
  .next (s.passRecord 0x01 r)

/-- READ_STATUS (R34: `State.statusReply`, Table 2-14). -/
def execReadStatus (r : Record) (s : State) : Host.Outcome State Fault Refusal :=
  .next (s.passRecord 0x02 r)

/-- READ_FAULTS (R35: `State.faultsReply`, Table 2-16). -/
def execReadFaults (r : Record) (s : State) : Host.Outcome State Fault Refusal :=
  .next (s.passRecord 0x03 r)

/-- READ_LINK (R20, R35: `judgeReadLink`, `State.clearCounters`). -/
def execReadLink (r : Record) (s : State) : Host.Outcome State Fault Refusal :=
  .next (s.passRecord 0x04 r)

/-- READ_PATCH (R163: `judgeReadPatch`). -/
def execReadPatch (r : Record) (s : State) : Host.Outcome State Fault Refusal :=
  .next (s.passRecord 0x05 r)

/-- WRITE_PATCH (R53, R56, R164: `judgeWritePatch`, `State.commitWritePatch`). -/
def execWritePatch (r : Record) (s : State) : Host.Outcome State Fault Refusal :=
  .next (s.passRecord 0x06 r)

/-- READ_GROUPS (R163: `State.groupsReply`). -/
def execReadGroups (r : Record) (s : State) : Host.Outcome State Fault Refusal :=
  .next (s.passRecord 0x07 r)

/-- WRITE_GROUP (R55, R164: `judgeWriteGroup`, `State.commitWriteGroup`). -/
def execWriteGroup (r : Record) (s : State) : Host.Outcome State Fault Refusal :=
  .next (s.passRecord 0x08 r)

/-- READ_CURVE (R163: `judgeReadCurve`). -/
def execReadCurve (r : Record) (s : State) : Host.Outcome State Fault Refusal :=
  .next (s.passRecord 0x09 r)

/-- WRITE_CURVE (R93, R164: `judgeWriteCurve`, `State.commitWriteCurve`). -/
def execWriteCurve (r : Record) (s : State) : Host.Outcome State Fault Refusal :=
  .next (s.passRecord 0x0A r)

/-- READ_NODE (R163: `NodeSettings.toBytes`). -/
def execReadNode (r : Record) (s : State) : Host.Outcome State Fault Refusal :=
  .next (s.passRecord 0x0B r)

/-- WRITE_NODE (R165: `judgeWriteNode`, `State.commitWriteNode`). -/
def execWriteNode (r : Record) (s : State) : Host.Outcome State Fault Refusal :=
  .next (s.passRecord 0x0C r)

/-- SET_MASKS (R121, R127: `judgeSetMasks`, `State.commitSetMasks`). -/
def execSetMasks (r : Record) (s : State) : Host.Outcome State Fault Refusal :=
  .next (s.passRecord 0x0D r)

/-- RECALL_SCENE (R64, R65, R168: `judgeRecall`, `State.recall`). -/
def execRecallScene (r : Record) (s : State) : Host.Outcome State Fault Refusal :=
  .next (s.passRecord 0x10 r)

/-- CAPTURE_SCENE (R149, R151, R169: `judgeCapture`, `State.commitCapture`). -/
def execCaptureScene (r : Record) (s : State) : Host.Outcome State Fault Refusal :=
  .next (s.passRecord 0x11 r)

/-- SAVE_CONFIG (R151, R169: `judgeSaveConfig`, `State.commitSaveConfig`). -/
def execSaveConfig (r : Record) (s : State) : Host.Outcome State Fault Refusal :=
  .next (s.passRecord 0x12 r)

/-- SET_LOCK (R151, R156: `judgeSetLock`, `State.commitSetLock`). -/
def execSetLock (r : Record) (s : State) : Host.Outcome State Fault Refusal :=
  .next (s.passRecord 0x13 r)

/-- ERASE_STORE (R151, R155: `judgeEraseStore`, `State.joinQueue`). -/
def execEraseStore (r : Record) (s : State) : Host.Outcome State Fault Refusal :=
  .next (s.passRecord 0x14 r)

/-- READ_STORE (R35: `State.storeReply`, Table 2-18). -/
def execReadStore (r : Record) (s : State) : Host.Outcome State Fault Refusal :=
  .next (s.passRecord 0x15 r)

/-- FORCE (R99, R171: `judgeForce`, `OutputShaper.force`). -/
def execForce (r : Record) (s : State) : Host.Outcome State Fault Refusal :=
  .next (s.passRecord 0x18 r)

/-- RELEASE (R99, R171: `judgeRelease`, `OutputShaper.release`). -/
def execRelease (r : Record) (s : State) : Host.Outcome State Fault Refusal :=
  .next (s.passRecord 0x19 r)

/-- READ_LEVELS (R74: `judgeReadLevels`). -/
def execReadLevels (r : Record) (s : State) : Host.Outcome State Fault Refusal :=
  .next (s.passRecord 0x1A r)

/-- CLEAR_FAULTS (R122: `judgeClearFaults`, `State.commitClearFaults`). -/
def execClearFaults (r : Record) (s : State) : Host.Outcome State Fault Refusal :=
  .next (s.passRecord 0x20 r)

/-- ACK_ATTENTION (R126: `judgeAck`, `State.commitAck`). -/
def execAckAttention (r : Record) (s : State) : Host.Outcome State Fault Refusal :=
  .next (s.passRecord 0x21 r)

/-- STANDBY (R138: `judgeStandby`, `State.commitStandby`). -/
def execStandby (r : Record) (s : State) : Host.Outcome State Fault Refusal :=
  .next (s.passRecord 0x22 r)

/-- WAKE (R138: `judgeWake`, `State.commitWake`). -/
def execWake (r : Record) (s : State) : Host.Outcome State Fault Refusal :=
  .next (s.passRecord 0x23 r)

/-- RESTART (R145, R170: `judgeRestart`, `State.markRestart`). -/
def execRestart (r : Record) (s : State) : Host.Outcome State Fault Refusal :=
  .next (s.passRecord 0x24 r)

/-- ENUMERATE (R166: `judgeEnumerate`, `takeRunning`, `State.setAddress`). -/
def execEnumerate (r : Record) (s : State) : Host.Outcome State Fault Refusal :=
  .next (s.passRecord 0x30 r)

/-- ADDRESS_BY_ID (R167: `judgeAddressById`, `State.setAddress`). -/
def execAddressById (r : Record) (s : State) : Host.Outcome State Fault Refusal :=
  .next (s.passRecord 0x31 r)

/-- UNKNOWN_COMMAND (R160): a record with a code outside Table 11-4, which `judge` refuses UNKNOWN. -/
def execUnknownCommand (code : Byte) (r : Record) (s : State) : Host.Outcome State Fault Refusal :=
  .next (s.passRecord code r)

end Sys2Proof.Machine
end

