-- ==== Sys2Proof/Machine/Dispatch.lean ====
section
/-! DEFINITION. One arm per command. -/

namespace Sys2Proof.Machine

def exec (i : Instr) (s : State) : Host.Outcome State Fault Refusal :=
  match i with
  | .characterReceived c => Sys2Proof.Machine.execCharacterReceived c s
  | .characterTransmit => Sys2Proof.Machine.execCharacterTransmit s
  | .frameForwarded rate => Sys2Proof.Machine.execFrameForwarded rate s
  | .stallTimeout => Sys2Proof.Machine.execStallTimeout s
  | .bypassOpen => Sys2Proof.Machine.execBypassOpen s
  | .levelFrame flags fade count slots tail => Sys2Proof.Machine.execLevelFrame flags fade count slots tail s
  | .foreignKindFrame kind body tail => Sys2Proof.Machine.execForeignKindFrame kind body tail s
  | .identify r => Sys2Proof.Machine.execIdentify r s
  | .readStatus r => Sys2Proof.Machine.execReadStatus r s
  | .readFaults r => Sys2Proof.Machine.execReadFaults r s
  | .readLink r => Sys2Proof.Machine.execReadLink r s
  | .readPatch r => Sys2Proof.Machine.execReadPatch r s
  | .writePatch r => Sys2Proof.Machine.execWritePatch r s
  | .readGroups r => Sys2Proof.Machine.execReadGroups r s
  | .writeGroup r => Sys2Proof.Machine.execWriteGroup r s
  | .readCurve r => Sys2Proof.Machine.execReadCurve r s
  | .writeCurve r => Sys2Proof.Machine.execWriteCurve r s
  | .readNode r => Sys2Proof.Machine.execReadNode r s
  | .writeNode r => Sys2Proof.Machine.execWriteNode r s
  | .setMasks r => Sys2Proof.Machine.execSetMasks r s
  | .recallScene r => Sys2Proof.Machine.execRecallScene r s
  | .captureScene r => Sys2Proof.Machine.execCaptureScene r s
  | .saveConfig r => Sys2Proof.Machine.execSaveConfig r s
  | .setLock r => Sys2Proof.Machine.execSetLock r s
  | .eraseStore r => Sys2Proof.Machine.execEraseStore r s
  | .readStore r => Sys2Proof.Machine.execReadStore r s
  | .force r => Sys2Proof.Machine.execForce r s
  | .release r => Sys2Proof.Machine.execRelease r s
  | .readLevels r => Sys2Proof.Machine.execReadLevels r s
  | .clearFaults r => Sys2Proof.Machine.execClearFaults r s
  | .ackAttention r => Sys2Proof.Machine.execAckAttention r s
  | .standby r => Sys2Proof.Machine.execStandby r s
  | .wake r => Sys2Proof.Machine.execWake r s
  | .restart r => Sys2Proof.Machine.execRestart r s
  | .enumerate r => Sys2Proof.Machine.execEnumerate r s
  | .addressById r => Sys2Proof.Machine.execAddressById r s
  | .unknownCommand code r => Sys2Proof.Machine.execUnknownCommand code r s
  | .tick => Sys2Proof.Machine.execTick s
  | .lossTimerExpiry => Sys2Proof.Machine.execLossTimerExpiry s
  | .holdOffExpiry => Sys2Proof.Machine.execHoldOffExpiry s
  | .forceExpiry channel => Sys2Proof.Machine.execForceExpiry channel s
  | .quietTimerExpiry => Sys2Proof.Machine.execQuietTimerExpiry s
  | .wakeComplete => Sys2Proof.Machine.execWakeComplete s
  | .periodStart => Sys2Proof.Machine.execPeriodStart s
  | .onPhaseEnd channel sinkMv => Sys2Proof.Machine.execOnPhaseEnd channel sinkMv s
  | .rotationDue => Sys2Proof.Machine.execRotationDue s
  | .temperatureResult raw => Sys2Proof.Machine.execTemperatureResult raw s
  | .supplyResult raw => Sys2Proof.Machine.execSupplyResult raw s
  | .auxResult raw => Sys2Proof.Machine.execAuxResult raw s
  | .pageWriteCompletion late readBack => Sys2Proof.Machine.execPageWriteCompletion late readBack s
  | .pageWriteTimeout => Sys2Proof.Machine.execPageWriteTimeout s
  | .eraseCompletion late => Sys2Proof.Machine.execEraseCompletion late s
  | .eraseTimeout => Sys2Proof.Machine.execEraseTimeout s
  | .rstnFall => Sys2Proof.Machine.execRstnFall s
  | .rstnRise lowMicros rate => Sys2Proof.Machine.execRstnRise lowMicros rate s
  | .rstnLongPulse => Sys2Proof.Machine.execRstnLongPulse s
  | .powerOn => Sys2Proof.Machine.execPowerOn s
  | .vddReachesThreshold rate => Sys2Proof.Machine.execVddReachesThreshold rate s
  | .brownOut => Sys2Proof.Machine.execBrownOut s
  | .startBitConfirmed low => Sys2Proof.Machine.execStartBitConfirmed low s
  | .stopLevelRegained => Sys2Proof.Machine.execStopLevelRegained s
  | .characterSent => Sys2Proof.Machine.execCharacterSent s

end Sys2Proof.Machine
end

