-- ==== Sys2Proof/WellFormed.lean ====
section
/-! DEFINITION. The commands whose operands the spec's layouts can carry. -/

namespace Sys2Proof

/-- The command codes of Table 11-4. -/
def commandCodes : List Byte :=
  [0x01, 0x02, 0x03, 0x04, 0x05, 0x06, 0x07, 0x08, 0x09, 0x0A, 0x0B, 0x0C, 0x0D,
   0x10, 0x11, 0x12, 0x13, 0x14, 0x15, 0x18, 0x19, 0x1A, 0x20, 0x21, 0x22, 0x23, 0x24,
   0x30, 0x31]

/-- A record whose parts fit Table 2-6: plen 0 to 32, rlen 0 to 48. -/
def Record.wellFormed (r : Record) : Bool :=
  decide (r.params.length ≤ 32) && decide (r.reply.length ≤ 48)

/-- Operands in the ranges of the layouts: a level body of at most 65535 bytes (its length field has
16 bits, R22), a foreign kind that is neither 0A1H nor 0A2H (Table 2-2), records by Table 2-6, an
unknown code outside Table 11-4, a read-back of 128 bytes (R146). -/
def Instr.wellFormed : Instr → Bool
  | .levelFrame _ _ _ slots _ => decide (slots.length + 4 ≤ 65535)
  | .foreignKindFrame kind body _ => decide (kind ≠ 0xA1) && decide (kind ≠ 0xA2) && decide (body.length ≤ 65535)
  | .identify r => r.wellFormed
  | .readStatus r => r.wellFormed
  | .readFaults r => r.wellFormed
  | .readLink r => r.wellFormed
  | .readPatch r => r.wellFormed
  | .writePatch r => r.wellFormed
  | .readGroups r => r.wellFormed
  | .writeGroup r => r.wellFormed
  | .readCurve r => r.wellFormed
  | .writeCurve r => r.wellFormed
  | .readNode r => r.wellFormed
  | .writeNode r => r.wellFormed
  | .setMasks r => r.wellFormed
  | .recallScene r => r.wellFormed
  | .captureScene r => r.wellFormed
  | .saveConfig r => r.wellFormed
  | .setLock r => r.wellFormed
  | .eraseStore r => r.wellFormed
  | .readStore r => r.wellFormed
  | .force r => r.wellFormed
  | .release r => r.wellFormed
  | .readLevels r => r.wellFormed
  | .clearFaults r => r.wellFormed
  | .ackAttention r => r.wellFormed
  | .standby r => r.wellFormed
  | .wake r => r.wellFormed
  | .restart r => r.wellFormed
  | .enumerate r => r.wellFormed
  | .addressById r => r.wellFormed
  | .unknownCommand code r => decide (code ∉ commandCodes) && r.wellFormed
  | .pageWriteCompletion _ (.holds bytes) => decide (bytes.length = 128)
  | .pageWriteCompletion _ .asProgrammed => true
  | .characterReceived _ => true
  | .characterTransmit => true
  | .frameForwarded _ => true
  | .stallTimeout => true
  | .bypassOpen => true
  | .tick => true
  | .lossTimerExpiry => true
  | .holdOffExpiry => true
  | .forceExpiry _ => true
  | .quietTimerExpiry => true
  | .wakeComplete => true
  | .periodStart => true
  | .onPhaseEnd _ _ => true
  | .rotationDue => true
  | .temperatureResult _ => true
  | .supplyResult _ => true
  | .auxResult _ => true
  | .pageWriteTimeout => true
  | .eraseCompletion _ => true
  | .eraseTimeout => true
  | .rstnFall => true
  | .rstnRise _ _ => true
  | .rstnLongPulse => true
  | .powerOn => true
  | .vddReachesThreshold _ => true
  | .brownOut => true
  | .startBitConfirmed _ => true
  | .stopLevelRegained => true
  | .characterSent => true

end Sys2Proof
end

