-- ==== Sys2Proof/Safety.lean ====
section
/-! DEFINITION. The words the statements are made of: the link at rest between frames, what a record
looks like after it has passed the node, and the invariants of the node's state. -/

namespace Sys2Proof.Machine

/-! ## The link between frames -/

/-- Between frames, outside bypass: receiver and transmitter at rest, no character waiting, no frame in
passage, nothing captured, staged or claimed. -/
structure LinkRest (s : State) : Prop where
  bypass : s.lpu.bypass = false
  rx : s.lpu.rx = .hunting
  tx : s.lpu.tx = none
  buffer : s.lpu.buffer = []
  tracker : s.lpu.tracker = .idle
  si : s.si = clearIntake
  me : s.me = emptyExecutor
  claim : s.al.claim = false

/-- A kind whose body nobody reads (Table 2-2). -/
def Foreign (kind : Byte) : Prop := kind ≠ levelKind ∧ kind ≠ managementKind

/-! ## The attention byte (R127, R128) -/

/-- The node claims an attention byte that arrived as d. -/
def State.claims (s : State) (d : Byte) : Bool := decide (d = 0) && s.attentionActive s.node.address

/-- The attention byte as the node sends it. -/
def State.attentionSent (s : State) (d : Byte) : Byte :=
  if s.claims d then natByte s.node.address.val else d

/-! ## The end of a frame of error-free characters (R12, R16 to R18) -/

/-- The characters sent for a run of frame bytes: the opener, then data characters. -/
def frameOut : List Byte → List LineChar
  | [] => []
  | k :: ds => freshChar k true :: dataChars ds

/-- R17 for a frame with no mark but perhaps the format mark. -/
def outcomeOf (fmt : Bool) (w rx : Word) : FrameOutcome :=
  if fmt then .format else if w = rx then .good else if w = ~~~rx then .poisoned else .damaged

/-- The CRC sent, from the outcome and the sent-side register (R18). -/
def crcFor (o : FrameOutcome) (tx : Word) : Word := if o = .good then tx else ~~~tx

/-- The two CRC characters as they wait in the repeat buffer after the last one (R12). -/
def crcPlaces (hi lo : Byte) (crc : Word) (restarts : Bool) : List Place :=
  [{ data := hi, mark := false, released := true, sub := some (hiByte crc), covered := false,
     forwards := false, restarts := false },
   { data := lo, mark := false, released := true, sub := some (loByte crc), covered := false,
     forwards := true, restarts := restarts }]

/-- The CRC that arrives, as a value. -/
def arrivingWord (a : CrcArrival) (crc : Word) : Word :=
  match a with
  | .correct => crc
  | .complement => ~~~crc
  | .other w => w

/-- The outcome at the last CRC character of an unmarked frame whose CRC arrives so. -/
def arrivalOutcome (fmt : Bool) (a : CrcArrival) (crc : Word) : FrameOutcome :=
  outcomeOf fmt (arrivingWord a crc) crc

/-- The outcome of a frame of error-free characters, from its bytes. -/
def frameOutcome (fmt : Bool) (kind : Byte) (body : List Byte) (tail : FrameTail) : FrameOutcome :=
  arrivalOutcome fmt tail.crc (crc16 (coveredBytes kind body tail.attention))

/-- The node after a whole frame of error-free characters with outcome o, received as `body` and sent on
as `sentBody`: c is the node as the frame's commits leave it (c is s where nothing is committed). All but
the two CRC characters has been sent, the attention byte perhaps claimed; the frame has been counted. -/
def State.afterFrame (s : State) (o : FrameOutcome) (kind : Byte) (body sentBody : List Byte)
    (tail : FrameTail) (restarts : Bool) (c : State) : State :=
  let sent := coveredBytes kind sentBody (s.attentionSent tail.attention)
  let w := arrivingWord tail.crc (crc16 (coveredBytes kind body tail.attention))
  { c with
    lpu := { s.lpu with
      buffer := crcPlaces (hiByte w) (loByte w) (crcFor o (crc16 sent)) restarts
      stallTimer := false
      counters := c.lpu.counters.countOutcome o
      lout := s.lpu.lout ++ frameOut sent }
    al := { c.al with
      holdOff := if s.claims tail.attention = true ∧ o = .good then some holdOffTicks
        else c.al.holdOff } }

/-- The node after a frame over the length limit whose characters are `bytes` (R10): it is counted, all
its characters go on as they came, the last of them still waiting, and the tracker is in PASS. -/
def State.afterOverlong (s : State) (bytes : List Byte) : State :=
  { s with
    lpu := { s.lpu with
      buffer := [Place.of (bytes.getLastD 0) false true false none]
      tracker := .pass
      stallTimer := false
      counters := { s.lpu.counters with damaged := countUp s.lpu.counters.damaged }
      lout := s.lpu.lout ++ frameOut bytes.dropLast } }

/-! ## A record after its passage (R27, R36, R159, R166) -/

/-- The node's answer to a record. -/
def State.recordAnswer (s : State) (code : Byte) (r : Record) : Answer :=
  answerRecord s s.node.address r.target code r.params r.status

/-- The first bytes of a reply area replaced. -/
def overlay (new old : List Byte) : List Byte := new.take old.length ++ old.drop new.length

/-- The status byte as the node sends it, with `room` bytes of reply area. -/
def passedStatus (a : Answer) (status : Byte) (room : Nat) : Byte :=
  if a.writes then
    match a.verdict with
    | .untouched => status
    | .refuse st => st.code
    | .accept reply staged =>
      if room < replyLength reply staged then Status.noRoom.code else Status.done.code
  else status

/-- A running address that ENUMERATE gives out: 1 to 250. -/
def givesOut (b : Byte) : Bool := decide (1 ≤ b.toNat) && decide (b.toNat ≤ 250)

/-- The reply area of an accepted ENUMERATE: the next address in reply byte 0. -/
def runningReply : List Byte → List Byte
  | [] => []
  | b :: rest => (if givesOut b then b + 1 else b) :: rest

/-- The reply area as the node sends it. -/
def passedReply (a : Answer) (target code : Byte) (address : Fin 251) (reply : List Byte) :
    List Byte :=
  match a.verdict with
  | .untouched => reply
  | .refuse _ =>
    if target = broadcastTarget ∧ a.writes = true ∧ Cmd.ofCode? code ≠ some .enumerate then
      overlay [natByte address.val] reply
    else reply
  | .accept _ (some (.enumerate _)) => runningReply reply
  | .accept out staged =>
    if reply.length < replyLength out staged then reply
    else if a.writes then overlay out reply else reply

/-- The staged writes that the record leaves on the commit list. -/
def passedCommits (a : Answer) (reply : List Byte) : List Staged :=
  match a.verdict with
  | .untouched => []
  | .refuse _ => []
  | .accept _ none => []
  | .accept _ (some (.enumerate _)) =>
    match reply with
    | [] => []
    | b :: _ =>
      if givesOut b then [.enumerate (finOf? 251 b.toNat)] else []
  | .accept out (some e) => if reply.length < replyLength out (some e) then [] else [e]

/-- The record as the node sends it. -/
def State.recordSent (s : State) (code : Byte) (r : Record) : Record :=
  { r with
    status := passedStatus (s.recordAnswer code r) r.status r.reply.length
    reply := passedReply (s.recordAnswer code r) r.target code s.node.address r.reply }

/-- The code of a command (Table 11-4). -/
def Cmd.code : Cmd → Byte
  | .identify => 0x01
  | .readStatus => 0x02
  | .readFaults => 0x03
  | .readLink => 0x04
  | .readPatch => 0x05
  | .writePatch => 0x06
  | .readGroups => 0x07
  | .writeGroup => 0x08
  | .readCurve => 0x09
  | .writeCurve => 0x0A
  | .readNode => 0x0B
  | .writeNode => 0x0C
  | .setMasks => 0x0D
  | .recallScene => 0x10
  | .captureScene => 0x11
  | .saveConfig => 0x12
  | .setLock => 0x13
  | .eraseStore => 0x14
  | .readStore => 0x15
  | .force => 0x18
  | .release => 0x19
  | .readLevels => 0x1A
  | .clearFaults => 0x20
  | .ackAttention => 0x21
  | .standby => 0x22
  | .wake => 0x23
  | .restart => 0x24
  | .enumerate => 0x30
  | .addressById => 0x31

/-- The command of the block that carries a record with a command code. -/
def Cmd.instr : Cmd → Record → Instr
  | .identify => .identify
  | .readStatus => .readStatus
  | .readFaults => .readFaults
  | .readLink => .readLink
  | .readPatch => .readPatch
  | .writePatch => .writePatch
  | .readGroups => .readGroups
  | .writeGroup => .writeGroup
  | .readCurve => .readCurve
  | .writeCurve => .writeCurve
  | .readNode => .readNode
  | .writeNode => .writeNode
  | .setMasks => .setMasks
  | .recallScene => .recallScene
  | .captureScene => .captureScene
  | .saveConfig => .saveConfig
  | .setLock => .setLock
  | .eraseStore => .eraseStore
  | .readStore => .readStore
  | .force => .force
  | .release => .release
  | .readLevels => .readLevels
  | .clearFaults => .clearFaults
  | .ackAttention => .ackAttention
  | .standby => .standby
  | .wake => .wake
  | .restart => .restart
  | .enumerate => .enumerate
  | .addressById => .addressById

/-- The record is sent to the node alone, and no node has answered it (Table 11-1). -/
def State.directed (s : State) (r : Record) : Prop :=
  r.target.toNat = s.node.address.val ∧ r.status = 0x00

/-- The node answers the record, or acts on it as a broadcast (Tables 11-1, 11-2). -/
def State.takes (s : State) (r : Record) : Prop := r.target = broadcastTarget ∨ s.directed r

/-- An accepted record as the node sends it: DONE over a status of 00H, with its reply bytes. -/
def answeredRecord (r : Record) (reply : List Byte) : Record :=
  if r.status = 0x00 then { r with status := Status.done.code, reply := overlay reply r.reply } else r

/-- A refused record as the node sends it (Table 11-2, R160). -/
def State.refusedRecord (s : State) (code : Byte) (r : Record) (st : Status) : Record :=
  if r.target = broadcastTarget then
    if r.status = 0x00 ∨ r.status = 0x01 then
      { r with status := st.code,
               reply := if code = 0x30 then r.reply else overlay [natByte s.node.address.val] r.reply }
    else r
  else { r with status := st.code }

/-- The node after a management frame with one record, sent on as `sent`. -/
def State.afterRecord (s : State) (o : FrameOutcome) (code : Byte) (r sent : Record)
    (restarts : Bool) (c : State) : State :=
  s.afterFrame o managementKind (1 :: recordBytes code r) (1 :: recordBytes code sent) r.tail
    restarts c

/-- The outcome of a management frame with one record. -/
def recordOutcome (code : Byte) (r : Record) : FrameOutcome :=
  frameOutcome false managementKind (1 :: recordBytes code r) r.tail

/-- The node after a refused record, whatever its frame's outcome: nothing is committed. -/
def State.afterRefusal (s : State) (code : Byte) (r : Record) (st : Status) : State :=
  s.afterRecord (recordOutcome code r) code r (s.refusedRecord code r st) false s

/-- The node after a record that it leaves untouched. -/
def State.afterUntouched (s : State) (code : Byte) (r : Record) : State :=
  s.afterRecord (recordOutcome code r) code r r false s

/-- The node after an accepted record in a GOOD frame: c is the node as the record's commit leaves it. -/
def State.afterAccepted (s : State) (code : Byte) (r : Record) (reply : List Byte) (c : State) : State :=
  s.afterRecord .good code r (answeredRecord r reply) false c

/-- A record that the node takes arrives alone in a frame with the correct CRC, on a link at rest. -/
structure TakenRecord (s : State) (r : Record) : Prop where
  rest : LinkRest s
  wf : r.wellFormed = true
  takes : s.takes r
  crc : r.tail.crc = .correct

/-- A record sent to this node alone, in a frame with the correct CRC, on a link at rest. -/
structure DirectedRecord (s : State) (r : Record) : Prop where
  rest : LinkRest s
  wf : r.wellFormed = true
  directed : s.directed r
  crc : r.tail.crc = .correct

/-- The number of params a command requires (Table 11-4). -/
def Cmd.lengthOk (c : Cmd) (params : List Byte) : Prop :=
  match c with
  | .identify | .readStatus | .readFaults | .readGroups | .readNode | .readStore => params.length = 0
  | .saveConfig | .setLock | .eraseStore | .standby | .wake | .restart => params.length = 0
  | .readLink | .ackAttention | .enumerate => params.length = 1
  | .readPatch | .readLevels | .captureScene => params.length = 2
  | .readCurve | .release => params.length = 3
  | .writePatch => 2 ≤ params.length ∧ params.length = 2 + 4 * (params.getD 1 0).toNat
  | .writeGroup => params.length = 4
  | .writeCurve => 3 ≤ params.length ∧ params.length = 3 + 2 * (params.getD 2 0).toNat
  | .writeNode => params.length = 13
  | .setMasks | .addressById => params.length = 7
  | .recallScene => params.length = 1 ∨ params.length = 2
  | .force | .clearFaults => params.length = 6

/-- The list with the entries from place k on replaced. -/
def replaceFrom {α : Type} (old : List α) (k : Nat) (new : List α) : List α :=
  old.take k ++ new ++ old.drop (k + new.length)

/-! ## A level frame (R23, R42 to R46) -/

/-- The 16-bit slot values of a level body, slot 0 first. -/
def levelValues (flags : Byte) (slots : List Byte) : List Word :=
  if has flags 0 then wordsOf slots else slots.map widen

/-- The value of the slot that feeds a place, where it is present. -/
def State.slotFor (s : State) (values : List Word) (place : Nat) : Option Word :=
  match (s.feed place).offset with
  | none => none
  | some o => values[s.node.slotBase.val + o.toNat]?

/-- The captured set of a level frame, from its bytes. -/
def State.capturedSet (s : State) (flags fade : Byte) (slots : List Byte) : List Item :=
  (List.range 28).filterMap fun i =>
    (s.slotFor (levelValues flags slots) i).map fun v =>
      { place := i, value := v, code := (s.feed i).fade.resolve fade }

/-- A level body whose count agrees with its length (R24). -/
def levelBodyConsistent (flags : Byte) (count : Word) (slots : List Byte) : Bool :=
  levelConsistent (4 + slots.length) count.toNat (has flags 0)

/-! ## Characters (R1, R2, R6) -/

/-- The ones among D0 to D7, M and P of a character (R1). -/
def onesOf (c : LineChar) : Nat :=
  (List.range 8).countP (fun k => c.data.getLsbD k) + c.mark.toNat + c.parity.toNat

/-- The LPU when a character has completed, before the tracker sees it: the receiver hunts again or waits
for the stop level, and a character error and an overrun are counted. -/
def State.arrived (s : State) (c : LineChar) : Lpu :=
  { s.lpu with
    rx := if c.stop then .hunting else .awaitStop
    counters := { s.lpu.counters with
      charErrors :=
        if charError c then countUp s.lpu.counters.charErrors else s.lpu.counters.charErrors
      overruns :=
        if 8 ≤ s.lpu.buffer.length then countUp s.lpu.counters.overruns
        else s.lpu.counters.overruns } }

/-- The node receives characters: outside bypass, and not waiting for the stop level (R1, R7). -/
def State.receives (s : State) : Prop := s.lpu.bypass = false ∧ s.lpu.rx ≠ .awaitStop

/-- A frame begins on `opener` with a buffer b and counters that the characters before have left (R9). -/
def State.begun (s : State) (opener : LineChar) (b : List Place) (counters : LinkCounters) : State :=
  let full := decide (8 ≤ s.lpu.buffer.length)
  { s with
    lpu := { s.arrived opener with
      counters := counters
      buffer := if full then b else b ++ [Place.of opener.data true false false none]
      tracker := .frame
        { kind := opener.data, phase := .head, length := 0, position := 0,
          charError := charError opener, overrun := full, format := false,
          rxCrc := crc16 [opener.data], txCrc := if full then 0xFFFF else crc16 [opener.data],
          crcIn := 0, address := s.node.address }
      stallTimer := true }
    si := { places := List.replicate 28 none,
            intake := if opener.data = 0xA1 then some s.beginIntake else none }
    me := { emptyExecutor with
      parser := if opener.data = 0xA2 then some Parser.begin else none } }

/-- The context when a character with M = 0 has been counted: its place, a character error and an overrun
mark the frame (R2, R6; at the last CRC character log 17). -/
def FrameCtx.counted (f : FrameCtx) (c : LineChar) (full : Bool) : FrameCtx :=
  { f with position := f.position + 1, charError := f.charError || Machine.charError c,
           overrun := f.overrun || full }

/-- The frame goes on with context f (R4, R11, R14): the character held before, standing in `held`, is
released and enters the sent-side CRC as sent; c is held, or dropped when all places are occupied. -/
def State.goesOn (s : State) (c : LineChar) (f : FrameCtx) (held : List Place) (covered : Bool)
    (sub : Option Byte) : State :=
  { s with
    lpu := { s.arrived c with
      buffer :=
        if 8 ≤ s.lpu.buffer.length then releaseHeld held
        else releaseHeld held ++ [Place.of c.data false false covered sub]
      tracker := .frame { f with txCrc := feedSent f.txCrc held }
      stallTimer := true } }

/-- A body byte that neither consumer takes: the body goes on, or its last byte enters TRAIL (R11). -/
def FrameCtx.afterBody (f : FrameCtx) (fault : Bool) : FrameCtx :=
  { f with format := fault, phase := if f.position = f.length + 2 then .trail else .body }

/-- The character c is a body byte of a management frame in passage whose parser is p (R11, R25). -/
structure BodyByte (s : State) (c : LineChar) (f : FrameCtx) (p : Parser) : Prop where
  receives : s.receives
  data : c.mark = false
  tracker : s.lpu.tracker = .frame f
  body : f.phase = .body
  kind : f.kind = 0xA2
  sound : f.format = false
  parser : s.me.parser = some p

/-- R26, conditions 1 to 5 and 7: the byte b is one at which the Executor finds the body inconsistent, with
`remaining` body bytes after it. -/
def Parser.faultyByte (p : Parser) (remaining : Nat) (b : Byte) : Prop :=
  (p.field = .count ∧ (b.toNat = 0 ∨ 8 < b.toNat)) ∨
  (p.field = .plen ∧ (32 < b.toNat ∨ remaining < b.toNat + 2)) ∨
  (p.field = .rlen ∧ (48 < b.toNat ∨ remaining < b.toNat)) ∨
  p.field = .done

/-! ## Modes and duties (R97, R136) -/

/-- What the quiet timer holds once MC has looked at it (R136). -/
def State.quietTimerNow (s : State) : Option Nat :=
  if s.mc.mode = .run ∧ s.node.quiet = true ∧ s.dark = true then
    some (s.mc.quietTimer.getD quietTicks)
  else none

/-- MON where a mode other than QUIET is entered from QUIET, at the 10 ms interval (R140). -/
def Monitor.catchUp (m : Monitor) : Monitor :=
  if m.rotationDue 10 then m.rotationFallsDue else m

/-! ## Node reset (R7, R21, R59, R87, R99, R115, R116, R124, R131 to R133, R157) -/

/-- The node when a node reset has begun, with the pages as it leaves them: every block at its node-reset
values; the live lock, configuration, shadow and load-fault set, the readings and the pins stand. -/
def State.heldReset (s : State) (pages : List Page) (freeCount : Nat) : State :=
  { s with
    lpu := { s.lpu with
      bypass := true, rx := .hunting, tx := none, buffer := [], tracker := .idle,
      stallTimer := false, counters := zeroCounters }
    si := { places := List.replicate 28 none, intake := none }
    ss := { source := .stream, lossTimer := .off, live := false }
    fe := { contexts := List.replicate 28 { level := 0, target := 0, remaining := 0 },
            timebase := false }
    os := { s.os with forces := List.replicate 24 .inactive, duty := List.replicate 24 0 }
    pwu := { s.pwu with
      running := false, count := 0, phase := 0, drivers := .up,
      channels := List.replicate 24 { block := .blocked, onCount := 0, endDue := false } }
    fm := { s.fm with
      openCount := List.replicate 24 0, shortCount := List.replicate 24 0, openLatch := 0,
      shortLatch := 0 }
    al := { s.al with reasons := 1, holdOff := none, claim := false }
    mon := { s.mon with
      thermal := .normal, ceiling := 64, supplyState := .normal, converting := none,
      sinceStart := none, dueAgain := false }
    mc := { s.mc with mode := .reset, returnMode := .run, quietTimer := none, restartPending := false }
    stc := { s.stc with
      pages := pages, pageBuffer := none, snapshot := none, queue := [], activity := .idle,
      lastFailure := none }
    me := { parser := none, commits := [], reservations := [], coalesced := [], restartMark := false }
    freeCount := freeCount }

/-- The pages that a node reset leaves: a page being written is corrupt, an erase leaves every page
indeterminate. -/
def State.leavesPages (s : State) (pages : List Page) (freeCount : Nat) : Prop :=
  match s.stc.activity with
  | .running (.page p) => pages = s.stc.pages.set p.val .cutOff ∧ freeCount = s.freeCount
  | .running .erase => pages.length = 23 ∧ freeCount = s.freeCount + 1
  | .idle => pages = s.stc.pages ∧ freeCount = s.freeCount
  | .waiting _ => pages = s.stc.pages ∧ freeCount = s.freeCount

/-- The thermal state after a result t, by the first line of R143's table that applies. -/
def thermalAfter (old : Thermal) (ceiling : Nat) (t : Int) : Thermal :=
  if old ≠ .hot ∧ 160 ≤ t then .hot
  else if old = .normal ∧ 135 ≤ t then .derate
  else if old = .normal ∧ 125 ≤ t then .warm
  else if old = .warm ∧ 135 ≤ t then .derate
  else if old = .warm ∧ t < 120 then .normal
  else if old = .derate ∧ ceiling = 64 ∧ t < 130 then (if 120 ≤ t then .warm else .normal)
  else if old = .hot ∧ t ≤ 145 then .derate
  else old

/-! ## Invariants -/

/-- Every list of the state has the length the spec gives it: 28 capture places and contexts, 24
channels, 4 groups, 4 tables of 33 points, 23 pages of 128 bytes, 16 scenes of 28 targets, a repeat
buffer of at most 8 places. -/
structure WellShaped (s : State) : Prop where
  places : s.si.places.length = 28
  entries : s.pt.entries.length = 24
  groups : s.pt.groups.length = 4
  contexts : s.fe.contexts.length = 28
  tables : s.os.tables.length = 4
  points : ∀ t ∈ s.os.tables, t.length = 33
  forces : s.os.forces.length = 24
  duty : s.os.duty.length = 24
  channels : s.pwu.channels.length = 24
  openCount : s.fm.openCount.length = 24
  shortCount : s.fm.shortCount.length = 24
  pages : s.stc.pages.length = 23
  pageBytes : ∀ b, Page.bytes b ∈ s.stc.pages → b.length = 128
  pageBuffer : ∀ b, s.stc.pageBuffer = some b → b.length = 128
  writing : ∀ p, s.stc.activity = .running (.page p) → s.stc.pageBuffer ≠ none
  snapshot : ∀ l, s.stc.snapshot = some l → ∀ c ∈ l, c.length ≤ 126
  shadow : s.stc.shadow.length = 16
  targets : ∀ r ∈ s.stc.shadow, r.targets.length = 28
  buffer : s.lpu.buffer.length ≤ 8

/-- R97: outside RESET and START every duty16 is the one R88 and R100 give from the inputs standing. -/
def DutiesCurrent (s : State) : Prop :=
  s.mc.mode.operating = true → s.os.duty = perChannel s.computedDuty

/-- R7, R59, R78, R102, R124, R136: what holds in RESET and START. That the loss timer, which does not run,
is OFF and not EXPIRED is the model's choice, log 10. -/
structure HeldInReset (s : State) : Prop where
  bypass : s.lpu.bypass = true
  tx : s.lpu.tx = none
  buffer : s.lpu.buffer = []
  tracker : s.lpu.tracker = .idle
  source : s.ss.source = .stream
  lossTimer : s.ss.lossTimer = .off
  timebase : s.fe.timebase = false
  quietTimer : s.mc.quietTimer = none

/-- The mode, the counter and the drivers agree (R102, R113, R114). That the drivers are up in RESET and
START is the model's choice, log 9. -/
structure CounterMatches (s : State) : Prop where
  running : s.pwu.running = true ↔ s.mc.mode.operating = true ∧ s.pwu.drivers = .up
  down : s.pwu.drivers = .down ↔ s.mc.mode = .quiet
  held : s.mc.mode.operating = false → s.pwu.drivers = .up

/-- A channel's block state and on-count (R110, R111): BLOCKED exactly while a cause holds, and no
on-count or on-phase end outside DRIVING. -/
def BlockedByCause (s : State) : Prop :=
  ∀ i, i < 24 →
    ((s.channel i).block = .blocked ↔ s.blockCause i = true) ∧
    ((s.channel i).block ≠ .driving → (s.channel i).onCount = 0 ∧ (s.channel i).endDue = false)

/-- Temperature and ceiling (R142, R143): the thermal ceiling lies in 16 to 64, and is 64 in T_NORMAL
and T_WARM. -/
def CeilingInRange (s : State) : Prop :=
  16 ≤ s.mon.ceiling ∧ s.mon.ceiling ≤ 64 ∧
    (s.mon.thermal = .normal ∨ s.mon.thermal = .warm → s.mon.ceiling = 64)

/-- A context at rest is at its target, and no fade is longer than 25500 ticks (R73, R80). -/
def FadesBounded (s : State) : Prop :=
  ∀ c ∈ s.fe.contexts, c.remaining ≤ 25500 ∧ (c.remaining = 0 → c.level = c.target)

/-- The timer does not run in a LOSS state (R67, R70). -/
def NoTimerInLoss (s : State) : Prop :=
  s.ss.source.isLoss = true → ∀ n, s.ss.lossTimer ≠ .running n

/-- The kind of store entry that a staged write asks for (Table 10-4). -/
def Staged.storeKind : Staged → Option StoreKind
  | .capture n _ _ => some (.scene n)
  | .saveConfig _ => some .config
  | .setLock _ => some .lock
  | .eraseStore => some .erase
  | .linkClear | .writePatch _ _ | .writeGroup _ _ | .writeCurve _ _ _ | .writeNode _ => none
  | .setMasks _ _ _ | .recallScene _ _ | .force _ _ _ | .release _ | .clearFaults _ _ => none
  | .ack _ | .standby | .wake | .restart | .enumerate _ | .addressById _ => none

/-- The staged write was accepted with a place of its own (Table 10-4). -/
def Staged.placed : Staged → Bool
  | .capture _ _ .accept | .saveConfig .accept | .setLock .accept | .eraseStore => true
  | _ => false

/-- The staged write was taken into an entry or a place that was there, and joins the queue itself where
none of its kind is queued at the commit (R151). -/
def Staged.coalesced : Staged → Bool
  | .capture _ _ .coalesce | .saveConfig .coalesce => true
  | _ => false

/-- How many entries of kind k a commit list adds, where one of that kind is `queued` before it (R151). -/
def joins (k : StoreKind) : Bool → List Staged → Nat
  | _, [] => 0
  | queued, e :: rest =>
    if e.storeKind = some k ∧ (e.placed = true ∨ (e.coalesced = true ∧ queued = false)) then
      joins k true rest + 1
    else joins k queued rest

/-- The staged write decided at a status byte whose rlen byte has still to come (R27). -/
def Executor.decided (m : Executor) : List Staged :=
  match m.parser with
  | none => []
  | some p =>
    match p.field, p.answer.verdict with
    | .rlen, .accept _ (some e) => [e]
    | _, _ => []

/-- What the frame in passage has staged: the commit list, and the write whose rlen byte is to come. -/
def Executor.staged (m : Executor) : List Staged := m.commits ++ m.decided

/-- The records of the frame whose rlen byte has come. -/
def Parser.answered (p : Parser) : Nat :=
  match p.field with
  | .count => 0
  | .reply _ | .done => p.index
  | .target | .command | .plen | .params _ | .status | .rlen => p.index - 1

/-- The law of the write queue (R150, with the places that the frame in passage has reserved, R151): at most
four entries, at most one CONFIG entry, an ERASE entry alone, an idle store exactly when the queue is
empty, and no entry behind the head started. -/
structure QueueLaw (s : State) : Prop where
  depth : s.stc.queue.length + s.me.reservations.length ≤ 4
  config : (s.stc.queue.map (·.kind)).count .config + s.me.reservations.count .config ≤ 1
  erase : s.queuedKind .erase = true ∨ s.reservedKind .erase = true →
    s.stc.queue.length + s.me.reservations.length = 1
  idle : s.stc.activity = .idle ↔ s.stc.queue = []
  behind : ∀ e ∈ s.stc.queue.tail, e.started = false

/-- What the Executor holds of the frame in passage (R25, R151, R162, R166, R170): at most eight staged
writes; a place reserved for every entry that the commit can add; a staged write behind every reservation
and every entry coalesced into; with the restart mark, an empty queue and no place reserved. -/
structure FrameLaw (s : State) : Prop where
  places : ∀ k, joins k (s.queuedKind k && s.me.coalesced.contains k) s.me.staged ≤
    s.me.reservations.count k
  behind : ∀ k, k ∈ s.me.reservations ∨ k ∈ s.me.coalesced →
    ∃ e ∈ s.me.staged, e.storeKind = some k ∧ (e.placed = true ∨ e.coalesced = true)
  restart : s.me.restartMark = true → s.stc.queue = [] ∧ s.me.reservations = []
  noRoom : ∀ p out e, s.me.parser = some p → p.field = .rlen → p.answer.verdict = .accept out (some e) →
    e.storeKind ≠ none → out = []
  running : ∀ p, s.me.parser = some p → p.running = true →
    ∃ v, s.me.commits.getLast? = some (.enumerate v)
  records : ∀ p, s.me.parser = some p → p.total ≤ 8 ∧ p.index ≤ p.total ∧
    s.me.commits.length ≤ p.answered ∧ (p.field = .count ∨ 1 ≤ p.index)
  noFrame : s.me.parser = none → s.me.commits = []
  commits : s.me.commits.length ≤ 8

/-- What every reachable state of the node has in common. -/
structure NodeInv (s : State) : Prop where
  held : s.mc.mode.operating = false → HeldInReset s
  counter : CounterMatches s
  blocks : BlockedByCause s
  ceiling : CeilingInRange s
  fades : FadesBounded s
  loss : NoTimerInLoss s

end Sys2Proof.Machine
end

