-- ==== Sys2Proof/Certificates/Slice0/Obligations.lean ====
section
/-! DEFINITION. The statements for the provers. -/

open Sys2Proof Sys2Proof.Machine

/-! ## The queue -/

/-- Step runs the command at the front of the queue on the state with the queue's rest. On an empty
queue the block idles: the model's choice, log 3. -/
def Obligations.StepRunsTheFrontCommand : Prop :=
  (∀ (c : Instr) (rest : List Instr) (s : State),
     step { s with pending := c :: rest } = exec c { s with pending := rest }) ∧
  (∀ s : State, s.pending = [] → step s = .next s)

/-- No command stops the block, in any state, and none touches the queue. -/
def Obligations.EveryCommandCompletesAndKeepsTheQueue : Prop :=
  ∀ (i : Instr) (s : State), ∃ t, exec i s = .next t ∧ t.pending = s.pending

/-! ## Characters (01_link_ports_and_frame_repeating.md) -/

/-- A character error is an even count of ones among D0 to D7, M and P, or a missing stop bit; the
transmitter's own characters have none. A link counter stops at 0FFFFH, and each outcome is counted
in one counter (Table 1-5). The CRC of the nine digits, and the register's step for one bit. The
outcome of a frame of error-free characters, from the CRC that arrives, and the CRC sent. -/
def Obligations.LinkArithmetic : Prop :=
  ((∀ c : LineChar, charError c = true ↔ onesOf c % 2 = 0 ∨ c.stop = false) ∧
   (∀ (d : Byte) (m : Bool), charError (freshChar d m) = false)) ∧
  (countUp 0xFFFF = 0xFFFF ∧
   (∀ c : Word, c ≠ 0xFFFF → (countUp c).toNat = c.toNat + 1) ∧
   (∀ c : LinkCounters,
     c.countOutcome .good = { c with good := countUp c.good } ∧
     c.countOutcome .damaged = { c with damaged := countUp c.damaged } ∧
     c.countOutcome .format = { c with damaged := countUp c.damaged } ∧
     c.countOutcome .overlong = { c with damaged := countUp c.damaged } ∧
     c.countOutcome .poisoned = { c with poisoned := countUp c.poisoned } ∧
     c.countOutcome .stalled = { c with stalls := countUp c.stalls } ∧
     c.countOutcome .truncated = { c with truncated := countUp c.truncated })) ∧
  (crc16 [0x31, 0x32, 0x33, 0x34, 0x35, 0x36, 0x37, 0x38, 0x39] = 0x29B1 ∧
   (∀ (crc : Word) (bit : Bool),
     crcBit crc bit =
       if crc.getLsbD 15 = bit then crc <<< 1 else (crc <<< 1) ^^^ 0x1021)) ∧
  (∀ (kind : Byte) (body : List Byte) (d : Byte),
     let crc := crc16 (kind :: wordBytes (natWord body.length) ++ body ++ [d])
     frameOutcome false kind body ⟨d, .correct⟩ = .good ∧
     frameOutcome false kind body ⟨d, .complement⟩ = .poisoned ∧
     (∀ w, w ≠ crc → w ≠ ~~~crc → frameOutcome false kind body ⟨d, .other w⟩ = .damaged) ∧
     (∀ o tx, crcFor o tx = if o = .good then tx else ~~~tx))

/-- In bypass LOUT carries what LIN carries, character by character and frame by frame, and the node
takes nothing from it. -/
def Obligations.BypassPassesEverythingUnchanged : Prop :=
  ∀ s : State, s.lpu.bypass = true →
    (∀ c : LineChar,
      exec (.characterReceived c) s =
        .next { s with lpu := { s.lpu with lout := s.lpu.lout ++ [c] } }) ∧
    (s.lpu.tx = none → s.lpu.buffer = [] →
      (∀ (kind : Byte) (body : List Byte) (tail : FrameTail),
        exec (.foreignKindFrame kind body tail) s =
          .next { s with lpu := { s.lpu with lout := s.lpu.lout ++ frameChars kind body tail } }) ∧
      (∀ (flags fade : Byte) (count : Word) (slots : List Byte) (tail : FrameTail),
        exec (.levelFrame flags fade count slots tail) s =
          .next { s with lpu := { s.lpu with
            lout := s.lpu.lout ++
              frameChars 0xA1 (flags :: fade :: wordBytes count ++ slots) tail } }) ∧
      (∀ (c : Cmd) (r : Record),
        exec (c.instr r) s =
          .next { s with lpu := { s.lpu with
            lout := s.lpu.lout ++ frameChars 0xA2 (1 :: recordBytes c.code r) r.tail } }) ∧
      (∀ (code : Byte) (r : Record),
        exec (.unknownCommand code r) s =
          .next { s with lpu := { s.lpu with
            lout := s.lpu.lout ++ frameChars 0xA2 (1 :: recordBytes code r) r.tail } }))

/-- A character with M = 0 in IDLE or PASS is repeated at once and changes nothing else; with all 8
places occupied it is dropped. In BODY a character error or an overrun marks the frame, the byte is
fed into the CRC, the character held before is released and this one is held with its substitute. A
body byte goes to its consumer, with its body position: a level frame's to the Slot Intake, a
management frame's to the Executor; a frame of foreign kind or with a format mark has none. After
byte L the frame enters TRAIL, with a format mark where the consumer finds the body too short: a level
body that ends before its slot count is read whole (L of 1 to 3) gets it, one that ends after the count
and its slots does not. -/
def Obligations.StrayAndBodyCharacters : Prop :=
  (∀ (c : LineChar) (s : State), s.receives → s.lpu.tracker = .idle ∨ s.lpu.tracker = .pass →
    c.mark = false →
      exec (.characterReceived c) s =
        .next { s with lpu := { s.arrived c with
          buffer :=
            if 8 ≤ s.lpu.buffer.length then s.lpu.buffer
            else s.lpu.buffer ++ [Place.of c.data false true false none] } }) ∧
  (∀ (c : LineChar) (s : State) (f : FrameCtx), s.receives → c.mark = false →
    s.lpu.tracker = .frame f → f.phase = .body →
    let held := s.lpu.buffer
    let g := { f.counted c (decide (8 ≤ held.length)) with rxCrc := crcByte f.rxCrc c.data }
    (f.format = true ∨ Foreign f.kind →
      exec (.characterReceived c) s = .next (s.goesOn c (g.afterBody f.format) held true none)) ∧
    (∀ t, f.format = false → f.kind = 0xA1 → s.si.intake = some t →
      let taken := s.si.takeByte t (f.position - 1) f.length c.data
      (taken.2 = true ∨ f.position + 1 ≠ f.length + 2 →
        exec (.characterReceived c) s =
          .next (({ s with si := taken.1 } : State).goesOn c (g.afterBody taken.2) held true none)) ∧
      (∀ u, taken.2 = false → f.position + 1 = f.length + 2 → taken.1.intake = some u →
        let done := taken.1.bodyEnd u
        exec (.characterReceived c) s =
          .next (({ s with si := done.1 } : State).goesOn c (g.afterBody done.2) held true none))) ∧
    (∀ p, BodyByte s c f p →
      let taken := takeBodyByte { s with lpu := s.arrived c } s.me p f.address
        (f.length + 1 - f.position) c.data
      let short := decide (f.position + 1 = f.length + 2 ∧
        ∃ q, taken.me.parser = some q ∧ q.field ≠ .done)
      exec (.characterReceived c) s =
        .next (({ s with me := taken.me } : State).goesOn c (g.afterBody (taken.fault || short))
          (resubstitute held taken.heldSub) true taken.sub))) ∧
  (∀ (si : SlotIntake) (t : Intake) (pos length : Nat) (b : Byte),
    let at_ (x : IntakeState) : SlotIntake := { si with intake := some { t with state := x } }
    let n := t.count + b.toNat
    let consistent := (t.wide = true ∧ length = 4 + 2 * n ∧ n ≤ 512) ∨
      (t.wide = false ∧ length = 4 + n ∧ n ≤ 1024)
    (t.state = .flags ∨ t.state = .fade ∨ t.state = .count → si.bodyEnd t = (at_ .stopped, true)) ∧
    (t.state = .slots → si.bodyEnd t = (at_ .ended, false)) ∧
    (t.state = .flags → si.takeByte t pos length b =
      ({ si with intake := some { t with
        wide := has b 0, seize := has b 1, state := .fade } }, false)) ∧
    (t.state = .fade → si.takeByte t pos length b =
      ({ si with intake := some { t with fade := b, state := .count } }, false)) ∧
    (t.state = .count →
      (pos = 3 → si.takeByte t pos length b =
        ({ si with intake := some { t with count := b.toNat * 256 } }, false)) ∧
      (pos ≠ 3 → consistent → si.takeByte t pos length b =
        ({ si with intake := some { t with count := n, state := .slots, slot := 0 } }, false)) ∧
      (pos ≠ 3 → ¬consistent → si.takeByte t pos length b =
        ({ si with intake := some { t with count := n, state := .stopped } }, true)))) ∧
  (∀ (c : LineChar) (s : State) (f : FrameCtx) (t : Intake), s.receives → c.mark = false →
    s.lpu.tracker = .frame f → f.phase = .body → f.kind = 0xA1 → f.format = false →
    f.position = f.length + 1 → s.si.intake = some t →
    let held := s.lpu.buffer
    let g := { f.counted c (decide (8 ≤ held.length)) with rxCrc := crcByte f.rxCrc c.data }
    let ends (state : IntakeState) (fault : Bool) : Prop :=
      ∃ (si : SlotIntake) (u : Intake), si.intake = some u ∧ u.state = state ∧
        exec (.characterReceived c) s =
          .next (({ s with si := si } : State).goesOn c (g.afterBody fault) held true none)
    (t.state = .flags ∨ t.state = .fade ∨ (t.state = .count ∧ f.length = 3) →
      ends .stopped true) ∧
    (t.state = .slots ∨ (t.state = .count ∧ f.length = 4 ∧ t.count + c.data.toNat = 0) →
      ends .ended false))

/-- A character with M = 1 begins a frame. In HEAD, BODY and TRAIL it first ends the frame in
passage TRUNCATED: the held character goes out as received, the frame is counted, a claim starts no
hold-off. The two characters after it are the length bytes, both fed into the CRC registers, and a
character error or an overrun marks the frame. L over 1040 ends the frame OVERLONG, the tracker in
PASS; L from 1 to 1040 enters BODY; L = 0 enters TRAIL, where a level or management frame gets the
format mark. -/
def Obligations.OpenerAndLengthCharacters : Prop :=
  (∀ (c : LineChar) (s : State), s.receives → c.mark = true →
    (s.lpu.tracker = .idle ∨ s.lpu.tracker = .pass →
      exec (.characterReceived c) s = .next (s.begun c s.lpu.buffer (s.arrived c).counters)) ∧
    (∀ f, s.lpu.tracker = .frame f →
      exec (.characterReceived c) s =
        .next { s.begun c (releaseAsReceived s.lpu.buffer)
            { (s.arrived c).counters with
              truncated := countUp (s.arrived c).counters.truncated } with
          al := { s.al with claim := false } })) ∧
  (∀ (c : LineChar) (s : State) (f : FrameCtx), s.receives → c.mark = false →
    s.lpu.tracker = .frame f → f.phase = .head →
    let held := s.lpu.buffer
    let full := decide (8 ≤ held.length)
    let g := { f.counted c full with
      rxCrc := crcByte f.rxCrc c.data
      txCrc := if full then f.txCrc else crcByte f.txCrc c.data }
    let n := f.length + c.data.toNat
    (f.position = 0 →
      exec (.characterReceived c) s =
        .next (s.goesOn c { g with length := c.data.toNat * 256 } held false none)) ∧
    (f.position = 1 →
      (1040 < n →
        exec (.characterReceived c) s =
          .next { s with
            lpu := { s.arrived c with
              buffer :=
                if full then releaseAsReceived held
                else releaseAsReceived held ++ [Place.of c.data false true false none]
              tracker := .pass
              stallTimer := false
              counters := { (s.arrived c).counters with
                damaged := countUp (s.arrived c).counters.damaged } }
            si := clearIntake
            me := emptyExecutor
            al := { s.al with claim := false } }) ∧
      (1 ≤ n → n ≤ 1040 →
        exec (.characterReceived c) s =
          .next (s.goesOn c { g with length := n, phase := .body } held false none)) ∧
      (n = 0 → f.format = false →
        let trail := { g with length := 0, phase := .trail }
        (Foreign f.kind →
          exec (.characterReceived c) s = .next (s.goesOn c trail held false none)) ∧
        (∀ t, f.kind = 0xA1 → s.si.intake = some t → t.state = .flags →
          exec (.characterReceived c) s =
            .next (({ s with si := { s.si with intake := some { t with state := .stopped } } }
              : State).goesOn c { trail with format := true } held false none)) ∧
        (∀ p, f.kind = 0xA2 → s.me.parser = some p → p.field ≠ .done →
          exec (.characterReceived c) s =
            .next (s.goesOn c { trail with format := true } held false none)))))

/-- The characters of TRAIL, each of which may mark the frame by a character error or an overrun (at
the last CRC character that is log 17). The attention byte: claimed with the node's address where it
arrived as 00H and attention is active. The CRC high character is held. The last CRC character: the
outcome by the five tests; both CRC characters substituted with the sent-side CRC, or with its
complement when the outcome is not GOOD; a GOOD frame's captured set and commit list are taken and a
claim starts the hold-off; otherwise everything staged in the frame is discarded. The commit list is
applied in record order as one group; then the Shaper computes where an input changed, and the store
may start. -/
def Obligations.TrailCharactersDecideTheFrame : Prop :=
  (∀ (c : LineChar) (s : State) (f : FrameCtx), s.receives → c.mark = false →
    s.lpu.tracker = .frame f → f.phase = .trail →
    let held := s.lpu.buffer
    let full := decide (8 ≤ held.length)
    let g := f.counted c full
    (f.position = f.length + 2 →
      let fed := { g with rxCrc := crcByte f.rxCrc c.data }
      let active := s.al.reasons &&& ~~~s.al.mask ≠ 0 ∧ f.address ≠ 0 ∧ s.al.holdOff = none
      (c.data = 0 ∧ active →
        exec (.characterReceived c) s =
          .next (({ s with al := { s.al with claim := true } } : State).goesOn c fed held true
            (some (natByte f.address.val)))) ∧
      (¬(c.data = 0 ∧ active) →
        exec (.characterReceived c) s = .next (s.goesOn c fed held true none))) ∧
    (f.position = f.length + 3 →
      exec (.characterReceived c) s =
        .next (s.goesOn c { g with crcIn := natWord (c.data.toNat * 256) } held false none)) ∧
    (f.position = f.length + 4 →
      let crc := f.crcIn + natWord c.data.toNat
      let o : FrameOutcome :=
        if charError c = true ∨ f.charError = true ∨ f.overrun = true ∨ full = true then .damaged
        else if f.format = true then .format
        else if crc = f.rxCrc then .good
        else if crc = ~~~f.rxCrc then .poisoned
        else .damaged
      let sent := if o = .good then f.txCrc else ~~~f.txCrc
      let last := { Place.of c.data false true false (some (loByte sent)) with
        forwards := true
        restarts := decide (o = .good ∧ Staged.restart ∈ s.me.commits) }
      let released := releaseHeld (resubstitute held (some (hiByte sent)))
      let arrived : State := { s with lpu := { s.arrived c with
        buffer := if full then released else released ++ [last] } }
      let ended (x : State) (al : Attention) : State :=
        { x with
          lpu := { x.lpu with
            tracker := .idle, stallTimer := false, counters := x.lpu.counters.countOutcome o }
          si := clearIntake
          me := emptyExecutor
          al := al }
      (o ≠ .good →
        exec (.characterReceived c) s = .next (ended arrived { s.al with claim := false })) ∧
      (o = .good →
        let taken :=
          match s.si.intake with
          | none => arrived
          | some t => (arrived.takeCapturedSet (t.items s.si.places) t.fade t.seize).reshape
        let x := taken.commitAll s.me.commits
        exec (.characterReceived c) s =
          .next (ended x { x.al with
            claim := false
            holdOff := if x.al.claim = true then some 100 else x.al.holdOff })))) ∧
  (∀ (s : State) (l : List Staged),
    let applied := l.foldl State.apply s
    let shaped := if ∃ e ∈ l, e.shapes = true then applied.reshape else applied
    ((∃ e ∈ l, e.queues = true) → s.commitAll l = shaped.startHead) ∧
    ((∀ e ∈ l, e.queues = false) → s.commitAll l = shaped))

/-- A confirmed start bit stops the stall timer, a glitch changes nothing; the regained stop level
and the end of START set the receiver to hunting. -/
def Obligations.ReceiverEvents : Prop :=
  ∀ s : State,
    (s.lpu.bypass = false → s.lpu.rx = .hunting →
      exec (.startBitConfirmed true) s =
        .next { s with lpu := { s.lpu with rx := .sampling, stallTimer := false } }) ∧
    exec (.startBitConfirmed false) s = .next s ∧
    (s.lpu.rx = .awaitStop →
      exec .stopLevelRegained s = .next { s with lpu := { s.lpu with rx := .hunting } }) ∧
    (s.lpu.bypass = true → s.mc.mode.operating = true →
      exec .bypassOpen s =
        .next { s with
          lpu := { s.lpu with bypass := false, rx := .hunting, tx := none, tracker := .idle } }) ∧
    (s.lpu.bypass = true → s.mc.mode.operating = false → exec .bypassOpen s = .next s)

/-- Idle past the stall limit in HEAD, BODY or TRAIL ends the frame STALLED; in IDLE and PASS it is
not timed. -/
def Obligations.StallEndsTheFrame : Prop :=
  ∀ s : State,
    (∀ f, s.lpu.tracker = .frame f → s.lpu.stallTimer = true →
      exec .stallTimeout s =
        .next { s with
          lpu := { s.lpu with
            buffer := releaseAsReceived s.lpu.buffer
            tracker := .idle
            stallTimer := false
            counters := { s.lpu.counters with stalls := countUp s.lpu.counters.stalls } }
          si := clearIntake
          me := emptyExecutor
          al := { s.al with claim := false } }) ∧
    (s.lpu.tracker = .idle ∨ s.lpu.tracker = .pass → exec .stallTimeout s = .next s)

/-- The idle transmitter takes the head if it is released, and sends it with its substitute, its own
M, a fresh parity bit and a correct stop bit. While a restart is pending the end of the committing
frame's last CRC character is followed by the node reset, and the end of any other character by
nothing. That the place carries the marks is the model's, log 23, and so is the RATE level that a START
begun here samples, log 20. -/
def Obligations.TransmitterSendsReleasedHead : Prop :=
  ∀ (s : State) (p : Place) (rest : List Place),
    (s.lpu.tx = none → s.lpu.buffer = p :: rest → p.released = true →
      exec .characterTransmit s = .next { s with lpu := { s.lpu with tx := some p, buffer := rest } }) ∧
    (s.lpu.buffer = p :: rest → p.released = false → exec .characterTransmit s = .next s) ∧
    (s.lpu.buffer = [] → exec .characterTransmit s = .next s) ∧
    (s.lpu.tx = some p → exec .characterTransmit s = .next s) ∧
    (s.lpu.tx = some p →
      let sent : State := { s with lpu := { s.lpu with
        tx := none
        lout := s.lpu.lout ++
          [{ data := p.sub.getD p.data, mark := p.mark,
             parity := oddParity (p.sub.getD p.data) p.mark, stop := true }] } }
      (s.mc.restartPending = false ∨ p.forwards = false ∨ p.restarts = false →
        exec .characterSent s = .next sent) ∧
      (s.mc.restartPending = true → p.forwards = true → p.restarts = true →
        exec .characterSent s = .next sent.resetNode))

/-- The frame-forwarded event: the last CRC character has been sent. Where its frame committed a
RESTART, the node reset begins; RSTn high and VDD in range take it on into START, which samples the
RATE pins. -/
def Obligations.FrameForwardedBeginsAPendingRestart : Prop :=
  ∀ (rate : BitVec 2) (s : State) (p : Place), s.lpu.tx = some p → p.forwards = true →
    let sent : Lpu := { s.lpu with
      tx := none, lout := s.lpu.lout ++ [freshChar (p.sub.getD p.data) p.mark] }
    (p.restarts = false ∨ s.mc.restartPending = false →
      exec (.frameForwarded rate) s =
        .next { s with pins := { s.pins with rate := rate }, lpu := sent }) ∧
    (p.restarts = true → s.mc.restartPending = true →
      exec (.frameForwarded rate) s =
        .next ({ s with pins := { s.pins with rate := rate }, lpu := sent } : State).resetNode) ∧
    (p.restarts = true → s.mc.restartPending = true → s.pins.vddOk = true → s.pins.rstnLow = false →
      ∃ t, exec (.frameForwarded rate) s = .next t ∧ t.mc.mode = .start ∧ t.lpu.rate = rate ∧
        t.lpu.bypass = true ∧ t.mc.restartPending = false)

/-! ## Whole frames -/

/-- A frame of foreign kind goes on as it came, apart from the attention byte and the CRC, and
changes nothing but the link and the attention claim. A frame of more than 1040 body bytes ends
OVERLONG and is repeated unchanged. A level frame that is not GOOD, by its CRC or by a count that
disagrees with its length, changes no level and no source. A management body that is inconsistent, at
a byte or by its end, gets the format mark, and from then on the Executor takes nothing of it. -/
def Obligations.FramesThatChangeOnlyTheLink : Prop :=
  (∀ (kind : Byte) (body : List Byte) (tail : FrameTail) (s : State), LinkRest s → Foreign kind →
     body.length ≤ 1040 →
       exec (.foreignKindFrame kind body tail) s =
         .next (s.afterFrame (frameOutcome false kind body tail) kind body body tail false s)) ∧
  (∀ s : State, LinkRest s →
     (∀ (kind : Byte) (body : List Byte) (tail : FrameTail), 1040 < body.length →
       body.length ≤ 65535 →
         exec (.foreignKindFrame kind body tail) s =
           .next (s.afterOverlong (kind :: frameRest kind body tail))) ∧
     (∀ (flags fade : Byte) (count : Word) (slots : List Byte) (tail : FrameTail),
       1036 < slots.length → slots.length ≤ 65531 →
         exec (.levelFrame flags fade count slots tail) s =
           .next (s.afterOverlong
             (0xA1 :: frameRest 0xA1 (flags :: fade :: wordBytes count ++ slots) tail)))) ∧
  (∀ (flags fade : Byte) (count : Word) (slots : List Byte) (tail : FrameTail) (s : State),
     LinkRest s →
     let body := flags :: fade :: wordBytes count ++ slots
     (levelBodyConsistent flags count slots = true → frameOutcome false 0xA1 body tail ≠ .good →
       exec (.levelFrame flags fade count slots tail) s =
         .next (s.afterFrame (frameOutcome false 0xA1 body tail) 0xA1 body body tail false s)) ∧
     (levelBodyConsistent flags count slots = false → slots.length ≤ 1036 →
       exec (.levelFrame flags fade count slots tail) s =
         .next (s.afterFrame .format 0xA1 body body tail false s))) ∧
  (∀ (s : State) (m : Executor) (p : Parser) (address : Fin 251) (remaining : Nat) (b : Byte),
     (p.faultyByte remaining b →
       takeBodyByte s m p address remaining b =
         { me := m, sub := none, heldSub := none, fault := true }) ∧
     (¬ p.faultyByte remaining b → (takeBodyByte s m p address remaining b).fault = false)) ∧
  (∀ (c : LineChar) (s : State) (f : FrameCtx) (p : Parser), BodyByte s c f p →
     let remaining := f.length + 1 - f.position
     let held := s.lpu.buffer
     let g := { f.counted c (decide (8 ≤ held.length)) with rxCrc := crcByte f.rxCrc c.data }
     let taken := takeBodyByte { s with lpu := s.arrived c } s.me p f.address remaining c.data
     (p.faultyByte remaining c.data →
       exec (.characterReceived c) s = .next (s.goesOn c (g.afterBody true) held true none)) ∧
     (∀ q, f.position + 1 = f.length + 2 → ¬ p.faultyByte remaining c.data →
       taken.me.parser = some q → q.field ≠ .done →
         exec (.characterReceived c) s =
           .next (({ s with me := taken.me } : State).goesOn c (g.afterBody true)
             (resubstitute held taken.heldSub) true taken.sub)))

/-- A level frame with outcome GOOD: its captured set is taken as one group, and the Shaper
computes. -/
def Obligations.GoodLevelFrameHandsOverItsCapturedSet : Prop :=
  ∀ (flags fade : Byte) (count : Word) (slots : List Byte) (tail : FrameTail) (s : State),
    LinkRest s → levelBodyConsistent flags count slots = true → tail.crc = .correct →
      exec (.levelFrame flags fade count slots tail) s =
        .next (s.afterFrame .good 0xA1 (flags :: fade :: wordBytes count ++ slots)
          (flags :: fade :: wordBytes count ++ slots) tail false
          (s.takeCapturedSet (s.capturedSet flags fade slots) fade (has flags 1)).reshape)

/-- The feed of each place (R39), and no item for a place without one. What a captured set does in
each source state: an empty one nothing; any other restarts the loss timer and sets the stream flag;
it is discarded in CUE without SEIZE, and else retargets the captured places, after the PARK
channels where the source changes to STREAM. -/
def Obligations.CapturedSetBySourceState : Prop :=
  (∀ s : State,
     (∀ i, i < 24 → ∀ o, (s.entry i).source = .slot o → (s.feed i).offset = some o) ∧
     (∀ i, i < 24 → ∀ b, (s.entry i).source = .park b → (s.feed i).offset = none) ∧
     (∀ g, g < 4 → ∀ o, (s.group g).kind = .slot o → (s.feed (24 + g)).offset = some o) ∧
     (∀ g, g < 4 → (s.group g).kind = .none → (s.feed (24 + g)).offset = none) ∧
     (∀ i, (s.feed i).offset = none →
       ∀ (flags fade : Byte) (slots : List Byte), ∀ x ∈ s.capturedSet flags fade slots, x.place ≠ i)) ∧
  (∀ (flags fade : Byte) (slots : List Byte) (seize : Bool) (s : State), WellShaped s →
     let items := s.capturedSet flags fade slots
     let values := levelValues flags slots
     let timer : LossTimer :=
       if s.ss.lossTimer = .off then .off else .running (s.node.lossTimeout.toNat * 100)
     let ignored : Prop := ∃ n, s.ss.source = .cue n ∧ seize = false
     (items = [] → s.takeCapturedSet items fade seize = s) ∧
     (items ≠ [] → ignored →
       s.takeCapturedSet items fade seize =
         { s with ss := { s.ss with lossTimer := timer, live := true } }) ∧
     (items ≠ [] → ¬ignored →
       s.takeCapturedSet items fade seize =
         { s with
           ss := { source := .stream, lossTimer := timer, live := true }
           fe := { s.fe with
             contexts := (List.range 28).map fun i =>
               match s.slotFor values i with
               | some v => (s.context i).retarget v ((s.feed i).fade.resolve fade)
               | none =>
                 match (if i < 24 ∧ s.ss.source ≠ .stream then some (s.entry i).source else none) with
                 | some (.park b) => (s.context i).retarget (parkLevel b) fade
                 | some (.slot _) => s.context i
                 | none => s.context i } }))

/-- Frames may follow one another at once: what still waits from the last one is sent first. A frame
that finds the tracker in PASS, after an OVERLONG frame, is as one that finds it in IDLE. -/
def Obligations.FramesBackToBack : Prop :=
  (∀ (s : State), LinkRest s.keepPace →
    (∀ (c : Cmd) (r : Record), exec (c.instr r) s = exec (c.instr r) s.keepPace) ∧
    (∀ (code : Byte) (r : Record),
      exec (.unknownCommand code r) s = exec (.unknownCommand code r) s.keepPace) ∧
    (∀ (flags fade : Byte) (count : Word) (slots : List Byte) (tail : FrameTail),
      exec (.levelFrame flags fade count slots tail) s =
        exec (.levelFrame flags fade count slots tail) s.keepPace) ∧
    (∀ (kind : Byte) (body : List Byte) (tail : FrameTail),
      exec (.foreignKindFrame kind body tail) s =
        exec (.foreignKindFrame kind body tail) s.keepPace)) ∧
  (∀ (s : State), s.receives → s.lpu.tracker = .pass →
    let idle : State := { s with lpu := { s.lpu with tracker := .idle } }
    (∀ (c : Cmd) (r : Record), exec (c.instr r) s = exec (c.instr r) idle) ∧
    (∀ (code : Byte) (r : Record),
      exec (.unknownCommand code r) s = exec (.unknownCommand code r) idle) ∧
    (∀ (flags fade : Byte) (count : Word) (slots : List Byte) (tail : FrameTail),
      exec (.levelFrame flags fade count slots tail) s =
        exec (.levelFrame flags fade count slots tail) idle) ∧
    (∀ (kind : Byte) (body : List Byte) (tail : FrameTail),
      exec (.foreignKindFrame kind body tail) s = exec (.foreignKindFrame kind body tail) idle))

/-! ## Management records (02, 11) -/

/-- A management frame with one record, taken character by character, does what the record's answer
says: the record goes on with its status and reply, and its staged write is applied exactly when the
outcome is GOOD. In a frame of several records, byte by byte: the count, the fields of a record in
order, the answer decided at the status byte with its status code sent, the staged write that joins the
commit list behind those before it at the rlen byte, or NO_ROOM there, the reply bytes, and then the
next record's target or the end of the body. An accepted ENUMERATE joins the commit list at its rlen
byte; its first reply byte, from 1 to 250, is taken into that entry and goes on plus one, and any other
goes on as it came and the entry is withdrawn. -/
def Obligations.RecordFrameCarriesTheAnswerAndCommitsWhenGood : Prop :=
  (∀ (c : Cmd) (r : Record) (s : State), LinkRest s → r.wellFormed = true →
    let commits := passedCommits (s.recordAnswer c.code r) r.reply
    let sent := s.recordSent c.code r
    (recordOutcome c.code r = .good →
      exec (c.instr r) s =
        .next (s.afterRecord .good c.code r sent (commitsRestart commits) (s.commitAll commits))) ∧
    (recordOutcome c.code r ≠ .good →
      exec (c.instr r) s =
        .next (s.afterRecord (recordOutcome c.code r) c.code r sent false s))) ∧
  (∀ (s : State) (m : Executor) (p : Parser) (address : Fin 251) (remaining : Nat) (b : Byte),
    ¬ p.faultyByte remaining b →
    let taken := takeBodyByte s m p address remaining b
    let moved (x : Executor) (q : Parser) : Taken :=
      { me := { x with parser := some q }, sub := none, heldSub := none, fault := false }
    let after : Parser :=
      if p.index < p.total then
        { p with index := p.index + 1, field := .target, params := [], out := [], running := false }
      else { p with field := .done, out := [], running := false }
    let reply (out : List Byte) : Parser :=
      if b = 0 then { after with rlen := 0 }
      else { p with rlen := b.toNat, field := .reply b.toNat, out := out, running := false }
    (p.field = .count → taken = moved m { p with total := b.toNat, index := 1, field := .target }) ∧
    (p.field = .target → taken = moved m { p with target := b, field := .command }) ∧
    (p.field = .command → taken = moved m { p with command := b, field := .plen }) ∧
    (p.field = .plen →
      taken = moved m { p with params := [], field := if b = 0 then .status else .params b.toNat }) ∧
    (∀ n, p.field = .params n →
      taken = moved m { p with
        params := p.params ++ [b], field := if n = 1 then .status else .params (n - 1) }) ∧
    (p.field = .status →
      let a := answerRecord s address p.target p.command p.params b
      taken.fault = false ∧ taken.heldSub = none ∧ taken.me.commits = m.commits ∧
      taken.me.parser = some { p with field := .rlen, status := b, answer := a } ∧
      (a.verdict = .untouched ∨ a.writes = false → taken.sub = none) ∧
      (∀ st, a.verdict = .refuse st → a.writes = true → taken.sub = some st.code) ∧
      (∀ out e, a.verdict = .accept out e → a.writes = true → taken.sub = some 0x01) ∧
      ((∀ out e, a.verdict = .accept out (some e) → e.storeKind = none ∧ e ≠ .restart) →
        taken.me = { m with parser := some { p with field := .rlen, status := b, answer := a } })) ∧
    (p.field = .rlen →
      (p.answer.verdict = .untouched → taken = moved m (reply [])) ∧
      (∀ st, p.answer.verdict = .refuse st →
        taken = moved m (reply
          (if p.target = 0xFF ∧ p.answer.writes = true ∧ p.command ≠ 0x30 then [natByte address.val]
            else []))) ∧
      (∀ out, p.answer.verdict = .accept out none → out.length ≤ b.toNat →
        taken = moved m (reply (if p.answer.writes then out else []))) ∧
      (∀ out e, p.answer.verdict = .accept out (some e) → (∀ v, e ≠ .enumerate v) →
        out.length ≤ b.toNat →
          taken = moved { m with commits := m.commits ++ [e] }
            (reply (if p.answer.writes then out else []))) ∧
      (∀ out v, p.answer.verdict = .accept out (some (.enumerate v)) → 1 ≤ b.toNat →
        taken = moved { m with commits := m.commits ++ [.enumerate v] }
          { reply (if p.answer.writes then out else []) with running := true }) ∧
      (∀ out e, p.answer.verdict = .accept out e → b.toNat < replyLength out e →
        ∃ x, x.commits = m.commits ∧
          taken = { moved x (reply []) with
            heldSub := if p.answer.writes then some 0x06 else none })) ∧
    (∀ n, p.field = .reply n → p.running = false →
      taken = { moved m (if n = 1 then after else
          { p with field := .reply (n - 1), out := p.out.tail, running := false }) with
        sub := p.out.head? }) ∧
    (∀ n before v, p.field = .reply n → p.running = true → m.commits = before ++ [.enumerate v] →
      let next : Parser :=
        if n = 1 then after else { p with field := .reply (n - 1), out := [], running := false }
      (∀ a : Fin 251, a.val = b.toNat → 1 ≤ b.toNat →
        taken = { moved { m with commits := before ++ [.enumerate (some a)] } next with
          sub := some (b + 1) }) ∧
      (b = 0 ∨ 250 < b.toNat → taken = moved { m with commits := before } next)))

/-- A record for another node, one already answered, and a broadcast read are left untouched. A code
outside Table 11-4 is refused UNKNOWN, whatever its params. -/
def Obligations.ForeignAndUnknownRecords : Prop :=
  (∀ (r : Record) (s : State), LinkRest s → r.wellFormed = true →
     (∀ c : Cmd, ¬ s.takes r → exec (c.instr r) s = .next (s.afterUntouched c.code r)) ∧
     (∀ code, code ∉ commandCodes → ¬ s.takes r →
       exec (.unknownCommand code r) s = .next (s.afterUntouched code r)) ∧
     (∀ c : Cmd, c.isRead = true → r.target = 0xFF →
       exec (c.instr r) s = .next (s.afterUntouched c.code r))) ∧
  (∀ (code : Byte) (r : Record) (s : State), LinkRest s → r.wellFormed = true → s.takes r →
     code ∉ commandCodes →
       exec (.unknownCommand code r) s = .next (s.afterRefusal code r .unknown))

/-- Params of a length the command does not have, and an ENUMERATE or ADDRESS_BY_ID that is not
broadcast, are refused BAD_PARAM. Params out of range are refused BAD_PARAM. -/
def Obligations.WrongFormOrRangeIsBadParam : Prop :=
  (∀ (c : Cmd) (r : Record) (s : State), LinkRest s → r.wellFormed = true → s.takes r →
     (c.isRead = true → s.directed r) →
       (¬ c.lengthOk r.params → exec (c.instr r) s = .next (s.afterRefusal c.code r .badParam)) ∧
       (c.onlyBroadcast = true → s.directed r →
         exec (c.instr r) s = .next (s.afterRefusal c.code r .badParam))) ∧
  (∀ (r : Record) (s : State), LinkRest s → r.wellFormed = true → s.takes r →
     (s.directed r →
       (∀ k, r.params = [k] → 2 ≤ k.toNat →
         exec (.readLink r) s = .next (s.afterRefusal 0x04 r .badParam)) ∧
       (∀ f n, r.params = [f, n] → n.toNat = 0 ∨ 12 < n.toNat ∨ 24 < f.toNat + n.toNat →
         exec (.readPatch r) s = .next (s.afterRefusal 0x05 r .badParam)) ∧
       (∀ t f n, r.params = [t, f, n] →
         3 < t.toNat ∨ n.toNat = 0 ∨ 24 < n.toNat ∨ 33 < f.toNat + n.toNat →
         exec (.readCurve r) s = .next (s.afterRefusal 0x09 r .badParam)) ∧
       (∀ f n, r.params = [f, n] → n.toNat = 0 ∨ 8 < n.toNat ∨ 24 < f.toNat + n.toNat →
         exec (.readLevels r) s = .next (s.afterRefusal 0x1A r .badParam))) ∧
     (∀ f n bytes, r.params = f :: n :: bytes →
       n.toNat = 0 ∨ 7 < n.toNat ∨ 24 < f.toNat + n.toNat ∨ patchEntries? bytes = none →
       exec (.writePatch r) s = .next (s.afterRefusal 0x06 r .badParam)) ∧
     (∀ g k o c, r.params = [g, k, o, c] → 3 < g.toNat ∨ 1 < k.toNat →
       exec (.writeGroup r) s = .next (s.afterRefusal 0x08 r .badParam)) ∧
     (∀ t f n bytes, r.params = t :: f :: n :: bytes →
       3 < t.toNat ∨ n.toNat = 0 ∨ 14 < n.toNat ∨ 33 < f.toNat + n.toNat →
       exec (.writeCurve r) s = .next (s.afterRefusal 0x0A r .badParam)) ∧
     (∀ hi lo bytes, r.params = hi :: lo :: bytes →
       NodeWrite.ofBytes? (be16 hi lo) bytes = none ∨ (r.target = 0xFF ∧ has lo 0 = true) →
       exec (.writeNode r) s = .next (s.afterRefusal 0x0C r .badParam)) ∧
     (∀ n rest, r.params = n :: rest → 15 < n.toNat →
       exec (.recallScene r) s = .next (s.afterRefusal 0x10 r .badParam) ∧
       exec (.captureScene r) s = .next (s.afterRefusal 0x11 r .badParam)) ∧
     (∀ k, r.params = [k] → 1 < k.toNat →
       exec (.enumerate r) s = .next (s.afterRefusal 0x30 r .badParam)) ∧
     (∀ id a, r.params = id ++ [a] → a.toNat = 0 ∨ 250 < a.toNat →
       exec (.addressById r) s = .next (s.afterRefusal 0x31 r .badParam)))

/-- With the live lock set, a configuration write in the right form and range is refused LOCKED. The
live lock is set only by the commit of a SET_LOCK and by the load of a page 0 that is not blank, and
cleared only by the completion of an erase and by the load of a blank page 0. -/
def Obligations.LockRefusesWritesAndChangesInThreeWays : Prop :=
  (∀ (r : Record) (s : State), LinkRest s → r.wellFormed = true → s.takes r → s.stc.lock = true →
    (∀ f n bytes es, r.params = f :: n :: bytes → patchEntries? bytes = some es →
      es.length = n.toNat → 1 ≤ n.toNat → n.toNat ≤ 7 → f.toNat + n.toNat ≤ 24 →
      exec (.writePatch r) s = .next (s.afterRefusal 0x06 r .locked)) ∧
    (∀ g k o c, r.params = [g, k, o, c] → g.toNat ≤ 3 → k.toNat ≤ 1 →
      exec (.writeGroup r) s = .next (s.afterRefusal 0x08 r .locked)) ∧
    (∀ t f n bytes, r.params = t :: f :: n :: bytes → bytes.length = 2 * n.toNat → t.toNat ≤ 3 →
      1 ≤ n.toNat → n.toNat ≤ 14 → f.toNat + n.toNat ≤ 33 →
      exec (.writeCurve r) s = .next (s.afterRefusal 0x0A r .locked)) ∧
    (∀ hi lo bytes w, r.params = hi :: lo :: bytes →
      NodeWrite.ofBytes? (be16 hi lo) bytes = some w → (r.target = 0xFF → has lo 0 = false) →
      exec (.writeNode r) s = .next (s.afterRefusal 0x0C r .locked)) ∧
    (r.params.length = 7 → exec (.setMasks r) s = .next (s.afterRefusal 0x0D r .locked)) ∧
    (r.params = [] → exec (.saveConfig r) s = .next (s.afterRefusal 0x12 r .locked)) ∧
    (∀ k, r.params = [k] → r.target = 0xFF → k = 0x00 ∨ (k = 0x01 ∧ s.node.address = 0) →
      exec (.enumerate r) s = .next (s.afterRefusal 0x30 r .locked)) ∧
    (∀ a, r.params = uniqueIdBytes ++ [a] → r.target = 0xFF → 1 ≤ a.toNat → a.toNat ≤ 250 →
      exec (.addressById r) s = .next (s.afterRefusal 0x31 r .locked))) ∧
  (∀ (i : Instr) (s t : State), i.wellFormed = true → exec i s = .next t → t.stc.lock ≠ s.stc.lock →
    (t.stc.lock = true ∧
      ((∃ r, i = .setLock r) ∨
        ∃ c, i = .characterReceived c ∧ Staged.setLock .accept ∈ s.me.commits)) ∨
    (t.stc.lock = false ∧ i = .eraseCompletion false ∧ s.stc.activity = .running .erase) ∨
    (t.mc.mode = .start ∧ (t.stc.lock = true ↔ (t.page 0).classify 0 ≠ .blank)))

/-- A read whose reply does not fit the record's reply area is answered NO_ROOM, with no reply byte,
and commits nothing. -/
def Obligations.ReplyThatDoesNotFitIsNoRoom : Prop :=
  ∀ (c : Cmd) (r : Record) (s : State) (out : List Byte) (staged : Option Staged), LinkRest s →
    r.wellFormed = true → s.directed r → c.isRead = true →
    judgeCommand s s.node.address false c r.params = .accept out staged →
    r.reply.length < out.length →
      exec (c.instr r) s =
        .next (s.afterRecord (recordOutcome c.code r) c.code r
          { r with status := Status.noRoom.code } false s)

/-- The reads without params: each reply byte for byte, and nothing else changed. -/
def Obligations.WholeReadsReportTheLiveState : Prop :=
  ∀ (r : Record) (s : State), DirectedRecord s r → r.params = [] →
    (15 ≤ r.reply.length →
      exec (.identify r) s =
        .next (s.afterAccepted 0x01 r
          ([0x24, 0x18, 0x01] ++ uniqueIdBytes ++ [natByte s.node.address.val] ++
            wordBytes (natWord s.node.slotBase.val) ++
            [s.mc.mode.code, s.ss.source.code, boolByte s.stc.lock]) s)) ∧
    (15 ≤ r.reply.length →
      exec (.readStatus r) s =
        .next (s.afterAccepted 0x02 r
          ([s.mc.mode.code, thermalSupplyByte s.mon.thermal s.mon.supplyState,
              natByte s.mon.ceiling] ++
            temperatureBytes s.mon.temperature ++ wordBytes (natWord s.mon.supply) ++
            wordBytes (s.mon.aux.setWidth 16) ++
            [reasonByte s.al.reasons, reasonByte s.al.mask, boolByte s.ss.live, s.ss.source.code,
              s.stc.activity.code, natByte s.stc.queue.length]) s)) ∧
    (13 ≤ r.reply.length →
      exec (.readFaults r) s =
        .next (s.afterAccepted 0x03 r
          (channelSetBytes s.fm.openLatch ++ channelSetBytes s.fm.shortLatch ++
            channelSetBytes s.fm.openMask ++ channelSetBytes s.fm.shortMask ++
            [natByte s.node.confirmCode.val]) s)) ∧
    (12 ≤ r.reply.length →
      exec (.readGroups r) s =
        .next (s.afterAccepted 0x07 r
          ((s.group 0).toBytes ++ (s.group 1).toBytes ++ (s.group 2).toBytes ++ (s.group 3).toBytes)
          s)) ∧
    (11 ≤ r.reply.length →
      exec (.readNode r) s =
        .next (s.afterAccepted 0x0B r
          ([natByte s.node.address.val] ++ wordBytes (natWord s.node.slotBase.val) ++
            [s.node.lossTimeout, s.node.lossAction.toByte, natByte s.node.lossScene.val,
              s.node.lossFade, natByte s.node.ceiling.val, natByte s.node.periodCode.val,
              natByte (s.node.stagger.toNat + 2 * s.node.dither.toNat + 4 * s.node.quiet.toNat),
              natByte s.node.confirmCode.val]) s)) ∧
    (11 ≤ r.reply.length →
      exec (.readStore r) s =
        .next (s.afterAccepted 0x15 r
          ([s.stc.activity.code, natByte s.stc.queue.length] ++ failureBytes s.stc.lastFailure ++
            pageSetBytes s.stc.loadFaults ++ [boolByte s.stc.lock] ++
            wordBytes (sceneValidSet s.stc.shadow)) s))

/-- The reads of a range: each element of the reply, and nothing else changed. -/
def Obligations.RangeReadsReportTheLiveState : Prop :=
  ∀ (r : Record) (s : State), DirectedRecord s r →
    (∀ f n, r.params = [f, n] → 1 ≤ n.toNat → n.toNat ≤ 12 → f.toNat + n.toNat ≤ 24 →
      4 * n.toNat ≤ r.reply.length →
        exec (.readPatch r) s =
          .next (s.afterAccepted 0x05 r
            ((List.range n.toNat).flatMap fun k => (s.entry (f.toNat + k)).toBytes) s)) ∧
    (∀ t f n, r.params = [t, f, n] → t.toNat ≤ 3 → 1 ≤ n.toNat → n.toNat ≤ 24 →
      f.toNat + n.toNat ≤ 33 → 2 * n.toNat ≤ r.reply.length →
        exec (.readCurve r) s =
          .next (s.afterAccepted 0x09 r
            ((List.range n.toNat).flatMap fun k =>
              wordBytes ((s.os.tables.getD t.toNat defaultTable).getD (f.toNat + k) 0)) s)) ∧
    (∀ f n, r.params = [f, n] → 1 ≤ n.toNat → n.toNat ≤ 8 → f.toNat + n.toNat ≤ 24 →
      6 * n.toNat ≤ r.reply.length →
        exec (.readLevels r) s =
          .next (s.afterAccepted 0x1A r
            ((List.range n.toNat).flatMap fun k =>
              wordBytes (s.context (f.toNat + k)).level ++
              wordBytes (s.context (f.toNat + k)).target ++
              wordBytes (s.os.duty.getD (f.toNat + k) 0)) s))

/-- READ_LINK reads the counters before its own frame is counted; with the clear flag the clear is
taken first, so good stands at 1 after it and the other six at 0. That a stray's character error or
overrun before the frame is cleared with the rest is the model's choice between two sentences of the
spec, log 39. -/
def Obligations.ReadLinkClearsBeforeItsFrameCounts : Prop :=
  ∀ (r : Record) (s : State), DirectedRecord s r → 14 ≤ r.reply.length →
    let c := s.lpu.counters
    let out := wordBytes c.good ++ wordBytes c.damaged ++ wordBytes c.poisoned ++
      wordBytes c.charErrors ++ wordBytes c.overruns ++ wordBytes c.stalls ++ wordBytes c.truncated
    (r.params = [0x00] → exec (.readLink r) s = .next (s.afterAccepted 0x04 r out s)) ∧
    (r.params = [0x01] →
      exec (.readLink r) s =
        .next (s.afterAccepted 0x04 r out
          { s with lpu := { s.lpu with counters := zeroCounters } }) ∧
      ∃ t, exec (.readLink r) s = .next t ∧ t.lpu.counters = { zeroCounters with good := 1 })

/-- WRITE_PATCH replaces the entries from its first channel on, retargets the channels of PARK
entries by each entry's own rule (FRAME is a snap), and the Shaper computes. -/
def Obligations.WritePatchReplacesEntries : Prop :=
  ∀ (r : Record) (s : State) (f n : Byte) (bytes : List Byte) (es : List PatchEntry),
    TakenRecord s r → WellShaped s → s.stc.lock = false → r.params = f :: n :: bytes →
    patchEntries? bytes = some es → es.length = n.toNat → 1 ≤ n.toNat → n.toNat ≤ 7 →
    f.toNat + n.toNat ≤ 24 →
      exec (.writePatch r) s =
        .next (s.afterAccepted 0x06 r []
          ({ s with
            pt := { s.pt with entries := replaceFrom s.pt.entries f.toNat es }
            fe := { s.fe with
              contexts := (List.range 28).map fun i =>
                match (if f.toNat ≤ i then es[i - f.toNat]? else none) with
                | none => s.context i
                | some e =>
                  match e.source with
                  | .slot _ => s.context i
                  | .park b =>
                    (s.context i).retarget (natWord (b.toNat * 257))
                      (match e.fade with
                        | .frame => 0
                        | .own code => natByte code.val) } } : State).reshape)

/-- WRITE_GROUP replaces one group record and WRITE_CURVE points of one table; no fade context
moves, and the Shaper computes. -/
def Obligations.WriteGroupAndCurveReplaceTheirRecords : Prop :=
  ∀ (r : Record) (s : State), TakenRecord s r → s.stc.lock = false →
    (∀ (g : Fin 4) (k o c : Byte) (rec : GroupRecord), r.params = [natByte g.val, k, o, c] →
      GroupRecord.ofBytes? k o c = some rec →
        exec (.writeGroup r) s =
          .next (s.afterAccepted 0x08 r []
            ({ s with pt := { s.pt with groups := s.pt.groups.set g.val rec } } : State).reshape)) ∧
    (∀ (t : Fin 4) (f : Byte) (points : List Word), WellShaped s →
      r.params = natByte t.val :: f :: natByte points.length :: points.flatMap wordBytes →
      1 ≤ points.length → points.length ≤ 14 → f.toNat + points.length ≤ 33 →
        exec (.writeCurve r) s =
          .next (s.afterAccepted 0x0A r []
            ({ s with os := { s.os with
                tables := s.os.tables.set t.val
                  (replaceFrom (s.os.tables.getD t.val defaultTable) f.toNat points) } }
              : State).reshape))

/-- WRITE_NODE replaces the fields its mask selects; a changed loss timeout code acts on the loss
timer, the quiet option on the quiet timer, the ceiling on every duty. What a changed loss timeout
code does to the loss timer. -/
def Obligations.WriteNodeReplacesSelectedFields : Prop :=
  (∀ (r : Record) (s : State) (hi lo : Byte) (bytes : List Byte) (w : NodeWrite),
     TakenRecord s r → s.stc.lock = false → r.params = hi :: lo :: bytes →
     NodeWrite.ofBytes? (be16 hi lo) bytes = some w → (r.target = 0xFF → has lo 0 = false) →
       let n := s.node.write w
       let a : State := { s with
         node := n
         ss := { s.ss with
           lossTimer := s.ss.lossTimer.recoded s.ss.source s.node.lossTimeout n.lossTimeout } }
       let b : State := { a with mc := { s.mc with quietTimer := a.quietTimerNow } }
       exec (.writeNode r) s =
         .next (s.afterAccepted 0x0C r [] (if has lo 6 then b.reshape else b))) ∧
  (∀ (t : LossTimer) (src : Source) (old new : Byte),
     (new = old → t.recoded src old new = t) ∧
     (new ≠ old → new = 0 → t.recoded src old new = .off) ∧
     (new ≠ old → new ≠ 0 →
       (∀ n, (LossTimer.running n).recoded src old new = .running (new.toNat * 100)) ∧
       LossTimer.expired.recoded src old new = .expired ∧
       (src.isLoss = false → LossTimer.off.recoded src old new = .running (new.toNat * 100)) ∧
       (src.isLoss = true → LossTimer.off.recoded src old new = .expired)))

/-- SET_MASKS replaces the three masks; ACK_ATTENTION removes the listed reasons. CLEAR_FAULTS
clears the latches and counts of the listed channels; a channel whose last block cause so ends is
RESUMING, every other channel is as it was. -/
def Obligations.MasksFaultsAndAttentionWrites : Prop :=
  (∀ (r : Record) (s : State), TakenRecord s r →
     (∀ o1 o2 o3 s1 s2 s3 m, r.params = [o1, o2, o3, s1, s2, s3, m] → s.stc.lock = false →
       exec (.setMasks r) s =
         .next (s.afterAccepted 0x0D r []
           { s with
             fm := { s.fm with openMask := o1 ++ o2 ++ o3, shortMask := s1 ++ s2 ++ s3 }
             al := { s.al with mask := m.setWidth 6 } })) ∧
     (∀ m : Byte, r.params = [m] →
       exec (.ackAttention r) s =
         .next (s.afterAccepted 0x21 r []
           { s with al := { s.al with reasons := s.al.reasons &&& ~~~(m.setWidth 6) } }))) ∧
  (∀ (r : Record) (s : State) (o1 o2 o3 s1 s2 s3 : Byte), TakenRecord s r → BlockedByCause s →
     r.params = [o1, o2, o3, s1, s2, s3] →
       let opens : ChannelSet := o1 ++ o2 ++ o3
       let shorts : ChannelSet := s1 ++ s2 ++ s3
       exec (.clearFaults r) s =
         .next (s.afterAccepted 0x20 r []
           { s with
             fm := { s.fm with
               openCount := (List.range 24).map fun i =>
                 if has opens i then 0 else s.fm.openCount.getD i 0
               shortCount := (List.range 24).map fun i =>
                 if has shorts i then 0 else s.fm.shortCount.getD i 0
               openLatch := s.fm.openLatch &&& ~~~opens
               shortLatch := s.fm.shortLatch &&& ~~~shorts }
             pwu := { s.pwu with
               channels := (List.range 24).map fun i =>
                 if s.mc.mode = .run ∧ has s.fm.shortLatch i = true ∧ has shorts i = true then
                   { block := .resuming, onCount := 0, endDue := false }
                 else s.channel i } }))

/-- FORCE gives each listed channel a force record with its level and countdown, RELEASE takes it
away; the Shaper computes. -/
def Obligations.ForceAndRelease : Prop :=
  ∀ (r : Record) (s : State), TakenRecord s r →
    (∀ c1 c2 c3 hi lo d, r.params = [c1, c2, c3, hi, lo, d] →
      exec (.force r) s =
        .next (s.afterAccepted 0x18 r []
          ({ s with os := { s.os with
              forces := (List.range 24).map fun i =>
                if has (c1 ++ c2 ++ c3 : ChannelSet) i then
                  .active (be16 hi lo) (if d = 0 then none else some (d.toNat * 1000))
                else s.os.forces.getD i .inactive } } : State).reshape)) ∧
    (∀ c1 c2 c3, r.params = [c1, c2, c3] →
      exec (.release r) s =
        .next (s.afterAccepted 0x19 r []
          ({ s with os := { s.os with
              forces := (List.range 24).map fun i =>
                if has (c1 ++ c2 ++ c3 : ChannelSet) i then .inactive
                else s.os.forces.getD i .inactive } } : State).reshape))

/-- RECALL_SCENE of a valid scene: CUE(n), and all 28 contexts retargeted with one code; of an
invalid scene: EMPTY. -/
def Obligations.RecallSceneRetargetsEveryContext : Prop :=
  ∀ (r : Record) (s : State) (n : Fin 16) (fade : Option Byte), TakenRecord s r → WellShaped s →
    r.params = natByte n.val :: fade.toList →
      ((s.scene n).valid = true →
        exec (.recallScene r) s =
          .next (s.afterAccepted 0x10 r []
            ({ s with
              ss := { s.ss with source := .cue n }
              fe := { s.fe with
                contexts := (List.range 28).map fun i =>
                  (s.context i).retarget ((s.scene n).targets.getD i 0)
                    (fade.getD (s.scene n).fade) } } : State).reshape)) ∧
      ((s.scene n).valid = false →
        exec (.recallScene r) s = .next (s.afterRefusal 0x10 r .empty))

/-- A store request that is accepted with room in the queue: its entry joins the tail, with the
shadow, the snapshot or the lock taken at the commit, and the head starts if the store is idle. -/
def Obligations.StoreRequestsJoinTheQueue : Prop :=
  ∀ (r : Record) (s : State), TakenRecord s r → s.queuedKind .erase = false →
    s.stc.queue.length < 4 →
    (∀ (n : Fin 16) (fade : Byte), r.params = [natByte n.val, fade] → s.sceneOpen n = false →
      exec (.captureScene r) s =
        .next (s.afterAccepted 0x11 r []
          ({ s with stc := { s.stc with
              shadow := s.stc.shadow.set n.val
                { valid := true, targets := (List.range 28).map fun i => (s.context i).target,
                  fade := fade }
              queue := s.stc.queue ++ [⟨.scene n, false, false⟩] } } : State).startHead)) ∧
    (r.params = [] → s.stc.lock = false → s.queuedKind .config = false →
      exec (.saveConfig r) s =
        .next (s.afterAccepted 0x12 r []
          ({ s with stc := { s.stc with
              snapshot := some s.liveSnapshot
              queue := s.stc.queue ++ [⟨.config, false, false⟩] } } : State).startHead)) ∧
    (r.params = [] → s.stc.lock = false →
      exec (.setLock r) s =
        .next (s.afterAccepted 0x13 r []
          ({ s with stc := { s.stc with
              lock := true
              queue := s.stc.queue ++ [⟨.lock, false, false⟩] } } : State).startHead)) ∧
    (r.params = [] → s.stc.queue = [] →
      exec (.eraseStore r) s =
        .next (s.afterAccepted 0x14 r []
          ({ s with stc := { s.stc with queue := [⟨.erase, false, false⟩] } } : State).startHead))

/-- A store request that meets a queued entry of its kind is taken into it, and a SET_LOCK on a
locked node changes nothing. The store requests and RESTART that are refused BUSY. Table 10-4 line by
line, with the places that records before it in the frame have reserved and the frame's restart mark.
What an acceptance leaves in the frame's state. The place of a queued entry that leaves before the
commit (one place for all that coalesced into it: log 25), and the commit of a request that coalesced,
with the entry gone, started or not. -/
def Obligations.StoreRequestsCoalesceOrAreBusy : Prop :=
  (∀ (r : Record) (s : State), TakenRecord s r → s.queuedKind .erase = false →
     (∀ (n : Fin 16) (fade : Byte), r.params = [natByte n.val, fade] → s.sceneOpen n = true →
       exec (.captureScene r) s =
         .next (s.afterAccepted 0x11 r []
           ({ s with stc := { s.stc with
               shadow := s.stc.shadow.set n.val
                 { valid := true, targets := (List.range 28).map fun i => (s.context i).target,
                   fade := fade } } } : State).startHead)) ∧
     (r.params = [] → s.stc.lock = false → s.queuedKind .config = true → s.configStarted = false →
       exec (.saveConfig r) s =
         .next (s.afterAccepted 0x12 r []
           ({ s with stc := { s.stc with snapshot := some s.liveSnapshot } } : State).startHead)) ∧
     (r.params = [] → s.stc.lock = true →
       exec (.setLock r) s = .next (s.afterAccepted 0x13 r [] s.startHead))) ∧
  (∀ (r : Record) (s : State), LinkRest s → r.wellFormed = true → s.takes r →
     (∀ (n : Fin 16) (fade : Byte), r.params = [natByte n.val, fade] →
       s.queuedKind .erase = true ∨ (s.sceneOpen n = false ∧ 4 ≤ s.stc.queue.length) →
         exec (.captureScene r) s = .next (s.afterRefusal 0x11 r .busy)) ∧
     (r.params = [] →
       (s.stc.lock = false →
         s.queuedKind .erase = true ∨ s.configStarted = true ∨
           (s.queuedKind .config = false ∧ 4 ≤ s.stc.queue.length) →
         exec (.saveConfig r) s = .next (s.afterRefusal 0x12 r .busy)) ∧
       (s.queuedKind .erase = true ∨ (s.stc.lock = false ∧ 4 ≤ s.stc.queue.length) →
         exec (.setLock r) s = .next (s.afterRefusal 0x13 r .busy)) ∧
       (s.stc.queue ≠ [] → exec (.eraseStore r) s = .next (s.afterRefusal 0x14 r .busy)) ∧
       (s.stc.activity ≠ .idle ∨ s.stc.queue ≠ [] →
         exec (.restart r) s = .next (s.afterRefusal 0x24 r .busy)))) ∧
  (∀ (s : State) (address : Fin 251) (broadcast : Bool) (n : Fin 16) (fade : Byte),
     let answer (c : Cmd) (params : List Byte) := judgeCommand s address broadcast c params
     let after := s.me.restartMark = true
     let erase := s.queuedKind .erase = true ∨ .erase ∈ s.me.reservations
     let full := 4 ≤ s.stc.queue.length + s.me.reservations.length
     let scene := s.sceneOpen n = true ∨ .scene n ∈ s.me.reservations
     let config := s.queuedKind .config = true ∨ .config ∈ s.me.reservations
     let take (e : Staged) : Verdict := .accept [] (some e)
     (after ∨ erase ∨ (¬scene ∧ full) →
       answer .captureScene [natByte n.val, fade] = .refuse .busy) ∧
     (¬after → ¬erase → scene →
       answer .captureScene [natByte n.val, fade] = take (.capture n fade .coalesce)) ∧
     (¬after → ¬erase → ¬scene → ¬full →
       answer .captureScene [natByte n.val, fade] = take (.capture n fade .accept)) ∧
     (s.stc.lock = false →
       (after ∨ erase ∨ s.configStarted = true ∨ (¬config ∧ full) →
         answer .saveConfig [] = .refuse .busy) ∧
       (¬after → ¬erase → s.configStarted = false → config →
         answer .saveConfig [] = take (.saveConfig .coalesce)) ∧
       (¬after → ¬erase → ¬config → ¬full → answer .saveConfig [] = take (.saveConfig .accept))) ∧
     (after ∨ erase ∨ (s.stc.lock = false ∧ .lock ∉ s.me.reservations ∧ full) →
       answer .setLock [] = .refuse .busy) ∧
     (¬after → ¬erase → s.stc.lock = true →
       answer .setLock [] = take (.setLock .alreadyLocked)) ∧
     (¬after → ¬erase → s.stc.lock = false → .lock ∈ s.me.reservations →
       answer .setLock [] = take (.setLock .coalesce)) ∧
     (¬after → ¬erase → s.stc.lock = false → .lock ∉ s.me.reservations → ¬full →
       answer .setLock [] = take (.setLock .accept)) ∧
     (after ∨ s.stc.queue ≠ [] ∨ s.me.reservations ≠ [] →
       answer .eraseStore [] = .refuse .busy) ∧
     (¬after → s.stc.queue = [] → s.me.reservations = [] →
       answer .eraseStore [] = take .eraseStore) ∧
     (s.stc.activity ≠ .idle ∨ s.stc.queue ≠ [] ∨ s.me.reservations ≠ [] →
       answer .restart [] = .refuse .busy) ∧
     (s.stc.activity = .idle → s.stc.queue = [] → s.me.reservations = [] →
       answer .restart [] = take .restart)) ∧
  (∀ (s : State) (p : Parser) (address : Fin 251) (remaining : Nat) (b : Byte), p.field = .status →
     let a := answerRecord s address p.target p.command p.params b
     let t := (takeBodyByte s s.me p address remaining b).me
     let kept := t.reservations = s.me.reservations ∧ t.coalesced = s.me.coalesced ∧
       t.restartMark = s.me.restartMark
     let reserves (k : StoreKind) := t.reservations = s.me.reservations ++ [k] ∧
       t.coalesced = s.me.coalesced ∧ t.restartMark = s.me.restartMark
     let joinsEntry (k : StoreKind) := t.reservations = s.me.reservations ∧
       t.coalesced = s.me.coalesced ++ [k] ∧ t.restartMark = s.me.restartMark
     t.commits = s.me.commits ∧
     ((∀ out e, a.verdict ≠ .accept out (some e)) → kept) ∧
     (∀ out e, a.verdict = .accept out (some e) →
       (∀ n fade, e = .capture n fade .accept → reserves (.scene n)) ∧
       (∀ n fade, e = .capture n fade .coalesce →
         (s.sceneOpen n = true → joinsEntry (.scene n)) ∧ (s.sceneOpen n = false → kept)) ∧
       (e = .saveConfig .accept → reserves .config) ∧
       (e = .saveConfig .coalesce →
         (s.queuedKind .config = true → joinsEntry .config) ∧
         (s.queuedKind .config = false → kept)) ∧
       (e = .setLock .accept → reserves .lock) ∧
       (e = .setLock .coalesce ∨ e = .setLock .alreadyLocked → kept) ∧
       (e = .eraseStore → reserves .erase) ∧
       (e = .restart → t.reservations = s.me.reservations ∧ t.coalesced = s.me.coalesced ∧
         t.restartMark = true) ∧
       (e.storeKind = none → e ≠ .restart → kept))) ∧
  (∀ (m : Executor) (k : StoreKind) (queue : List QueueEntry),
     (k ∈ m.coalesced → (∀ e ∈ queue, e.kind ≠ k) →
       m.entryLeft k queue =
         { m with reservations := m.reservations ++ [k], coalesced := m.coalesced.erase k }) ∧
     (k ∉ m.coalesced ∨ (∃ e ∈ queue, e.kind = k) → m.entryLeft k queue = m)) ∧
  (∀ (s : State) (n : Fin 16) (fade : Byte),
     let mark (k : StoreKind) := s.stc.queue.map fun e =>
       if e.kind = k then { e with again := true } else e
     let shadow := s.stc.shadow.set n.val
       { valid := true, targets := (List.range 28).map fun i => (s.context i).target, fade := fade }
     let snapshot := some s.liveSnapshot
     (s.queuedKind .config = false →
       s.apply (.saveConfig .coalesce) =
         { s with stc := { s.stc with
           snapshot := snapshot, queue := s.stc.queue ++ [⟨.config, false, false⟩] } }) ∧
     (s.queuedKind .config = true → s.configStarted = false →
       s.apply (.saveConfig .coalesce) = { s with stc := { s.stc with snapshot := snapshot } }) ∧
     (s.configStarted = true →
       s.apply (.saveConfig .coalesce) = { s with stc := { s.stc with queue := mark .config } }) ∧
     (s.queuedKind (.scene n) = false →
       s.apply (.capture n fade .coalesce) =
         { s with stc := { s.stc with
           shadow := shadow, queue := s.stc.queue ++ [⟨.scene n, false, false⟩] } }) ∧
     (s.sceneOpen n = true →
       s.apply (.capture n fade .coalesce) = { s with stc := { s.stc with shadow := shadow } }) ∧
     (s.queuedKind (.scene n) = true → s.sceneOpen n = false →
       s.apply (.capture n fade .coalesce) =
         { s with stc := { s.stc with shadow := shadow, queue := mark (.scene n) } }))

/-- STANDBY and WAKE by the mode standing at the commit; RESTART leaves a restart pending, with its
mark on the frame's last character. -/
def Obligations.StandbyWakeAndRestart : Prop :=
  ∀ (r : Record) (s : State), TakenRecord s r → r.params = [] →
    (s.mc.mode = .run ∨ s.mc.mode = .quiet →
      exec (.standby r) s = .next (s.afterAccepted 0x22 r [] (s.enterMode .standby)) ∧
      exec (.wake r) s = .next (s.afterAccepted 0x23 r [] s)) ∧
    (s.mc.mode = .standby →
      exec (.standby r) s = .next (s.afterAccepted 0x22 r [] s) ∧
      exec (.wake r) s = .next (s.afterAccepted 0x23 r [] (s.enterMode .run))) ∧
    (s.mc.mode = .hot →
      exec (.standby r) s =
        .next (s.afterAccepted 0x22 r [] { s with mc := { s.mc with returnMode := .standby } }) ∧
      exec (.wake r) s =
        .next (s.afterAccepted 0x23 r [] { s with mc := { s.mc with returnMode := .run } })) ∧
    (s.stc.activity = .idle → s.stc.queue = [] →
      exec (.restart r) s =
        .next (s.afterRecord .good 0x24 r (answeredRecord r []) true
          { s with mc := { s.mc with restartPending := true } }))

/-- ENUMERATE: a node that takes part takes the running address 1 to 250 and sends it on plus one;
any other value goes on as it came and the address stays; without a reply byte it answers NO_ROOM;
an addressed node leaves mode UNADDRESSED untouched. -/
def Obligations.EnumerateGivesOutAddresses : Prop :=
  ∀ (r : Record) (s : State) (mode : Byte), TakenRecord s r → r.target = 0xFF →
    s.stc.lock = false → r.params = [mode] →
    let st : Byte := if r.status = 0 then 0x01 else r.status
    (mode = 0x00 ∨ (mode = 0x01 ∧ s.node.address = 0) →
      (∀ (v : Fin 251) (rest : List Byte), v ≠ 0 → r.reply = natByte v.val :: rest →
        exec (.enumerate r) s =
          .next (s.afterRecord .good 0x30 r
            { r with status := st, reply := natByte (v.val + 1) :: rest } false
            { s with node := { s.node with address := v } })) ∧
      (∀ (b : Byte) (rest : List Byte), b = 0 ∨ 250 < b.toNat → r.reply = b :: rest →
        exec (.enumerate r) s = .next (s.afterRecord .good 0x30 r { r with status := st } false s)) ∧
      (r.reply = [] →
        exec (.enumerate r) s =
          .next (s.afterRecord .good 0x30 r
            { r with status := if r.status = 0 then 0x06 else r.status } false s))) ∧
    (mode = 0x01 → s.node.address ≠ 0 → exec (.enumerate r) s = .next (s.afterUntouched 0x30 r))

/-- ADDRESS_BY_ID: the node with the unique ID takes the address; every other leaves the record
untouched. -/
def Obligations.AddressByIdSetsTheMatchingNode : Prop :=
  ∀ (r : Record) (s : State) (id : List Byte) (a : Fin 251), TakenRecord s r → r.target = 0xFF →
    id.length = 6 → a ≠ 0 → r.params = id ++ [natByte a.val] →
      (id = uniqueIdBytes → s.stc.lock = false →
        exec (.addressById r) s =
          .next (s.afterAccepted 0x31 r [] { s with node := { s.node with address := a } })) ∧
      (id ≠ uniqueIdBytes → exec (.addressById r) s = .next (s.afterUntouched 0x31 r))

/-! ## Fades, duties and modes (05, 06, 09) -/

/-- A step of a fading context moves the level toward the target by the distance over the remaining
count, rounded up; over the fade, the first d mod r steps are one longer than the rest, and the
target is reached with the count. A context at rest is passed over. -/
def Obligations.FadeStepsReachTheTarget : Prop :=
  (∀ c : FadeContext, c.remaining = 0 → c.step = c) ∧
  (∀ c : FadeContext, 0 < c.remaining →
    let d := max c.level.toNat c.target.toNat - min c.level.toNat c.target.toNat
    let size := (d + (c.remaining - 1)) / c.remaining
    (c.level.toNat < c.target.toNat → c.step.level.toNat = c.level.toNat + size) ∧
    (c.target.toNat < c.level.toNat → c.step.level.toNat + size = c.level.toNat) ∧
    (c.level = c.target → c.step.level = c.level) ∧
    c.step.remaining + 1 = c.remaining ∧ c.step.target = c.target ∧ size ≤ d ∧
    (c.remaining = 1 → size = d ∧ c.step.level = c.target) ∧
    (∀ n, n ≤ c.remaining →
      let q := d / c.remaining
      let s := d % c.remaining
      let gone := n * q + min n s
      let x := (FadeContext.step^[n]) c
      (c.level.toNat ≤ c.target.toNat → x.level.toNat = c.level.toNat + gone) ∧
      (c.target.toNat ≤ c.level.toNat → x.level.toNat + gone = c.level.toNat)))

/-- After a retarget and any number of steps the level lies between the level at the retarget and
the target, equals the target whenever the remaining count is 0, and has moved in one direction
only. A node reset is a retarget to 0 with code 0. -/
def Obligations.LevelStaysBetweenRetargetAndTarget : Prop :=
  (∀ c : FadeContext, c.retarget 0 0 = restContext) ∧
  (∀ (c : FadeContext) (t : Word) (code : Byte) (n : Nat),
    let start := c.retarget t code
    let x := (FadeContext.step^[n]) start
    let y := (FadeContext.step^[n + 1]) start
    x.target = t ∧
    (x.remaining = 0 → x.level = t) ∧
    min start.level.toNat t.toNat ≤ x.level.toNat ∧ x.level.toNat ≤ max start.level.toNat t.toNat ∧
    (code = 0 → start.level = t ∧ start.remaining = 0) ∧
    (code ≠ 0 → start.level = c.level ∧ start.remaining = code.toNat * 100) ∧
    (start.level.toNat ≤ t.toNat → x.level.toNat ≤ y.level.toNat) ∧
    (t.toNat ≤ start.level.toNat → y.level.toNat ≤ x.level.toNat))

/-- TICK: while the timebase runs, every context takes its step, every timer counts, and the Shaper
computes; while it is stopped, nothing happens. That the run-outs are commands of their own is the
model's choice, log 4; that the rotation timer stops counting at 1000 (`sinceStart` becomes
min (n + 1) 1000) is the model's too, log 37. -/
def Obligations.TickStepsFadesAndTimers : Prop :=
  ∀ s : State,
    (s.fe.timebase = true →
      exec .tick s =
        .next ({ s with
          fe := { s.fe with contexts := s.fe.contexts.map FadeContext.step }
          os := { s.os with
            forces := s.os.forces.map fun f =>
              match f with
              | .inactive => .inactive
              | .active level left => .active level (left.map (· - 1)) }
          ss := { s.ss with
            lossTimer :=
              match s.ss.lossTimer with
              | .running n => .running (n - 1)
              | .off => .off
              | .expired => .expired }
          al := { s.al with holdOff := s.al.holdOff.map (· - 1) }
          mc := { s.mc with quietTimer := s.mc.quietTimer.map (· - 1) }
          mon := { s.mon with
            sinceStart := s.mon.sinceStart.map fun n => min (n + 1) 1000 } } : State).reshape) ∧
    (s.fe.timebase = false → exec .tick s = .next s)

/-- The run-outs of the loss timer: EXPIRED, ABSENT, LOSS raised, and Table 4-2 by the source state;
then the Shaper computes. Before its time has run down nothing happens. -/
def Obligations.LossTimerExpiryTakesTheLossAction : Prop :=
  ∀ s : State, WellShaped s →
    let a := { s.al with
      reasons := s.al.reasons ||| 0x20
      holdOff :=
        if has s.al.reasons 5 = true ∨ has s.al.mask 5 = true then s.al.holdOff else none }
    let expired (src : Source) (ctx : List FadeContext) : State :=
      { s with
        ss := { source := src, lossTimer := .expired, live := false }
        al := a
        fe := { s.fe with contexts := ctx } }
    let k := s.node.lossScene
    (s.ss.lossTimer ≠ .running 0 → exec .lossTimerExpiry s = .next s) ∧
    (s.ss.lossTimer = .running 0 →
      (s.ss.source = .stream → s.node.lossAction = .hold →
        exec .lossTimerExpiry s = .next (expired .lossHold s.fe.contexts).reshape) ∧
      (s.ss.source = .stream → s.node.lossAction = .black →
        exec .lossTimerExpiry s =
          .next (expired .lossBlack ((List.range 28).map fun i =>
            if i < 24 then (s.context i).retarget 0 s.node.lossFade else s.context i)).reshape) ∧
      (s.ss.source = .stream → s.node.lossAction = .scene → (s.scene k).valid = true →
        exec .lossTimerExpiry s =
          .next (expired (.lossCue k) ((List.range 28).map fun i =>
            (s.context i).retarget ((s.scene k).targets.getD i 0) s.node.lossFade)).reshape) ∧
      (s.ss.source = .stream → s.node.lossAction = .scene → (s.scene k).valid = false →
        exec .lossTimerExpiry s = .next (expired .lossHold s.fe.contexts).reshape) ∧
      (∀ n, s.ss.source = .cue n →
        exec .lossTimerExpiry s = .next (expired (.cue n) s.fe.contexts).reshape))

/-- The run-outs of the hold-off, of a force and of the quiet timer, each when its time has run
down, and nothing before. -/
def Obligations.HoldOffForceAndQuietRunOut : Prop :=
  ∀ s : State,
    (s.al.holdOff = some 0 →
      exec .holdOffExpiry s = .next { s with al := { s.al with holdOff := none } }) ∧
    (s.al.holdOff ≠ some 0 → exec .holdOffExpiry s = .next s) ∧
    (∀ (ch : Fin 24),
      (∀ level, s.os.forces.getD ch.val .inactive = .active level (some 0) →
        exec (.forceExpiry ch) s =
          .next ({ s with os := { s.os with
            forces := s.os.forces.set ch.val .inactive } } : State).reshape) ∧
      ((∀ level, s.os.forces.getD ch.val .inactive ≠ .active level (some 0)) →
        exec (.forceExpiry ch) s = .next s)) ∧
    (s.mc.quietTimer = some 0 →
      exec .quietTimerExpiry s =
        .next { s with
          pwu := { s.pwu with
            running := false, count := 0, drivers := .down,
            channels := List.replicate 24 { block := .blocked, onCount := 0, endDue := false } }
          mc := { s.mc with mode := .quiet, quietTimer := none } }) ∧
    (s.mc.quietTimer ≠ some 0 → exec .quietTimerExpiry s = .next s)

/-- What entering a mode does: the block causes, the quiet timer, and on leaving QUIET the wake and
an overdue rotation. What the Shaper's hand-on does: the duties; a non-zero one ends QUIET; the
quiet timer. In RESET and START the Shaper computes nothing. -/
def Obligations.ModeEntryAndHandOn : Prop :=
  (∀ (s : State) (m : Mode), m.operating = true →
    s.enterMode m =
      { s with
        mc := { s.mc with
          mode := m
          quietTimer :=
            if m = .run ∧ s.node.quiet = true ∧ s.os.duty.all (· = 0) = true then
              some (s.mc.quietTimer.getD 2000)
            else none }
        pwu := { s.pwu with
          drivers := if s.mc.mode = .quiet ∧ m ≠ .quiet then .powering else s.pwu.drivers
          channels := (List.range 24).map fun i =>
            if has s.fm.shortLatch i = true ∨ m ≠ .run then
              { block := .blocked, onCount := 0, endDue := false }
            else if (s.channel i).block = .blocked then
              { block := .resuming, onCount := 0, endDue := false }
            else s.channel i }
        mon := if s.mc.mode = .quiet ∧ m ≠ .quiet then s.mon.catchUp else s.mon }) ∧
  (∀ s : State,
    let a : State := { s with os := { s.os with duty := perChannel s.computedDuty } }
    (s.mc.mode.operating = false → s.reshape = s) ∧
    (s.mc.mode.operating = true → s.mc.mode ≠ .quiet ∨ a.os.duty.all (· = 0) = true →
      s.reshape = { a with mc := { s.mc with quietTimer := a.quietTimerNow } }) ∧
    (s.mc.mode = .quiet → a.os.duty.all (· = 0) = false → s.reshape = a.enterMode .run))

/-- The master, curve and trim stages (R89, R90, R94), and their order before the ceiling stage; a
forced channel's duty16 instead. -/
def Obligations.ShapingStages : Prop :=
  (∀ level master : Word,
    (masterStage level master).toNat = level.toNat * master.toNat / 65535 ∧
    masterStage level 0xFFFF = level ∧ masterStage level 0 = 0) ∧
  (∀ (s : State) (e : PatchEntry),
    (e.master = none → s.masterLevel e = 0xFFFF) ∧
    (∀ g, e.master = some g → (s.group g.val).kind = .none → s.masterLevel e = 0xFFFF) ∧
    (∀ g o, e.master = some g → (s.group g.val).kind = .slot o →
      s.masterLevel e = (s.context (24 + g.val)).level)) ∧
  (∀ (tables : List (List Word)) (x : Word),
    curveStage tables .linear x = x ∧
    curveStage tables .log x = interpolate logTable x ∧
    (∀ t : Fin 4, curveStage tables (.table t) x =
      interpolate (tables.getD t.val defaultTable) x)) ∧
  (∀ (y : Word) (trim : Byte),
    (trimStage y trim).toNat = y.toNat * trim.toNat / 255 ∧
    trimStage y 255 = y ∧ trimStage y 0 = 0 ∧
    (trimStage y trim ≠ 0 ↔ 255 ≤ y.toNat * trim.toNat)) ∧
  (∀ (z : Word) (ceiling : Nat), ceiling ≤ 64 →
    (ceilingStage z ceiling).toNat = z.toNat * ceiling / 64 ∧ ceilingStage z 64 = z) ∧
  (∀ (s : State) (ch : Nat),
    (s.os.forces.getD ch .inactive = .inactive →
      s.computedDuty ch =
        ceilingStage
          (trimStage
            (curveStage s.os.tables (s.entry ch).curve
              (masterStage (s.context ch).level (s.masterLevel (s.entry ch))))
            (s.entry ch).trim)
          (min s.node.ceiling.val s.mon.ceiling)) ∧
    (∀ level left, s.os.forces.getD ch .inactive = .active level left →
      s.computedDuty ch = ceilingStage level s.mon.ceiling))

/-- Interpolation in a table of 33 points (R91): the segment, the quotient rounded toward zero, a
result between the two points, and the last point reached only where the last segment is flat. The
LOG table (R92): the rounded points, and the curve's two ends. -/
def Obligations.InterpolationAndTheLogTable : Prop :=
  (∀ (points : List Word) (x : Word), points.length = 33 →
    let i := x.toNat / 2048
    let f := x.toNat % 2048
    let p := (points.getD i 0).toNat
    let q := (points.getD (i + 1) 0).toNat
    i ≤ 31 ∧ f ≤ 2047 ∧
    (p ≤ q → (interpolate points x).toNat = p + (q - p) * f / 2048) ∧
    (q ≤ p → (interpolate points x).toNat = p - (p - q) * f / 2048) ∧
    (p = q → (interpolate points x).toNat = p) ∧
    min p q ≤ (interpolate points x).toNat ∧ (interpolate points x).toNat ≤ max p q) ∧
  (∀ points : List Word, points.length = 33 →
    (interpolate points 0xFFFF = points.getD 32 0 ↔ points.getD 31 0 = points.getD 32 0)) ∧
  (logTable.length = 33 ∧
    (∀ k, k < 33 →
      let p := (logTable.getD k 0).toNat
      (2 * p + 513) ^ 4 ≤ 514 ^ 4 * 2 ^ k ∧ 514 ^ 4 * 2 ^ k ≤ (2 * p + 515) ^ 4) ∧
    (∀ k, k + 4 < 33 →
      (logTable.getD (k + 4) 0).toNat ≤ 2 * (logTable.getD k 0).toNat + 258 ∧
      2 * (logTable.getD k 0).toNat + 256 ≤ (logTable.getD (k + 4) 0).toNat) ∧
    interpolate logTable 0xFFFF = 65529 ∧
    (∀ x : Word, x.toNat ≤ 41 → interpolate logTable x = 0) ∧ interpolate logTable 42 = 1)

/-! ## PWM and faults (07, 08) -/

/-- The on-count of a duty16 (R105), its range, and its sum over a dither cycle. -/
def Obligations.OnCountOfADuty : Prop :=
  ∀ (d : Word) (code : Fin 4) (dither : Bool) (j : Nat), j < 8 →
    let b := 13 - code.val
    let base := d.toNat / 2 ^ (16 - b)
    let residue := d.toNat / 2 ^ (13 - b) % 8
    (d = 0xFFFF → onCountOf d code dither j = 2 ^ b) ∧
    (d ≠ 0xFFFF → dither = true → j < residue → onCountOf d code dither j = base + 1) ∧
    (d ≠ 0xFFFF → dither = true → residue ≤ j → onCountOf d code dither j = base) ∧
    (d ≠ 0xFFFF → dither = false → onCountOf d code dither j = base) ∧
    onCountOf d code dither j ≤ 2 ^ b ∧
    (d ≠ 0xFFFF →
      ((List.range 8).map (onCountOf d code true)).sum = 8 * base + residue ∧
      8 * base + residue = d.toNat / 2 ^ (13 - b)) ∧
    (dither = false → d.toNat < 2 ^ (16 - b) → onCountOf d code dither j = 0)

/-- The on-phase: the n positions from the start offset on, wrapping; the offset by the cell; one
cell on at a time where the on-counts allow it; the last position. -/
def Obligations.OnPhaseOfAChannel : Prop :=
  (∀ (code : Fin 4) (ch : Nat), ch < 24 →
    startOffset false code ch = 0 ∧
    startOffset true code ch = ch / 3 * (2 ^ (13 - code.val) / 8)) ∧
  (∀ counts offset n pos, offset < counts → n ≤ counts → pos < counts →
    (inOnPhase counts offset n pos = true ↔
      (offset ≤ pos ∧ pos < offset + n) ∨ pos + counts < offset + n) ∧
    (0 < n → lastPosition counts offset n < counts ∧
      inOnPhase counts offset n (lastPosition counts offset n) = true ∧
      (offset + n ≤ counts → lastPosition counts offset n = offset + n - 1) ∧
      (counts < offset + n → lastPosition counts offset n = offset + n - counts - 1))) ∧
  (∀ (code : Fin 4) (a b n pos : Nat), a < 24 → b < 24 → a / 3 ≠ b / 3 →
    n ≤ 2 ^ (13 - code.val) / 8 → pos < 2 ^ (13 - code.val) →
      ¬(inOnPhase (2 ^ (13 - code.val)) (startOffset true code a) n pos = true ∧
        inOnPhase (2 ^ (13 - code.val)) (startOffset true code b) n pos = true)) ∧
  (∀ (s : State) (ch pos : Nat), s.sinkOn ch pos = true ↔
    s.pwu.running = true ∧
      inOnPhase (periodCounts s.pwu.code) (startOffset s.pwu.stagger s.pwu.code ch)
        (s.channel ch).onCount pos = true)

/-- A period start takes the period code, the phase, the stagger and dither settings, and every
channel's latch; the end of the wake is a counter start in phase 0. Stopped, the counter gives none.
-/
def Obligations.PeriodStartLatchesEveryChannel : Prop :=
  ∀ s : State,
    let latched (phase : Fin 8) : List PwmChannel := (List.range 24).map fun i =>
      if (s.channel i).block = .blocked then { block := .blocked, onCount := 0, endDue := false }
      else
        let n := onCountOf (s.os.duty.getD i 0) s.node.periodCode s.node.dither phase.val
        { block := .driving, onCount := n, endDue := decide (0 < n) }
    let phase : Fin 8 := if s.node.periodCode = s.pwu.code then s.pwu.phase + 1 else 0
    (s.pwu.running = true →
      exec .periodStart s =
        .next { s with pwu := { s.pwu with
          count := 0, code := s.node.periodCode, phase := phase, stagger := s.node.stagger,
          dither := s.node.dither, channels := latched phase } }) ∧
    (s.pwu.running = false → exec .periodStart s = .next s) ∧
    (s.pwu.drivers = .powering →
      exec .wakeComplete s =
        .next { s with pwu := { s.pwu with
          running := true, drivers := .up, count := 0, code := s.node.periodCode, phase := 0,
          stagger := s.node.stagger, dither := s.node.dither, channels := latched 0 } }) ∧
    (s.pwu.drivers ≠ .powering → exec .wakeComplete s = .next s)

/-- An on-phase end: in RUN, on a channel with no block cause and an on-count of at least a thirty-
second of the period, both senses are counted and latched by the confirm count; a short latched
blocks the channel at once; a latch outside its mask raises FAULT. Unevaluated, it changes no count.
An end that cannot come changes nothing: the model's choice, log 2. -/
def Obligations.OnPhaseEndCountsAndLatches : Prop :=
  ∀ (ch : Fin 24) (mv : Nat) (s : State), WellShaped s → BlockedByCause s →
    let i := ch.val
    let endAt := s.endPosition i
    let can := s.pwu.running = true ∧ (s.channel i).block = .driving ∧ (s.channel i).endDue = true ∧
      s.pwu.count ≤ endAt
    let evaluated := s.mc.mode = .run ∧ has s.fm.shortLatch i = false ∧
      2 ^ (13 - s.pwu.code.val) / 32 ≤ (s.channel i).onCount
    let confirm := 2 ^ (s.node.confirmCode.val + 1)
    let count (latched : Bool) (sense : Bool) (n : Nat) : Nat :=
      if latched then n else if sense then n + 1 else 0
    let isOpen := decide (mv < 300)
    let isShort := decide (4000 < mv)
    let nOpen := count (has s.fm.openLatch i) isOpen (s.fm.openCount.getD i 0)
    let nShort := count false isShort (s.fm.shortCount.getD i 0)
    let newOpen := has s.fm.openLatch i = false ∧ isOpen = true ∧ confirm ≤ nOpen
    let newShort := isShort = true ∧ confirm ≤ nShort
    let ended : Pwu := { s.pwu with
      count := endAt, channels := s.pwu.channels.set i { s.channel i with endDue := false } }
    (¬can → exec (.onPhaseEnd ch mv) s = .next s) ∧
    (can → ¬evaluated → exec (.onPhaseEnd ch mv) s = .next { s with pwu := ended }) ∧
    (can → evaluated →
      ∃ t, exec (.onPhaseEnd ch mv) s = .next t ∧
        t = { s with fm := t.fm, pwu := t.pwu, al := t.al } ∧
        t.fm.openMask = s.fm.openMask ∧ t.fm.shortMask = s.fm.shortMask ∧
        t.fm.openCount = s.fm.openCount.set i nOpen ∧
        t.fm.shortCount = s.fm.shortCount.set i nShort ∧
        (∀ k, has t.fm.openLatch k = true ↔ has s.fm.openLatch k = true ∨ (k = i ∧ newOpen)) ∧
        (∀ k, has t.fm.shortLatch k = true ↔ has s.fm.shortLatch k = true ∨ (k = i ∧ newShort)) ∧
        (¬newShort → t.pwu = ended) ∧
        (newShort → t.pwu = { ended with
          channels := s.pwu.channels.set i { block := .blocked, onCount := 0, endDue := false } }) ∧
        ((newOpen ∧ has s.fm.openMask i = false) ∨ (newShort ∧ has s.fm.shortMask i = false) →
          t.al = { s.al with
            reasons := s.al.reasons ||| 2
            holdOff := if has s.al.reasons 1 = true ∨ has s.al.mask 1 = true then s.al.holdOff
              else none }) ∧
        (¬((newOpen ∧ has s.fm.openMask i = false) ∨ (newShort ∧ has s.fm.shortMask i = false)) →
          t.al = s.al))

/-! ## MON and START (09) -/

/-- The rotation timer's due time by the mode, and a temperature result: reading, ceiling step, the
duties, the thermal state, THERMAL, and HOT entered or ended. That a temperature result while that
conversion does not run changes nothing is the model's choice, log 2. -/
def Obligations.RotationAndTemperature : Prop :=
  ∀ s : State,
    let interval := if s.mc.mode = .quiet then 1000 else 10
    (∀ n, s.mon.sinceStart = some n → interval ≤ n → s.mon.converting = none →
      exec .rotationDue s =
        .next { s with mon := { s.mon with
          converting := some .temperature, sinceStart := some 0, dueAgain := false } }) ∧
    (∀ n c, s.mon.sinceStart = some n → interval ≤ n → s.mon.converting = some c →
      exec .rotationDue s = .next { s with mon := { s.mon with dueAgain := true } }) ∧
    (∀ n, s.mon.sinceStart = some n → n < interval → exec .rotationDue s = .next s) ∧
    (s.mon.sinceStart = none → exec .rotationDue s = .next s) ∧
    (∀ raw : BitVec 12,
      (s.mon.converting ≠ some .temperature → exec (.temperatureResult raw) s = .next s) ∧
      (s.mon.converting = some .temperature →
        let t : Int := max (-40) (min 200 (((raw.toNat / 16 : Nat) : Int) - 50))
        let c : Nat :=
          if 135 ≤ t ∧ 16 < s.mon.ceiling then s.mon.ceiling - 1
          else if t < 130 ∧ s.mon.ceiling < 64 then s.mon.ceiling + 1
          else s.mon.ceiling
        let new := thermalAfter s.mon.thermal c t
        let a := ({ s with mon := { s.mon with
          temperature := t, ceiling := c, converting := some .supply } } : State).reshape
        let b : State := { a with
          mon := { a.mon with thermal := new }
          al := if new ≠ s.mon.thermal ∧ new ≠ .normal then
              { s.al with
                reasons := s.al.reasons ||| 4
                holdOff := if has s.al.reasons 2 = true ∨ has s.al.mask 2 = true then s.al.holdOff
                  else none }
            else s.al }
        (s.mon.thermal ≠ .hot → new = .hot → a.mc.mode = .run ∨ a.mc.mode = .quiet →
          exec (.temperatureResult raw) s =
            .next (({ b with mc := { b.mc with returnMode := .run } } : State).enterMode .hot)) ∧
        (s.mon.thermal ≠ .hot → new = .hot → a.mc.mode = .standby →
          exec (.temperatureResult raw) s =
            .next (({ b with mc := { b.mc with returnMode := .standby } } : State).enterMode .hot)) ∧
        (s.mon.thermal = .hot → new ≠ .hot → a.mc.mode = .hot →
          exec (.temperatureResult raw) s =
            .next (b.enterMode (match b.mc.returnMode with | .run => .run | .standby => .standby))) ∧
        (new = s.mon.thermal ∨ (s.mon.thermal ≠ .hot ∧ new ≠ .hot) ∨ a.mc.mode = .start →
          exec (.temperatureResult raw) s = .next b)))

/-- A supply result: the reading and the supply state with its two thresholds; the end of PRE_UV
starts what waits. An AUX result outside START ends the rotation. That a supply or AUX result while
that conversion does not run changes nothing is the model's choice, log 2. -/
def Obligations.SupplyAndAuxResults : Prop :=
  ∀ (raw : BitVec 12) (s : State),
    (s.mon.converting ≠ some .supply → exec (.supplyResult raw) s = .next s) ∧
    (s.mon.converting = some .supply →
      let mv := raw.toNat * 2
      let a : State := { s with mon := { s.mon with supply := mv, converting := some .aux } }
      (s.mon.supplyState = .normal → mv < 4500 →
        exec (.supplyResult raw) s =
          .next { a with
            mon := { a.mon with supplyState := .preUv }
            al := { s.al with
              reasons := s.al.reasons ||| 8
              holdOff := if has s.al.reasons 3 = true ∨ has s.al.mask 3 = true then s.al.holdOff
                else none } }) ∧
      (s.mon.supplyState = .preUv → 4700 ≤ mv →
        let b : State := { a with mon := { a.mon with supplyState := .normal } }
        (∀ w, s.stc.activity = .waiting w → exec (.supplyResult raw) s = .next (b.startWork w)) ∧
        ((∀ w, s.stc.activity ≠ .waiting w) → exec (.supplyResult raw) s = .next b)) ∧
      ((s.mon.supplyState = .normal ∧ 4500 ≤ mv) ∨ (s.mon.supplyState = .preUv ∧ mv < 4700) →
        exec (.supplyResult raw) s = .next a)) ∧
    (s.mon.converting ≠ some .aux → exec (.auxResult raw) s = .next s) ∧
    (s.mon.converting = some .aux → s.mc.mode ≠ .start →
      (s.mon.dueAgain = false →
        exec (.auxResult raw) s =
          .next { s with mon := { s.mon with aux := raw, converting := none } }) ∧
      (s.mon.dueAgain = true →
        exec (.auxResult raw) s =
          .next { s with mon := { s.mon with
            aux := raw, converting := some .temperature, dueAgain := false,
            sinceStart := s.mon.sinceStart.map fun _ => 0 } }))

/-- The third result of the START rotation ends START: RUN, or HOT where the thermal state is T_HOT;
the timers, the timebase and the counter start; the duties are computed; START is raised, and STORE
where a page was corrupt. -/
def Obligations.StartCompletion : Prop :=
  ∀ (raw : BitVec 12) (s : State), NodeInv s → s.mc.mode = .start →
    s.mon.converting = some .aux → s.mon.dueAgain = false →
      let duty := perChannel s.computedDuty
      let hot := s.mon.thermal = .hot
      exec (.auxResult raw) s =
        .next { s with
          ss := { s.ss with
            lossTimer := if s.node.lossTimeout = 0 then .off
              else .running (s.node.lossTimeout.toNat * 100) }
          fe := { s.fe with timebase := true }
          os := { s.os with duty := duty }
          pwu := { s.pwu with
            running := true, count := 0, code := s.node.periodCode, phase := 0,
            stagger := s.node.stagger, dither := s.node.dither, drivers := .up,
            channels := (List.range 24).map fun i =>
              if hot ∨ has s.fm.shortLatch i = true then
                { block := .blocked, onCount := 0, endDue := false }
              else
                let n := onCountOf (duty.getD i 0) s.node.periodCode s.node.dither 0
                { block := .driving, onCount := n, endDue := decide (0 < n) } }
          al := (if s.stc.loadFaults = 0 then s.al.raise .start
            else (s.al.raise .start).raise .store)
          mon := { s.mon with aux := raw, converting := none, sinceStart := some 0 }
          mc := { s.mc with
            mode := if hot then .hot else .run
            returnMode := .run
            quietTimer :=
              if ¬hot ∧ s.node.quiet = true ∧ duty.all (· = 0) = true then some 2000 else none } }

/-! ## The store (10) -/

/-- A page write or an erase starts, or waits under PRE_UV; the head starts an idle store. The end
of an entry's run: a repeat mark runs it again, else it leaves and the next one starts. -/
def Obligations.StoreStartsAndEndsEntries : Prop :=
  (∀ (s : State) (w : StoreWork) (e : QueueEntry) (rest : List QueueEntry), s.stc.queue = e :: rest →
    (s.mon.supplyState = .preUv →
      s.startWork w = { s with stc := { s.stc with activity := .waiting w } }) ∧
    (s.mon.supplyState = .normal → ∀ p, w = .page p →
      s.startWork w =
        { s with stc := { s.stc with
          activity := .running w
          queue := { e with started := true } :: rest
          pageBuffer := some (pageImage
            (if p.val = 0 then lockContent
              else if p.val ≤ 6 then (s.stc.snapshot.getD []).getD (p.val - 1) []
              else sceneContent (s.stc.shadow.getD (p.val - 7) invalidScene))) } }) ∧
    (s.mon.supplyState = .normal → w = .erase →
      s.startWork w =
        { s with stc := { s.stc with
          activity := .running w, queue := { e with started := true } :: rest } }) ∧
    (s.stc.activity = .idle → s.startHead = s.startWork e.kind.firstWork) ∧
    (s.stc.activity ≠ .idle → s.startHead = s) ∧
    (e.again = false →
      s.endEntry =
        ({ s with
          stc := { s.stc with activity := .idle, queue := rest }
          me := s.me.entryLeft e.kind rest } : State).startHead) ∧
    (e.again = true →
      s.endEntry =
        ({ s with stc := { s.stc with
            activity := .idle
            snapshot := if e.kind = .config then some s.liveSnapshot else s.stc.snapshot
            queue := { e with started := false, again := false } :: rest } } : State).startHead)) ∧
  (∀ s : State, s.stc.queue = [] → s.startHead = s) ∧
  (StoreKind.config.firstWork = .page 1 ∧ StoreKind.lock.firstWork = .page 0 ∧
    StoreKind.erase.firstWork = .erase ∧
    ∀ n : Fin 16, ∃ p : Fin 23, p.val = 7 + n.val ∧ (StoreKind.scene n).firstWork = .page p)

/-- The ends of a page write and of an erase: by a completion that verifies, by one that does not,
by the timer. A late completion is disregarded. What a failure leaves in the pages is any bytes. -/
def Obligations.StoreWorkEnds : Prop :=
  ∀ s : State,
    let failed (cause : FailureCause) (page : Option (Fin 23)) (pages : List Page) : State :=
      ({ s with
        stc := { s.stc with
          lastFailure := some ⟨s.stc.headKind, page, cause⟩, pages := pages }
        al := { s.al with
          reasons := s.al.reasons ||| 16
          holdOff := if has s.al.reasons 4 = true ∨ has s.al.mask 4 = true then s.al.holdOff
            else none }
        freeCount := s.freeCount + 1 } : State).endEntry
    (∀ (p : Fin 23) (image : List Byte), s.stc.activity = .running (.page p) →
      s.stc.pageBuffer = some image →
      let written : State := { s with stc := { s.stc with
        pages := s.stc.pages.set p.val (.bytes image) } }
      (∀ rb, rb = .asProgrammed ∨ rb = .holds image →
        (∀ q : Fin 23, 1 ≤ p.val → q.val = p.val + 1 → q.val ≤ 6 →
          exec (.pageWriteCompletion false rb) s = .next (written.startWork (.page q))) ∧
        (p.val = 0 ∨ 6 ≤ p.val →
          exec (.pageWriteCompletion false rb) s = .next written.endEntry)) ∧
      (∀ bytes, bytes ≠ image →
        ∃ content, exec (.pageWriteCompletion false (.holds bytes)) s =
          .next (failed .verify (some p) (s.stc.pages.set p.val (.bytes content)))) ∧
      (∃ content, exec .pageWriteTimeout s =
        .next (failed .timeout (some p) (s.stc.pages.set p.val (.bytes content))))) ∧
    (s.stc.activity = .running .erase →
      exec (.eraseCompletion false) s =
        .next ({ s with stc := { s.stc with
          pages := List.replicate 23 (.bytes (List.replicate 128 0xFF))
          lock := false
          shadow := List.replicate 16 { valid := false, targets := List.replicate 28 0, fade := 0 }
          loadFaults := 0 } } : State).endEntry ∧
      ∃ pages, pages.length = 23 ∧ exec .eraseTimeout s = .next (failed .timeout none pages)) ∧
    (∀ rb, exec (.pageWriteCompletion true rb) s = .next s) ∧
    exec (.eraseCompletion true) s = .next s

/-! ## Pins, VDD and resets (01, 09) -/

/-- A node reset: by POWER_ON in any state, by BROWN_OUT with VDD in range, at the 20 ms point of a
long RSTn pulse outside RESET. Every block takes its node-reset values. The model's choices among
them: the readings kept (log 8), the drivers up and the PWU's settings kept (log 9), the loss timer
OFF (log 10), a page cut off as a case of its own (log 14), and what POWER_ON, BROWN_OUT and the pulse
do to the discriminator (log 30). -/
def Obligations.NodeResetTakesTheNodeResetValues : Prop :=
  ∀ s : State,
    let low : State := { s with
      pins := { s.pins with vddOk := false }
      mc := { s.mc with timingLow := false, longReached := false } }
    let pulse : State := { s with mc := { s.mc with longReached := true } }
    (∃ pages n, s.leavesPages pages n ∧ exec .powerOn s = .next (low.heldReset pages n) ∧
      (s.pins.vddOk = true → exec .brownOut s = .next (low.heldReset pages n))) ∧
    (s.pins.vddOk = false → exec .brownOut s = .next s) ∧
    (s.pins.rstnLow = true → s.mc.timingLow = true → s.mc.longReached = false →
      (s.mc.mode ≠ .reset → ∃ pages n, s.leavesPages pages n ∧
        exec .rstnLongPulse s = .next (pulse.heldReset pages n)) ∧
      (s.mc.mode = .reset → exec .rstnLongPulse s = .next pulse)) ∧
    (s.pins.rstnLow = false ∨ s.mc.timingLow = false ∨ s.mc.longReached = true →
      exec .rstnLongPulse s = .next s)

/-- The RSTn pin: a fall starts the discriminator where VDD is in range; a release under 1 ms does
nothing more, a release from 1 ms to under 20 ms in an operating mode is a link reset, at which a
pending restart is carried out. In START there is no link reset. A release after 20 ms or more, where
no long pulse was reported before it, is the long pulse and then the release (log 30). -/
def Obligations.RstnFallAndRise : Prop :=
  ∀ s : State,
    (s.pins.rstnLow = true → exec .rstnFall s = .next s) ∧
    (s.pins.rstnLow = false →
      exec .rstnFall s =
        .next { s with
          pins := { s.pins with rstnLow := true }
          mc := { s.mc with timingLow := s.pins.vddOk, longReached := false } }) ∧
    (∀ (us : Nat) (rate : BitVec 2),
      (s.pins.rstnLow = false → exec (.rstnRise us rate) s = .next s) ∧
      (s.pins.rstnLow = true → 20000 ≤ us → s.mc.timingLow = true → s.mc.longReached = false →
        ∃ x, exec .rstnLongPulse s = .next x ∧ x.mc.mode = .reset ∧ x.pins.rstnLow = true ∧
          exec (.rstnRise us rate) s = exec (.rstnRise 0 rate) x) ∧
      (s.pins.rstnLow = true →
        let up : State := { s with
          pins := { s.pins with rstnLow := false, rate := rate }
          mc := { s.mc with timingLow := false, longReached := false } }
        (s.mc.mode.operating = true ∨ s.mc.mode = .start →
          us < 1000 ∨ s.mc.timingLow = false ∨ s.mc.longReached = true →
            exec (.rstnRise us rate) s = .next up) ∧
        (s.mc.mode = .start → us < 20000 → exec (.rstnRise us rate) s = .next up) ∧
        let cut : State := { up with
          lpu := { s.lpu with
            buffer := [], tracker := .idle, stallTimer := false, counters := zeroCounters }
          si := clearIntake
          me := emptyExecutor
          al := { s.al with claim := false } }
        (s.mc.mode.operating = true → 1000 ≤ us → us < 20000 → s.mc.timingLow = true →
          s.mc.longReached = false →
          (s.mc.restartPending = false → exec (.rstnRise us rate) s = .next cut) ∧
          (s.mc.restartPending = true → exec (.rstnRise us rate) s = .next cut.resetNode))))

/-- RESET is left for START when VDD is in range and RSTn is high, by the later of the two: the link
rate is sampled, every page is classified and loaded, the PARK contexts are placed, and a rotation
begins. The model's choices: the places of the fields and the order of the CRC's bytes in a page (log
12), the RATE pins as the command's operand (log 20), and a VDD_REACHES_THRESHOLD with VDD already in
range, which changes nothing (logs 2 and 30). -/
def Obligations.StartLoadsTheStore : Prop :=
  ∀ (rate : BitVec 2) (us : Nat) (s : State), WellShaped s → s.mc.mode = .reset →
    let loads (t : State) : Prop :=
      t.mc.mode = .start ∧ t.lpu.rate = rate ∧ t.mon.converting = some .temperature ∧
      ((s.page 1).classify 1 = .valid →
        t.node = NodeSettings.ofPage (s.page 1).content ∧
        (t.fm.openMask, t.fm.shortMask, t.al.mask) = masksOfPage (s.page 1).content) ∧
      ((s.page 1).classify 1 ≠ .valid →
        t.node = defaultNode ∧ t.fm.openMask = 0 ∧ t.fm.shortMask = 0 ∧ t.al.mask = 0) ∧
      ((s.page 2).classify 2 = .valid → t.pt = PatchTable.ofPage (s.page 2).content) ∧
      ((s.page 2).classify 2 ≠ .valid → t.pt = defaultPatchTable) ∧
      (∀ k, k < 4 → t.os.tables.getD k [] =
        if (s.page (3 + k)).classify (3 + k) = .valid then tableOfPage (s.page (3 + k)).content
        else defaultTable) ∧
      (∀ n : Fin 16, t.scene n =
        if (s.page (7 + n.val)).classify (7 + n.val) = .valid then
          SceneRecord.ofPage (s.page (7 + n.val)).content
        else invalidScene) ∧
      (t.stc.lock = true ↔ (s.page 0).classify 0 ≠ .blank) ∧
      (∀ p, p < 23 → (has t.stc.loadFaults p = true ↔ (s.page p).classify p = .corrupt)) ∧
      (∀ i, i < 24 → ∀ b, (t.entry i).source = .park b →
        t.context i = { level := parkLevel b, target := parkLevel b, remaining := 0 }) ∧
      (∀ i, i < 24 → ∀ o, (t.entry i).source = .slot o → t.context i = s.context i)
    (s.pins.rstnLow = false → s.pins.vddOk = false →
      ∃ t, exec (.vddReachesThreshold rate) s = .next t ∧ loads t) ∧
    (s.pins.rstnLow = true → s.pins.vddOk = true →
      ∃ t, exec (.rstnRise us rate) s = .next t ∧ loads t) ∧
    (s.pins.rstnLow = true → s.pins.vddOk = false →
      exec (.vddReachesThreshold rate) s =
        .next { s with
          pins := { s.pins with vddOk := true, rate := rate }
          mc := { s.mc with timingLow := true, longReached := false } }) ∧
    (s.pins.vddOk = true → exec (.vddReachesThreshold rate) s = .next s)

/-! ## Wire and page forms (02, 10) -/

/-- Every patch entry, group record and node settings record survives its wire form: what is written
is what is read. Which values are out of range: curve codes 6 and 7 and master codes 5 to 15, group
kinds 2 to 255, and each field of Table 2-12; a field that the mask does not select is not checked and
keeps its value, and mask bit k selects field k. The codes of Tables 2-8, 2-15 and 2-18. A 16-bit value
goes high byte first, a temperature in two's complement. The sets of Table 2-9, with every bit that has
no member sent as 0 and ignored when read. -/
def Obligations.WireFormsReadBack : Prop :=
  (∀ e : PatchEntry, ∃ a b c d, e.toBytes = [a, b, c, d] ∧ PatchEntry.ofBytes? a b c d = some e) ∧
  (∀ (es : List PatchEntry), patchEntries? (es.flatMap PatchEntry.toBytes) = some es) ∧
  (∀ r : GroupRecord, ∃ a b c, r.toBytes = [a, b, c] ∧ GroupRecord.ofBytes? a b c = some r) ∧
  (∀ (n old : NodeSettings) (mask : Word), ∃ w,
    NodeWrite.ofBytes? mask n.toBytes = some w ∧
    (mask.extractLsb' 0 10 = 0x3FF → old.write w = n) ∧ (mask.extractLsb' 0 10 = 0 → old.write w = old)) ∧
  (∀ (points : List Word), wordsOf (points.flatMap wordBytes) = points) ∧
  (∀ (a b c d : Byte),
    let curve := a.toNat / 16 % 8
    let master := a.toNat % 16
    (PatchEntry.ofBytes? a b c d = none ↔ 6 ≤ curve ∨ 5 ≤ master) ∧
    (∀ e, PatchEntry.ofBytes? a b c d = some e →
      e.source = (if has a 7 then .park b else .slot b) ∧
      (curve = 0 → e.curve = .linear) ∧ (curve = 1 → e.curve = .log) ∧
      (∀ t : Fin 4, curve = 2 + t.val → e.curve = .table t) ∧
      (master = 0 → e.master = none) ∧ (∀ g : Fin 4, master = 1 + g.val → e.master = some g) ∧
      e.trim = c ∧ e.fade = FadeRule.ofByte d)) ∧
  (∀ (bytes : List Byte),
    (bytes.length % 4 ≠ 0 → patchEntries? bytes = none) ∧
    (bytes = [] → patchEntries? bytes = some []) ∧
    (∀ a b c d rest, bytes = a :: b :: c :: d :: rest →
      (PatchEntry.ofBytes? a b c d = none ∨ patchEntries? rest = none → patchEntries? bytes = none) ∧
      (∀ e es, PatchEntry.ofBytes? a b c d = some e → patchEntries? rest = some es →
        patchEntries? bytes = some (e :: es)))) ∧
  (∀ (k o c : Byte),
    (2 ≤ k.toNat → GroupRecord.ofBytes? k o c = none) ∧
    GroupRecord.ofBytes? 0x00 o c = some { kind := .none, fade := FadeRule.ofByte c } ∧
    GroupRecord.ofBytes? 0x01 o c = some { kind := .slot o, fade := FadeRule.ofByte c }) ∧
  (FadeRule.ofByte 0xFF = .frame ∧ (∀ code : Fin 255, FadeRule.ofByte (natByte code.val) = .own code)) ∧
  ((∀ (mask : Word) (bytes : List Byte), bytes.length ≠ 11 → NodeWrite.ofBytes? mask bytes = none) ∧
   (∀ (mask : Word) (b1 b2 b3 b4 b5 b6 b7 b8 b9 b10 b11 : Byte),
     let bytes := [b1, b2, b3, b4, b5, b6, b7, b8, b9, b10, b11]
     (NodeWrite.ofBytes? mask bytes = none ↔
       (has mask 0 = true ∧ 250 < b1.toNat) ∨ (has mask 1 = true ∧ 1023 < (be16 b2 b3).toNat) ∨
       (has mask 3 = true ∧ 2 < b5.toNat) ∨ (has mask 4 = true ∧ 15 < b6.toNat) ∨
       (has mask 6 = true ∧ 64 < b8.toNat) ∨ (has mask 7 = true ∧ 3 < b9.toNat) ∨
       (has mask 9 = true ∧ 3 < b11.toNat)) ∧
     (∀ (w : NodeWrite) (old : NodeSettings), NodeWrite.ofBytes? mask bytes = some w →
       let new := old.write w
       (if has mask 0 then new.address.val = b1.toNat else new.address = old.address) ∧
       (if has mask 1 then new.slotBase.val = (be16 b2 b3).toNat else new.slotBase = old.slotBase) ∧
       new.lossTimeout = (if has mask 2 then b4 else old.lossTimeout) ∧
       (if has mask 3 then new.lossAction.toByte = b5 else new.lossAction = old.lossAction) ∧
       (if has mask 4 then new.lossScene.val = b6.toNat else new.lossScene = old.lossScene) ∧
       new.lossFade = (if has mask 5 then b7 else old.lossFade) ∧
       (if has mask 6 then new.ceiling.val = b8.toNat else new.ceiling = old.ceiling) ∧
       (if has mask 7 then new.periodCode.val = b9.toNat else new.periodCode = old.periodCode) ∧
       new.stagger = (if has mask 8 then has b10 0 else old.stagger) ∧
       new.dither = (if has mask 8 then has b10 1 else old.dither) ∧
       new.quiet = (if has mask 8 then has b10 2 else old.quiet) ∧
       (if has mask 9 then new.confirmCode.val = b11.toNat else new.confirmCode = old.confirmCode)))) ∧
  ((LossAction.hold.toByte = 0x00 ∧ LossAction.black.toByte = 0x01 ∧ LossAction.scene.toByte = 0x02) ∧
   (Status.done.code = 0x01 ∧ Status.busy.code = 0x02 ∧ Status.locked.code = 0x03 ∧
     Status.badParam.code = 0x04 ∧ Status.unknown.code = 0x05 ∧ Status.noRoom.code = 0x06 ∧
     Status.empty.code = 0x07) ∧
   (Mode.run.code = 0x01 ∧ Mode.quiet.code = 0x02 ∧ Mode.standby.code = 0x03 ∧
     Mode.hot.code = 0x04) ∧
   (Source.stream.code = 0x00 ∧ Source.lossHold.code = 0x20 ∧ Source.lossBlack.code = 0x40 ∧
     (∀ n : Fin 16, (Source.cue n).code.toNat = 0x10 + n.val ∧
       (Source.lossCue n).code.toNat = 0x30 + n.val)) ∧
   ((∀ t : Thermal, (thermalSupplyByte t .preUv).toNat = (thermalSupplyByte t .normal).toNat + 0x80) ∧
     thermalSupplyByte .normal .normal = 0x00 ∧ thermalSupplyByte .warm .normal = 0x01 ∧
     thermalSupplyByte .derate .normal = 0x02 ∧ thermalSupplyByte .hot .normal = 0x03) ∧
   (StoreActivity.idle.code = 0x00 ∧ (∀ p, (StoreActivity.running (.page p)).code = 0x01) ∧
     (StoreActivity.running .erase).code = 0x02 ∧ (∀ w, (StoreActivity.waiting w).code = 0x03)) ∧
   (failureBytes none = [0x00, 0xFF, 0x00] ∧
     (∀ (p : Fin 23) (cause : FailureCause),
       let c : Byte := if cause = .timeout then 0x01 else 0x02
       failureBytes (some ⟨.config, some p, cause⟩) = [0x01, natByte p.val, c] ∧
       (∀ n, failureBytes (some ⟨.scene n, some p, cause⟩) = [0x02, natByte p.val, c]) ∧
       failureBytes (some ⟨.lock, some p, cause⟩) = [0x03, natByte p.val, c] ∧
       failureBytes (some ⟨.erase, none, cause⟩) = [0x04, 0xFF, c]))) ∧
  ((∀ w : Word, ∃ h l, wordBytes w = [h, l] ∧ w.toNat = h.toNat * 256 + l.toNat ∧ be16 h l = w) ∧
   (∀ t : Int, -32768 ≤ t → t < 32768 →
     ∃ h l, temperatureBytes t = [h, l] ∧ (be16 h l).toInt = t) ∧
   (boolByte false = 0x00 ∧ boolByte true = 0x01) ∧
   (∀ c : ChannelSet, ∃ h m l, channelSetBytes c = [h, m, l] ∧ channelSetOf h m l = c ∧
     ∀ k, k < 8 → has h k = has c (16 + k) ∧ has m k = has c (8 + k) ∧ has l k = has c k) ∧
   (∀ p : BitVec 23, ∃ h m l, pageSetBytes p = [h, m, l] ∧ has h 7 = false ∧
     (∀ k, k < 7 → has h k = has p (16 + k)) ∧
     (∀ k, k < 8 → has m k = has p (8 + k) ∧ has l k = has p k)) ∧
   (∀ r : ReasonSet, reasonOf (reasonByte r) = r ∧ has (reasonByte r) 6 = false ∧
     has (reasonByte r) 7 = false ∧ ∀ k, k < 6 → has (reasonByte r) k = has r k) ∧
   (∀ (b : Byte) (k : Nat), has (reasonOf b) k = (decide (k < 6) && has b k)) ∧
   (∀ (s : State) (n : Fin 16), has (sceneValidSet s.stc.shadow) n.val = (s.scene n).valid))

/-- What SAVE_CONFIG, CAPTURE_SCENE and SET_LOCK write is classified valid on its page, for every page
kind and every content, one of bytes 0FFH only included, and loads as it was saved. The places of the fields and the order of
the CRC's bytes in a page are the model's, log 12. -/
def Obligations.SavedPagesLoadBack : Prop :=
  ∀ s : State, WellShaped s →
    let image (c : List Byte) : Page := .bytes (pageImage c)
    let settings := settingsContent s.node s.fm.openMask s.fm.shortMask s.al.mask
    (image settings).classify 1 = .valid ∧ (image (patchContent s.pt)).classify 2 = .valid ∧
    (∀ t p, t < 4 → 3 ≤ p → p ≤ 6 →
      (image (curveContent (s.os.tables.getD t defaultTable))).classify p = .valid) ∧
    (∀ (r : SceneRecord) p, r.valid = true → r.targets.length = 28 → 7 ≤ p → p ≤ 22 →
      (image (sceneContent r)).classify p = .valid) ∧
    settingsFromPage (image settings) = (s.node, s.fm.openMask, s.fm.shortMask, s.al.mask) ∧
    patchFromPage (image (patchContent s.pt)) = s.pt ∧
    (∀ t p, t < 4 → 3 ≤ p → p ≤ 6 →
      tableFromPage (image (curveContent (s.os.tables.getD t defaultTable))) p =
        s.os.tables.getD t defaultTable) ∧
    (∀ (r : SceneRecord) p, r.valid = true → r.targets.length = 28 → 7 ≤ p →
      sceneFromPage (image (sceneContent r)) p = r) ∧
    lockFromPage (image lockContent) = true ∧ (image lockContent).classify 0 = .valid ∧
    lockFromPage blankPage = false

/-! ## Reset state and invariants -/

/-- The state right after reset: the node-reset values. The invariants and the two laws of the store
hold right after reset. That the loss timer stands OFF in RESET (log 10) and that the drivers are up
(log 9) are the model's choices, named in `HeldInReset` and `CounterMatches`. -/
def Obligations.ResetHoldsTheNodeResetValues : Prop :=
  (State.reset = State.reset.heldReset State.reset.stc.pages 0 ∧ State.reset.mc.mode = .reset ∧
   State.reset.lpu.bypass = true ∧ State.reset.al.reasons = 1 ∧ State.reset.pending = []) ∧
  (NodeInv State.reset ∧ DutiesCurrent State.reset ∧ WellShaped State.reset ∧
   QueueLaw State.reset ∧ FrameLaw State.reset)

/-- Every step keeps what RESET and START hold, the counter and drivers in step with the mode, every
channel blocked exactly while a cause holds, the thermal ceiling in its range, every fade bounded
and at its target at rest, and no loss timer running in a LOSS state. That the loss timer stands OFF
in RESET and START (log 10) and that the drivers are up there (log 9) are the model's choices. -/
def Obligations.EveryStepKeepsTheNodeInvariant : Prop :=
  ∀ s t : State, NodeInv s → step s = .next t → NodeInv t

/-- From a state with the node invariant, every step keeps every duty16 the one that R88 and R100 give
from the inputs standing, in every mode but RESET and START. -/
def Obligations.EveryStepKeepsTheDutiesCurrent : Prop :=
  ∀ s t : State, NodeInv s → DutiesCurrent s → step s = .next t → DutiesCurrent t

/-- Every step keeps the lengths of every table, page and buffer. Every step keeps the law of the
store queue, at most four entries with the places reserved, at most one CONFIG, an ERASE alone, an
idle store exactly when the queue is empty, and with it the Executor's frame state: at most eight
staged writes, and a place reserved for every entry that the commit can add. -/
def Obligations.EveryStepKeepsTheShapes : Prop :=
  (∀ s t : State, WellShaped s → step s = .next t → WellShaped t) ∧
  (∀ s t : State, QueueLaw s → FrameLaw s → step s = .next t → QueueLaw t ∧ FrameLaw t)
end

