-- ==== Sys2Proof/Laws/State.lean ====
section
/-! SUPPORT. One lemma per field per setter of the state. -/

namespace Sys2Proof.Machine

variable (s : State)

@[simp] theorem State.setPins_pending (x : Pins) : (s.setPins x).pending = s.pending := rfl
@[simp] theorem State.setPins_pins (x : Pins) : (s.setPins x).pins = x := rfl
@[simp] theorem State.setPins_lpu (x : Pins) : (s.setPins x).lpu = s.lpu := rfl
@[simp] theorem State.setPins_si (x : Pins) : (s.setPins x).si = s.si := rfl
@[simp] theorem State.setPins_pt (x : Pins) : (s.setPins x).pt = s.pt := rfl
@[simp] theorem State.setPins_ss (x : Pins) : (s.setPins x).ss = s.ss := rfl
@[simp] theorem State.setPins_fe (x : Pins) : (s.setPins x).fe = s.fe := rfl
@[simp] theorem State.setPins_os (x : Pins) : (s.setPins x).os = s.os := rfl
@[simp] theorem State.setPins_pwu (x : Pins) : (s.setPins x).pwu = s.pwu := rfl
@[simp] theorem State.setPins_fm (x : Pins) : (s.setPins x).fm = s.fm := rfl
@[simp] theorem State.setPins_al (x : Pins) : (s.setPins x).al = s.al := rfl
@[simp] theorem State.setPins_mon (x : Pins) : (s.setPins x).mon = s.mon := rfl
@[simp] theorem State.setPins_mc (x : Pins) : (s.setPins x).mc = s.mc := rfl
@[simp] theorem State.setPins_stc (x : Pins) : (s.setPins x).stc = s.stc := rfl
@[simp] theorem State.setPins_me (x : Pins) : (s.setPins x).me = s.me := rfl
@[simp] theorem State.setPins_node (x : Pins) : (s.setPins x).node = s.node := rfl
@[simp] theorem State.setPins_freeCount (x : Pins) : (s.setPins x).freeCount = s.freeCount := rfl

@[simp] theorem State.setLpu_pending (x : Lpu) : (s.setLpu x).pending = s.pending := rfl
@[simp] theorem State.setLpu_pins (x : Lpu) : (s.setLpu x).pins = s.pins := rfl
@[simp] theorem State.setLpu_lpu (x : Lpu) : (s.setLpu x).lpu = x := rfl
@[simp] theorem State.setLpu_si (x : Lpu) : (s.setLpu x).si = s.si := rfl
@[simp] theorem State.setLpu_pt (x : Lpu) : (s.setLpu x).pt = s.pt := rfl
@[simp] theorem State.setLpu_ss (x : Lpu) : (s.setLpu x).ss = s.ss := rfl
@[simp] theorem State.setLpu_fe (x : Lpu) : (s.setLpu x).fe = s.fe := rfl
@[simp] theorem State.setLpu_os (x : Lpu) : (s.setLpu x).os = s.os := rfl
@[simp] theorem State.setLpu_pwu (x : Lpu) : (s.setLpu x).pwu = s.pwu := rfl
@[simp] theorem State.setLpu_fm (x : Lpu) : (s.setLpu x).fm = s.fm := rfl
@[simp] theorem State.setLpu_al (x : Lpu) : (s.setLpu x).al = s.al := rfl
@[simp] theorem State.setLpu_mon (x : Lpu) : (s.setLpu x).mon = s.mon := rfl
@[simp] theorem State.setLpu_mc (x : Lpu) : (s.setLpu x).mc = s.mc := rfl
@[simp] theorem State.setLpu_stc (x : Lpu) : (s.setLpu x).stc = s.stc := rfl
@[simp] theorem State.setLpu_me (x : Lpu) : (s.setLpu x).me = s.me := rfl
@[simp] theorem State.setLpu_node (x : Lpu) : (s.setLpu x).node = s.node := rfl
@[simp] theorem State.setLpu_freeCount (x : Lpu) : (s.setLpu x).freeCount = s.freeCount := rfl

@[simp] theorem State.setSi_pending (x : SlotIntake) : (s.setSi x).pending = s.pending := rfl
@[simp] theorem State.setSi_pins (x : SlotIntake) : (s.setSi x).pins = s.pins := rfl
@[simp] theorem State.setSi_lpu (x : SlotIntake) : (s.setSi x).lpu = s.lpu := rfl
@[simp] theorem State.setSi_si (x : SlotIntake) : (s.setSi x).si = x := rfl
@[simp] theorem State.setSi_pt (x : SlotIntake) : (s.setSi x).pt = s.pt := rfl
@[simp] theorem State.setSi_ss (x : SlotIntake) : (s.setSi x).ss = s.ss := rfl
@[simp] theorem State.setSi_fe (x : SlotIntake) : (s.setSi x).fe = s.fe := rfl
@[simp] theorem State.setSi_os (x : SlotIntake) : (s.setSi x).os = s.os := rfl
@[simp] theorem State.setSi_pwu (x : SlotIntake) : (s.setSi x).pwu = s.pwu := rfl
@[simp] theorem State.setSi_fm (x : SlotIntake) : (s.setSi x).fm = s.fm := rfl
@[simp] theorem State.setSi_al (x : SlotIntake) : (s.setSi x).al = s.al := rfl
@[simp] theorem State.setSi_mon (x : SlotIntake) : (s.setSi x).mon = s.mon := rfl
@[simp] theorem State.setSi_mc (x : SlotIntake) : (s.setSi x).mc = s.mc := rfl
@[simp] theorem State.setSi_stc (x : SlotIntake) : (s.setSi x).stc = s.stc := rfl
@[simp] theorem State.setSi_me (x : SlotIntake) : (s.setSi x).me = s.me := rfl
@[simp] theorem State.setSi_node (x : SlotIntake) : (s.setSi x).node = s.node := rfl
@[simp] theorem State.setSi_freeCount (x : SlotIntake) : (s.setSi x).freeCount = s.freeCount := rfl

@[simp] theorem State.setPt_pending (x : PatchTable) : (s.setPt x).pending = s.pending := rfl
@[simp] theorem State.setPt_pins (x : PatchTable) : (s.setPt x).pins = s.pins := rfl
@[simp] theorem State.setPt_lpu (x : PatchTable) : (s.setPt x).lpu = s.lpu := rfl
@[simp] theorem State.setPt_si (x : PatchTable) : (s.setPt x).si = s.si := rfl
@[simp] theorem State.setPt_pt (x : PatchTable) : (s.setPt x).pt = x := rfl
@[simp] theorem State.setPt_ss (x : PatchTable) : (s.setPt x).ss = s.ss := rfl
@[simp] theorem State.setPt_fe (x : PatchTable) : (s.setPt x).fe = s.fe := rfl
@[simp] theorem State.setPt_os (x : PatchTable) : (s.setPt x).os = s.os := rfl
@[simp] theorem State.setPt_pwu (x : PatchTable) : (s.setPt x).pwu = s.pwu := rfl
@[simp] theorem State.setPt_fm (x : PatchTable) : (s.setPt x).fm = s.fm := rfl
@[simp] theorem State.setPt_al (x : PatchTable) : (s.setPt x).al = s.al := rfl
@[simp] theorem State.setPt_mon (x : PatchTable) : (s.setPt x).mon = s.mon := rfl
@[simp] theorem State.setPt_mc (x : PatchTable) : (s.setPt x).mc = s.mc := rfl
@[simp] theorem State.setPt_stc (x : PatchTable) : (s.setPt x).stc = s.stc := rfl
@[simp] theorem State.setPt_me (x : PatchTable) : (s.setPt x).me = s.me := rfl
@[simp] theorem State.setPt_node (x : PatchTable) : (s.setPt x).node = s.node := rfl
@[simp] theorem State.setPt_freeCount (x : PatchTable) : (s.setPt x).freeCount = s.freeCount := rfl

@[simp] theorem State.setSs_pending (x : SourceSelector) : (s.setSs x).pending = s.pending := rfl
@[simp] theorem State.setSs_pins (x : SourceSelector) : (s.setSs x).pins = s.pins := rfl
@[simp] theorem State.setSs_lpu (x : SourceSelector) : (s.setSs x).lpu = s.lpu := rfl
@[simp] theorem State.setSs_si (x : SourceSelector) : (s.setSs x).si = s.si := rfl
@[simp] theorem State.setSs_pt (x : SourceSelector) : (s.setSs x).pt = s.pt := rfl
@[simp] theorem State.setSs_ss (x : SourceSelector) : (s.setSs x).ss = x := rfl
@[simp] theorem State.setSs_fe (x : SourceSelector) : (s.setSs x).fe = s.fe := rfl
@[simp] theorem State.setSs_os (x : SourceSelector) : (s.setSs x).os = s.os := rfl
@[simp] theorem State.setSs_pwu (x : SourceSelector) : (s.setSs x).pwu = s.pwu := rfl
@[simp] theorem State.setSs_fm (x : SourceSelector) : (s.setSs x).fm = s.fm := rfl
@[simp] theorem State.setSs_al (x : SourceSelector) : (s.setSs x).al = s.al := rfl
@[simp] theorem State.setSs_mon (x : SourceSelector) : (s.setSs x).mon = s.mon := rfl
@[simp] theorem State.setSs_mc (x : SourceSelector) : (s.setSs x).mc = s.mc := rfl
@[simp] theorem State.setSs_stc (x : SourceSelector) : (s.setSs x).stc = s.stc := rfl
@[simp] theorem State.setSs_me (x : SourceSelector) : (s.setSs x).me = s.me := rfl
@[simp] theorem State.setSs_node (x : SourceSelector) : (s.setSs x).node = s.node := rfl
@[simp] theorem State.setSs_freeCount (x : SourceSelector) : (s.setSs x).freeCount = s.freeCount := rfl

@[simp] theorem State.setFe_pending (x : FadeEngine) : (s.setFe x).pending = s.pending := rfl
@[simp] theorem State.setFe_pins (x : FadeEngine) : (s.setFe x).pins = s.pins := rfl
@[simp] theorem State.setFe_lpu (x : FadeEngine) : (s.setFe x).lpu = s.lpu := rfl
@[simp] theorem State.setFe_si (x : FadeEngine) : (s.setFe x).si = s.si := rfl
@[simp] theorem State.setFe_pt (x : FadeEngine) : (s.setFe x).pt = s.pt := rfl
@[simp] theorem State.setFe_ss (x : FadeEngine) : (s.setFe x).ss = s.ss := rfl
@[simp] theorem State.setFe_fe (x : FadeEngine) : (s.setFe x).fe = x := rfl
@[simp] theorem State.setFe_os (x : FadeEngine) : (s.setFe x).os = s.os := rfl
@[simp] theorem State.setFe_pwu (x : FadeEngine) : (s.setFe x).pwu = s.pwu := rfl
@[simp] theorem State.setFe_fm (x : FadeEngine) : (s.setFe x).fm = s.fm := rfl
@[simp] theorem State.setFe_al (x : FadeEngine) : (s.setFe x).al = s.al := rfl
@[simp] theorem State.setFe_mon (x : FadeEngine) : (s.setFe x).mon = s.mon := rfl
@[simp] theorem State.setFe_mc (x : FadeEngine) : (s.setFe x).mc = s.mc := rfl
@[simp] theorem State.setFe_stc (x : FadeEngine) : (s.setFe x).stc = s.stc := rfl
@[simp] theorem State.setFe_me (x : FadeEngine) : (s.setFe x).me = s.me := rfl
@[simp] theorem State.setFe_node (x : FadeEngine) : (s.setFe x).node = s.node := rfl
@[simp] theorem State.setFe_freeCount (x : FadeEngine) : (s.setFe x).freeCount = s.freeCount := rfl

@[simp] theorem State.setOs_pending (x : OutputShaper) : (s.setOs x).pending = s.pending := rfl
@[simp] theorem State.setOs_pins (x : OutputShaper) : (s.setOs x).pins = s.pins := rfl
@[simp] theorem State.setOs_lpu (x : OutputShaper) : (s.setOs x).lpu = s.lpu := rfl
@[simp] theorem State.setOs_si (x : OutputShaper) : (s.setOs x).si = s.si := rfl
@[simp] theorem State.setOs_pt (x : OutputShaper) : (s.setOs x).pt = s.pt := rfl
@[simp] theorem State.setOs_ss (x : OutputShaper) : (s.setOs x).ss = s.ss := rfl
@[simp] theorem State.setOs_fe (x : OutputShaper) : (s.setOs x).fe = s.fe := rfl
@[simp] theorem State.setOs_os (x : OutputShaper) : (s.setOs x).os = x := rfl
@[simp] theorem State.setOs_pwu (x : OutputShaper) : (s.setOs x).pwu = s.pwu := rfl
@[simp] theorem State.setOs_fm (x : OutputShaper) : (s.setOs x).fm = s.fm := rfl
@[simp] theorem State.setOs_al (x : OutputShaper) : (s.setOs x).al = s.al := rfl
@[simp] theorem State.setOs_mon (x : OutputShaper) : (s.setOs x).mon = s.mon := rfl
@[simp] theorem State.setOs_mc (x : OutputShaper) : (s.setOs x).mc = s.mc := rfl
@[simp] theorem State.setOs_stc (x : OutputShaper) : (s.setOs x).stc = s.stc := rfl
@[simp] theorem State.setOs_me (x : OutputShaper) : (s.setOs x).me = s.me := rfl
@[simp] theorem State.setOs_node (x : OutputShaper) : (s.setOs x).node = s.node := rfl
@[simp] theorem State.setOs_freeCount (x : OutputShaper) : (s.setOs x).freeCount = s.freeCount := rfl

@[simp] theorem State.setPwu_pending (x : Pwu) : (s.setPwu x).pending = s.pending := rfl
@[simp] theorem State.setPwu_pins (x : Pwu) : (s.setPwu x).pins = s.pins := rfl
@[simp] theorem State.setPwu_lpu (x : Pwu) : (s.setPwu x).lpu = s.lpu := rfl
@[simp] theorem State.setPwu_si (x : Pwu) : (s.setPwu x).si = s.si := rfl
@[simp] theorem State.setPwu_pt (x : Pwu) : (s.setPwu x).pt = s.pt := rfl
@[simp] theorem State.setPwu_ss (x : Pwu) : (s.setPwu x).ss = s.ss := rfl
@[simp] theorem State.setPwu_fe (x : Pwu) : (s.setPwu x).fe = s.fe := rfl
@[simp] theorem State.setPwu_os (x : Pwu) : (s.setPwu x).os = s.os := rfl
@[simp] theorem State.setPwu_pwu (x : Pwu) : (s.setPwu x).pwu = x := rfl
@[simp] theorem State.setPwu_fm (x : Pwu) : (s.setPwu x).fm = s.fm := rfl
@[simp] theorem State.setPwu_al (x : Pwu) : (s.setPwu x).al = s.al := rfl
@[simp] theorem State.setPwu_mon (x : Pwu) : (s.setPwu x).mon = s.mon := rfl
@[simp] theorem State.setPwu_mc (x : Pwu) : (s.setPwu x).mc = s.mc := rfl
@[simp] theorem State.setPwu_stc (x : Pwu) : (s.setPwu x).stc = s.stc := rfl
@[simp] theorem State.setPwu_me (x : Pwu) : (s.setPwu x).me = s.me := rfl
@[simp] theorem State.setPwu_node (x : Pwu) : (s.setPwu x).node = s.node := rfl
@[simp] theorem State.setPwu_freeCount (x : Pwu) : (s.setPwu x).freeCount = s.freeCount := rfl

@[simp] theorem State.setFm_pending (x : FaultMonitor) : (s.setFm x).pending = s.pending := rfl
@[simp] theorem State.setFm_pins (x : FaultMonitor) : (s.setFm x).pins = s.pins := rfl
@[simp] theorem State.setFm_lpu (x : FaultMonitor) : (s.setFm x).lpu = s.lpu := rfl
@[simp] theorem State.setFm_si (x : FaultMonitor) : (s.setFm x).si = s.si := rfl
@[simp] theorem State.setFm_pt (x : FaultMonitor) : (s.setFm x).pt = s.pt := rfl
@[simp] theorem State.setFm_ss (x : FaultMonitor) : (s.setFm x).ss = s.ss := rfl
@[simp] theorem State.setFm_fe (x : FaultMonitor) : (s.setFm x).fe = s.fe := rfl
@[simp] theorem State.setFm_os (x : FaultMonitor) : (s.setFm x).os = s.os := rfl
@[simp] theorem State.setFm_pwu (x : FaultMonitor) : (s.setFm x).pwu = s.pwu := rfl
@[simp] theorem State.setFm_fm (x : FaultMonitor) : (s.setFm x).fm = x := rfl
@[simp] theorem State.setFm_al (x : FaultMonitor) : (s.setFm x).al = s.al := rfl
@[simp] theorem State.setFm_mon (x : FaultMonitor) : (s.setFm x).mon = s.mon := rfl
@[simp] theorem State.setFm_mc (x : FaultMonitor) : (s.setFm x).mc = s.mc := rfl
@[simp] theorem State.setFm_stc (x : FaultMonitor) : (s.setFm x).stc = s.stc := rfl
@[simp] theorem State.setFm_me (x : FaultMonitor) : (s.setFm x).me = s.me := rfl
@[simp] theorem State.setFm_node (x : FaultMonitor) : (s.setFm x).node = s.node := rfl
@[simp] theorem State.setFm_freeCount (x : FaultMonitor) : (s.setFm x).freeCount = s.freeCount := rfl

@[simp] theorem State.setAl_pending (x : Attention) : (s.setAl x).pending = s.pending := rfl
@[simp] theorem State.setAl_pins (x : Attention) : (s.setAl x).pins = s.pins := rfl
@[simp] theorem State.setAl_lpu (x : Attention) : (s.setAl x).lpu = s.lpu := rfl
@[simp] theorem State.setAl_si (x : Attention) : (s.setAl x).si = s.si := rfl
@[simp] theorem State.setAl_pt (x : Attention) : (s.setAl x).pt = s.pt := rfl
@[simp] theorem State.setAl_ss (x : Attention) : (s.setAl x).ss = s.ss := rfl
@[simp] theorem State.setAl_fe (x : Attention) : (s.setAl x).fe = s.fe := rfl
@[simp] theorem State.setAl_os (x : Attention) : (s.setAl x).os = s.os := rfl
@[simp] theorem State.setAl_pwu (x : Attention) : (s.setAl x).pwu = s.pwu := rfl
@[simp] theorem State.setAl_fm (x : Attention) : (s.setAl x).fm = s.fm := rfl
@[simp] theorem State.setAl_al (x : Attention) : (s.setAl x).al = x := rfl
@[simp] theorem State.setAl_mon (x : Attention) : (s.setAl x).mon = s.mon := rfl
@[simp] theorem State.setAl_mc (x : Attention) : (s.setAl x).mc = s.mc := rfl
@[simp] theorem State.setAl_stc (x : Attention) : (s.setAl x).stc = s.stc := rfl
@[simp] theorem State.setAl_me (x : Attention) : (s.setAl x).me = s.me := rfl
@[simp] theorem State.setAl_node (x : Attention) : (s.setAl x).node = s.node := rfl
@[simp] theorem State.setAl_freeCount (x : Attention) : (s.setAl x).freeCount = s.freeCount := rfl

@[simp] theorem State.setMon_pending (x : Monitor) : (s.setMon x).pending = s.pending := rfl
@[simp] theorem State.setMon_pins (x : Monitor) : (s.setMon x).pins = s.pins := rfl
@[simp] theorem State.setMon_lpu (x : Monitor) : (s.setMon x).lpu = s.lpu := rfl
@[simp] theorem State.setMon_si (x : Monitor) : (s.setMon x).si = s.si := rfl
@[simp] theorem State.setMon_pt (x : Monitor) : (s.setMon x).pt = s.pt := rfl
@[simp] theorem State.setMon_ss (x : Monitor) : (s.setMon x).ss = s.ss := rfl
@[simp] theorem State.setMon_fe (x : Monitor) : (s.setMon x).fe = s.fe := rfl
@[simp] theorem State.setMon_os (x : Monitor) : (s.setMon x).os = s.os := rfl
@[simp] theorem State.setMon_pwu (x : Monitor) : (s.setMon x).pwu = s.pwu := rfl
@[simp] theorem State.setMon_fm (x : Monitor) : (s.setMon x).fm = s.fm := rfl
@[simp] theorem State.setMon_al (x : Monitor) : (s.setMon x).al = s.al := rfl
@[simp] theorem State.setMon_mon (x : Monitor) : (s.setMon x).mon = x := rfl
@[simp] theorem State.setMon_mc (x : Monitor) : (s.setMon x).mc = s.mc := rfl
@[simp] theorem State.setMon_stc (x : Monitor) : (s.setMon x).stc = s.stc := rfl
@[simp] theorem State.setMon_me (x : Monitor) : (s.setMon x).me = s.me := rfl
@[simp] theorem State.setMon_node (x : Monitor) : (s.setMon x).node = s.node := rfl
@[simp] theorem State.setMon_freeCount (x : Monitor) : (s.setMon x).freeCount = s.freeCount := rfl

@[simp] theorem State.setMc_pending (x : ModeController) : (s.setMc x).pending = s.pending := rfl
@[simp] theorem State.setMc_pins (x : ModeController) : (s.setMc x).pins = s.pins := rfl
@[simp] theorem State.setMc_lpu (x : ModeController) : (s.setMc x).lpu = s.lpu := rfl
@[simp] theorem State.setMc_si (x : ModeController) : (s.setMc x).si = s.si := rfl
@[simp] theorem State.setMc_pt (x : ModeController) : (s.setMc x).pt = s.pt := rfl
@[simp] theorem State.setMc_ss (x : ModeController) : (s.setMc x).ss = s.ss := rfl
@[simp] theorem State.setMc_fe (x : ModeController) : (s.setMc x).fe = s.fe := rfl
@[simp] theorem State.setMc_os (x : ModeController) : (s.setMc x).os = s.os := rfl
@[simp] theorem State.setMc_pwu (x : ModeController) : (s.setMc x).pwu = s.pwu := rfl
@[simp] theorem State.setMc_fm (x : ModeController) : (s.setMc x).fm = s.fm := rfl
@[simp] theorem State.setMc_al (x : ModeController) : (s.setMc x).al = s.al := rfl
@[simp] theorem State.setMc_mon (x : ModeController) : (s.setMc x).mon = s.mon := rfl
@[simp] theorem State.setMc_mc (x : ModeController) : (s.setMc x).mc = x := rfl
@[simp] theorem State.setMc_stc (x : ModeController) : (s.setMc x).stc = s.stc := rfl
@[simp] theorem State.setMc_me (x : ModeController) : (s.setMc x).me = s.me := rfl
@[simp] theorem State.setMc_node (x : ModeController) : (s.setMc x).node = s.node := rfl
@[simp] theorem State.setMc_freeCount (x : ModeController) : (s.setMc x).freeCount = s.freeCount := rfl

@[simp] theorem State.setStc_pending (x : Store) : (s.setStc x).pending = s.pending := rfl
@[simp] theorem State.setStc_pins (x : Store) : (s.setStc x).pins = s.pins := rfl
@[simp] theorem State.setStc_lpu (x : Store) : (s.setStc x).lpu = s.lpu := rfl
@[simp] theorem State.setStc_si (x : Store) : (s.setStc x).si = s.si := rfl
@[simp] theorem State.setStc_pt (x : Store) : (s.setStc x).pt = s.pt := rfl
@[simp] theorem State.setStc_ss (x : Store) : (s.setStc x).ss = s.ss := rfl
@[simp] theorem State.setStc_fe (x : Store) : (s.setStc x).fe = s.fe := rfl
@[simp] theorem State.setStc_os (x : Store) : (s.setStc x).os = s.os := rfl
@[simp] theorem State.setStc_pwu (x : Store) : (s.setStc x).pwu = s.pwu := rfl
@[simp] theorem State.setStc_fm (x : Store) : (s.setStc x).fm = s.fm := rfl
@[simp] theorem State.setStc_al (x : Store) : (s.setStc x).al = s.al := rfl
@[simp] theorem State.setStc_mon (x : Store) : (s.setStc x).mon = s.mon := rfl
@[simp] theorem State.setStc_mc (x : Store) : (s.setStc x).mc = s.mc := rfl
@[simp] theorem State.setStc_stc (x : Store) : (s.setStc x).stc = x := rfl
@[simp] theorem State.setStc_me (x : Store) : (s.setStc x).me = s.me := rfl
@[simp] theorem State.setStc_node (x : Store) : (s.setStc x).node = s.node := rfl
@[simp] theorem State.setStc_freeCount (x : Store) : (s.setStc x).freeCount = s.freeCount := rfl

@[simp] theorem State.setMe_pending (x : Executor) : (s.setMe x).pending = s.pending := rfl
@[simp] theorem State.setMe_pins (x : Executor) : (s.setMe x).pins = s.pins := rfl
@[simp] theorem State.setMe_lpu (x : Executor) : (s.setMe x).lpu = s.lpu := rfl
@[simp] theorem State.setMe_si (x : Executor) : (s.setMe x).si = s.si := rfl
@[simp] theorem State.setMe_pt (x : Executor) : (s.setMe x).pt = s.pt := rfl
@[simp] theorem State.setMe_ss (x : Executor) : (s.setMe x).ss = s.ss := rfl
@[simp] theorem State.setMe_fe (x : Executor) : (s.setMe x).fe = s.fe := rfl
@[simp] theorem State.setMe_os (x : Executor) : (s.setMe x).os = s.os := rfl
@[simp] theorem State.setMe_pwu (x : Executor) : (s.setMe x).pwu = s.pwu := rfl
@[simp] theorem State.setMe_fm (x : Executor) : (s.setMe x).fm = s.fm := rfl
@[simp] theorem State.setMe_al (x : Executor) : (s.setMe x).al = s.al := rfl
@[simp] theorem State.setMe_mon (x : Executor) : (s.setMe x).mon = s.mon := rfl
@[simp] theorem State.setMe_mc (x : Executor) : (s.setMe x).mc = s.mc := rfl
@[simp] theorem State.setMe_stc (x : Executor) : (s.setMe x).stc = s.stc := rfl
@[simp] theorem State.setMe_me (x : Executor) : (s.setMe x).me = x := rfl
@[simp] theorem State.setMe_node (x : Executor) : (s.setMe x).node = s.node := rfl
@[simp] theorem State.setMe_freeCount (x : Executor) : (s.setMe x).freeCount = s.freeCount := rfl

@[simp] theorem State.setNode_pending (x : NodeSettings) : (s.setNode x).pending = s.pending := rfl
@[simp] theorem State.setNode_pins (x : NodeSettings) : (s.setNode x).pins = s.pins := rfl
@[simp] theorem State.setNode_lpu (x : NodeSettings) : (s.setNode x).lpu = s.lpu := rfl
@[simp] theorem State.setNode_si (x : NodeSettings) : (s.setNode x).si = s.si := rfl
@[simp] theorem State.setNode_pt (x : NodeSettings) : (s.setNode x).pt = s.pt := rfl
@[simp] theorem State.setNode_ss (x : NodeSettings) : (s.setNode x).ss = s.ss := rfl
@[simp] theorem State.setNode_fe (x : NodeSettings) : (s.setNode x).fe = s.fe := rfl
@[simp] theorem State.setNode_os (x : NodeSettings) : (s.setNode x).os = s.os := rfl
@[simp] theorem State.setNode_pwu (x : NodeSettings) : (s.setNode x).pwu = s.pwu := rfl
@[simp] theorem State.setNode_fm (x : NodeSettings) : (s.setNode x).fm = s.fm := rfl
@[simp] theorem State.setNode_al (x : NodeSettings) : (s.setNode x).al = s.al := rfl
@[simp] theorem State.setNode_mon (x : NodeSettings) : (s.setNode x).mon = s.mon := rfl
@[simp] theorem State.setNode_mc (x : NodeSettings) : (s.setNode x).mc = s.mc := rfl
@[simp] theorem State.setNode_stc (x : NodeSettings) : (s.setNode x).stc = s.stc := rfl
@[simp] theorem State.setNode_me (x : NodeSettings) : (s.setNode x).me = s.me := rfl
@[simp] theorem State.setNode_node (x : NodeSettings) : (s.setNode x).node = x := rfl
@[simp] theorem State.setNode_freeCount (x : NodeSettings) : (s.setNode x).freeCount = s.freeCount := rfl

end Sys2Proof.Machine
end

