-- ==== Sys2Proof/Laws/Passage.lean ====
section
/-! SUPPORT. What a whole frame does, character by character, on a link at rest. -/

namespace Sys2Proof.Machine

/-- The node while a frame is in passage: one character held, those before it already sent. -/
def inFlight (s : State) (out : List LineChar) (q : Place) (f : FrameCtx) (si : SlotIntake)
    (me : Executor) (al : Attention) : State :=
  { s with
    lpu := { s.lpu with rx := .hunting, tx := none, buffer := [q], tracker := .frame f,
                        stallTimer := true, lout := s.lpu.lout ++ out }
    si := si
    me := me
    al := al }

/-- One character, and the transmitter after it. -/
def pace (s : State) (c : LineChar) : State := (s.receive c).keepPace

theorem keepPace_foldl_pass (cs : List LineChar) (s : State) :
    (cs.foldl State.pass s).keepPace = cs.foldl pace s.keepPace := by
  induction cs generalizing s with
  | nil => rfl
  | cons c cs ih => simp only [List.foldl_cons, ih]; rfl

theorem foldl_pass_append_last (cs : List LineChar) (c : LineChar) (s : State) :
    (cs ++ [c]).foldl State.pass s = (cs.foldl pace s.keepPace).receive c := by
  simp only [List.foldl_append, List.foldl_cons, List.foldl_nil, State.pass, keepPace_foldl_pass]

@[simp] theorem charError_freshChar (d : Byte) (m : Bool) : charError (freshChar d m) = false := by
  simp [charError, freshChar]

@[simp] theorem freshChar_data (d : Byte) (m : Bool) : (freshChar d m).data = d := rfl
@[simp] theorem freshChar_mark (d : Byte) (m : Bool) : (freshChar d m).mark = m := rfl
@[simp] theorem freshChar_stop (d : Byte) (m : Bool) : (freshChar d m).stop = true := rfl

@[simp] theorem countArrival_clean (c : LinkCounters) : c.countArrival false false = c := rfl

theorem receive_inFlight (s : State) (hb : s.lpu.bypass = false) (out q f si me al) (d : Byte) :
    (inFlight s out q f si me al).receive (freshChar d false) =
      (inFlight s out q f si me al).takeFrameChar f d false false := by
  simp [State.receive, State.takeChar, inFlight, hb, State.bufferFull, bufferPlaces, State.setLpu]

theorem pace_inFlight (s : State) (hb : s.lpu.bypass = false) (out q f si me al) (d : Byte) :
    pace (inFlight s out q f si me al) (freshChar d false) =
      ((inFlight s out q f si me al).takeFrameChar f d false false).keepPace := by
  rw [pace, receive_inFlight s hb]

theorem keepPace_hold (s : State) (out q f si me al) (f' : FrameCtx) (p : Place)
    (hq : q.released = false) (hqf : q.forwards = false) (hp : p.released = false) :
    ((inFlight s out q f si me al).holdChar f' p false).keepPace =
      inFlight s (out ++ [freshChar q.sent q.mark]) p
        { f' with txCrc := if q.covered then crcByte f'.txCrc q.sent else f'.txCrc } si me al := by
  simp [State.holdChar, inFlight, releaseHeld, joinBuffer, State.keepPace, State.keepPaceN,
    bufferPlaces, State.setLpu, State.charSent, State.transmit, State.frameForwarded, hqf, hp,
    feedSent, hq, Place.sent]

/-! ## A frame in passage, by the bytes received and the bytes sent -/

theorem frameOut_append (sent : List Byte) (h : sent ≠ []) (x : Byte) :
    frameOut (sent ++ [x]) = frameOut sent ++ [freshChar x false] := by
  cases sent with
  | nil => exact absurd rfl h
  | cons k ds => simp [frameOut, dataChars]

/-- The context of a frame with no mark but perhaps the format mark. -/
def cleanCtx (fmt : Bool) (kind : Byte) (n : Nat) (a : Fin 251) (phase : Phase) (rcv fed : List Byte) : FrameCtx :=
  { kind := kind, phase := phase, length := n, position := rcv.length - 1, charError := false,
    overrun := false, format := fmt, rxCrc := crc16 rcv, txCrc := crc16 fed, crcIn := 0,
    address := a }

/-- A frame in passage: `rcv` received, `sent` sent, `q` held. -/
def mid (fmt : Bool) (s : State) (kind : Byte) (n : Nat) (a : Fin 251) (phase : Phase) (rcv sent : List Byte)
    (q : Place) (si : SlotIntake) (me : Executor) (al : Attention) : State :=
  inFlight s (frameOut sent) q
    (cleanCtx fmt kind n a phase rcv (sent ++ if q.covered then [] else [q.data])) si me al

theorem crc16_append (xs : List Byte) (x : Byte) : crc16 (xs ++ [x]) = crcByte (crc16 xs) x := by
  simp [crc16]

theorem keepPace_rest {s : State} (h : LinkRest s) : s.keepPace = s := by
  simp [State.keepPace, State.keepPaceN, bufferPlaces, State.charSent, State.transmit, h.tx, h.buffer]

/-- The intake a frame start leaves. -/
def startIntake (s : State) (kind : Byte) : SlotIntake :=
  { places := List.replicate 28 none,
    intake := if kind = levelKind then some s.beginIntake else none }

/-- The executor a frame start leaves. -/
def startExecutor (kind : Byte) : Executor :=
  { emptyExecutor with parser := if kind = managementKind then some Parser.begin else none }

theorem pace_opener {s : State} (h : LinkRest s) (kind : Byte) :
    pace s (freshChar kind true) =
      inFlight s [] (Place.of kind true false false none)
        (FrameCtx.begin kind false false s.node.address) (startIntake s kind)
        (startExecutor kind) s.al := by
  simp [pace, State.receive, h.bypass, h.rx, State.takeChar, State.takeOpener, h.tracker,
    State.bufferFull, bufferPlaces, h.buffer, State.setBuffer, joinBuffer, State.startFrame,
    State.keepPace, State.keepPaceN, State.charSent, State.transmit, h.tx, inFlight,
    startIntake, startExecutor, Place.of]
  rfl

/-! ## The length bytes -/

theorem hiByte_toNat (w : Word) : (hiByte w).toNat = w.toNat / 256 := by
  have := w.isLt
  simp only [hiByte, BitVec.extractLsb'_toNat, Nat.shiftRight_eq_div_pow]
  omega

theorem loByte_toNat (w : Word) : (loByte w).toNat = w.toNat % 256 := by
  simp [loByte, BitVec.extractLsb'_toNat]

theorem natWord_toNat {n : Nat} (h : n < 65536) : (natWord n).toNat = n := by
  simp [natWord, Nat.mod_eq_of_lt h]

theorem length_of_bytes {n : Nat} (h : n ≤ 1040) :
    (hiByte (natWord n)).toNat * 256 + (loByte (natWord n)).toNat = n := by
  rw [hiByte_toNat, loByte_toNat, natWord_toNat (by omega)]
  omega

theorem pace_head {s : State} (h : LinkRest s) (kind : Byte) (n : Nat) (hn : n ≤ 1040)
    (hz : n ≠ 0 ∨ Foreign kind) :
    [freshChar kind true, freshChar (hiByte (natWord n)) false,
        freshChar (loByte (natWord n)) false].foldl pace s =
      mid false s kind n s.node.address (if n = 0 then .trail else .body)
        [kind, hiByte (natWord n), loByte (natWord n)] [kind, hiByte (natWord n)]
        (Place.of (loByte (natWord n)) false false false none) (startIntake s kind)
        (startExecutor kind) s.al := by
  simp only [List.foldl_cons, List.foldl_nil, pace_opener h]
  rw [pace_inFlight s h.bypass]
  simp only [State.takeFrameChar, FrameCtx.begin, State.takeHead, FrameCtx.feedLength,
    ↓reduceIte, Bool.false_eq_true, Nat.zero_add]
  rw [keepPace_hold _ _ _ _ _ _ _ _ _ rfl rfl rfl, pace_inFlight s h.bypass]
  simp only [State.takeFrameChar, State.takeHead, FrameCtx.feedLength, Nat.reduceAdd,
    ↓reduceIte, Bool.false_eq_true, length_of_bytes hn, OfNat.ofNat_ne_one, maxLength, Bool.or_false]
  rw [if_neg (by omega)]
  by_cases h0 : n = 0
  · have hf : Foreign kind := by simpa [h0] using hz
    simp only [h0, ↓reduceIte, State.bodyEnds, Bool.false_eq_true, hf.1, hf.2]
    rw [keepPace_hold _ _ _ _ _ _ _ _ _ rfl rfl rfl]
    simp [mid, cleanCtx, Place.of, Place.sent, crc16, frameOut, dataChars]
  · simp only [h0, ↓reduceIte]
    rw [keepPace_hold _ _ _ _ _ _ _ _ _ rfl rfl rfl]
    simp [mid, cleanCtx, Place.of, Place.sent, crc16, frameOut, dataChars]

/-! ## Body bytes -/

/-- A held character of a frame in passage, after the opener. -/
structure Held (q : Place) : Prop where
  released : q.released = false
  mark : q.mark = false
  forwards : q.forwards = false
  plain : q.covered = true ∨ q.sub = none

theorem held_of (d : Byte) (sub : Option Byte) : Held (Place.of d false false true sub) :=
  ⟨rfl, rfl, rfl, Or.inl rfl⟩

theorem held_plain (d : Byte) (covered : Bool) : Held (Place.of d false false covered none) :=
  ⟨rfl, rfl, rfl, Or.inr rfl⟩

/-- The held character with a new substitute. -/
def Place.resub (q : Place) : Option Byte → Place
  | none => q
  | some v => { q with sub := some v }

theorem Held.fed {q : Place} (h : Held q) (sent : List Byte) :
    (if q.covered then crcByte (crc16 (sent ++ if q.covered then [] else [q.data])) q.sent
      else crc16 (sent ++ if q.covered then [] else [q.data])) = crc16 (sent ++ [q.sent]) := by
  rcases hc : q.covered with _ | _
  · have : q.sub = none := by simpa [hc] using h.plain
    simp [Place.sent, this]
  · simp [crc16_append]

/-- A character is held, seen through the bytes received and sent. -/
theorem keepPace_hold_mid (fmt : Bool) (s : State) (kind : Byte) (n : Nat) (a : Fin 251) (f' f0 : FrameCtx)
    (phase : Phase) (rcv sent : List Byte) (q p : Place) (si me al)
    (hs : sent ≠ []) (hq : Held q) (hp : p.released = false) (hpc : p.covered = true)
    (hf : f' = { cleanCtx fmt kind n a phase rcv
                  (sent ++ if q.covered then [] else [q.data]) with phase := phase }) :
    ((inFlight s (frameOut sent) q f0 si me al).holdChar f' p false).keepPace =
      mid fmt s kind n a phase rcv (sent ++ [q.sent]) p si me al := by
  rw [keepPace_hold _ _ _ _ _ _ _ _ _ hq.released hq.forwards hp]
  simp only [mid, hq.mark, frameOut_append sent hs, hpc, ↓reduceIte, List.append_nil]
  congr 1
  subst hf
  simp only [cleanCtx, hq.fed]

theorem pace_body_foreign {s : State} (hb : s.lpu.bypass = false) {kind : Byte} (hk : Foreign kind)
    (n : Nat) (a : Fin 251) (rcv sent : List Byte) (q : Place) (si me al) (d : Byte)
    (hr : rcv ≠ []) (hs : sent ≠ []) (hq : Held q) :
    pace (mid false s kind n a .body rcv sent q si me al) (freshChar d false) =
      mid false s kind n a (if rcv.length = n + 2 then .trail else .body) (rcv ++ [d]) (sent ++ [q.sent])
        (Place.of d false false true none) si me al := by
  have hl : rcv.length - 1 + 1 = rcv.length := by
    have := List.length_pos_iff.mpr hr; omega
  rw [mid, pace_inFlight s hb]
  simp only [State.takeFrameChar, cleanCtx, State.takeBody, State.consume, hk.1, hk.2, ↓reduceIte,
    Bool.false_eq_true, hl]
  by_cases he : rcv.length = n + 2
  · simp only [he, ↓reduceIte, State.bodyEnds, Bool.false_eq_true, hk.1, hk.2]
    apply keepPace_hold_mid (hs := hs) (hq := hq) <;> simp [Place.of, cleanCtx, he, crc16_append]
  · simp only [he, ↓reduceIte]
    apply keepPace_hold_mid (hs := hs) (hq := hq) <;> simp [Place.of, cleanCtx, crc16_append]

theorem inFlight_setMe_resubstitute (s : State) (out q f si me al) (me' : Executor)
    (hq : q.released = false) (sub : Option Byte) :
    (((inFlight s out q f si me al).setMe me').setBuffer
        (resubstitute (inFlight s out q f si me al).lpu.buffer sub)) =
      inFlight s out (q.resub sub) f si me' al := by
  cases sub <;> simp [inFlight, State.setBuffer, resubstitute, Place.resub, hq] <;> rfl

theorem Held.resub {q : Place} (h : Held q) (sub : Option Byte) (hc : sub = none ∨ q.covered = true) :
    Held (q.resub sub) := by
  cases sub with
  | none => exact h
  | some v => exact ⟨h.released, h.mark, h.forwards, Or.inl (by simpa [Place.resub] using hc)⟩

theorem resub_covered (q : Place) (sub : Option Byte) : (q.resub sub).covered = q.covered := by
  cases sub <;> rfl

theorem resub_data (q : Place) (sub : Option Byte) : (q.resub sub).data = q.data := by
  cases sub <;> rfl

theorem pace_body_management {s : State} (hb : s.lpu.bypass = false)
    (n : Nat) (a : Fin 251) (rcv sent : List Byte) (q : Place) (si al) (me : Executor) (d : Byte)
    (hr : rcv ≠ []) (hs : sent ≠ []) (hq : Held q) (p : Parser) (hp : me.parser = some p)
    (k : Taken)
    (hk : takeBodyByte (mid false s managementKind n a .body rcv sent q si me al) me p a
      (n + 2 - rcv.length) d = k)
    (hf : k.fault = false) (hh : k.heldSub = none ∨ q.covered = true)
    (he : rcv.length = n + 2 → ∃ p', k.me.parser = some p' ∧ p'.bodyEndFault = false) :
    pace (mid false s managementKind n a .body rcv sent q si me al) (freshChar d false) =
      mid false s managementKind n a (if rcv.length = n + 2 then .trail else .body) (rcv ++ [d])
        (sent ++ [(q.resub k.heldSub).sent]) (Place.of d false false true k.sub) si k.me al := by
  have hl : rcv.length - 1 + 1 = rcv.length := by
    have := List.length_pos_iff.mpr hr; omega
  have hm : managementKind ≠ levelKind := by decide
  have hme : (mid false s managementKind n a .body rcv sent q si me al).me = me := rfl
  rw [mid] at hk hme ⊢
  rw [pace_inFlight s hb]
  simp only [State.takeFrameChar, cleanCtx, State.takeBody, State.consume, hm, ↓reduceIte,
    Bool.false_eq_true, hl]
  simp only [cleanCtx] at hk hme
  simp only [hme, hp, hk, hf]
  rw [inFlight_setMe_resubstitute _ _ _ _ _ _ _ _ hq.released]
  have hq' := hq.resub k.heldSub hh
  by_cases hn : rcv.length = n + 2
  · obtain ⟨p', hp', hb'⟩ := he hn
    have hme2 : ∀ out q f, (inFlight s out q f si k.me al).me = k.me := fun _ _ _ => rfl
    simp only [hn, ↓reduceIte, State.bodyEnds, Bool.false_eq_true, hm, hme2, hp', hb']
    apply keepPace_hold_mid (hs := hs) (hq := hq') <;>
      simp [Place.of, cleanCtx, hn, crc16_append, resub_covered, resub_data]
  · simp only [hn, ↓reduceIte]
    apply keepPace_hold_mid (hs := hs) (hq := hq') <;>
      simp [Place.of, cleanCtx, crc16_append, resub_covered, resub_data]

theorem pace_body_level {s : State} (hb : s.lpu.bypass = false)
    (n : Nat) (a : Fin 251) (rcv sent : List Byte) (q : Place) (si : SlotIntake) (me al) (d : Byte)
    (hr : rcv ≠ []) (hs : sent ≠ []) (hq : Held q) (t : Intake) (ht : si.intake = some t)
    (si' : SlotIntake) (hk : si.takeByte t (rcv.length - 2) n d = (si', false))
    (si'' : SlotIntake) (hn : rcv.length ≠ n + 2 → si'' = si')
    (he : rcv.length = n + 2 → ∃ t', si'.intake = some t' ∧ si'.bodyEnd t' = (si'', false)) :
    pace (mid false s levelKind n a .body rcv sent q si me al) (freshChar d false) =
      mid false s levelKind n a (if rcv.length = n + 2 then .trail else .body) (rcv ++ [d])
        (sent ++ [q.sent]) (Place.of d false false true none) si'' me al := by
  have hl : rcv.length - 1 + 1 = rcv.length := by
    have := List.length_pos_iff.mpr hr; omega
  have hsi : ∀ out q f si, (inFlight s out q f si me al).si = si := fun _ _ _ _ => rfl
  have hset : ∀ out q f si x, (inFlight s out q f si me al).setSi x = inFlight s out q f x me al :=
    fun _ _ _ _ _ => rfl
  rw [mid, pace_inFlight s hb]
  simp only [State.takeFrameChar, cleanCtx, State.takeBody, State.consume, ↓reduceIte,
    Bool.false_eq_true, hl, hsi, ht, hk, hset]
  by_cases hn' : rcv.length = n + 2
  · obtain ⟨t', ht', hb'⟩ := he hn'
    simp only [hn', ↓reduceIte, State.bodyEnds, Bool.false_eq_true, hsi, ht', hb', hset]
    apply keepPace_hold_mid (hs := hs) (hq := hq) <;> simp [Place.of, cleanCtx, hn', crc16_append]
  · obtain rfl := hn hn'
    simp only [hn', ↓reduceIte]
    apply keepPace_hold_mid (hs := hs) (hq := hq) <;> simp [Place.of, cleanCtx, crc16_append]

/-! ## The attention byte -/

/-- The Attention Logic after the attention byte. -/
def State.alAfterByte (s : State) (d : Byte) : Attention :=
  if s.claims d then { s.al with claim := true } else s.al

theorem pace_attention (fmt : Bool) {s : State} (hb : s.lpu.bypass = false) (kind : Byte)
    (n : Nat) (rcv sent : List Byte) (q : Place) (si me) (d : Byte)
    (hs : sent ≠ []) (hq : Held q) (hr : rcv.length = n + 3) :
    ∃ q', Held q' ∧ q'.sent = s.attentionSent d ∧
      pace (mid fmt s kind n s.node.address .trail rcv sent q si me s.al) (freshChar d false) =
        mid fmt s kind n s.node.address .trail (rcv ++ [d]) (sent ++ [q.sent]) q' si me
          (s.alAfterByte d) := by
  have hact : ∀ out q f, (inFlight s out q f si me s.al).attentionActive s.node.address =
      s.attentionActive s.node.address := fun _ _ _ => rfl
  have hal : ∀ out q f, (inFlight s out q f si me s.al).al = s.al := fun _ _ _ => rfl
  have hset : ∀ out q f x, (inFlight s out q f si me s.al).setAl x = inFlight s out q f si me x :=
    fun _ _ _ _ => rfl
  have hl : n + 3 - 1 + 1 = n + 3 := by omega
  by_cases hc : s.claims d = true
  · refine ⟨Place.of d false false true (some (natByte s.node.address.val)), held_of _ _, ?_, ?_⟩
    · simp [Place.of, Place.sent, State.attentionSent, hc]
    · have h2 : (d = 0 ∧ s.attentionActive s.node.address = true) = True := by
        simpa [State.claims] using hc
      rw [mid, pace_inFlight s hb, State.alAfterByte, if_pos hc]
      simp only [State.takeFrameChar, cleanCtx, State.takeTrail, State.takeAttention, hr, hl,
        ↓reduceIte, hact, h2, hal, hset]
      apply keepPace_hold_mid (hs := hs) (hq := hq) <;> simp [Place.of, cleanCtx, hr, crc16_append]
  · refine ⟨Place.of d false false true none, held_of _ _, ?_, ?_⟩
    · simp [Place.of, Place.sent, State.attentionSent, hc]
    · have h2 : (d = 0 ∧ s.attentionActive s.node.address = true) = False := by
        simpa [State.claims] using hc
      rw [mid, pace_inFlight s hb, State.alAfterByte, if_neg hc]
      simp only [State.takeFrameChar, cleanCtx, State.takeTrail, State.takeAttention, hr, hl,
        ↓reduceIte, hact, h2]
      apply keepPace_hold_mid (hs := hs) (hq := hq) <;> simp [Place.of, cleanCtx, hr, crc16_append]

/-! ## The CRC characters -/

theorem crc_of_bytes (hi lo : Byte) :
    natWord (hi.toNat * 256) + natWord lo.toNat = be16 hi lo := by
  apply BitVec.eq_of_toNat_eq
  have h1 := hi.isLt
  have h2 := lo.isLt
  simp only [natWord, be16, BitVec.toNat_add, BitVec.toNat_ofNat, BitVec.toNat_append]
  rw [← Nat.shiftLeft_add_eq_or_of_lt h2, Nat.shiftLeft_eq]
  omega

/-- The node at the last CRC character of a frame, before the outcome is handed on. -/
def State.decided (s : State) (f : FrameCtx) (sent : List Byte) (buffer : List Place)
    (si : SlotIntake) (me : Executor) (al : Attention) : State :=
  { s with
    lpu := { s.lpu with rx := .hunting, tx := none, buffer := buffer, tracker := .frame f,
                        stallTimer := true, lout := s.lpu.lout ++ frameOut sent }
    si := si
    me := me
    al := al }

theorem takeLastCrc_inFlight (fmt : Bool) (s : State) (f0 f : FrameCtx) (sent : List Byte) (si me al)
    (hi lo : Byte) (hc : f.charError = false) (ho : f.overrun = false) (hf : f.format = fmt)
    (hin : f.crcIn = natWord (hi.toNat * 256)) :
    (inFlight s (frameOut sent) (Place.of hi false false false none) f0 si me al).takeLastCrc f lo
        false =
      (s.decided f0 sent
        (crcPlaces hi lo (crcFor (outcomeOf fmt (be16 hi lo) f.rxCrc) f.txCrc)
          (decide (outcomeOf fmt (be16 hi lo) f.rxCrc = .good) && commitsRestart me.commits))
        si me al).frameEnds (outcomeOf fmt (be16 hi lo) f.rxCrc) := by
  have hcl : ({ f with crcIn := f.crcIn + natWord lo.toNat } : FrameCtx).classify =
      outcomeOf fmt (be16 hi lo) f.rxCrc := by
    simp [FrameCtx.classify, outcomeOf, hc, ho, hf, hin, crc_of_bytes]
  simp only [State.takeLastCrc, FrameCtx.crcSent, hcl]
  rfl

theorem receive_crc (fmt : Bool) {s : State} (hb : s.lpu.bypass = false) (kind : Byte) (n : Nat) (a : Fin 251)
    (rcv sent : List Byte) (q : Place) (si me al) (hi lo : Byte)
    (hs : sent ≠ []) (hq : Held q) (hr : rcv.length = n + 4) :
    ∃ f, (pace (mid fmt s kind n a .trail rcv sent q si me al) (freshChar hi false)).receive
        (freshChar lo false) =
      (s.decided f (sent ++ [q.sent])
        (crcPlaces hi lo (crcFor (outcomeOf fmt (be16 hi lo) (crc16 rcv)) (crc16 (sent ++ [q.sent])))
          (decide (outcomeOf fmt (be16 hi lo) (crc16 rcv) = .good) && commitsRestart me.commits))
        si me al).frameEnds (outcomeOf fmt (be16 hi lo) (crc16 rcv)) := by
  have hl : n + 4 - 1 + 1 = n + 4 := by omega
  rw [mid, pace_inFlight s hb]
  simp only [State.takeFrameChar, cleanCtx, State.takeTrail, hr, hl, Bool.or_false,
    show ¬ (n + 4 = n + 3) by omega, ↓reduceIte]
  rw [keepPace_hold _ _ _ _ _ _ _ _ _ hq.released hq.forwards rfl, receive_inFlight s hb]
  simp only [State.takeFrameChar, State.takeTrail, hq.fed, hq.mark, Bool.or_false,
    show ¬ (n + 4 + 1 = n + 3) by omega, show ¬ (n + 4 + 1 = n + 4) by omega, ↓reduceIte]
  rw [← frameOut_append sent hs]
  exact ⟨_, takeLastCrc_inFlight fmt s _ _ _ si me al hi lo rfl rfl rfl rfl⟩

/-! ## Whole frames -/

theorem be16_bytes (w : Word) : be16 (hiByte w) (loByte w) = w := by
  apply BitVec.eq_of_toNat_eq
  have h := w.isLt
  have h2 := (loByte w).isLt
  simp only [be16, BitVec.toNat_append]
  rw [← Nat.shiftLeft_add_eq_or_of_lt h2, Nat.shiftLeft_eq, hiByte_toNat, loByte_toNat]
  omega

theorem arrivingCrc_eq (a : CrcArrival) (crc : Word) :
    arrivingCrc a crc = [hiByte (arrivingWord a crc), loByte (arrivingWord a crc)] := by
  cases a <;> rfl

theorem arrivalOutcome_correct (crc : Word) : arrivalOutcome false .correct crc = .good := by
  simp [arrivalOutcome, outcomeOf, arrivingWord]

theorem arrivalOutcome_complement (crc : Word) : arrivalOutcome false .complement crc = .poisoned := by
  have : ~~~crc ≠ crc := by
    intro h
    have := congrArg (fun w : Word => w.getLsbD 0) h
    simp at this
  simp [arrivalOutcome, outcomeOf, arrivingWord, this]

/-- What a whole unmarked frame leaves: the bytes sent on, the CRC places, and the outcome handed on. -/
def State.passed (s : State) (fmt : Bool) (f : FrameCtx) (kind : Byte) (body sentBody : List Byte)
    (tail : FrameTail) (si : SlotIntake) (me : Executor) : State :=
  let crc := crc16 (coveredBytes kind body tail.attention)
  let w := arrivingWord tail.crc crc
  let o := arrivalOutcome fmt tail.crc crc
  let sent := coveredBytes kind sentBody (s.attentionSent tail.attention)
  (s.decided f sent
    (crcPlaces (hiByte w) (loByte w) (crcFor o (crc16 sent))
      (decide (o = .good) && commitsRestart me.commits))
    si me (s.alAfterByte tail.attention)).frameEnds o

/-- The node when the length bytes of a frame have come. -/
def State.headed (s : State) (kind : Byte) (n : Nat) : State :=
  mid false s kind n s.node.address (if n = 0 then .trail else .body)
    [kind, hiByte (natWord n), loByte (natWord n)] [kind, hiByte (natWord n)]
    (Place.of (loByte (natWord n)) false false false none) (startIntake s kind)
    (startExecutor kind) s.al

/-- The body of a frame has passed as `sentBody`, with the consumers at si and me. -/
def BodyPassed (fmt : Bool) (s : State) (kind : Byte) (body sentBody : List Byte) (si : SlotIntake)
    (me : Executor) : Prop :=
  ∃ q sent, Held q ∧ sent ≠ [] ∧
    sent ++ [q.sent] = kind :: wordBytes (natWord body.length) ++ sentBody ∧
    (dataChars body).foldl pace (s.headed kind body.length) =
      mid fmt s kind body.length s.node.address .trail
        (kind :: wordBytes (natWord body.length) ++ body) sent q si me s.al

theorem passFrame_of_body (fmt : Bool) {s : State} (h : LinkRest s) (kind : Byte) (body sentBody : List Byte)
    (tail : FrameTail) (hn : body.length ≤ 1040) (hz : body.length ≠ 0 ∨ Foreign kind)
    (hlen : sentBody.length = body.length) (si : SlotIntake) (me : Executor)
    (H : BodyPassed fmt s kind body sentBody si me) :
    ∃ f, s.passFrame kind body tail = s.passed fmt f kind body sentBody tail si me := by
  obtain ⟨q, sent, hq, hs, hsent, hbody⟩ := H
  obtain ⟨q', hq', hq's, hatt⟩ := pace_attention fmt h.bypass kind body.length
    (kind :: wordBytes (natWord body.length) ++ body) sent q si me tail.attention hs hq
    (by simp [wordBytes])
  have hcov : kind :: wordBytes (natWord body.length) ++ body ++ [tail.attention] =
      coveredBytes kind body tail.attention := rfl
  obtain ⟨f, hf⟩ := receive_crc fmt h.bypass kind body.length s.node.address
    (coveredBytes kind body tail.attention) (sent ++ [q.sent]) q' si me
    (s.alAfterByte tail.attention)
    (hiByte (arrivingWord tail.crc (crc16 (coveredBytes kind body tail.attention))))
    (loByte (arrivingWord tail.crc (crc16 (coveredBytes kind body tail.attention))))
    (by simp) hq' (by simp [coveredBytes, wordBytes])
  refine ⟨f, ?_⟩
  have hchars : frameChars kind body tail =
      ([freshChar kind true, freshChar (hiByte (natWord body.length)) false,
        freshChar (loByte (natWord body.length)) false] ++ dataChars body ++
        [freshChar tail.attention false,
          freshChar (hiByte (arrivingWord tail.crc (crc16 (coveredBytes kind body tail.attention))))
            false]) ++
        [freshChar (loByte (arrivingWord tail.crc (crc16 (coveredBytes kind body tail.attention))))
          false] := by
    simp [frameChars, frameRest, dataChars, arrivingCrc_eq, wordBytes]
  rw [State.passFrame, hchars, foldl_pass_append_last, keepPace_rest h, List.foldl_append,
    List.foldl_append, pace_head h kind body.length hn hz]
  change ((List.foldl pace (List.foldl pace (s.headed kind body.length) (dataChars body)) _).receive _) = _
  rw [hbody]
  simp only [List.foldl_cons, List.foldl_nil]
  rw [hatt, hcov, hf]
  have hsent2 : sent ++ [q.sent] ++ [q'.sent] =
      coveredBytes kind sentBody (s.attentionSent tail.attention) := by
    rw [hsent, hq's, coveredBytes, hlen]
  simp only [State.passed, arrivalOutcome, be16_bytes, hsent2]
  rfl

theorem foldl_pace_foreign {s : State} (hb : s.lpu.bypass = false) {kind : Byte} (hk : Foreign kind)
    (n : Nat) (a : Fin 251) (si me al) (bs : List Byte) :
    ∀ (rcv sent : List Byte) (q : Place), rcv ≠ [] → sent ≠ [] → Held q →
      rcv.length + bs.length = n + 3 →
      ∃ q' sent', Held q' ∧ sent' ≠ [] ∧ sent' ++ [q'.sent] = sent ++ [q.sent] ++ bs ∧
        (dataChars bs).foldl pace
            (mid false s kind n a (if bs = [] then .trail else .body) rcv sent q si me al) =
          mid false s kind n a .trail (rcv ++ bs) sent' q' si me al := by
  induction bs with
  | nil => intro rcv sent q _ hs hq _; exact ⟨q, sent, hq, hs, by simp, by simp [dataChars]⟩
  | cons b bs ih =>
    intro rcv sent q hr hs hq hl
    have hph : (if rcv.length = n + 2 then Phase.trail else .body) =
        if bs = [] then .trail else .body := by
      simp only [List.length_cons] at hl
      by_cases hbs : bs = []
      · subst hbs; simp only [List.length_nil] at hl; rw [if_pos (by omega), if_pos rfl]
      · have := List.length_pos_iff.mpr hbs
        rw [if_neg (by omega), if_neg hbs]
    obtain ⟨q', sent', hq', hs', he, hf⟩ := ih (rcv ++ [b]) (sent ++ [q.sent])
      (Place.of b false false true none) (by simp) (by simp) (held_of _ _)
      (by simp only [List.length_append, List.length_cons, List.length_nil] at hl ⊢; omega)
    refine ⟨q', sent', hq', hs', ?_, ?_⟩
    · rw [he]; simp [Place.of, Place.sent]
    · simp only [dataChars, List.map_cons, List.foldl_cons, reduceCtorEq, ↓reduceIte] at hf ⊢
      rw [pace_body_foreign hb hk n a rcv sent q si me al b hr hs hq, hph, hf]
      simp

/-- FOREIGN_KIND_FRAME (R22): the body leaves as it came. -/
theorem passFrame_foreign {s : State} (h : LinkRest s) {kind : Byte} (hk : Foreign kind)
    (body : List Byte) (tail : FrameTail) (hn : body.length ≤ 1040) :
    ∃ f, s.passFrame kind body tail =
      s.passed false f kind body body tail (startIntake s kind) (startExecutor kind) := by
  apply passFrame_of_body false h kind body body tail hn (Or.inr hk) rfl
  obtain ⟨q', sent', hq', hs', he, hf⟩ := foldl_pace_foreign h.bypass hk body.length s.node.address
    (startIntake s kind) (startExecutor kind) s.al body
    [kind, hiByte (natWord body.length), loByte (natWord body.length)]
    [kind, hiByte (natWord body.length)]
    (Place.of (loByte (natWord body.length)) false false false none) (by simp) (by simp)
    (held_plain _ _) (by simp; omega)
  refine ⟨q', sent', hq', hs', ?_, ?_⟩
  · rw [he]; simp [Place.of, Place.sent, wordBytes]
  · have hph : (if body.length = 0 then Phase.trail else .body) =
        if body = [] then .trail else .body := by
      cases body <;> simp
    rw [State.headed, hph, hf]
    rfl

end Sys2Proof.Machine
end

