-- ==== Sys2Proof/Laws/Level.lean ====
section
/-! SUPPORT. What a consistent level frame does on a link at rest. -/

namespace Sys2Proof.Machine

/-- A level frame in passage. -/
def InLevel (s : State) (n : Nat) (phase : Phase) (rcv : List Byte) (si : SlotIntake) (st : State) :
    Prop :=
  ∃ q sent, Held q ∧ sent ≠ [] ∧ sent ++ [q.sent] = rcv ∧
    st = mid false s levelKind n s.node.address phase rcv sent q si (startExecutor levelKind) s.al

theorem InLevel.step {s : State} (hb : s.lpu.bypass = false) {n : Nat} {rcv : List Byte}
    {si : SlotIntake} {st : State} (h : InLevel s n .body rcv si st) (hr : rcv ≠ [])
    (t : Intake) (ht : si.intake = some t) (d : Byte) (si' : SlotIntake)
    (hk : si.takeByte t (rcv.length - 2) n d = (si', false)) (hn : rcv.length < n + 2) :
    InLevel s n .body (rcv ++ [d]) si' (pace st (freshChar d false)) := by
  obtain ⟨q, sent, hq, hs, hout, rfl⟩ := h
  refine ⟨Place.of d false false true none, sent ++ [q.sent], held_of _ _, by simp, ?_, ?_⟩
  · rw [hout]; rfl
  · rw [pace_body_level hb n s.node.address rcv sent q si _ _ d hr hs hq t ht si' hk si'
      (fun _ => rfl) (by intro hc; omega), if_neg (by omega)]

theorem InLevel.last {s : State} (hb : s.lpu.bypass = false) {n : Nat} {rcv : List Byte}
    {si : SlotIntake} {st : State} (h : InLevel s n .body rcv si st) (hr : rcv ≠ [])
    (t : Intake) (ht : si.intake = some t) (d : Byte) (si' : SlotIntake)
    (hk : si.takeByte t (rcv.length - 2) n d = (si', false)) (hn : rcv.length = n + 2)
    (t' : Intake) (ht' : si'.intake = some t') (hst : t'.state = .slots) :
    InLevel s n .trail (rcv ++ [d]) { si' with intake := some { t' with state := .ended } }
      (pace st (freshChar d false)) := by
  obtain ⟨q, sent, hq, hs, hout, rfl⟩ := h
  refine ⟨Place.of d false false true none, sent ++ [q.sent], held_of _ _, by simp, ?_, ?_⟩
  · rw [hout]; rfl
  · rw [pace_body_level hb n s.node.address rcv sent q si _ _ d hr hs hq t ht si' hk
      { si' with intake := some { t' with state := .ended } } (by intro hc; omega)
      (by intro _; exact ⟨t', ht', by simp [SlotIntake.bodyEnd, hst]⟩), if_pos hn]

/-! ## Capture -/

/-- The places after the slots below k. -/
def State.placesBelow (s : State) (values : List Word) (k : Nat) : List (Option Word) :=
  (List.range 28).map fun i =>
    match (s.feed i).offset with
    | none => none
    | some o =>
      if s.node.slotBase.val + o.toNat < k then values[s.node.slotBase.val + o.toNat]? else none

theorem placesBelow_zero (s : State) (values : List Word) :
    s.placesBelow values 0 = List.replicate 28 none := by
  have : ∀ i, (match (s.feed i).offset with
    | none => none
    | some o => if s.node.slotBase.val + o.toNat < 0 then values[s.node.slotBase.val + o.toNat]?
        else none) = (none : Option Word) := by
    intro i; split <;> simp
  simp only [State.placesBelow, this]
  rfl

theorem placesBelow_all (s : State) (values : List Word) :
    s.placesBelow values values.length = (List.range 28).map (s.slotFor values) := by
  apply List.map_congr_left
  intro i _
  simp only [State.slotFor]
  cases (s.feed i).offset with
  | none => rfl
  | some o =>
    dsimp only
    split
    · rfl
    · rename_i h; rw [List.getElem?_eq_none (by omega)]

/-- An intake context of this node in SLOTS, at slot k. -/
def slotsAt (s : State) (wide seize : Bool) (fade : Byte) (count k : Nat) : Intake :=
  { s.beginIntake with
    state := .slots, wide := wide, seize := seize, fade := fade, count := count, slot := k }

theorem capture_slotsAt (s : State) (wide seize : Bool) (fade : Byte) (count k : Nat)
    (high : Option Byte) (values : List Word) (v : Word) (hv : values[k]? = some v) :
    Intake.capture { slotsAt s wide seize fade count k with high := high }
      (s.placesBelow values k) v = s.placesBelow values (k + 1) := by
  apply List.ext_getElem (by simp [Intake.capture, State.placesBelow])
  intro i h1 h2
  have hi : i < 28 := by simpa [Intake.capture] using h1
  have hfeed : ({ slotsAt s wide seize fade count k with high := high } : Intake).feeds.getD i
      { offset := none, fade := .frame } = s.feed i := by
    simp [slotsAt, State.beginIntake, List.getD, hi]
  have hold : (s.placesBelow values k).getD i none = match (s.feed i).offset with
      | none => none
      | some o => if s.node.slotBase.val + o.toNat < k then values[s.node.slotBase.val + o.toNat]?
          else none := by
    simp only [State.placesBelow, List.getD, List.getElem?_map, List.getElem?_range hi, Option.map,
      Option.getD]
  simp only [Intake.capture, State.placesBelow, List.getElem_map, List.getElem_range, Intake.feeds?,
    hfeed]
  simp only [State.placesBelow] at hold
  rw [hold]
  cases ho : (s.feed i).offset with
  | none => simp
  | some o =>
    simp only [slotsAt, State.beginIntake]
    by_cases hk : k = s.node.slotBase.val + o.toNat
    · simp [← hk, hv]
    · by_cases hlt : s.node.slotBase.val + o.toNat < k
      · simp [hk, hlt, show s.node.slotBase.val + o.toNat < k + 1 by omega]
      · simp [hk, hlt, show ¬ s.node.slotBase.val + o.toNat < k + 1 by omega]

/-! ## The slot bytes -/

theorem inLevel_narrow {s : State} (hb : s.lpu.bypass = false) {n : Nat} (seize : Bool) (fade : Byte)
    (count : Nat) (all : List Word) (bs : List Byte) :
    ∀ (rcv : List Byte) (k : Nat) (st : State), bs ≠ [] → rcv ≠ [] →
      all.drop k = bs.map widen → rcv.length + bs.length = n + 3 →
      InLevel s n .body rcv
        { places := s.placesBelow all k, intake := some (slotsAt s false seize fade count k) } st →
      InLevel s n .trail (rcv ++ bs)
        { places := s.placesBelow all (k + bs.length),
          intake := some { slotsAt s false seize fade count (k + bs.length) with state := .ended } }
        ((dataChars bs).foldl pace st) := by
  induction bs with
  | nil => intro _ _ _ h; exact absurd rfl h
  | cons b bs ih =>
    intro rcv k st _ hr hall hl h
    simp only [List.length_cons] at hl
    have hv : all[k]? = some (widen b) := by
      rw [← List.head?_drop, hall]; rfl
    have hall' : all.drop (k + 1) = bs.map widen := by
      rw [← List.tail_drop, hall]; rfl
    have hk : SlotIntake.takeByte
        { places := s.placesBelow all k, intake := some (slotsAt s false seize fade count k) }
        (slotsAt s false seize fade count k) (rcv.length - 2) n b =
        ({ places := s.placesBelow all (k + 1),
           intake := some (slotsAt s false seize fade count (k + 1)) }, false) := by
      have := capture_slotsAt s false seize fade count k none all _ hv
      simp only [SlotIntake.takeByte, slotsAt] at this ⊢
      simp only [Bool.false_eq_true, ↓reduceIte, Prod.mk.injEq, SlotIntake.mk.injEq, and_true]
      exact this
    by_cases hbs : bs = []
    · subst hbs
      have := h.last hb hr _ rfl b _ hk (by simp only [List.length_nil] at hl; omega) _ rfl rfl
      simpa [dataChars] using this
    · have hpos := List.length_pos_iff.mpr hbs
      have h1 := h.step hb hr _ rfl b _ hk (by omega)
      have h2 := ih (rcv ++ [b]) (k + 1) (pace st (freshChar b false)) hbs (by simp) hall'
        (by simp only [List.length_append, List.length_cons, List.length_nil]; omega) h1
      have he : k + 1 + bs.length = k + (b :: bs).length := by simp; omega
      rw [he] at h2
      simpa [dataChars] using h2

/-- The two bytes of one wide slot. -/
theorem takeByte_wide (s : State) (seize : Bool) (fade : Byte) (count k pos n : Nat)
    (all : List Word) (hi lo : Byte) (hv : all[k]? = some (be16 hi lo)) :
    SlotIntake.takeByte
        { places := s.placesBelow all k, intake := some (slotsAt s true seize fade count k) }
        (slotsAt s true seize fade count k) pos n hi =
      ({ places := s.placesBelow all k,
         intake := some { slotsAt s true seize fade count k with high := some hi } }, false) ∧
    ∀ pos', SlotIntake.takeByte
        { places := s.placesBelow all k,
          intake := some { slotsAt s true seize fade count k with high := some hi } }
        { slotsAt s true seize fade count k with high := some hi } pos' n lo =
      ({ places := s.placesBelow all (k + 1),
         intake := some (slotsAt s true seize fade count (k + 1)) }, false) := by
  refine ⟨rfl, fun pos' => ?_⟩
  have := capture_slotsAt s true seize fade count k (some hi) all _ hv
  simp only [SlotIntake.takeByte, slotsAt] at this ⊢
  simp only [↓reduceIte, Prod.mk.injEq, SlotIntake.mk.injEq, and_true]
  exact ⟨this, rfl⟩

theorem inLevel_wide {s : State} (hb : s.lpu.bypass = false) {n : Nat} (seize : Bool) (fade : Byte)
    (count : Nat) (all : List Word) (m : Nat) :
    ∀ (bs rcv : List Byte) (k : Nat) (st : State), bs.length = 2 * (m + 1) → rcv ≠ [] →
      all.drop k = wordsOf bs → rcv.length + bs.length = n + 3 →
      InLevel s n .body rcv
        { places := s.placesBelow all k, intake := some (slotsAt s true seize fade count k) } st →
      InLevel s n .trail (rcv ++ bs)
        { places := s.placesBelow all (k + (m + 1)),
          intake := some { slotsAt s true seize fade count (k + (m + 1)) with state := .ended } }
        ((dataChars bs).foldl pace st) := by
  induction m with
  | zero =>
    intro bs rcv k st hlen hr hall hl h
    match bs, hlen with
    | [hi, lo], _ =>
      simp only [List.length_cons, List.length_nil] at hl
      have hv : all[k]? = some (be16 hi lo) := by rw [← List.head?_drop, hall]; rfl
      obtain ⟨hk1, hk2⟩ := takeByte_wide s seize fade count k (rcv.length - 2) n all hi lo hv
      have h1 := h.step hb hr _ rfl hi _ hk1 (by omega)
      have h2 := h1.last hb (by simp) _ rfl lo _ (hk2 _)
        (by simp only [List.length_append, List.length_cons, List.length_nil]; omega) _ rfl rfl
      simpa [dataChars] using h2
  | succ m ih =>
    intro bs rcv k st hlen hr hall hl h
    match bs, hlen with
    | hi :: lo :: rest, hlen =>
      simp only [List.length_cons] at hl hlen
      have hv : all[k]? = some (be16 hi lo) := by rw [← List.head?_drop, hall]; rfl
      have hall' : all.drop (k + 1) = wordsOf rest := by rw [← List.tail_drop, hall]; rfl
      obtain ⟨hk1, hk2⟩ := takeByte_wide s seize fade count k (rcv.length - 2) n all hi lo hv
      have h1 := h.step hb hr _ rfl hi _ hk1 (by omega)
      have h2 := h1.step hb (by simp) _ rfl lo _ (hk2 _)
        (by simp only [List.length_append, List.length_cons, List.length_nil]; omega)
      have h3 := ih rest (rcv ++ [hi] ++ [lo]) (k + 1) _ (by omega) (by simp) hall'
        (by simp only [List.length_append, List.length_cons, List.length_nil]; omega) h2
      have he : k + 1 + (m + 1) = k + (m + 1 + 1) := by omega
      rw [he] at h3
      simpa [dataChars] using h3

/-! ## The whole frame -/

theorem wordsOf_length (m : Nat) : ∀ bs : List Byte, bs.length = 2 * m → (wordsOf bs).length = m := by
  induction m with
  | zero =>
    intro bs h
    obtain rfl : bs = [] := List.length_eq_zero_iff.mp (by omega)
    rfl
  | succ m ih =>
    intro bs h
    match bs, h with
    | hi :: lo :: rest, h =>
      simp only [List.length_cons] at h
      simp [wordsOf, ih rest (by omega)]

/-- The body of a consistent level frame: the places hold the slots that feed them. -/
theorem bodyPassed_level {s : State} (h : LinkRest s) (flags fade : Byte) (count : Word)
    (slots : List Byte) (hc : levelBodyConsistent flags count slots = true) :
    ∃ t : Intake, t.fade = fade ∧ t.seize = has flags 1 ∧ t.feeds = (List.range 28).map s.feed ∧
      BodyPassed false s levelKind (flags :: fade :: wordBytes count ++ slots)
        (flags :: fade :: wordBytes count ++ slots)
        { places := (List.range 28).map (s.slotFor (levelValues flags slots)), intake := some t }
        (startExecutor levelKind) := by
  have hlen : (flags :: fade :: wordBytes count ++ slots).length = 4 + slots.length := by
    simp [wordBytes]; omega
  generalize hn : (flags :: fade :: wordBytes count ++ slots).length = n at *
  have hb := h.bypass
  have h0 : InLevel s n .body [levelKind, hiByte (natWord n), loByte (natWord n)]
      { places := List.replicate 28 none, intake := some s.beginIntake } (s.headed levelKind n) := by
    refine ⟨_, [levelKind, hiByte (natWord n)], held_plain _ false, by simp, rfl, ?_⟩
    rw [State.headed, if_neg (by omega)]
    rfl
  have h1 := h0.step hb (by simp) _ rfl flags
    { places := List.replicate 28 none,
      intake := some { s.beginIntake with
        wide := has flags 0, seize := has flags 1, state := .fade } }
    rfl (by simp only [List.length_cons, List.length_nil]; omega)
  have h2 := h1.step hb (by simp) _ rfl fade
    { places := List.replicate 28 none,
      intake := some { s.beginIntake with
        wide := has flags 0, seize := has flags 1, fade := fade, state := .count } }
    rfl (by simp only [List.length_append, List.length_cons, List.length_nil]; omega)
  have h3 := h2.step hb (by simp) _ rfl (hiByte count)
    { places := List.replicate 28 none,
      intake := some { s.beginIntake with
        wide := has flags 0, seize := has flags 1, fade := fade, state := .count,
        count := (hiByte count).toNat * 256 } }
    rfl (by simp only [List.length_append, List.length_cons, List.length_nil]; omega)
  have hcount : (hiByte count).toNat * 256 + (loByte count).toNat = count.toNat := by
    rw [hiByte_toNat, loByte_toNat]; omega
  have hk4 : SlotIntake.takeByte
      { places := List.replicate 28 none,
        intake := some { s.beginIntake with
          wide := has flags 0, seize := has flags 1, fade := fade, state := .count,
          count := (hiByte count).toNat * 256 } }
      { s.beginIntake with
        wide := has flags 0, seize := has flags 1, fade := fade, state := .count,
        count := (hiByte count).toNat * 256 } 4 n (loByte count) =
      ({ places := s.placesBelow (levelValues flags slots) 0,
         intake := some (slotsAt s (has flags 0) (has flags 1) fade count.toNat 0) }, false) := by
    rw [placesBelow_zero]
    simp only [SlotIntake.takeByte, hcount]
    rw [if_neg (by decide), if_pos]
    · rfl
    · rw [hlen]; exact hc
  have hfin : ∀ k (st : State) t, t.fade = fade → t.seize = has flags 1 →
      t.feeds = (List.range 28).map s.feed → k = (levelValues flags slots).length →
      InLevel s n .trail ([levelKind, hiByte (natWord n), loByte (natWord n)] ++
        (flags :: fade :: wordBytes count ++ slots))
        { places := s.placesBelow (levelValues flags slots) k, intake := some t } st →
      st = (dataChars (flags :: fade :: wordBytes count ++ slots)).foldl pace (s.headed levelKind n) →
      ∃ t : Intake, t.fade = fade ∧ t.seize = has flags 1 ∧ t.feeds = (List.range 28).map s.feed ∧
        BodyPassed false s levelKind (flags :: fade :: wordBytes count ++ slots)
          (flags :: fade :: wordBytes count ++ slots)
          { places := (List.range 28).map (s.slotFor (levelValues flags slots)), intake := some t }
          (startExecutor levelKind) := by
    intro k st t e1 e2 e3 hk hin hst
    obtain ⟨q, sent, hq, hs, hout, hmid⟩ := hin
    refine ⟨t, e1, e2, e3, q, sent, hq, hs, ?_, ?_⟩
    · rw [hout, hn]; rfl
    · rw [hn, ← hst, hmid, hk, placesBelow_all]; rfl
  by_cases hs0 : slots = []
  · subst hs0
    have h4 := h3.last hb (by simp) _ rfl (loByte count) _ hk4
      (by simp only [List.length_append, List.length_cons, List.length_nil] at hlen ⊢; omega)
      _ rfl rfl
    refine hfin 0 _ _ rfl rfl rfl ?_ (by simpa [wordBytes] using h4) (by simp [dataChars, wordBytes])
    simp only [levelValues]
    split <;> rfl
  · have hpos := List.length_pos_iff.mpr hs0
    have h4 := h3.step hb (by simp) _ rfl (loByte count) _ hk4
      (by simp only [List.length_append, List.length_cons, List.length_nil]; omega)
    cases hw : has flags 0 with
    | false =>
      rw [hw] at h4
      have hv : levelValues flags slots = slots.map widen := by simp [levelValues, hw]
      have h5 := inLevel_narrow hb _ _ _ (levelValues flags slots) slots _ 0 _ hs0 (by simp)
        (by rw [hv]; rfl)
        (by simp only [List.length_append, List.length_cons, List.length_nil]; omega) h4
      refine hfin (0 + slots.length)
        ((dataChars (flags :: fade :: wordBytes count ++ slots)).foldl pace (s.headed levelKind n))
        { slotsAt s false (has flags 1) fade count.toNat (0 + slots.length) with state := .ended }
        rfl rfl rfl (by simp [hv]) ?_ ?_
      · simpa [wordBytes, dataChars] using h5
      · rfl
    | true =>
      rw [hw] at h4
      have hv : levelValues flags slots = wordsOf slots := by simp [levelValues, hw]
      obtain ⟨m, hm⟩ : ∃ m, slots.length = 2 * (m + 1) := by
        simp only [levelBodyConsistent, levelConsistent, hw, ↓reduceIte, Bool.and_eq_true,
          decide_eq_true_eq] at hc
        exact ⟨count.toNat - 1, by omega⟩
      have h5 := inLevel_wide hb _ _ _ (levelValues flags slots) m slots _ 0 _ hm (by simp)
        (by rw [hv]; rfl)
        (by simp only [List.length_append, List.length_cons, List.length_nil]; omega) h4
      refine hfin (0 + (m + 1))
        ((dataChars (flags :: fade :: wordBytes count ++ slots)).foldl pace (s.headed levelKind n))
        { slotsAt s true (has flags 1) fade count.toNat (0 + (m + 1)) with state := .ended }
        rfl rfl rfl (by rw [hv, wordsOf_length (m + 1) slots hm]; omega)
        ?_ ?_
      · simpa [wordBytes, dataChars] using h5
      · rfl

/-- LEVEL_FRAME with a consistent body: the frame goes on as it came, the places hold the slots that feed
them, and the outcome is handed on. -/
theorem passFrame_level {s : State} (h : LinkRest s) (flags fade : Byte) (count : Word)
    (slots : List Byte) (tail : FrameTail) (hc : levelBodyConsistent flags count slots = true) :
    ∃ f t, Intake.fade t = fade ∧ t.seize = has flags 1 ∧ t.feeds = (List.range 28).map s.feed ∧
      s.passFrame levelKind (flags :: fade :: wordBytes count ++ slots) tail =
        s.passed false f levelKind (flags :: fade :: wordBytes count ++ slots)
          (flags :: fade :: wordBytes count ++ slots) tail
          { places := (List.range 28).map (s.slotFor (levelValues flags slots)), intake := some t }
          (startExecutor levelKind) := by
  obtain ⟨t, e1, e2, e3, hb⟩ := bodyPassed_level h flags fade count slots hc
  have hlen : (flags :: fade :: wordBytes count ++ slots).length ≤ 1040 := by
    have : slots.length ≤ 1024 := by
      simp only [levelBodyConsistent, levelConsistent] at hc
      split at hc <;> simp only [Bool.and_eq_true, decide_eq_true_eq] at hc <;> omega
    simp [wordBytes]; omega
  obtain ⟨f, hf⟩ := passFrame_of_body false h levelKind _ _ tail hlen (Or.inl (by simp)) rfl _ _ hb
  exact ⟨f, t, e1, e2, e3, hf⟩

/-- The items the captured places give are the captured set (R46). -/
theorem items_eq_capturedSet (s : State) (flags fade : Byte) (slots : List Byte) (t : Intake)
    (h1 : t.fade = fade) (h3 : t.feeds = (List.range 28).map s.feed) :
    t.items ((List.range 28).map (s.slotFor (levelValues flags slots))) =
      s.capturedSet flags fade slots := by
  apply List.filterMap_congr
  intro i hi
  have hi' : i < 28 := List.mem_range.mp hi
  simp [List.getD, h1, h3, hi']

end Sys2Proof.Machine
end

