-- ==== Sys2Proof/Laws/Records.lean ====
section
/-! SUPPORT. What a management frame with one record does on a link at rest. -/

namespace Sys2Proof.Machine

/-! ## The answer does not depend on the passage -/

/-- The node with other link, intake and executor states. -/
def State.within (s : State) (l : Lpu) (i : SlotIntake) (m : Executor) : State :=
  { s with lpu := l, si := i, me := m }

theorem judgeCommand_within (s : State) (l : Lpu) (i : SlotIntake) (m : Executor)
    (hl : l.counters = s.lpu.counters) (hr : m.reservations = s.me.reservations)
    (hm : m.restartMark = s.me.restartMark) (a : Fin 251) (b : Bool) (c : Cmd) (ps : List Byte) :
    judgeCommand (s.within l i m) a b c ps = judgeCommand s a b c ps := by
  have h1 : (s.within l i m).eraseBusy = s.eraseBusy := by
    simp [State.eraseBusy, State.queuedKind, State.reservedKind, State.within, hr]
  have h2 : (s.within l i m).acceptIfRoom = s.acceptIfRoom := by
    simp [State.acceptIfRoom, State.queueFull, State.within, hr]
  have h3 : (s.within l i m).admitConfig = s.admitConfig := by
    simp only [State.admitConfig, h1, h2]
    simp [State.configStarted, State.queuedKind, State.reservedKind, State.within, hr]
  have h4 : ∀ n, (s.within l i m).admitScene n = s.admitScene n := by
    intro n
    simp only [State.admitScene, h1, h2]
    simp [State.sceneOpen, State.reservedKind, State.within, hr]
  have h5 : (s.within l i m).admitLock = s.admitLock := by
    simp only [State.admitLock, h1, h2]
    simp [State.reservedKind, State.within, hr]
  have h6 : (s.within l i m).admitErase = s.admitErase := by
    simp only [State.admitErase, h1]
    simp [State.within, hr]
  have h7 : ∀ how e, (s.within l i m).unlessBusy how e = s.unlessBusy how e := by
    intro how e; simp [State.unlessBusy, State.within, hm]
  cases c with
  | readLink =>
    simp only [judgeCommand, judgeReadLink, State.within, hl]
  | captureScene => simp only [judgeCommand, judgeCapture, h4, h7]
  | saveConfig => simp only [judgeCommand, judgeSaveConfig, h3, h7]; rfl
  | setLock => simp only [judgeCommand, judgeSetLock, h5, h7]
  | eraseStore => simp only [judgeCommand, judgeEraseStore, h6, h7]
  | restart => simp only [judgeCommand, judgeRestart, State.within, hr]
  | _ => rfl

theorem answerRecord_within (s : State) (l : Lpu) (i : SlotIntake) (m : Executor)
    (hl : l.counters = s.lpu.counters) (hr : m.reservations = s.me.reservations)
    (hm : m.restartMark = s.me.restartMark) (a : Fin 251) (t c : Byte) (ps : List Byte) (st : Byte) :
    answerRecord (s.within l i m) a t c ps st = answerRecord s a t c ps st := by
  simp only [answerRecord, judge, judgeCommand_within s l i m hl hr hm]

/-! ## Body bytes of a management frame -/

/-- The frame in passage after the bytes `rcv`, of which `out` left or wait with their substitutes. -/
def InBody (s : State) (n : Nat) (phase : Phase) (rcv out : List Byte) (me : Executor)
    (st : State) : Prop :=
  ∃ q sent, Held q ∧ q.covered = true ∧ sent ≠ [] ∧ sent ++ [q.sent] = out ∧
    st = mid false s managementKind n s.node.address phase rcv sent q (startIntake s managementKind) me s.al

/-- The bytes sent, with a new substitute for the one still held. -/
def resent (out : List Byte) : Option Byte → List Byte
  | none => out
  | some v => out.dropLast ++ [v]

theorem InBody.step {s : State} (hb : s.lpu.bypass = false) {n : Nat} {rcv out : List Byte}
    {me : Executor} {st : State} (h : InBody s n .body rcv out me st) (hr : rcv ≠ []) (p : Parser)
    (hp : me.parser = some p) (d : Byte) (k : Taken)
    (hk : ∀ q sent, takeBodyByte (mid false s managementKind n s.node.address .body rcv sent q
      (startIntake s managementKind) me s.al) me p s.node.address (n + 2 - rcv.length) d = k)
    (hf : k.fault = false)
    (he : rcv.length = n + 2 → ∃ p', k.me.parser = some p' ∧ p'.bodyEndFault = false) :
    InBody s n (if rcv.length = n + 2 then .trail else .body) (rcv ++ [d])
      (resent out k.heldSub ++ [k.sub.getD d]) k.me (pace st (freshChar d false)) := by
  obtain ⟨q, sent, hq, hc, hs, hout, rfl⟩ := h
  refine ⟨Place.of d false false true k.sub, sent ++ [(q.resub k.heldSub).sent], held_of _ _, rfl,
    by simp, ?_, ?_⟩
  · subst hout
    cases k.heldSub <;> simp [resent, Place.resub, Place.of, Place.sent]
  · rw [pace_body_management hb n s.node.address rcv sent q _ _ me d hr hs hq p hp k (hk q sent) hf
      (Or.inr hc) he]

/-- A byte that only moves the parser. -/
theorem InBody.move {s : State} (hb : s.lpu.bypass = false) {n : Nat} {rcv out : List Byte}
    {me : Executor} {st : State} (h : InBody s n .body rcv out me st) (hr : rcv ≠ []) (p p' : Parser)
    (hp : me.parser = some p) (d : Byte)
    (hk : ∀ q sent, takeBodyByte (mid false s managementKind n s.node.address .body rcv sent q
      (startIntake s managementKind) me s.al) me p s.node.address (n + 2 - rcv.length) d =
        Taken.move me p')
    (he : rcv.length = n + 2 → p'.bodyEndFault = false) :
    InBody s n (if rcv.length = n + 2 then .trail else .body) (rcv ++ [d]) (out ++ [d])
      { me with parser := some p' } (pace st (freshChar d false)) :=
  h.step hb hr p hp d _ hk rfl fun hn => ⟨p', rfl, he hn⟩

/-- The record count byte of a frame with one record. -/
theorem inBody_count {s : State} (h : LinkRest s) (n : Nat) (hn : 1 < n) :
    InBody s n .body [managementKind, hiByte (natWord n), loByte (natWord n), 1]
      [managementKind, hiByte (natWord n), loByte (natWord n), 1]
      { emptyExecutor with
        parser := some { Parser.begin with total := 1, index := 1, field := .target } }
      (pace (s.headed managementKind n) (freshChar 1 false)) := by
  refine ⟨Place.of 1 false false true none,
    [managementKind, hiByte (natWord n), loByte (natWord n)], held_of _ _, rfl, by simp, rfl, ?_⟩
  rw [State.headed, if_neg (by omega),
    pace_body_management h.bypass n s.node.address _ _ _ _ _ (startExecutor managementKind) 1
      (by simp) (by simp) (held_plain _ _) Parser.begin rfl
      (Taken.move (startExecutor managementKind)
        { Parser.begin with total := 1, index := 1, field := .target }) rfl rfl (Or.inl rfl)
      (by simp only [List.length_cons, List.length_nil]; omega)]
  simp only [List.length_cons, List.length_nil]
  rw [if_neg (by omega)]
  rfl

/-- The params of a record. -/
theorem inBody_params {s : State} (hb : s.lpu.bypass = false) {n : Nat} (bs : List Byte) :
    ∀ (rcv out : List Byte) (me : Executor) (p : Parser) (st : State), bs ≠ [] → rcv ≠ [] →
      p.field = .params bs.length → rcv.length + bs.length < n + 2 →
      InBody s n .body rcv out { me with parser := some p } st →
      InBody s n .body (rcv ++ bs) (out ++ bs)
        { me with parser := some { p with field := .status, params := p.params ++ bs } }
        ((dataChars bs).foldl pace st) := by
  induction bs with
  | nil => intro _ _ _ _ _ h; exact absurd rfl h
  | cons b bs ih =>
    intro rcv out me p st _ hr hf hl h
    simp only [List.length_cons] at hf hl
    have h1 := h.move hb hr p
      { p with params := p.params ++ [b],
               field := if bs.length + 1 = 1 then .status else .params (bs.length + 1 - 1) }
      rfl b (by intro q sent; simp [takeBodyByte, hf, Taken.move]) (by intro hn; omega)
    rw [if_neg (by omega)] at h1
    by_cases hbs : bs = []
    · subst hbs
      simpa [dataChars] using h1
    · have hpos := List.length_pos_iff.mpr hbs
      rw [if_neg (by omega)] at h1
      have h2 := ih (rcv ++ [b]) (out ++ [b]) me
        { p with params := p.params ++ [b], field := .params (bs.length + 1 - 1) }
        (pace st (freshChar b false)) hbs (by simp) (by simp)
        (by simp only [List.length_append, List.length_cons, List.length_nil]; omega) h1
      simpa [dataChars] using h2

@[simp] theorem overlay_nil (bs : List Byte) : overlay [] bs = bs := by simp [overlay]

@[simp] theorem overlay_to_nil (xs : List Byte) : overlay xs [] = [] := by simp [overlay]

@[simp] theorem overlay_cons (x b : Byte) (xs bs : List Byte) :
    overlay (x :: xs) (b :: bs) = x :: overlay xs bs := by simp [overlay]

@[simp] theorem overlay_length (xs bs : List Byte) : (overlay xs bs).length = bs.length := by
  simp only [overlay, List.length_append, List.length_take, List.length_drop]; omega

theorem Parser.nextRecord_done (p : Parser) (h : p.index = p.total) :
    p.nextRecord.bodyEndFault = false := by
  simp [Parser.nextRecord, h, Parser.bodyEndFault]

/-- The reply area of the last record. -/
theorem inBody_reply {s : State} (hb : s.lpu.bypass = false) {n : Nat} (bs : List Byte) :
    ∀ (rcv out outs : List Byte) (me : Executor) (p : Parser) (st : State), bs ≠ [] → rcv ≠ [] →
      p.field = .reply bs.length → p.running = false → p.out = outs → p.index = p.total →
      rcv.length + bs.length = n + 3 →
      InBody s n .body rcv out { me with parser := some p } st →
      ∃ p', InBody s n .trail (rcv ++ bs) (out ++ overlay outs bs) { me with parser := some p' }
        ((dataChars bs).foldl pace st) := by
  induction bs with
  | nil => intro _ _ _ _ _ _ h; exact absurd rfl h
  | cons b bs ih =>
    intro rcv out outs me p st _ hr hf hrun hout hidx hl h
    simp only [List.length_cons] at hf hl
    have h1 := h.step hb hr p rfl b
      { Taken.move { me with parser := some p } (p.replyTaken (bs.length + 1) outs.tail) with
        sub := outs.head? }
      (by intro q sent
          cases outs <;> simp [takeBodyByte, hf, takeReply, hrun, hout, Taken.move])
      rfl
      (by intro hn
          refine ⟨_, rfl, ?_⟩
          rw [Parser.replyTaken, if_pos (by omega)]
          exact p.nextRecord_done hidx)
    have hsent : resent out none ++ [outs.head?.getD b] ++ overlay outs.tail bs =
        out ++ overlay outs (b :: bs) := by
      cases outs <;> simp [resent]
    by_cases hbs : bs = []
    · subst hbs
      rw [if_pos (by simp only [List.length_nil] at hl; omega)] at h1
      refine ⟨p.replyTaken 1 outs.tail, ?_⟩
      rw [← hsent]
      simpa [dataChars, Taken.move, overlay] using h1
    · have hpos := List.length_pos_iff.mpr hbs
      rw [if_neg (by omega)] at h1
      obtain ⟨p', h2⟩ := ih (rcv ++ [b]) (resent out none ++ [outs.head?.getD b]) outs.tail me
        (p.replyTaken (bs.length + 1) outs.tail) (pace st (freshChar b false)) hbs (by simp)
        (by rw [Parser.replyTaken, if_neg (by omega)]; simp)
        (by rw [Parser.replyTaken, if_neg (by omega)])
        (by rw [Parser.replyTaken, if_neg (by omega)])
        (by rw [Parser.replyTaken, if_neg (by omega)]; exact hidx)
        (by simp only [List.length_append, List.length_cons, List.length_nil]; omega)
        (by simpa [Taken.move] using h1)
      refine ⟨p', ?_⟩
      rw [hsent] at h2
      simpa [dataChars] using h2

/-- What the status byte of a record does, with the answer decided (R27). -/
def statusTaken (s : State) (m : Executor) (p : Parser) (a : Answer) (b : Byte) : Taken :=
  let m := { m with parser := some { p with field := .rlen, status := b, answer := a } }
  match a.verdict with
  | .untouched => { me := m, sub := none, heldSub := none, fault := false }
  | .refuse st =>
    { me := m, sub := if a.writes then some st.code else none, heldSub := none, fault := false }
  | .accept _ none =>
    { me := m, sub := if a.writes then some Status.done.code else none, heldSub := none,
      fault := false }
  | .accept _ (some e) =>
    { me := m.reserve s e, sub := if a.writes then some Status.done.code else none,
      heldSub := none, fault := false }

theorem takeStatus_mid (s : State) (hme : s.me = emptyExecutor) (kind n phase rcv sent q si)
    (me : Executor) (hr : me.reservations = []) (hm : me.restartMark = false) (m : Executor)
    (p : Parser) (a : Fin 251) (b : Byte) :
    takeStatus (mid false s kind n a phase rcv sent q si me s.al) m p a b =
      statusTaken s m p (answerRecord s a p.target p.command p.params b) b := by
  have h : answerRecord (mid false s kind n a phase rcv sent q si me s.al) a p.target p.command p.params b
      = answerRecord s a p.target p.command p.params b :=
    answerRecord_within s _ si me rfl (by simp [hr, hme, emptyExecutor])
      (by simp [hm, hme, emptyExecutor]) a _ _ _ b
  have hres : ∀ m' e, Executor.reserve m' (mid false s kind n a phase rcv sent q si me s.al) e =
      m'.reserve s e := fun _ _ => rfl
  simp only [takeStatus, h, hres]
  rfl

theorem reserve_parser (m : Executor) (s : State) (e : Staged) :
    (m.reserve s e).parser = m.parser := by
  unfold Executor.reserve; split <;> first | rfl | (split <;> rfl)

theorem reserve_commits (m : Executor) (s : State) (e : Staged) :
    (m.reserve s e).commits = m.commits := by
  unfold Executor.reserve; split <;> first | rfl | (split <;> rfl)

theorem withdraw_parser (m : Executor) (e : Staged) : (m.withdraw e).parser = m.parser := by
  unfold Executor.withdraw; split <;> rfl

theorem withdraw_commits (m : Executor) (e : Staged) : (m.withdraw e).commits = m.commits := by
  unfold Executor.withdraw; split <;> rfl

/-- The status byte as sent before the rlen byte has come. -/
def firstStatus (a : Answer) (status : Byte) : Byte :=
  if a.writes then
    match a.verdict with
    | .untouched => status
    | .refuse st => st.code
    | .accept _ _ => Status.done.code
  else status

theorem statusTaken_spec (s : State) (m : Executor) (p : Parser) (a : Answer) (b : Byte) :
    (statusTaken s m p a b).fault = false ∧ (statusTaken s m p a b).heldSub = none ∧
      (statusTaken s m p a b).sub.getD b = firstStatus a b ∧
      (statusTaken s m p a b).me.parser = some { p with field := .rlen, status := b, answer := a } ∧
      (statusTaken s m p a b).me.commits = m.commits := by
  unfold statusTaken firstStatus
  cases hv : a.verdict with
  | untouched => simp
  | refuse st => cases hw : a.writes <;> simp
  | accept reply staged =>
    cases staged with
    | none => cases hw : a.writes <;> simp
    | some e => cases hw : a.writes <;> simp [reserve_parser, reserve_commits]

/-- The bytes a node writes into a reply area, but for ENUMERATE's running address. -/
def replyWritten (p : Parser) (address : Fin 251) (q : Nat) : List Byte :=
  match p.answer.verdict with
  | .untouched => []
  | .refuse _ => refusalReply p address
  | .accept reply staged =>
    if q < replyLength reply staged then [] else if p.answer.writes then reply else []

/-- The next reply byte is an accepted ENUMERATE's. -/
def replyRuns (a : Answer) (q : Nat) : Bool :=
  match a.verdict with
  | .accept reply (some (.enumerate v)) =>
    !decide (q < replyLength reply (some (.enumerate v)))
  | _ => false

/-- The entries that join the commit list at the rlen byte. -/
def staged (a : Answer) (q : Nat) : List Staged :=
  match a.verdict with
  | .accept reply st => if q < replyLength reply st then [] else st.toList
  | _ => []

theorem takeRoom_spec (m : Executor) (p : Parser) (address : Fin 251) (q : Nat)
    (hc : m.commits = []) :
    (takeRoom m p address q).fault = false ∧ (takeRoom m p address q).sub = none ∧
      (takeRoom m p address q).me.parser =
        some (p.enterReply q (replyWritten p address q) (replyRuns p.answer q)) ∧
      (takeRoom m p address q).me.commits = staged p.answer q ∧
      ∀ out, (resent (out ++ [firstStatus p.answer p.status]) (takeRoom m p address q).heldSub) =
        out ++ [passedStatus p.answer p.status q] := by
  unfold takeRoom replyWritten replyRuns staged passedStatus firstStatus
  cases hv : p.answer.verdict with
  | untouched => simp [Taken.move, hc, resent]
  | refuse st => cases hw : p.answer.writes <;> simp [Taken.move, hc, resent]
  | accept reply st =>
    by_cases hq : q < replyLength reply st
    · cases st with
      | none => cases hw : p.answer.writes <;> simp [hq, Taken.move, hc, resent]
      | some e =>
        cases hw : p.answer.writes <;> cases e <;>
          simp [hq, Taken.move, hc, resent, withdraw_commits]
    · cases st with
      | none => cases hw : p.answer.writes <;> simp [hq, Taken.move, hc, resent]
      | some e => cases hw : p.answer.writes <;> cases e <;> simp [hq, Taken.move, hc, resent]

theorem givesOut_spec (b : Byte) :
    (givesOut b = true ∧ ∃ v, finOf? 251 b.toNat = some v ∧ v ≠ 0) ∨
      (givesOut b = false ∧ ∀ v, finOf? 251 b.toNat = some v → v = 0) := by
  by_cases h : b.toNat < 251
  · have hf : finOf? 251 b.toNat = some ⟨b.toNat, h⟩ := by simp [finOf?, h]
    by_cases h0 : b.toNat = 0
    · right
      refine ⟨by simp [givesOut, h0], ?_⟩
      intro v hv
      rw [hf] at hv
      cases hv
      apply Fin.ext
      exact h0
    · left
      refine ⟨by simp [givesOut]; omega, _, hf, ?_⟩
      intro hc
      exact h0 (congrArg Fin.val hc)
  · right
    refine ⟨by simp [givesOut]; omega, ?_⟩
    intro v hv
    simp [finOf?, h] at hv

/-- Reply byte 0 of an accepted ENUMERATE, and the rest of its reply area. -/
theorem inBody_running {s : State} (hb : s.lpu.bypass = false) {n : Nat} (b : Byte) (bs : List Byte)
    (rcv out : List Byte) (me : Executor) (p : Parser) (st : State) (hr : rcv ≠ [])
    (hf : p.field = .reply (bs.length + 1)) (hrun : p.running = true) (hidx : p.index = p.total)
    (e : Staged) (hc : me.commits = [e]) (hl : rcv.length + (bs.length + 1) = n + 3)
    (h : InBody s n .body rcv out { me with parser := some p } st) :
    ∃ m, m.commits = (if givesOut b then [.enumerate (finOf? 251 b.toNat)] else []) ∧
      InBody s n .trail (rcv ++ b :: bs) (out ++ runningReply (b :: bs)) m
        ((dataChars (b :: bs)).foldl pace st) := by
  have hp' : rcv.length = n + 2 → (p.replyTaken (bs.length + 1) []).bodyEndFault = false := by
    intro hn
    rw [Parser.replyTaken, if_pos (by omega)]
    exact p.nextRecord_done hidx
  have key : ∃ (m : Executor) (sub : Option Byte),
      sub.getD b = (if givesOut b then b + 1 else b) ∧
      m.commits = (if givesOut b then [.enumerate (finOf? 251 b.toNat)] else []) ∧
      ∀ q sent, takeBodyByte (mid false s managementKind n s.node.address .body rcv sent q
        (startIntake s managementKind) { me with parser := some p } s.al)
        { me with parser := some p } p s.node.address (n + 2 - rcv.length) b =
          { Taken.move m (p.replyTaken (bs.length + 1) []) with sub := sub } := by
    rcases givesOut_spec b with ⟨hg, v, hv, h0⟩ | ⟨hg, hv⟩
    · refine ⟨{ me with parser := some p, commits := [.enumerate (some v)] }, some (b + 1), ?_, ?_, ?_⟩
      · simp [hg]
      · simp [hg, hv]
      · intro q sent
        simp [takeBodyByte, hf, takeReply, hrun, takeRunning, hv, h0, hc, Taken.move]
    · refine ⟨{ me with parser := some p, commits := [] }, none, ?_, ?_, ?_⟩
      · simp [hg]
      · simp [hg]
      · intro q sent
        cases hv2 : finOf? 251 b.toNat with
        | none => simp [takeBodyByte, hf, takeReply, hrun, takeRunning, hv2, hc, Taken.move]
        | some v =>
          simp [takeBodyByte, hf, takeReply, hrun, takeRunning, hv2, hv v hv2, hc, Taken.move]
  obtain ⟨m, sub, hsub, hm, hk⟩ := key
  have h1 := h.step hb hr p rfl b _ hk rfl (fun hn => ⟨_, rfl, hp' hn⟩)
  have hsent : resent out none ++ [sub.getD b] = out ++ [if givesOut b then b + 1 else b] := by
    rw [hsub]; rfl
  by_cases hbs : bs = []
  · subst hbs
    rw [if_pos (by simp only [List.length_nil] at hl; omega)] at h1
    refine ⟨{ m with parser := some (p.replyTaken 1 []) }, hm, ?_⟩
    simp only [runningReply]
    rw [← hsent]
    simpa [dataChars, Taken.move] using h1
  · have hpos := List.length_pos_iff.mpr hbs
    rw [if_neg (by omega)] at h1
    obtain ⟨p', h2⟩ := inBody_reply (n := n) hb bs (rcv ++ [b]) (resent out none ++ [sub.getD b]) [] m
      (p.replyTaken (bs.length + 1) []) (pace st (freshChar b false)) hbs (by simp)
      (by rw [Parser.replyTaken, if_neg (by omega)]; simp)
      (by rw [Parser.replyTaken, if_neg (by omega)])
      (by rw [Parser.replyTaken, if_neg (by omega)])
      (by rw [Parser.replyTaken, if_neg (by omega)]; exact hidx)
      (by simp only [List.length_append, List.length_cons, List.length_nil]; omega)
      (by simpa [Taken.move] using h1)
    refine ⟨{ m with parser := some p' }, hm, ?_⟩
    rw [hsent] at h2
    simpa [dataChars, runningReply] using h2

/-- The parser of a frame with one record, at the status byte of the record. -/
def atStatus (t c : Byte) (ps : List Byte) : Parser :=
  { Parser.begin with total := 1, index := 1, field := .status, target := t, command := c, params := ps }

theorem inBody_toStatus {s : State} (h : LinkRest s) (n : Nat) (t c : Byte) (ps : List Byte)
    (hps : ps.length ≤ 32) (hn : ps.length + 6 ≤ n) :
    InBody s n .body
      ([managementKind, hiByte (natWord n), loByte (natWord n), 1, t, c, natByte ps.length] ++ ps)
      ([managementKind, hiByte (natWord n), loByte (natWord n), 1, t, c, natByte ps.length] ++ ps)
      { emptyExecutor with parser := some (atStatus t c ps) }
      ((dataChars (1 :: t :: c :: natByte ps.length :: ps)).foldl pace (s.headed managementKind n)) := by
  have hlen : (natByte ps.length).toNat = ps.length := by
    simp only [natByte, BitVec.toNat_ofNat]; omega
  have h0 := inBody_count h n (by omega)
  have h1 := h0.move h.bypass (by simp) _
    { Parser.begin with total := 1, index := 1, field := .command, target := t } rfl t
    (fun _ _ => rfl) (by simp only [List.length_cons, List.length_nil]; omega)
  rw [if_neg (by simp only [List.length_cons, List.length_nil]; omega)] at h1
  have h2 := h1.move h.bypass (by simp) _
    { Parser.begin with total := 1, index := 1, field := .plen, target := t, command := c } rfl c
    (fun _ _ => rfl)
    (by simp only [List.length_append, List.length_cons, List.length_nil]; omega)
  rw [if_neg (by simp only [List.length_append, List.length_cons, List.length_nil]; omega)] at h2
  have h3 := h2.move h.bypass (by simp) _
    { Parser.begin with
      total := 1, index := 1, target := t, command := c, params := [],
      field := if ps.length = 0 then .status else .params ps.length } rfl (natByte ps.length)
    (by intro q sent
        simp only [takeBodyByte, hlen, List.length_append, List.length_cons, List.length_nil]
        rw [if_neg (by omega)]
        split <;> rfl)
    (by simp only [List.length_append, List.length_cons, List.length_nil]; omega)
  rw [if_neg (by simp only [List.length_append, List.length_cons, List.length_nil]; omega)] at h3
  by_cases hp0 : ps = []
  · subst hp0
    simpa [dataChars, atStatus, Parser.begin] using h3
  · have hpos := List.length_pos_iff.mpr hp0
    rw [if_neg (by omega)] at h3
    have h4 := inBody_params h.bypass ps _ _ _ _ _ hp0 (by simp) rfl
      (by simp only [List.length_append, List.length_cons, List.length_nil]; omega) h3
    simpa [dataChars, atStatus, Parser.begin] using h4

theorem enterReply_done (p : Parser) (h : p.index = p.total) (out : List Byte) (run : Bool) :
    (p.enterReply 0 out run).bodyEndFault = false := by
  rw [Parser.enterReply, if_pos rfl]
  exact Parser.nextRecord_done _ h

theorem natByte_toNat {n : Nat} (h : n < 256) : (natByte n).toNat = n := by
  simp only [natByte, BitVec.toNat_ofNat]; omega

/-- What is staged, and what the reply area becomes, in one view (R27, R36, R166). -/
theorem passed_views (p : Parser) (address : Fin 251) (reply : List Byte) :
    (replyRuns p.answer reply.length = false →
      staged p.answer reply.length = passedCommits p.answer reply ∧
      overlay (replyWritten p address reply.length) reply =
        passedReply p.answer p.target p.command address reply) ∧
    (replyRuns p.answer reply.length = true →
      (∃ e, staged p.answer reply.length = [e]) ∧ reply ≠ [] ∧
      passedReply p.answer p.target p.command address reply = runningReply reply ∧
      ∀ b bs, reply = b :: bs → passedCommits p.answer reply =
        if givesOut b then [.enumerate (finOf? 251 b.toNat)] else []) := by
  unfold replyRuns staged passedCommits replyWritten passedReply refusalReply
  cases hv : p.answer.verdict with
  | untouched => simp
  | refuse st =>
    refine ⟨fun _ => ⟨rfl, ?_⟩, fun h => by simp at h⟩
    dsimp only
    split <;> simp
  | accept out st =>
    cases st with
    | none =>
      refine ⟨fun _ => ⟨?_, ?_⟩, fun h => by simp at h⟩
      · dsimp only; split <;> rfl
      · dsimp only
        by_cases hq : reply.length < replyLength out none
        · simp [hq]
        · cases hw : p.answer.writes <;> simp [hq]
    | some e =>
      cases e with
      | enumerate v =>
        have hl : replyLength out (some (.enumerate v)) = 1 := rfl
        cases reply with
        | nil => simp [hl, runningReply]
        | cons b bs => simp [hl]
      | _ =>
        refine ⟨fun _ => ⟨by dsimp only; split <;> rfl, ?_⟩, fun h => by simp at h⟩
        simp only [replyLength]
        by_cases hq : reply.length < out.length
        · simp [hq]
        · cases hw : p.answer.writes <;> simp [hq]

theorem inBody_record {s : State} (h : LinkRest s) (code : Byte) (r : Record)
    (hw : r.wellFormed = true) :
    ∃ me, me.commits = passedCommits (s.recordAnswer code r) r.reply ∧
      InBody s (1 :: recordBytes code r).length .trail
        (managementKind :: wordBytes (natWord (1 :: recordBytes code r).length) ++
          1 :: recordBytes code r)
        (managementKind :: wordBytes (natWord (1 :: recordBytes code r).length) ++
          1 :: recordBytes code (s.recordSent code r)) me
        ((dataChars (1 :: recordBytes code r)).foldl pace
          (s.headed managementKind (1 :: recordBytes code r).length)) := by
  obtain ⟨hP, hQ⟩ : r.params.length ≤ 32 ∧ r.reply.length ≤ 48 := by
    simpa [Record.wellFormed] using hw
  have hlen : (1 :: recordBytes code r).length = r.params.length + r.reply.length + 6 := by
    simp [recordBytes]; omega
  generalize hn : (1 :: recordBytes code r).length = n at *
  have h1 := inBody_toStatus h n r.target code r.params hP (by omega)
  -- the status byte
  obtain ⟨f1, f2, f3, f4, f5⟩ := statusTaken_spec s
    { emptyExecutor with parser := some (atStatus r.target code r.params) }
    (atStatus r.target code r.params) (s.recordAnswer code r) r.status
  have h2 := h1.step h.bypass (by simp) (atStatus r.target code r.params) rfl r.status
    (statusTaken s { emptyExecutor with parser := some (atStatus r.target code r.params) }
      (atStatus r.target code r.params) (s.recordAnswer code r) r.status)
    (by intro q sent
        rw [takeBodyByte]
        exact takeStatus_mid s h.me _ _ _ _ _ _ _ _ rfl rfl _ _ _ _)
    f1 (by simp only [List.length_append, List.length_cons, List.length_nil]; omega)
  rw [if_neg (by simp only [List.length_append, List.length_cons, List.length_nil]; omega), f2, f3]
    at h2
  -- the rlen byte
  generalize hm : (statusTaken s { emptyExecutor with parser := some (atStatus r.target code r.params) }
      (atStatus r.target code r.params) (s.recordAnswer code r) r.status).me = m at *
  generalize hp : ({ atStatus r.target code r.params with
    field := .rlen, status := r.status, answer := s.recordAnswer code r } : Parser) = p at *
  obtain ⟨g1, g2, g3, g4, g5⟩ := takeRoom_spec m p s.node.address r.reply.length f5
  have hqb := natByte_toNat (n := r.reply.length) (by omega)
  have h3 := h2.step h.bypass (by simp) p f4 (natByte r.reply.length)
    (takeRoom m p s.node.address r.reply.length)
    (by intro q sent
        rw [takeBodyByte, ← hp]
        simp only [List.length_append, List.length_cons, List.length_nil, hqb]
        rw [if_neg (by omega)])
    g1
    (by intro hlast
        refine ⟨_, g3, ?_⟩
        simp only [List.length_append, List.length_cons, List.length_nil] at hlast
        have : r.reply.length = 0 := by omega
        rw [this]
        exact enterReply_done p (by rw [← hp]; rfl) _ _)
  rw [g2, Option.getD_none] at h3
  have hpa : p.answer = s.recordAnswer code r := by rw [← hp]
  have hps : p.status = r.status := by rw [← hp]
  have hpt : p.target = r.target := by rw [← hp]; rfl
  have hpc : p.command = code := by rw [← hp]; rfl
  have hidx : p.index = p.total := by rw [← hp]; rfl
  rw [← hpa, ← hps, g5] at h3
  obtain ⟨v1, v2⟩ := passed_views p s.node.address r.reply
  have hsent : recordBytes code (s.recordSent code r) =
      r.target :: code :: natByte r.params.length :: r.params ++
        passedStatus p.answer p.status r.reply.length :: natByte r.reply.length ::
          passedReply p.answer p.target p.command s.node.address r.reply := by
    have hl : (passedReply p.answer p.target p.command s.node.address r.reply).length =
        r.reply.length := by
      cases hrun : replyRuns p.answer r.reply.length with
      | false => rw [← (v1 hrun).2]; simp
      | true =>
        rw [(v2 hrun).2.2.1]
        cases r.reply <;> simp [runningReply]
    rw [hpa, hpt, hpc] at hl
    rw [hpa, hps, hpt, hpc]
    simp only [recordBytes, State.recordSent, hl]
  rw [← hpa, hsent]
  have hchars : ∀ st, (dataChars (1 :: recordBytes code r)).foldl pace st =
      (dataChars r.reply).foldl pace
        (pace (pace ((dataChars (1 :: r.target :: code :: natByte r.params.length :: r.params)).foldl
          pace st) (freshChar p.status false)) (freshChar (natByte r.reply.length) false)) := by
    intro st
    simp [recordBytes, dataChars, hps]
  rw [hchars]
  generalize hst : pace (pace _ _) _ = st at h3 ⊢
  generalize hk : takeRoom m p s.node.address r.reply.length = k at *
  have hself : ∀ p', k.me.parser = some p' → { k.me with parser := some p' } = k.me := by
    intro p' hp'; rw [← hp']
  by_cases hq0 : r.reply = []
  · have hr0 : replyRuns p.answer r.reply.length = false := by
      cases hrun : replyRuns p.answer r.reply.length with
      | false => rfl
      | true => exact absurd hq0 (v2 hrun).2.1
    refine ⟨k.me, g4.trans (v1 hr0).1, ?_⟩
    rw [← (v1 hr0).2]
    rw [if_pos (by
      simp only [List.length_append, List.length_cons, List.length_nil]
      simp only [hq0, List.length_nil] at hlen
      omega)] at h3
    simpa [hq0, dataChars, recordBytes, wordBytes, resent, hps] using h3
  · have hpos := List.length_pos_iff.mpr hq0
    rw [if_neg (by
      simp only [List.length_append, List.length_cons, List.length_nil]; omega)] at h3
    obtain ⟨p', hpf, hpo, hpr, hpi, henter⟩ : ∃ p' : Parser, p'.field = .reply r.reply.length ∧
        p'.out = replyWritten p s.node.address r.reply.length ∧
        p'.running = replyRuns p.answer r.reply.length ∧ p'.index = p'.total ∧
        p.enterReply r.reply.length (replyWritten p s.node.address r.reply.length)
          (replyRuns p.answer r.reply.length) = p' :=
      ⟨{ p with
          rlen := r.reply.length, field := .reply r.reply.length,
          out := replyWritten p s.node.address r.reply.length,
          running := replyRuns p.answer r.reply.length },
        rfl, rfl, rfl, hidx, by rw [Parser.enterReply, if_neg (by omega)]⟩
    rw [henter] at g3
    rw [← hself _ g3] at h3
    cases hrun : replyRuns p.answer r.reply.length with
    | false =>
      obtain ⟨p'', h4⟩ := inBody_reply (n := n) h.bypass r.reply _ _
        (replyWritten p s.node.address r.reply.length) k.me p' st hq0 (by simp) hpf
        (hpr.trans hrun) hpo hpi
        (by simp only [List.length_append, List.length_cons, List.length_nil]; omega) h3
      refine ⟨{ k.me with parser := some p'' }, g4.trans (v1 hrun).1, ?_⟩
      · rw [← (v1 hrun).2]
        simpa [recordBytes, wordBytes, resent, hps] using h4
    | true =>
      obtain ⟨⟨e, he⟩, _, hv, hcom⟩ := v2 hrun
      obtain ⟨b, bs, hbs⟩ := List.exists_cons_of_ne_nil hq0
      obtain ⟨me, hme, h4⟩ := inBody_running (n := n) h.bypass b bs _ _ k.me p' st (by simp)
        (by rw [hpf, hbs]; rfl) (hpr.trans hrun) hpi e (g4.trans he)
        (by simp only [hbs, List.length_append, List.length_cons, List.length_nil] at hlen ⊢; omega) h3
      refine ⟨me, hme.trans (hcom b bs hbs).symm, ?_⟩
      rw [hv, hbs]
      simpa [recordBytes, wordBytes, hbs, resent, hps] using h4

theorem recordSent_reply_length (s : State) (code : Byte) (r : Record) :
    (s.recordSent code r).reply.length = r.reply.length := by
  simp only [State.recordSent, passedReply]
  split
  · rfl
  · split
    · simp
    · rfl
  · cases r.reply <;> simp [runningReply]
  · split
    · rfl
    · split
      · simp
      · rfl

/-- What a management frame with one well-formed record does on a link at rest: the record goes on as
`recordSent`, the staged writes are `passedCommits`, and the outcome is handed on. -/
theorem passRecord_eq {s : State} (h : LinkRest s) (code : Byte) (r : Record)
    (hw : r.wellFormed = true) :
    ∃ f me, me.commits = passedCommits (s.recordAnswer code r) r.reply ∧
      s.passRecord code r =
        s.passed false f managementKind (1 :: recordBytes code r)
          (1 :: recordBytes code (s.recordSent code r)) r.tail (startIntake s managementKind) me := by
  obtain ⟨me, hme, q, sent, hq, _, hs, hsent, hst⟩ := inBody_record h code r hw
  have hlen : (1 :: recordBytes code r).length ≤ 1040 := by
    obtain ⟨hP, hQ⟩ : r.params.length ≤ 32 ∧ r.reply.length ≤ 48 := by
      simpa [Record.wellFormed] using hw
    simp [recordBytes]; omega
  obtain ⟨f, hf⟩ := passFrame_of_body false h managementKind (1 :: recordBytes code r)
    (1 :: recordBytes code (s.recordSent code r)) r.tail hlen (Or.inl (by simp))
    (by
      have := recordSent_reply_length s code r
      simp only [recordBytes, List.length_cons, List.length_append, this]
      rfl)
    (startIntake s managementKind) me ⟨q, sent, hq, hs, hsent, hst⟩
  exact ⟨f, me, hme, hf⟩

end Sys2Proof.Machine
end

