-- ==== Sys2Proof/Laws/Outcome.lean ====
section
/-! SUPPORT. What the outcome of a frame does: the commits do not see the link, and what they leave is
the state after the frame. -/

namespace Sys2Proof.Machine

/-- A state with the link, intake, executor and claim of a frame in passage; its own counters. -/
def State.carrying (c : State) (l : Lpu) (i : SlotIntake) (m : Executor) (b : Bool) : State :=
  { c with
    lpu := { l with counters := c.lpu.counters }
    si := i
    me := m
    al := { c.al with claim := b } }

variable (l : Lpu) (i : SlotIntake) (m : Executor) (b : Bool)

theorem foldl_carrying {α : Type} (f : State → α → State)
    (h : ∀ s a, f (s.carrying l i m b) a = (f s a).carrying l i m b) (xs : List α) (s : State) :
    xs.foldl f (s.carrying l i m b) = (xs.foldl f s).carrying l i m b := by
  induction xs generalizing s with
  | nil => rfl
  | cons x xs ih => simp only [List.foldl_cons, h, ih]

theorem retargetAll_carrying (s : State) (ts : List Word) (c : Byte) :
    (s.carrying l i m b).retargetAll ts c = (s.retargetAll ts c).carrying l i m b :=
  foldl_carrying l i m b _ (fun _ _ => rfl) _ _

theorem retargetPark_carrying (s : State) (c : Byte) :
    (s.carrying l i m b).retargetPark c = (s.retargetPark c).carrying l i m b := by
  apply foldl_carrying
  intro s k
  have : (s.carrying l i m b).entry k = s.entry k := rfl
  rw [this]
  cases (s.entry k).source <;> rfl

theorem retargetItems_carrying (s : State) (items : List Item) :
    (s.carrying l i m b).retargetItems items = (s.retargetItems items).carrying l i m b :=
  foldl_carrying l i m b _ (fun _ _ => rfl) _ _

theorem leaveQuiet_carrying (s : State) :
    (s.carrying l i m b).leaveQuiet = s.leaveQuiet.carrying l i m b := by
  unfold State.leaveQuiet
  show (if s.mon.rotationDue (rotationInterval s.mc.mode) then _ else _) =
    State.carrying (if s.mon.rotationDue (rotationInterval s.mc.mode) then _ else _) l i m b
  split <;> rfl

theorem quietReview_carrying (s : State) :
    (s.carrying l i m b).quietReview = s.quietReview.carrying l i m b := by
  unfold State.quietReview
  show (if s.mc.mode = .run ∧ s.node.quiet = true ∧ s.dark = true then _ else _) =
    State.carrying (if s.mc.mode = .run ∧ s.node.quiet = true ∧ s.dark = true then _ else _) l i m b
  split
  · show (match s.mc.quietTimer with | none => _ | some _ => _) =
      State.carrying (match s.mc.quietTimer with | none => _ | some _ => _) l i m b
    cases s.mc.quietTimer <;> rfl
  · rfl

theorem reblock_carrying (s : State) :
    (s.carrying l i m b).reblock = s.reblock.carrying l i m b := rfl

theorem enterMode_carrying (s : State) (mode : Mode) :
    (s.carrying l i m b).enterMode mode = (s.enterMode mode).carrying l i m b := by
  unfold State.enterMode
  have h1 : ∀ x, (s.carrying l i m b).setMc x = (s.setMc x).carrying l i m b := fun _ => rfl
  have h2 : (s.carrying l i m b).mc = s.mc := rfl
  simp only [h1, h2]
  split
  · rw [leaveQuiet_carrying, reblock_carrying, quietReview_carrying]
  · rw [reblock_carrying, quietReview_carrying]

theorem dutiesHandedOn_carrying (s : State) :
    (s.carrying l i m b).dutiesHandedOn = s.dutiesHandedOn.carrying l i m b := by
  unfold State.dutiesHandedOn
  show (if s.mc.mode = .quiet ∧ s.dark = false then _ else _) =
    State.carrying (if s.mc.mode = .quiet ∧ s.dark = false then _ else _) l i m b
  split
  · exact enterMode_carrying ..
  · exact quietReview_carrying ..

theorem shapeAll_carrying (s : State) :
    (s.carrying l i m b).shapeAll = s.shapeAll.carrying l i m b := rfl

theorem reshape_carrying (s : State) :
    (s.carrying l i m b).reshape = s.reshape.carrying l i m b := by
  unfold State.reshape
  show (if s.mc.mode.operating then _ else _) =
    State.carrying (if s.mc.mode.operating then _ else _) l i m b
  split
  · rw [shapeAll_carrying, dutiesHandedOn_carrying]
  · rfl

theorem startHead_carrying (s : State) :
    (s.carrying l i m b).startHead = s.startHead.carrying l i m b := by
  unfold State.startHead
  show (match s.stc.activity, s.stc.queue with | .idle, e :: _ => _ | _, _ => _) =
    State.carrying (match s.stc.activity, s.stc.queue with | .idle, e :: _ => _ | _, _ => _) l i m b
  cases s.stc.activity <;> cases s.stc.queue <;> try rfl
  rename_i e _
  unfold State.startWork
  show (match s.mon.supplyState with | .preUv => _ | .normal => _) =
    State.carrying (match s.mon.supplyState with | .preUv => _ | .normal => _) l i m b
  cases s.mon.supplyState
  · cases e.kind <;> rfl
  · rfl

theorem commitWritePatch_carrying (s : State) (first : Nat) (es : List PatchEntry) :
    (s.carrying l i m b).commitWritePatch first es =
      (s.commitWritePatch first es).carrying l i m b := by
  induction es generalizing s first with
  | nil => rfl
  | cons e es ih =>
    have h : (s.carrying l i m b).replaceEntry first e = (s.replaceEntry first e).carrying l i m b := by
      unfold State.replaceEntry
      cases e.source <;> rfl
    simp only [State.commitWritePatch, h, ih]

theorem commitSave_carrying (s : State) (how : Admission) :
    (s.carrying l i m b).commitSaveConfig how = (s.commitSaveConfig how).carrying l i m b := by
  unfold State.commitSaveConfig
  have h1 : (s.carrying l i m b).queuedKind .config = s.queuedKind .config := rfl
  have h2 : (s.carrying l i m b).configStarted = s.configStarted := rfl
  rw [h1, h2]
  cases how <;> try rfl
  dsimp only
  split
  · rfl
  · split <;> rfl

theorem commitCapture_carrying (s : State) (n : Fin 16) (fade : Byte) (how : Admission) :
    (s.carrying l i m b).commitCapture n fade how = (s.commitCapture n fade how).carrying l i m b := by
  unfold State.commitCapture
  have h0 : (s.carrying l i m b).captureShadow n fade = (s.captureShadow n fade).carrying l i m b := rfl
  have h1 : ∀ s : State, (s.carrying l i m b).queuedKind (.scene n) = s.queuedKind (.scene n) :=
    fun _ => rfl
  have h2 : ∀ s : State, (s.carrying l i m b).sceneOpen n = s.sceneOpen n := fun _ => rfl
  simp only [h0, h1, h2]
  cases how <;> try rfl
  dsimp only
  split
  · rfl
  · split <;> rfl

theorem carrying_mc (s : State) : (s.carrying l i m b).mc = s.mc := rfl

theorem carrying_setMc (s : State) (x : ModeController) :
    (s.carrying l i m b).setMc x = (s.setMc x).carrying l i m b := rfl

theorem recall_carrying (s : State) (n : Fin 16) (fade : Option Byte) :
    (s.carrying l i m b).recall n fade = (s.recall n fade).carrying l i m b := by
  unfold State.recall
  have h1 : (s.carrying l i m b).scene n = s.scene n := rfl
  have h2 : ∀ x, (s.carrying l i m b).setSs x = (s.setSs x).carrying l i m b := fun _ => rfl
  have h3 : (s.carrying l i m b).ss = s.ss := rfl
  simp only [h1, h2, h3]
  split
  · rw [retargetAll_carrying]
  · rfl

theorem writeNode_carrying (s : State) (w : NodeWrite) :
    (s.carrying l i m b).commitWriteNode w = (s.commitWriteNode w).carrying l i m b := by
  unfold State.commitWriteNode
  have h1 : ∀ x, (s.carrying l i m b).setNode x = (s.setNode x).carrying l i m b := fun _ => rfl
  have h2 : ∀ (s : State) (x), (s.carrying l i m b).setSs x = (s.setSs x).carrying l i m b :=
    fun _ _ => rfl
  have h3 : ∀ s : State, (s.carrying l i m b).ss = s.ss := fun _ => rfl
  have h4 : ∀ s : State, (s.carrying l i m b).node = s.node := fun _ => rfl
  simp only [h1, h2, h3, h4, quietReview_carrying]

theorem apply_carrying (s : State) (e : Staged) :
    (s.carrying l i m b).apply e = (s.apply e).carrying l i m b := by
  cases e with
  | writePatch first es => exact commitWritePatch_carrying ..
  | writeNode w => exact writeNode_carrying ..
  | recallScene n fade => exact recall_carrying ..
  | capture n fade how => exact commitCapture_carrying ..
  | saveConfig how => exact commitSave_carrying ..
  | setLock how => cases how <;> rfl
  | standby =>
    simp only [State.apply, State.commitStandby, carrying_mc, carrying_setMc]
    cases s.mc.mode <;> simp only [enterMode_carrying]
  | wake =>
    simp only [State.apply, State.commitWake, carrying_mc, carrying_setMc]
    cases s.mc.mode <;> simp only [enterMode_carrying]
  | enumerate v => cases v <;> rfl
  | linkClear => rfl
  | writeGroup => rfl
  | writeCurve => rfl
  | setMasks => rfl
  | eraseStore => rfl
  | force => rfl
  | release => rfl
  | clearFaults => rfl
  | ack => rfl
  | restart => rfl
  | addressById => rfl

theorem commitAll_carrying (s : State) (list : List Staged) :
    (s.carrying l i m b).commitAll list = (s.commitAll list).carrying l i m b := by
  unfold State.commitAll
  simp only [foldl_carrying l i m b _ (apply_carrying l i m b)]
  generalize list.foldl State.apply s = c
  cases list.any Staged.shapes <;> cases list.any Staged.queues <;>
    simp [reshape_carrying, startHead_carrying]

theorem takeCapturedSet_carrying (s : State) (items : List Item) (code : Byte) (seize : Bool) :
    (s.carrying l i m b).takeCapturedSet items code seize =
      (s.takeCapturedSet items code seize).carrying l i m b := by
  cases items with
  | nil => rfl
  | cons x xs =>
    have hs : ∀ (s : State) (y : SourceSelector),
        (s.carrying l i m b).setSs y = (s.setSs y).carrying l i m b := fun _ _ => rfl
    have hto : ∀ s : State, (s.carrying l i m b).toStream (x :: xs) code =
        (s.toStream (x :: xs) code).carrying l i m b := by
      intro s
      unfold State.toStream
      have h1 : (s.carrying l i m b).ss = s.ss := rfl
      rw [hs, retargetPark_carrying, retargetItems_carrying, h1]
    have h1 : (s.carrying l i m b).ss = s.ss := rfl
    have h2 : ∀ s : State, (s.carrying l i m b).node = s.node := fun _ => rfl
    have h3 : ∀ s : State, (s.carrying l i m b).ss = s.ss := fun _ => rfl
    simp only [State.takeCapturedSet, hs, h1, h2, h3]
    cases (s.setSs { s.ss with lossTimer := s.ss.lossTimer.restarted s.node.lossTimeout, live := true }).ss.source <;>
      simp only [hto, retargetItems_carrying]
    split <;> rfl

/-! ## The outcome of a whole frame -/

theorem decided_eq_carrying {s : State} (h : LinkRest s) (f : FrameCtx) (sent : List Byte)
    (buffer : List Place) (d : Byte) :
    s.decided f sent buffer i m (s.alAfterByte d) =
      s.carrying { s.lpu with rx := .hunting, tx := none, buffer := buffer, tracker := .frame f,
                              stallTimer := true, lout := s.lpu.lout ++ frameOut sent }
        i m (s.claims d) := by
  unfold State.decided State.carrying State.alAfterByte
  have hc := h.claim
  cases hd : s.claims d
  · simp only [Bool.false_eq_true, ↓reduceIte]
    congr 1
    rw [← hc]
  · rfl

theorem passed_eq (s : State) (fmt : Bool) (f : FrameCtx) (kind : Byte)
    (body sentBody : List Byte) (tail : FrameTail) (i : SlotIntake) (m : Executor) (o : FrameOutcome)
    (ho : frameOutcome fmt kind body tail = o) :
    s.passed fmt f kind body sentBody tail i m =
      (s.decided f (coveredBytes kind sentBody (s.attentionSent tail.attention))
        (crcPlaces
          (hiByte (arrivingWord tail.crc (crc16 (coveredBytes kind body tail.attention))))
          (loByte (arrivingWord tail.crc (crc16 (coveredBytes kind body tail.attention))))
          (crcFor o (crc16 (coveredBytes kind sentBody (s.attentionSent tail.attention))))
          (decide (o = .good) && commitsRestart m.commits))
        i m (s.alAfterByte tail.attention)).frameEnds o := by
  subst ho
  rfl

/-- A frame whose outcome is not GOOD leaves the node as it was but for the link and the claim. -/
theorem passed_notGood {s : State} (h : LinkRest s) (fmt : Bool) (f : FrameCtx) (kind : Byte)
    (body sentBody : List Byte) (tail : FrameTail) (i : SlotIntake) (m : Executor)
    (o : FrameOutcome) (ho : frameOutcome fmt kind body tail = o) (hn : o ≠ .good) :
    s.passed fmt f kind body sentBody tail i m =
      s.afterFrame o kind body sentBody tail false s := by
  rw [passed_eq s fmt f kind body sentBody tail i m o ho, decided_eq_carrying i m h]
  unfold State.afterFrame
  have hc := h.claim
  simp only [State.frameEnds, hn, decide_false, Bool.false_and, Bool.false_eq_true, ↓reduceIte,
    and_false]
  cases hd : s.claims tail.attention <;>
    simp [State.carrying, State.setSi, State.setMe, State.setAl, State.setLpu, Attention.atOutcome,
      h.rx, h.tx, h.tracker, hc, h.si, h.me]

/-- The consumers' part of a GOOD outcome. -/
def State.committed (s : State) (i : SlotIntake) (list : List Staged) : State :=
  (match i.intake with
    | none => s
    | some t => (s.takeCapturedSet (t.items i.places) t.fade t.seize).reshape).commitAll list

theorem committed_carrying (s : State) (list : List Staged) :
    ((s.carrying l i m b).handOver).commitAll list = (s.committed i list).carrying l i m b := by
  unfold State.handOver State.committed
  have h1 : (s.carrying l i m b).si = i := rfl
  rw [h1]
  cases i.intake with
  | none => exact commitAll_carrying ..
  | some t => simp only [takeCapturedSet_carrying, reshape_carrying, commitAll_carrying]

/-- A commit leaves the link but for its counters, the intake, the executor and the claim. -/
theorem committed_kept (s : State) (list : List Staged) (i' : SlotIntake) :
    s.committed i' list = (s.committed i' list).carrying s.lpu s.si s.me s.al.claim := by
  unfold State.committed
  have h1 : s = s.carrying s.lpu s.si s.me s.al.claim := rfl
  cases i'.intake with
  | none => conv_lhs => rw [h1, commitAll_carrying]
  | some t =>
    dsimp only
    conv_lhs => rw [h1, takeCapturedSet_carrying, reshape_carrying, commitAll_carrying]

theorem passed_good {s : State} (h : LinkRest s) (fmt : Bool) (f : FrameCtx) (kind : Byte)
    (body sentBody : List Byte) (tail : FrameTail) (i : SlotIntake) (m : Executor)
    (ho : frameOutcome fmt kind body tail = .good) :
    s.passed fmt f kind body sentBody tail i m =
      s.afterFrame .good kind body sentBody tail (commitsRestart m.commits)
        (s.committed i m.commits) := by
  rw [passed_eq s fmt f kind body sentBody tail i m .good ho, decided_eq_carrying i m h]
  unfold State.afterFrame
  have hc := h.claim
  have hk := committed_kept s m.commits i
  simp only [State.frameEnds, decide_true, Bool.true_and, ↓reduceIte, and_true]
  have h1 : ∀ l i m' b, (s.carrying l i m' b).me.commits = m'.commits := fun _ _ _ _ => rfl
  rw [h1, committed_carrying]
  generalize s.committed i m.commits = c at hk
  have e1 : c.si = s.si := by rw [hk]; rfl
  have e2 : c.me = s.me := by rw [hk]; rfl
  have e3 : c.al.claim = s.al.claim := by rw [hk]; rfl
  cases hd : s.claims tail.attention <;>
    simp [State.carrying, State.setSi, State.setMe, State.setAl, State.setLpu, Attention.atOutcome,
      h.rx, h.tx, h.tracker, hc, h.si, h.me, e1, e2, e3]

/-! ## Management frames and level frames -/

/-- The record as the node sends it, and the staged writes, decide what a record's frame does. -/
theorem passRecord_after {s : State} (h : LinkRest s) (code : Byte) (r : Record)
    (hw : r.wellFormed = true) :
    s.passRecord code r =
      if recordOutcome code r = .good then
        s.afterRecord .good code r (s.recordSent code r)
          (commitsRestart (passedCommits (s.recordAnswer code r) r.reply))
          (s.commitAll (passedCommits (s.recordAnswer code r) r.reply))
      else
        s.afterRecord (recordOutcome code r) code r (s.recordSent code r) false s := by
  obtain ⟨f, me, hme, hp⟩ := passRecord_eq h code r hw
  rw [hp]
  split
  · next ho =>
    rw [passed_good h _ _ _ _ _ _ _ _ ho, hme]
    rfl
  · next ho => exact passed_notGood h _ _ _ _ _ _ _ _ _ rfl ho

/-- A level frame with a consistent body. -/
theorem passLevel_after {s : State} (h : LinkRest s) (flags fade : Byte) (count : Word)
    (slots : List Byte) (tail : FrameTail) (hc : levelBodyConsistent flags count slots = true) :
    s.passFrame levelKind (flags :: fade :: wordBytes count ++ slots) tail =
      if frameOutcome false levelKind (flags :: fade :: wordBytes count ++ slots) tail = .good then
        s.afterFrame .good levelKind (flags :: fade :: wordBytes count ++ slots)
          (flags :: fade :: wordBytes count ++ slots) tail false
          (s.takeCapturedSet (s.capturedSet flags fade slots) fade (has flags 1)).reshape
      else
        s.afterFrame (frameOutcome false levelKind (flags :: fade :: wordBytes count ++ slots) tail)
          levelKind (flags :: fade :: wordBytes count ++ slots)
          (flags :: fade :: wordBytes count ++ slots) tail false s := by
  obtain ⟨f, t, h1, h2, h3, hp⟩ := passFrame_level h flags fade count slots tail hc
  rw [hp]
  split
  · next ho =>
    rw [passed_good h _ _ _ _ _ _ _ _ ho]
    simp only [State.committed, h1, h2, items_eq_capturedSet s flags fade slots t h1 h3]
    rfl
  · next ho => exact passed_notGood h _ _ _ _ _ _ _ _ _ rfl ho

/-- A foreign frame commits nothing, whatever its outcome. -/
theorem passForeign_after {s : State} (h : LinkRest s) {kind : Byte} (hk : Foreign kind)
    (body : List Byte) (tail : FrameTail) (hn : body.length ≤ 1040) :
    s.passFrame kind body tail =
      s.afterFrame (frameOutcome false kind body tail) kind body body tail false s := by
  obtain ⟨f, hp⟩ := passFrame_foreign h hk body tail hn
  rw [hp]
  by_cases ho : frameOutcome false kind body tail = .good
  · rw [passed_good h _ _ _ _ _ _ _ _ ho, ho]
    simp only [State.committed, startIntake, hk.1, ↓reduceIte, startExecutor, emptyExecutor]
    rfl
  · exact passed_notGood h _ _ _ _ _ _ _ _ _ rfl ho

end Sys2Proof.Machine
end

