-- ==== Sys2Proof/Laws/Answers.lean ====
section
/-! SUPPORT. A record's frame from the verdict on the record: accepted, refused or untouched. -/

namespace Sys2Proof.Machine

/-- The verdict on a record, as R160 decides it. -/
def State.verdict (s : State) (code : Byte) (r : Record) : Verdict :=
  judge s s.node.address (decide (r.target = broadcastTarget)) code r.params

theorem recordOutcome_correct (code : Byte) (r : Record) (h : r.tail.crc = .correct) :
    recordOutcome code r = .good := by
  simp [recordOutcome, frameOutcome, h, arrivalOutcome_correct]

theorem address_ne_broadcast (s : State) (r : Record)
    (h : r.target.toNat = s.node.address.val) : r.target ≠ broadcastTarget := by
  intro hb
  have := s.node.address.isLt
  rw [hb] at h
  simp [broadcastTarget] at h
  omega

/-- The answer to a record that the node takes. -/
theorem recordAnswer_takes {s : State} (code : Byte) {r : Record} (h : s.takes r) :
    s.recordAnswer code r =
      { verdict := s.verdict code r
        writes :=
          if r.target = broadcastTarget then
            match s.verdict code r with
            | .untouched => false
            | .accept _ _ => decide (r.status = 0x00)
            | .refuse _ => decide (r.status = 0x00) || decide (r.status = 0x01)
          else true } := by
  unfold State.recordAnswer answerRecord State.verdict
  by_cases hb : r.target = broadcastTarget
  · simp only [hb, ↓reduceIte, decide_true]
    all_goals rfl
  · obtain h1 | h1 := h
    · exact absurd h1 hb
    · have h2 : r.target.toNat = s.node.address.val ∧ r.status = 0x00 := h1
      simp only [hb, ↓reduceIte, decide_false, h2, and_self]

theorem recordAnswer_not_taken {s : State} (code : Byte) {r : Record} (h : ¬ s.takes r) :
    s.recordAnswer code r = { verdict := .untouched, writes := false } := by
  have h1 : r.target ≠ broadcastTarget := fun e => h (Or.inl e)
  have h2 : ¬(r.target.toNat = s.node.address.val ∧ r.status = 0x00) := fun e => h (Or.inr e)
  simp only [State.recordAnswer, answerRecord, h1, h2, ↓reduceIte]

/-- What an acceptance other than ENUMERATE's sends and stages, with room for its reply. -/
theorem accept_views (out : List Byte) (staged : Option Staged)
    (he : ∀ v, staged ≠ some (.enumerate v)) (w : Bool) (st t c : Byte) (a : Fin 251)
    (reply : List Byte) (hroom : out.length ≤ reply.length) :
    passedStatus { verdict := .accept out staged, writes := w } st reply.length =
        (if w then Status.done.code else st) ∧
      passedReply { verdict := .accept out staged, writes := w } t c a reply =
        (if w then overlay out reply else reply) ∧
      passedCommits { verdict := .accept out staged, writes := w } reply = staged.toList := by
  have hlt : ¬ reply.length < out.length := by omega
  cases staged with
  | none => simp [passedStatus, passedReply, passedCommits, replyLength, hlt]
  | some e =>
    cases e <;>
      first
      | exact absurd rfl (he _)
      | simp [passedStatus, passedReply, passedCommits, replyLength, hlt]

/-- An accepted record that is not ENUMERATE, with room for its reply. -/
theorem accepted_sent {s : State} (code : Byte) {r : Record} (h : s.takes r) (out : List Byte)
    (staged : Option Staged) (hv : s.verdict code r = .accept out staged)
    (he : ∀ v, staged ≠ some (.enumerate v)) (hroom : out.length ≤ r.reply.length) :
    s.recordSent code r = answeredRecord r out ∧
      passedCommits (s.recordAnswer code r) r.reply = staged.toList := by
  have hst : r.target ≠ broadcastTarget → r.status = 0x00 := fun hb => by
    obtain h1 | h1 := h
    · exact absurd h1 hb
    · exact h1.2
  have hw : (if r.target = broadcastTarget then decide (r.status = 0x00) else true) =
      decide (r.status = 0x00) := by
    split
    · rfl
    · next hb => simp [hst hb]
  have ha : s.recordAnswer code r =
      { verdict := .accept out staged, writes := decide (r.status = 0x00) } := by
    rw [recordAnswer_takes code h, hv]
    simp only [hw]
  obtain ⟨h1, h2, h3⟩ := accept_views out staged he (decide (r.status = 0x00)) r.status r.target
    code s.node.address r.reply hroom
  rw [State.recordSent, ha]
  refine ⟨?_, h3⟩
  simp only [h1, h2, decide_eq_true_eq, answeredRecord]
  split <;> rfl

theorem ofCode_enumerate : ∀ code : Byte, Cmd.ofCode? code = some .enumerate ↔ code = 0x30 := by
  decide

/-- A refused record. -/
theorem refused_sent {s : State} (code : Byte) {r : Record} (h : s.takes r) (st : Status)
    (hv : s.verdict code r = .refuse st) :
    s.recordSent code r = s.refusedRecord code r st ∧
      passedCommits (s.recordAnswer code r) r.reply = [] := by
  rw [State.recordSent, recordAnswer_takes code h, hv]
  refine ⟨?_, rfl⟩
  have henum : (Cmd.ofCode? code ≠ some .enumerate) ↔ code ≠ 0x30 := not_congr (ofCode_enumerate code)
  unfold passedStatus passedReply State.refusedRecord
  by_cases hb : r.target = broadcastTarget
  · simp only [hb, ↓reduceIte, true_and]
    by_cases hst : r.status = 0x00 ∨ r.status = 0x01
    · have hw : (decide (r.status = 0x00) || decide (r.status = 0x01)) = true := by simpa using hst
      simp only [hw, ↓reduceIte, hst, true_and, henum]
      by_cases hc : code = 0x30 <;> simp [hc]
    · have hw : (decide (r.status = 0x00) || decide (r.status = 0x01)) = false := by simpa using hst
      simp only [hw, ↓reduceIte, hst, Bool.false_eq_true, false_and]
      cases r
      simp_all
  · simp only [hb, ↓reduceIte, false_and]

/-- A record that the node leaves untouched. -/
theorem untouched_sent {s : State} (code : Byte) {r : Record}
    (h : s.takes r → s.verdict code r = .untouched) :
    s.recordSent code r = r ∧ passedCommits (s.recordAnswer code r) r.reply = [] := by
  have hv : (s.recordAnswer code r).verdict = .untouched := by
    by_cases ht : s.takes r
    · rw [recordAnswer_takes code ht, h ht]
    · rw [recordAnswer_not_taken code ht]
  have hw : (s.recordAnswer code r).writes = false ∨ s.takes r := by
    by_cases ht : s.takes r
    · exact Or.inr ht
    · rw [recordAnswer_not_taken code ht]; exact Or.inl rfl
  constructor
  · unfold State.recordSent passedStatus passedReply
    rw [hv]
    simp
  · unfold passedCommits
    rw [hv]

/-! ## The frame of one record -/

theorem passRecord_accepted {s : State} (hl : LinkRest s) (code : Byte) {r : Record}
    (hw : r.wellFormed = true) (h : s.takes r) (hc : r.tail.crc = .correct) (out : List Byte)
    (staged : Option Staged) (hv : s.verdict code r = .accept out staged)
    (he : ∀ v, staged ≠ some (.enumerate v)) (hroom : out.length ≤ r.reply.length) :
    s.passRecord code r =
      s.afterRecord .good code r (answeredRecord r out) (commitsRestart staged.toList)
        (s.commitAll staged.toList) := by
  obtain ⟨h1, h2⟩ := accepted_sent code h out staged hv he hroom
  rw [passRecord_after hl code r hw, if_pos (recordOutcome_correct code r hc), h1, h2]

theorem commitAll_nil (s : State) : s.commitAll [] = s := rfl

theorem passRecord_refused {s : State} (hl : LinkRest s) (code : Byte) {r : Record}
    (hw : r.wellFormed = true) (h : s.takes r) (st : Status)
    (hv : s.verdict code r = .refuse st) :
    s.passRecord code r = s.afterRefusal code r st := by
  obtain ⟨h1, h2⟩ := refused_sent code h st hv
  rw [passRecord_after hl code r hw, h1, h2, State.afterRefusal]
  split
  · next ho => rw [ho]; rfl
  · rfl

theorem passRecord_untouched {s : State} (hl : LinkRest s) (code : Byte) {r : Record}
    (hw : r.wellFormed = true) (h : s.takes r → s.verdict code r = .untouched) :
    s.passRecord code r = s.afterUntouched code r := by
  obtain ⟨h1, h2⟩ := untouched_sent code h
  rw [passRecord_after hl code r hw, h1, h2, State.afterUntouched]
  split
  · next ho => rw [ho]; rfl
  · rfl

/-- The verdict on a command, once the code and the form are right. -/
theorem verdict_cmd (s : State) (c : Cmd) (r : Record)
    (h1 : c.isRead = true → r.target ≠ broadcastTarget)
    (h2 : c.onlyBroadcast = true → r.target = broadcastTarget) :
    s.verdict c.code r =
      judgeCommand s s.node.address (decide (r.target = broadcastTarget)) c r.params := by
  have hc : Cmd.ofCode? c.code = some c := by cases c <;> rfl
  unfold State.verdict judge
  rw [hc]
  by_cases hb : r.target = broadcastTarget
  · have : c.isRead = false := by
      cases hr : c.isRead
      · rfl
      · exact absurd hb (h1 hr)
    simp [hb, this]
  · have : c.onlyBroadcast = false := by
      cases hr : c.onlyBroadcast
      · rfl
      · exact absurd (h2 hr) hb
    simp [hb, this]

theorem exec_cmd (c : Cmd) (r : Record) (s : State) :
    exec (c.instr r) s = .next (s.passRecord c.code r) := by
  cases c <;> rfl

end Sys2Proof.Machine
end

