-- ==== Sys2Proof/Laws/Blocks.lean ====
section
/-! SUPPORT. What the shared operations of the blocks write: one equation for each, with every field that
it can change. -/

namespace Sys2Proof.Machine

/-! ## Folds over the state -/

theorem foldl_keeps {α β : Type} (f : State → α → State) (g : State → β)
    (h : ∀ s a, g (f s a) = g s) (l : List α) (s : State) : g (l.foldl f s) = g s := by
  induction l generalizing s with
  | nil => rfl
  | cons a l ih => rw [List.foldl_cons, ih, h]

theorem foldl_preserves {α β : Type} {P : β → Prop} (f : β → α → β)
    (hf : ∀ s a, P s → P (f s a)) (l : List α) {s : β} (h : P s) : P (l.foldl f s) := by
  induction l generalizing s with
  | nil => exact h
  | cons a l ih => exact ih (hf s a h)

/-! ## Sets and reasons -/

theorem has_or_single (set : ChannelSet) (i k : Nat) (hi : i < 24) :
    has (set ||| BitVec.ofNat 24 (2 ^ i)) k = true ↔ has set k = true ∨ k = i := by
  unfold has
  rw [BitVec.getLsbD_or, BitVec.getLsbD_ofNat, Nat.testBit_two_pow]
  simp
  constructor
  · rintro (h | ⟨h1, h2⟩)
    · exact .inl h
    · exact .inr h2.symm
  · rintro (h | rfl)
    · exact .inl h
    · exact .inr ⟨hi, rfl⟩

/-- Raising a reason, whether it was pending or not (R125). -/
theorem raise_eq (a : Attention) (r : Reason) :
    a.raise r =
      { a with
        reasons := a.reasons ||| r.set
        holdOff := if has a.reasons r.bit = true ∨ has a.mask r.bit = true then a.holdOff
          else none } := by
  unfold Attention.raise
  by_cases h : has a.reasons r.bit = true
  · rw [if_pos h]
    have : a.reasons ||| r.set = a.reasons := by
      apply BitVec.eq_of_getLsbD_eq
      intro i hi
      rw [BitVec.getLsbD_or]
      by_cases hb : r.set.getLsbD i = true
      · have : i = r.bit := by
          cases r <;> simp only [Reason.set, Reason.bit] at hb ⊢ <;>
            (revert hb; interval_cases i <;> decide)
        subst this
        unfold has at h; rw [h]; rfl
      · simp only [Bool.not_eq_true] at hb; rw [hb]; simp
    rw [this, if_pos (.inl h)]
  · rw [if_neg h]
    by_cases hm : has a.mask r.bit = true
    · rw [if_pos hm, if_pos (.inr hm)]
    · rw [if_neg hm, if_neg (by simp [h, hm])]

theorem atOutcome_notGood (a : Attention) : a.atOutcome false = { a with claim := false } := by
  obtain ⟨r, m, h, c⟩ := a
  cases c <;> rfl

/-- The end of a frame that is not GOOD. -/
theorem frameEnds_notGood (s : State) (o : FrameOutcome) (ho : o ≠ .good) :
    s.frameEnds o =
      { s with
        si := clearIntake
        me := emptyExecutor
        al := { s.al with claim := false }
        lpu := { s.lpu with
          tracker := .idle, stallTimer := false, counters := s.lpu.counters.countOutcome o } } := by
  unfold State.frameEnds
  simp only [ho, decide_false, Bool.false_eq_true, if_false]
  simp [State.setLpu, State.setAl, State.setMe, State.setSi, atOutcome_notGood]

/-! ## Channels -/

theorem latch_eq (c : PwmChannel) (n : Nat) :
    c.latch n =
      if c.block = .blocked then { block := .blocked, onCount := 0, endDue := false }
      else { block := .driving, onCount := n, endDue := decide (0 < n) } := by
  unfold PwmChannel.latch; cases c.block <;> rfl

theorem latch_block (c : PwmChannel) (n : Nat) :
    ((c.latch n).block = .blocked ↔ c.block = .blocked) ∧
      ((c.latch n).block ≠ .driving → (c.latch n).onCount = 0 ∧ (c.latch n).endDue = false) := by
  unfold PwmChannel.latch
  cases c.block <;> simp [blockedChannel]

theorem reblock_channel (s : State) (i : Nat) (hi : i < 24) :
    s.reblock.channel i = (s.channel i).reblock (s.blockCause i) := by
  simp [State.reblock, State.channel, perChannel, State.setPwu, hi]

/-- Block causes taken anew in mode m (R110, R111). -/
theorem reblock_eq (s : State) (m : Mode) (h : s.mc.mode = m) :
    s.reblock =
      { s with
        pwu := { s.pwu with
          channels := (List.range 24).map fun i =>
            if has s.fm.shortLatch i = true ∨ m ≠ .run then
              { block := .blocked, onCount := 0, endDue := false }
            else if (s.channel i).block = .blocked then
              { block := .resuming, onCount := 0, endDue := false }
            else s.channel i } } := by
  unfold State.reblock State.setPwu perChannel
  have : (fun i => (s.channel i).reblock (s.blockCause i)) = fun i =>
      if has s.fm.shortLatch i = true ∨ m ≠ .run then
        { block := .blocked, onCount := 0, endDue := false }
      else if (s.channel i).block = .blocked then
        { block := .resuming, onCount := 0, endDue := false }
      else s.channel i := by
    funext i
    unfold State.blockCause PwmChannel.reblock
    rw [h]
    by_cases h1 : has s.fm.shortLatch i = true
    · simp [h1, blockedChannel]
    · by_cases h2 : m = .run
      · simp only [h1, h2]
        simp
        cases hb : (s.channel i).block <;> simp
      · simp [h1, h2, blockedChannel]
  rw [this]

theorem beginPeriod_channel (s : State) (p : Fin 8) (i : Nat) (hi : i < 24) :
    (s.beginPeriod p).channel i =
      (s.channel i).latch
        (onCountOf (s.os.duty.getD i 0) s.node.periodCode s.node.dither p.val) := by
  simp [State.beginPeriod, State.channel, perChannel, State.setPwu, hi]

/-! ## Modes -/

theorem quietReview_eq (s : State) :
    s.quietReview = { s with mc := { s.mc with quietTimer := s.quietTimerNow } } := by
  unfold State.quietReview State.quietTimerNow
  split
  · cases h : s.mc.quietTimer with
    | none => rfl
    | some n => simp only [Option.getD_some]; rw [← h]
  · rfl

theorem rotationFallsDue_keeps (m : Monitor) :
    m.rotationFallsDue.ceiling = m.ceiling ∧ m.rotationFallsDue.thermal = m.thermal := by
  unfold Monitor.rotationFallsDue; split <;> exact ⟨rfl, rfl⟩

theorem leaveQuiet_eq (s : State) :
    s.leaveQuiet =
      { s with
        pwu := { s.pwu with drivers := .powering }
        mon := if s.mon.rotationDue (rotationInterval s.mc.mode) then s.mon.rotationFallsDue
          else s.mon } := by
  unfold State.leaveQuiet
  dsimp only
  split <;> rename_i h
  · have h' : s.mon.rotationDue (rotationInterval s.mc.mode) = true := h
    rw [if_pos h']; rfl
  · have h' : ¬ s.mon.rotationDue (rotationInterval s.mc.mode) = true := h
    rw [if_neg h']; rfl

theorem leaveQuiet_mon (s : State) :
    s.leaveQuiet.mon.ceiling = s.mon.ceiling ∧ s.leaveQuiet.mon.thermal = s.mon.thermal := by
  rw [leaveQuiet_eq]
  dsimp only
  split
  · exact rotationFallsDue_keeps _
  · exact ⟨rfl, rfl⟩

/-- A mode entered from a mode other than QUIET. -/
theorem enterMode_notQuiet (s : State) (m : Mode) (hq : s.mc.mode ≠ .quiet) :
    s.enterMode m = (s.setMc { s.mc with mode := m }).reblock.quietReview := by
  unfold State.enterMode; simp [hq]

/-- The duties are handed on without a change of the ceiling or the thermal state. -/
theorem reshape_mon (s : State) :
    s.reshape.mon.ceiling = s.mon.ceiling ∧ s.reshape.mon.thermal = s.mon.thermal := by
  have q : ∀ s : State, s.quietReview.mon = s.mon := fun s => by rw [quietReview_eq]
  have e : ∀ (s : State) (m : Mode), (s.enterMode m).mon.ceiling = s.mon.ceiling ∧
      (s.enterMode m).mon.thermal = s.mon.thermal := by
    intro s m
    unfold State.enterMode; dsimp only
    rw [q]
    split
    · exact leaveQuiet_mon _
    · exact ⟨rfl, rfl⟩
  unfold State.reshape State.dutiesHandedOn
  split
  · split
    · exact e _ _
    · rw [q]; exact ⟨rfl, rfl⟩
  · exact ⟨rfl, rfl⟩

/-! ## The store -/

theorem markHeadStarted_fields (t : Store) :
    t.markHeadStarted = { t with queue := t.markHeadStarted.queue } := by
  unfold Store.markHeadStarted; split <;> rfl

theorem startWork_fields (s : State) (w : StoreWork) :
    s.startWork w = { s with stc := (s.startWork w).stc } := by
  unfold State.startWork; split
  · rfl
  · dsimp only; split <;> rfl

theorem startHead_fields (s : State) : s.startHead = { s with stc := s.startHead.stc } := by
  unfold State.startHead; split
  · exact startWork_fields _ _
  · rfl

theorem endEntry_fields (s : State) :
    s.endEntry = { s with stc := s.endEntry.stc, me := s.endEntry.me } := by
  unfold State.endEntry; split
  · rfl
  · dsimp only; split <;> rw [startHead_fields] <;> rfl

theorem cutOffStore_fields (s : State) :
    s.cutOffStore = { s with stc := s.cutOffStore.stc, freeCount := s.cutOffStore.freeCount } := by
  unfold State.cutOffStore; dsimp only; split <;> rfl

/-! ## START -/

theorem loadStore_keeps (s : State) :
    s.loadStore.mc = s.mc ∧ s.loadStore.lpu = s.lpu ∧ s.loadStore.mon = s.mon ∧
      s.loadStore.pins = s.pins := by
  unfold State.loadStore State.retargetPark; dsimp only
  refine ⟨?_, ?_, ?_, ?_⟩
  · exact foldl_keeps _ State.mc (by intro s a; split <;> rfl) _ _
  · exact foldl_keeps _ State.lpu (by intro s a; split <;> rfl) _ _
  · exact foldl_keeps _ State.mon (by intro s a; split <;> rfl) _ _
  · exact foldl_keeps _ State.pins (by intro s a; split <;> rfl) _ _

/-- The blocks that begin at the end of START, before MC enters its mode (R135). -/
def State.blocksBegun (s : State) : State :=
  let s := s.setFe { s.fe with timebase := true }
  let s := s.setMon { s.mon with sinceStart := some 0 }
  let s := s.setSs { s.ss with lossTimer := LossTimer.started s.node.lossTimeout }
  let s := s.raise .start
  if s.stc.loadFaults = 0 then s else s.raise .store

theorem completeStart_eq (s : State) :
    s.completeStart =
      (((s.blocksBegun.setMc { s.blocksBegun.mc with returnMode := .run }).shapeAll.enterMode
        (if s.blocksBegun.mon.thermal = .hot then .hot else .run)).counterStart) := rfl

theorem blocksBegun_keeps (s : State) :
    s.blocksBegun.mc = s.mc ∧ s.blocksBegun.pwu = s.pwu ∧ s.blocksBegun.fm = s.fm ∧
      s.blocksBegun.fe.contexts = s.fe.contexts ∧ s.blocksBegun.ss.source = s.ss.source ∧
      s.blocksBegun.mon.ceiling = s.mon.ceiling ∧ s.blocksBegun.mon.thermal = s.mon.thermal := by
  unfold State.blocksBegun; dsimp only; split <;> exact ⟨rfl, rfl, rfl, rfl, rfl, rfl, rfl⟩

/-! ## The Fault Monitor -/

theorem evaluateOpen_eq (s : State) (c : Nat) (b : Bool) :
    let now := latchesNow (has s.fm.openLatch c) b (s.fm.openCount.getD c 0)
      (confirmCount s.node.confirmCode)
    s.evaluateOpen c b =
      { s with
        fm := { s.fm with
          openCount :=
            s.fm.openCount.set c (countAfter (has s.fm.openLatch c) b (s.fm.openCount.getD c 0))
          openLatch :=
            if now then s.fm.openLatch ||| BitVec.ofNat 24 (2 ^ c) else s.fm.openLatch }
        al := if now && !has s.fm.openMask c then s.al.raise .fault else s.al } := by
  intro now
  unfold State.evaluateOpen; dsimp only
  show (if (now && !has s.fm.openMask c) = true then _ else _) = _
  split <;> rename_i h <;> simp [State.setFm, State.raise, State.setAl, h, now]

theorem evaluateShort_eq (s : State) (c : Nat) (b : Bool) :
    let now := latchesNow (has s.fm.shortLatch c) b (s.fm.shortCount.getD c 0)
      (confirmCount s.node.confirmCode)
    let t : State :=
      { s with
        fm := { s.fm with
          shortCount :=
            s.fm.shortCount.set c (countAfter (has s.fm.shortLatch c) b (s.fm.shortCount.getD c 0))
          shortLatch :=
            if now then s.fm.shortLatch ||| BitVec.ofNat 24 (2 ^ c) else s.fm.shortLatch } }
    s.evaluateShort c b =
      { t with
        pwu := if now then t.reblock.pwu else s.pwu
        al := if now && !has s.fm.shortMask c then s.al.raise .fault else s.al } := by
  intro now t
  unfold State.evaluateShort; dsimp only
  cases hn : latchesNow (has s.fm.shortLatch c) b (s.fm.shortCount.getD c 0)
      (confirmCount s.node.confirmCode) <;>
    cases hm : has s.fm.shortMask c <;> simp [hn, hm, now, t, State.setFm, State.raise, State.setAl,
      State.reblock, State.setPwu]

end Sys2Proof.Machine
end

