-- ==== Sys2Proof/Laws/Duties.lean ====
section
/-! SUPPORT. Every shared operation keeps every duty16 the one that its inputs give (`DutiesCurrent`). -/

namespace Sys2Proof.Machine

/-- The inputs of the Shaper are the same (R88, R100). -/
structure SameInputs (s t : State) : Prop where
  tables : t.os.tables = s.os.tables
  forces : t.os.forces = s.os.forces
  ctx : t.fe.contexts = s.fe.contexts
  pt : t.pt = s.pt
  nc : t.node.ceiling = s.node.ceiling
  mc : t.mon.ceiling = s.mon.ceiling

theorem SameInputs.duty {s t : State} (h : SameInputs s t) (i : Nat) :
    t.computedDuty i = s.computedDuty i := by
  unfold State.computedDuty State.shapedDuty State.masterLevel State.effectiveCeiling State.context State.entry State.group
  dsimp only
  rw [h.tables, h.forces, h.ctx, h.pt, h.nc, h.mc]

/-- Inputs and duties are the same, and no operating mode is entered. -/
structure SameDuties (s t : State) : Prop extends SameInputs s t where
  d : t.os.duty = s.os.duty
  m : t.mc.mode.operating = true → s.mc.mode.operating = true

theorem dutiesCurrent_sameDuties {s t : State} (h : DutiesCurrent s) (e : SameDuties s t) :
    DutiesCurrent t := by
  intro hm
  rw [e.d, h (e.m hm)]
  unfold perChannel
  congr 1
  funext i
  exact (e.toSameInputs.duty i).symm

theorem sameDuties_refl (s : State) : SameDuties s s := ⟨⟨rfl, rfl, rfl, rfl, rfl, rfl⟩, rfl, id⟩

theorem SameDuties.trans {a b c : State} (h : SameDuties a b) (k : SameDuties b c) :
    SameDuties a c :=
  ⟨⟨k.tables.trans h.tables, k.forces.trans h.forces, k.ctx.trans h.ctx, k.pt.trans h.pt, k.nc.trans h.nc, k.mc.trans h.mc⟩, k.d.trans h.d, fun x => h.m (k.m x)⟩

theorem dutiesCurrent_notOperating {s : State} (h : s.mc.mode.operating = false) :
    DutiesCurrent s := by
  intro hm; rw [h] at hm; cases hm

theorem sameDuties_quietReview (s : State) : SameDuties s s.quietReview := by
  unfold State.quietReview; split
  · split
    · exact ⟨⟨rfl, rfl, rfl, rfl, rfl, rfl⟩, rfl, id⟩
    · exact ⟨⟨rfl, rfl, rfl, rfl, rfl, rfl⟩, rfl, id⟩
  · exact ⟨⟨rfl, rfl, rfl, rfl, rfl, rfl⟩, rfl, id⟩

theorem sameDuties_leaveQuiet (s : State) : SameDuties s s.leaveQuiet := by
  unfold State.leaveQuiet; dsimp only; split
  · exact ⟨⟨rfl, rfl, rfl, rfl, rfl, (rotationFallsDue_keeps _).1⟩, rfl, id⟩
  · exact ⟨⟨rfl, rfl, rfl, rfl, rfl, rfl⟩, rfl, id⟩

/-- A mode entered from an operating one. -/
theorem sameDuties_enterMode (s : State) (m) (h : s.mc.mode.operating = true) : SameDuties s
    (s.enterMode m) := by
  unfold State.enterMode; dsimp only
  have h1 : SameDuties s (s.setMc { s.mc with mode := m }) := ⟨⟨rfl, rfl, rfl, rfl, rfl, rfl⟩, rfl, fun _ => h⟩
  have hr : ∀ x : State, SameDuties x x.reblock := fun x => ⟨⟨rfl, rfl, rfl, rfl, rfl, rfl⟩, rfl, id⟩
  split
  · exact ((h1.trans (sameDuties_leaveQuiet _)).trans (hr _)).trans (sameDuties_quietReview _)
  · exact (h1.trans (hr _)).trans (sameDuties_quietReview _)

theorem dutiesCurrent_enterMode {s : State} (h : DutiesCurrent s) (ho : s.mc.mode.operating = true)
    (m) : DutiesCurrent (s.enterMode m) := dutiesCurrent_sameDuties h (sameDuties_enterMode s m ho)

theorem shapeAll_current (s : State) : s.shapeAll.os.duty = perChannel s.shapeAll.computedDuty := by
  show perChannel s.computedDuty = _
  unfold perChannel; refine congrArg (fun f => List.map f _) ?_; funext i
  exact ((SameInputs.duty (s := s) (t := s.shapeAll) ⟨rfl, rfl, rfl, rfl, rfl, rfl⟩ i)).symm

theorem dutiesCurrent_reshape (s : State) : DutiesCurrent s.reshape := by
  unfold State.reshape
  split
  · rename_i ho
    have h1 : DutiesCurrent s.shapeAll := fun _ => shapeAll_current s
    unfold State.dutiesHandedOn; split
    · exact dutiesCurrent_enterMode h1 ho _
    · exact dutiesCurrent_sameDuties h1 (sameDuties_quietReview _)
  · rename_i ho; exact dutiesCurrent_notOperating (by simpa using ho)

theorem dutiesCurrent_nodeReset (s : State) : DutiesCurrent s.nodeReset :=
    dutiesCurrent_notOperating rfl

theorem dutiesCurrent_leaveReset {s : State} (h : DutiesCurrent s) : DutiesCurrent s.leaveReset :=
    by
  unfold State.leaveReset; split
  · apply dutiesCurrent_notOperating
    unfold State.enterStart; dsimp only
    rw [State.setMon_mc, (loadStore_keeps _).1]; rfl
  · exact h

theorem dutiesCurrent_resetNode (s : State) : DutiesCurrent s.resetNode := dutiesCurrent_leaveReset
    (dutiesCurrent_nodeReset s)

theorem dutiesCurrent_counterStart {s : State} (h : DutiesCurrent s) :
    DutiesCurrent s.counterStart :=
  dutiesCurrent_sameDuties h ⟨⟨rfl, rfl, rfl, rfl, rfl, rfl⟩, rfl, id⟩

theorem dutiesCurrent_completeStart (s : State) (hm : s.mc.mode = .start) :
    DutiesCurrent s.completeStart := by
  unfold State.completeStart; dsimp only
  apply dutiesCurrent_counterStart
  have key : ∀ (x : State) m, x.mc.mode = .start → DutiesCurrent (x.shapeAll.enterMode m) := by
    intro x m hx
    have : x.shapeAll.enterMode m = (x.shapeAll.setMc { x.shapeAll.mc with mode := m }).reblock.quietReview := by
      unfold State.enterMode
      have : x.shapeAll.mc.mode ≠ .quiet := by show x.mc.mode ≠ _; rw [hx]; simp
      simp [this]
    rw [this]
    refine dutiesCurrent_sameDuties ?_ (sameDuties_quietReview _)
    intro _
    show x.shapeAll.os.duty = _
    rw [shapeAll_current]
    unfold perChannel; refine congrArg (fun f => List.map f _) ?_; funext i
    exact (SameInputs.duty (s := x.shapeAll) ⟨rfl, rfl, rfl, rfl, rfl, rfl⟩ i).symm
  by_cases hl : s.stc.loadFaults = 0
  · rw [if_pos (by exact hl)]
    apply key; exact hm
  · rw [if_neg (by exact hl)]
    apply key; exact hm

theorem sameDuties_apply (s : State) (e : Staged) (he : e.shapes = false) : SameDuties s (s.apply e)
    := by
  have triv : ∀ {t : State}, t.os = s.os → t.fe = s.fe → t.pt = s.pt → t.node.ceiling = s.node.ceiling → t.mon = s.mon → t.mc.mode = s.mc.mode → SameDuties s t := by
    intro t a b c d e f
    exact ⟨⟨by rw [a], by rw [a], by rw [b], c, d, by rw [e]⟩, by rw [a], by rw [f]; exact id⟩
  cases e with
  | linkClear => exact triv rfl rfl rfl rfl rfl rfl
  | writePatch => cases he
  | writeGroup => cases he
  | writeCurve => cases he
  | writeNode w =>
    have hw : w.ceiling = none := by
      cases hc : w.ceiling with
      | none => rfl
      | some x => simp [Staged.shapes, hc] at he
    refine SameDuties.trans (b := (s.setNode (s.node.write w)).setSs { (s.setNode (s.node.write w)).ss with lossTimer := _ }) ?_ (sameDuties_quietReview _)
    refine triv rfl rfl rfl ?_ rfl rfl
    show (s.node.write w).ceiling = _
    unfold NodeSettings.write; rw [hw]; rfl
  | setMasks => exact triv rfl rfl rfl rfl rfl rfl
  | recallScene => cases he
  | capture n f how =>
    unfold State.apply State.commitCapture; dsimp only
    split
    · exact triv rfl rfl rfl rfl rfl rfl
    · split
      · exact triv rfl rfl rfl rfl rfl rfl
      · split <;> exact triv rfl rfl rfl rfl rfl rfl
    · exact triv rfl rfl rfl rfl rfl rfl
    · exact triv rfl rfl rfl rfl rfl rfl
  | saveConfig how =>
    unfold State.apply State.commitSaveConfig
    dsimp only
    split
    · exact triv rfl rfl rfl rfl rfl rfl
    · split
      · exact triv rfl rfl rfl rfl rfl rfl
      · split <;> exact triv rfl rfl rfl rfl rfl rfl
    · exact sameDuties_refl _
    · exact sameDuties_refl _
  | setLock how =>
    unfold State.apply State.commitSetLock
    dsimp only
    split <;> exact triv rfl rfl rfl rfl rfl rfl
  | eraseStore => exact triv rfl rfl rfl rfl rfl rfl
  | force => cases he
  | release => cases he
  | clearFaults => exact triv rfl rfl rfl rfl rfl rfl
  | ack => exact triv rfl rfl rfl rfl rfl rfl
  | standby =>
    unfold State.apply State.commitStandby; dsimp only
    split
    · exact sameDuties_enterMode _ _ (by simp_all [Mode.operating])
    · exact sameDuties_enterMode _ _ (by simp_all [Mode.operating])
    · exact triv rfl rfl rfl rfl rfl rfl
    all_goals exact sameDuties_refl _
  | wake =>
    unfold State.apply State.commitWake; dsimp only
    split
    · exact sameDuties_enterMode _ _ (by simp_all [Mode.operating])
    · exact triv rfl rfl rfl rfl rfl rfl
    all_goals exact sameDuties_refl _
  | restart => exact triv rfl rfl rfl rfl rfl rfl
  | enumerate v => cases v with
    | none => exact sameDuties_refl _
    | some v => exact triv rfl rfl rfl rfl rfl rfl
  | addressById => exact triv rfl rfl rfl rfl rfl rfl

theorem dutiesCurrent_startHead {s : State} (h : DutiesCurrent s) : DutiesCurrent s.startHead := by
  rw [startHead_fields]; exact dutiesCurrent_sameDuties h ⟨⟨rfl, rfl, rfl, rfl, rfl, rfl⟩, rfl, id⟩

theorem dutiesCurrent_startWork {s : State} (h : DutiesCurrent s) (w) : DutiesCurrent
    (s.startWork w) := by
  rw [startWork_fields]; exact dutiesCurrent_sameDuties h ⟨⟨rfl, rfl, rfl, rfl, rfl, rfl⟩, rfl, id⟩

theorem dutiesCurrent_endEntry {s : State} (h : DutiesCurrent s) : DutiesCurrent s.endEntry := by
  rw [endEntry_fields]; exact dutiesCurrent_sameDuties h ⟨⟨rfl, rfl, rfl, rfl, rfl, rfl⟩, rfl, id⟩

theorem dutiesCurrent_commitAll {s : State} (h : DutiesCurrent s) (l) : DutiesCurrent
    (s.commitAll l) := by
  unfold State.commitAll; dsimp only
  have : DutiesCurrent (if l.any Staged.shapes = true then (l.foldl State.apply s).reshape else l.foldl State.apply s) := by
    split
    · exact dutiesCurrent_reshape _
    · rename_i hs
      have hs' : ∀ e ∈ l, e.shapes = false := by
        intro e he
        simp only [Bool.not_eq_true, List.any_eq_false] at hs
        simpa using hs e he
      clear hs
      have : ∀ (l : List Staged) (s : State), (∀ e ∈ l, e.shapes = false) → SameDuties s (l.foldl State.apply s) := by
        intro l; induction l with
        | nil => intro s _; exact sameDuties_refl s
        | cons a l ih =>
          intro s hl
          exact (sameDuties_apply s a (hl a (by simp))).trans (ih _ (fun e he => hl e (by simp [he])))
      exact dutiesCurrent_sameDuties h (this l s hs')
  split
  · exact dutiesCurrent_startHead this
  · exact this

theorem dutiesCurrent_handOver {s : State} (h : DutiesCurrent s) : DutiesCurrent s.handOver := by
  unfold State.handOver; split
  · exact h
  · exact dutiesCurrent_reshape _

theorem dutiesCurrent_frameEnds {s : State} (h : DutiesCurrent s) (o) : DutiesCurrent
    (s.frameEnds o) := by
  unfold State.frameEnds; dsimp only
  have h1 : DutiesCurrent (if decide (o = FrameOutcome.good) = true then s.handOver.commitAll s.me.commits else s) := by
    split
    · exact dutiesCurrent_commitAll (dutiesCurrent_handOver h) _
    · exact h
  exact dutiesCurrent_sameDuties h1 ⟨⟨rfl, rfl, rfl, rfl, rfl, rfl⟩, rfl, id⟩

theorem dutiesCurrent_setLpu {s} (h : DutiesCurrent s) (x) : DutiesCurrent (s.setLpu x) :=
    dutiesCurrent_sameDuties h ⟨⟨rfl, rfl, rfl, rfl, rfl, rfl⟩, rfl, id⟩

theorem dutiesCurrent_endsEarly {s} (h : DutiesCurrent s) (o) : DutiesCurrent (s.endsEarly o) :=
    dutiesCurrent_frameEnds (dutiesCurrent_setLpu h _) _

theorem dutiesCurrent_bodyEnds {s} (h : DutiesCurrent s) (f) : DutiesCurrent (s.bodyEnds f).1 := by
  unfold State.bodyEnds
  split
  · exact h
  · split
    · split
      · exact h
      · exact dutiesCurrent_sameDuties h ⟨⟨rfl, rfl, rfl, rfl, rfl, rfl⟩, rfl, id⟩
    · split
      · split <;> exact h
      · exact h

theorem dutiesCurrent_consume {s} (h : DutiesCurrent s) (f d) : DutiesCurrent (s.consume f d).1 :=
    by
  unfold State.consume
  split
  · exact h
  · split
    · split
      · exact h
      · exact dutiesCurrent_sameDuties h ⟨⟨rfl, rfl, rfl, rfl, rfl, rfl⟩, rfl, id⟩
    · split
      · split
        · exact h
        · exact dutiesCurrent_sameDuties h ⟨⟨rfl, rfl, rfl, rfl, rfl, rfl⟩, rfl, id⟩
      · exact h

theorem dutiesCurrent_takeFrameChar {s} (h : DutiesCurrent s) (f d e full) : DutiesCurrent
    (s.takeFrameChar f d e full) := by
  unfold State.takeFrameChar; dsimp only
  split
  · unfold State.takeHead; dsimp only
    split
    · exact dutiesCurrent_setLpu h _
    · split
      · exact dutiesCurrent_setLpu (dutiesCurrent_endsEarly h _) _
      · split
        · exact dutiesCurrent_setLpu (dutiesCurrent_bodyEnds h _) _
        · exact dutiesCurrent_setLpu h _
  · unfold State.takeBody; dsimp only
    split
    · exact dutiesCurrent_setLpu (dutiesCurrent_bodyEnds (dutiesCurrent_consume h _ _) _) _
    · exact dutiesCurrent_setLpu (dutiesCurrent_consume h _ _) _
  · unfold State.takeTrail
    split
    · unfold State.takeAttention; dsimp only
      split
      · exact dutiesCurrent_sameDuties h ⟨⟨rfl, rfl, rfl, rfl, rfl, rfl⟩, rfl, id⟩
      · exact dutiesCurrent_setLpu h _
    · split
      · exact dutiesCurrent_setLpu h _
      · exact dutiesCurrent_frameEnds (dutiesCurrent_setLpu h _) _

theorem dutiesCurrent_takeChar {s} (h : DutiesCurrent s) (c) : DutiesCurrent (s.takeChar c) := by
  unfold State.takeChar; dsimp only
  split
  · unfold State.takeOpener; dsimp only
    have key : ∀ {s : State}, DutiesCurrent s → ∀ b k e f, DutiesCurrent ((s.setBuffer b).startFrame k e f) := fun h b k e f =>
      dutiesCurrent_sameDuties h ⟨⟨rfl, rfl, rfl, rfl, rfl, rfl⟩, rfl, id⟩
    refine key ?_ _ _ _ _
    split
    · exact dutiesCurrent_endsEarly (dutiesCurrent_setLpu h _) _
    · exact dutiesCurrent_setLpu h _
    · exact dutiesCurrent_setLpu h _
  · split
    · exact dutiesCurrent_setLpu h _
    · exact dutiesCurrent_setLpu h _
    · exact dutiesCurrent_takeFrameChar (dutiesCurrent_setLpu h _) _ _ _ _

theorem dutiesCurrent_receive {s} (h : DutiesCurrent s) (c) : DutiesCurrent (s.receive c) := by
  unfold State.receive
  split
  · exact dutiesCurrent_setLpu h _
  · split
    · exact h
    · exact (dutiesCurrent_takeChar h _)

theorem dutiesCurrent_transmit {s} (h : DutiesCurrent s) : DutiesCurrent s.transmit := by
  unfold State.transmit; split
  · split
    · exact dutiesCurrent_setLpu h _
    · exact h
  · exact h

theorem dutiesCurrent_charSent {s} (h : DutiesCurrent s) : DutiesCurrent s.charSent := by
  unfold State.charSent; split
  · exact h
  · unfold State.frameForwarded; split
    · exact dutiesCurrent_resetNode _
    · exact dutiesCurrent_setLpu h _

theorem dutiesCurrent_keepPace {s} (h : DutiesCurrent s) : DutiesCurrent s.keepPace := by
  have : ∀ n {s}, DutiesCurrent s → DutiesCurrent (State.keepPaceN n s) := by
    intro n; induction n with
    | zero => exact fun h => h
    | succ n ih => exact fun h => ih (dutiesCurrent_charSent (dutiesCurrent_transmit h))
  exact this _ (dutiesCurrent_charSent h)

theorem dutiesCurrent_passFrame {s} (h : DutiesCurrent s) (k b t) : DutiesCurrent
    (s.passFrame k b t) := foldl_preserves (P := DutiesCurrent) _
    (fun _ a h => dutiesCurrent_receive (dutiesCurrent_keepPace h) a) _ h

theorem dutiesCurrent_of {s t : State} (h : DutiesCurrent s) (a : t.os = s.os) (b : t.fe = s.fe)
    (c : t.pt = s.pt) (d : t.node.ceiling = s.node.ceiling) (e : t.mon.ceiling = s.mon.ceiling) (f :
    t.mc.mode = s.mc.mode) : DutiesCurrent t :=
  dutiesCurrent_sameDuties h ⟨⟨by rw [a], by rw [a], by rw [b], c, d, e⟩, by rw [a], by rw [f]; exact id⟩

theorem dutiesCurrent_linkReset {s} (h : DutiesCurrent s) : DutiesCurrent s.linkReset := by
  unfold State.linkReset; dsimp only; split
  · exact dutiesCurrent_resetNode _
  · exact dutiesCurrent_of h rfl rfl rfl rfl rfl rfl

theorem dutiesCurrent_longPulse {s} (h : DutiesCurrent s) : DutiesCurrent s.longPulse := by
  unfold State.longPulse; dsimp only; split
  · split
    · exact dutiesCurrent_of h rfl rfl rfl rfl rfl rfl
    · exact dutiesCurrent_resetNode _
  · exact h

theorem dutiesCurrent_releaseRstn {s} (h : DutiesCurrent s) (n) : DutiesCurrent (s.releaseRstn n) :=
    by
  unfold State.releaseRstn; dsimp only; split
  · split
    · exact dutiesCurrent_linkReset (dutiesCurrent_of h rfl rfl rfl rfl rfl rfl)
    · exact (dutiesCurrent_of h rfl rfl rfl rfl rfl rfl)
  · exact dutiesCurrent_leaveReset (dutiesCurrent_of h rfl rfl rfl rfl rfl rfl)

theorem dutiesCurrent_storeFails {s} (h : DutiesCurrent s) (w c) : DutiesCurrent (s.storeFails w c)
    := by
  unfold State.storeFails; dsimp only
  apply dutiesCurrent_endEntry
  unfold State.spoil
  split <;> exact dutiesCurrent_of h rfl rfl rfl rfl rfl rfl

theorem dutiesCurrent_evaluateThermal {s : State} (h : DutiesCurrent s) (t) : DutiesCurrent
    (s.evaluateThermal t) := by
  unfold State.evaluateThermal; dsimp only
  have h3 := dutiesCurrent_of (t := s.setMon { s.mon with thermal := s.mon.thermal.after s.mon.ceiling t }) h rfl rfl rfl rfl rfl rfl
  generalize (s.setMon { s.mon with thermal := s.mon.thermal.after s.mon.ceiling t }) = s3 at h3
  have h4 : ∀ b : Bool, DutiesCurrent (if b = true then s3.raise .thermal else s3) := by
    intro b; split
    · exact dutiesCurrent_of h3 rfl rfl rfl rfl rfl rfl
    · exact h3
  have hreq : ∀ {s : State}, DutiesCurrent s → DutiesCurrent s.requestHot := by
    intro s h
    unfold State.requestHot
    split
    · rename_i e; refine dutiesCurrent_enterMode ?_ (by show s.mc.mode.operating = true; rw [e]; rfl) _; exact dutiesCurrent_of h rfl rfl rfl rfl rfl rfl
    · rename_i e; refine dutiesCurrent_enterMode ?_ (by show s.mc.mode.operating = true; rw [e]; rfl) _; exact dutiesCurrent_of h rfl rfl rfl rfl rfl rfl
    · rename_i e; refine dutiesCurrent_enterMode ?_ (by show s.mc.mode.operating = true; rw [e]; rfl) _; exact dutiesCurrent_of h rfl rfl rfl rfl rfl rfl
    all_goals exact h
  have hend : ∀ {s : State}, DutiesCurrent s → DutiesCurrent s.endHot := by
    intro s h
    unfold State.endHot
    split
    · rename_i e; exact dutiesCurrent_enterMode h (by rw [e]; rfl) _
    · exact h
  split
  · exact hreq (h4 _)
  · split
    · exact hend (h4 _)
    · exact h4 _

end Sys2Proof.Machine
end

