-- ==== Sys2Proof/Laws/Fades.lean ====
section
/-! SUPPORT. What a run of retargets leaves in the fade contexts, place by place, and that it touches
nothing else. -/

namespace Sys2Proof.Machine

theorem retarget_getElem? (s : State) (i : Nat) (t : Word) (code : Byte) (j : Nat) :
    (s.retarget i t code).fe.contexts[j]? =
      s.fe.contexts[j]?.map fun c => if j = i then c.retarget t code else c := by
  simp only [State.retarget, State.setFe_fe, List.getElem?_set, State.context]
  by_cases hij : i = j
  · subst hij
    by_cases hl : i < s.fe.contexts.length
    · simp [hl]
    · simp [hl]
  · have : ¬ j = i := fun e => hij e.symm
    simp [hij, this]

/-- A retarget changes the contexts alone. -/
theorem retarget_only (s : State) (i : Nat) (t : Word) (code : Byte) :
    s.retarget i t code = { s with fe := { s.fe with
      contexts := (s.retarget i t code).fe.contexts } } := rfl

variable {α : Type} (place : α → Nat) (value : α → Word) (code : α → Byte)

/-- A run of retargets, one for each element of a list. -/
def State.retargetEach (s : State) (l : List α) : State :=
  l.foldl (fun s a => s.retarget (place a) (value a) (code a)) s

theorem retargetEach_only (l : List α) (s : State) :
    s.retargetEach place value code l = { s with fe := { s.fe with
      contexts := (s.retargetEach place value code l).fe.contexts } } := by
  induction l generalizing s with
  | nil => rfl
  | cons a l ih =>
    change (s.retarget _ _ _).retargetEach place value code l = _
    rw [ih]
    rfl

theorem retargetEach_getElem? (l : List α) (hd : (l.map place).Nodup) (s : State) (j : Nat) :
    (s.retargetEach place value code l).fe.contexts[j]? =
      s.fe.contexts[j]?.map fun c =>
        match l.find? (fun a => decide (place a = j)) with
        | none => c
        | some a => c.retarget (value a) (code a) := by
  induction l generalizing s with
  | nil => simp [State.retargetEach]
  | cons a l ih =>
    change ((s.retarget _ _ _).retargetEach place value code l).fe.contexts[j]? = _
    simp only [List.map_cons, List.nodup_cons] at hd
    rw [ih hd.2, retarget_getElem?, Option.map_map]
    congr 1
    funext c
    simp only [Function.comp_apply]
    by_cases hj : place a = j
    · have hnone : l.find? (fun a => decide (place a = j)) = none := by
        rw [List.find?_eq_none]
        intro x hx
        simp only [decide_eq_true_eq]
        intro e
        exact hd.1 (List.mem_map.2 ⟨x, hx, e.trans hj.symm⟩)
      simp [hj, hnone]
    · have : ¬ j = place a := fun e => hj e.symm
      simp [hj, this]

/-! ## The runs of the spec -/

theorem retargetAll_eq (s : State) (targets : List Word) (c : Byte) :
    s.retargetAll targets c =
      s.retargetEach (fun i => i) (fun i => targets.getD i 0) (fun _ => c) (List.range 28) := rfl

theorem retargetItems_eq (s : State) (items : List Item) :
    s.retargetItems items = s.retargetEach Item.place Item.value Item.code items := rfl

/-- The PARK channels with their level bytes. -/
def State.parks (s : State) : List (Nat × Byte) :=
  (List.range 24).filterMap fun i =>
    match (s.entry i).source with
    | .park b => some (i, b)
    | .slot _ => none

theorem retargetPark_eq (s : State) (c : Byte) :
    s.retargetPark c =
      s.retargetEach Prod.fst (fun x => parkLevel x.2) (fun _ => c) s.parks := by
  have key : ∀ (l : List Nat) (t : State), t.pt = s.pt →
      l.foldl (fun s i => match (s.entry i).source with
        | .park b => s.retarget i (parkLevel b) c
        | .slot _ => s) t =
      t.retargetEach Prod.fst (fun x => parkLevel x.2) (fun _ => c)
        (l.filterMap fun i => match (s.entry i).source with
          | .park b => some (i, b)
          | .slot _ => none) := by
    intro l
    induction l with
    | nil => intro t _; rfl
    | cons i l ih =>
      intro t ht
      have he : t.entry i = s.entry i := by unfold State.entry; rw [ht]
      rw [List.foldl_cons, he, List.filterMap_cons]
      cases hs : (s.entry i).source with
      | slot o => exact ih t ht
      | park b => exact ih (t.retarget i (parkLevel b) c) ht
  exact key _ s rfl

theorem parks_nodup (s : State) : (s.parks.map Prod.fst).Nodup := by
  unfold State.parks
  have h : ∀ l : List Nat, l.Nodup → ((l.filterMap fun i => match (s.entry i).source with
      | .park b => some (i, b)
      | .slot _ => none).map Prod.fst).Nodup := by
    intro l hl
    have hsub : ((l.filterMap fun i => match (s.entry i).source with
      | .park b => some (i, b)
      | .slot _ => none).map Prod.fst).Sublist l := by
      clear hl
      induction l with
      | nil => simp
      | cons i l ih =>
        rw [List.filterMap_cons]
        cases (s.entry i).source with
        | slot o => exact ih.cons i
        | park b => exact ih.cons_cons i
    exact hsub.nodup hl
  exact h _ List.nodup_range

theorem parks_find (s : State) (j : Nat) :
    s.parks.find? (fun x => decide (x.1 = j)) =
      if j < 24 then
        match (s.entry j).source with
        | .park b => some (j, b)
        | .slot _ => none
      else none := by
  unfold State.parks
  have h : ∀ l : List Nat, (l.filterMap fun i => match (s.entry i).source with
      | .park b => some (i, b)
      | .slot _ => none).find? (fun x => decide (x.1 = j)) =
      if j ∈ l then
        match (s.entry j).source with
        | .park b => some (j, b)
        | .slot _ => none
      else none := by
    intro l
    induction l with
    | nil => simp
    | cons i l ih =>
      rw [List.filterMap_cons]
      by_cases hij : i = j
      · subst hij
        cases hs : (s.entry i).source with
        | slot o =>
          simp only [hs, ih]
          simp
        | park b => simp
      · have hji : ¬ j = i := fun e => hij e.symm
        cases hs : (s.entry i).source with
        | slot o => simp only [ih, List.mem_cons, hji, false_or]
        | park b => simp only [List.find?_cons, hij, decide_false, ih, List.mem_cons, hji, false_or]
  rw [h]
  simp

/-- A WRITE_PATCH commit: the entries from the first on, and the PARK retargets, each once. -/
theorem commitWritePatch_eq (es : List PatchEntry) (s : State) (first : Nat) :
    s.commitWritePatch first es =
      { s with
        pt := { s.pt with entries := (s.commitWritePatch first es).pt.entries }
        fe := { s.fe with contexts := (s.commitWritePatch first es).fe.contexts } } := by
  induction es generalizing s first with
  | nil => rfl
  | cons e es ih =>
    unfold State.commitWritePatch
    rw [ih]
    unfold State.replaceEntry
    cases e.source <;> rfl

theorem commitWritePatch_entries (es : List PatchEntry) (s : State) (first j : Nat) :
    (s.commitWritePatch first es).pt.entries[j]? =
      s.pt.entries[j]?.map fun old => ((if first ≤ j then es[j - first]? else none).getD old) := by
  induction es generalizing s first with
  | nil => simp [State.commitWritePatch]
  | cons e es ih =>
    unfold State.commitWritePatch
    rw [ih]
    have h1 : (s.replaceEntry first e).pt.entries = s.pt.entries.set first e := by
      unfold State.replaceEntry
      cases e.source <;> rfl
    rw [h1, List.getElem?_set]
    by_cases hj : first = j
    · subst hj
      by_cases hl : first < s.pt.entries.length
      · simp [hl]
      · simp [hl]
    · simp only [hj, if_false]
      congr 1
      funext old
      by_cases hle : first ≤ j
      · have h2 : first + 1 ≤ j := by omega
        have h3 : j - first = (j - (first + 1)) + 1 := by omega
        simp [hle, h2, h3]
      · have h2 : ¬ first + 1 ≤ j := by omega
        simp [hle, h2]

theorem commitWritePatch_contexts (es : List PatchEntry) (s : State) (first j : Nat) :
    (s.commitWritePatch first es).fe.contexts[j]? =
      s.fe.contexts[j]?.map fun c =>
        match (if first ≤ j then es[j - first]? else none) with
        | none => c
        | some e =>
          match e.source with
          | .slot _ => c
          | .park b => c.retarget (parkLevel b) e.fade.commitCode := by
  induction es generalizing s first with
  | nil => simp [State.commitWritePatch]
  | cons e es ih =>
    unfold State.commitWritePatch
    rw [ih]
    have h1 : (s.replaceEntry first e).fe.contexts[j]? =
        s.fe.contexts[j]?.map fun c =>
          match e.source with
          | .slot _ => c
          | .park b => if j = first then c.retarget (parkLevel b) e.fade.commitCode else c := by
      unfold State.replaceEntry
      cases e.source with
      | slot o => simp
      | park b => exact retarget_getElem? (s.setPt _) first (parkLevel b) e.fade.commitCode j
    rw [h1, Option.map_map]
    congr 1
    funext c
    simp only [Function.comp_apply]
    by_cases hj : j = first
    · subst hj
      simp only [if_true, Nat.le_refl, Nat.sub_self, List.getElem?_cons_zero]
      have h2 : ¬ j + 1 ≤ j := by omega
      simp only [h2, if_false]
    · simp only [hj, if_false]
      have hid : (match e.source with | .slot _ => c | .park _ => c) = c := by cases e.source <;> rfl
      rw [hid]
      by_cases hle : first ≤ j
      · have h2 : first + 1 ≤ j := by omega
        have h3 : j - first = (j - (first + 1)) + 1 := by omega
        simp [hle, h2, h3]
      · have h2 : ¬ first + 1 ≤ j := by omega
        simp [hle, h2]

theorem replacePoints_getElem? (ps : List Word) (table : List Word) (first j : Nat) :
    (replacePoints table first ps)[j]? =
      table[j]?.map fun old => ((if first ≤ j then ps[j - first]? else none).getD old) := by
  induction ps generalizing table first with
  | nil => simp [replacePoints]
  | cons p ps ih =>
    unfold replacePoints
    rw [ih, List.getElem?_set]
    by_cases hj : first = j
    · subst hj
      by_cases hl : first < table.length
      · simp [hl]
      · simp [hl]
    · simp only [hj, if_false]
      congr 1
      funext old
      by_cases hle : first ≤ j
      · have h2 : first + 1 ≤ j := by omega
        have h3 : j - first = (j - (first + 1)) + 1 := by omega
        simp [hle, h2, h3]
      · have h2 : ¬ first + 1 ≤ j := by omega
        simp [hle, h2]

end Sys2Proof.Machine
end

