-- ==== Sys2Proof/Laws/Format.lean ====
section
/-! SUPPORT. Level frames whose count disagrees with their length, and frames over the length limit, on
a link at rest. -/

namespace Sys2Proof.Machine

/-! ## A format fault -/

theorem pace_body_marked {s : State} (hb : s.lpu.bypass = false) (kind : Byte)
    (n : Nat) (a : Fin 251) (rcv sent : List Byte) (q : Place) (si me al) (d : Byte)
    (hr : rcv ≠ []) (hs : sent ≠ []) (hq : Held q) :
    pace (mid true s kind n a .body rcv sent q si me al) (freshChar d false) =
      mid true s kind n a (if rcv.length = n + 2 then .trail else .body) (rcv ++ [d])
        (sent ++ [q.sent]) (Place.of d false false true none) si me al := by
  have hl : rcv.length - 1 + 1 = rcv.length := by
    have := List.length_pos_iff.mpr hr; omega
  rw [mid, pace_inFlight s hb]
  simp only [State.takeFrameChar, cleanCtx, State.takeBody, State.consume, ↓reduceIte, hl]
  by_cases he : rcv.length = n + 2
  · simp only [he, ↓reduceIte, State.bodyEnds]
    apply keepPace_hold_mid (hs := hs) (hq := hq) <;> simp [Place.of, cleanCtx, he, crc16_append]
  · simp only [he, ↓reduceIte]
    apply keepPace_hold_mid (hs := hs) (hq := hq) <;> simp [Place.of, cleanCtx, crc16_append]

theorem pace_body_fault {s : State} (hb : s.lpu.bypass = false)
    (n : Nat) (a : Fin 251) (rcv sent : List Byte) (q : Place) (si : SlotIntake) (me al) (d : Byte)
    (hr : rcv ≠ []) (hs : sent ≠ []) (hq : Held q) (t : Intake) (ht : si.intake = some t)
    (si' : SlotIntake) (hk : si.takeByte t (rcv.length - 2) n d = (si', true)) :
    pace (mid false s levelKind n a .body rcv sent q si me al) (freshChar d false) =
      mid true s levelKind n a (if rcv.length = n + 2 then .trail else .body) (rcv ++ [d])
        (sent ++ [q.sent]) (Place.of d false false true none) si' me al := by
  have hl : rcv.length - 1 + 1 = rcv.length := by
    have := List.length_pos_iff.mpr hr; omega
  have hsi : ∀ out q f si, (inFlight s out q f si me al).si = si := fun _ _ _ _ => rfl
  have hset : ∀ out q f si x, (inFlight s out q f si me al).setSi x = inFlight s out q f x me al :=
    fun _ _ _ _ _ => rfl
  rw [mid, pace_inFlight s hb]
  simp only [State.takeFrameChar, cleanCtx, State.takeBody, State.consume, ↓reduceIte,
    Bool.false_eq_true, hl, hsi, ht, hk, hset]
  by_cases hn' : rcv.length = n + 2
  · simp only [hn', ↓reduceIte, State.bodyEnds]
    apply keepPace_hold_mid (hs := hs) (hq := hq) <;> simp [Place.of, cleanCtx, hn', crc16_append]
  · simp only [hn', ↓reduceIte]
    apply keepPace_hold_mid (hs := hs) (hq := hq) <;> simp [Place.of, cleanCtx, crc16_append]

theorem foldl_pace_marked {s : State} (hb : s.lpu.bypass = false) (kind : Byte)
    (n : Nat) (a : Fin 251) (si me al) (bs : List Byte) :
    ∀ (rcv sent : List Byte) (q : Place), rcv ≠ [] → sent ≠ [] → Held q →
      rcv.length + bs.length = n + 3 →
      ∃ q' sent', Held q' ∧ sent' ≠ [] ∧ sent' ++ [q'.sent] = sent ++ [q.sent] ++ bs ∧
        (dataChars bs).foldl pace
            (mid true s kind n a (if bs = [] then .trail else .body) rcv sent q si me al) =
          mid true s kind n a .trail (rcv ++ bs) sent' q' si me al := by
  induction bs with
  | nil => intro rcv sent q _ hs hq _; exact ⟨q, sent, hq, hs, by simp, by simp [dataChars]⟩
  | cons b bs ih =>
    intro rcv sent q hr hs hq hl
    have hph : (if rcv.length = n + 2 then Phase.trail else .body) =
        if bs = [] then .trail else .body := by
      simp only [List.length_cons] at hl
      by_cases hbs : bs = []
      · subst hbs; simp only [List.length_nil] at hl; rw [if_pos (by omega), if_pos rfl]
      · have := List.length_pos_iff.mpr hbs
        rw [if_neg (by omega), if_neg hbs]
    obtain ⟨q', sent', hq', hs', he, hf⟩ := ih (rcv ++ [b]) (sent ++ [q.sent])
      (Place.of b false false true none) (by simp) (by simp) (held_of _ _)
      (by simp only [List.length_append, List.length_cons, List.length_nil] at hl ⊢; omega)
    refine ⟨q', sent', hq', hs', ?_, ?_⟩
    · rw [he]; simp [Place.of, Place.sent]
    · simp only [dataChars, List.map_cons, List.foldl_cons, reduceCtorEq, ↓reduceIte] at hf ⊢
      rw [pace_body_marked hb kind n a rcv sent q si me al b hr hs hq, hph, hf]
      simp

/-- The body of an inconsistent level frame: the format mark is set, and the bytes go on as they came. -/
theorem bodyPassed_inconsistent {s : State} (h : LinkRest s) (flags fade : Byte) (count : Word)
    (slots : List Byte) (hc : levelBodyConsistent flags count slots = false) :
    ∃ si, BodyPassed true s levelKind (flags :: fade :: wordBytes count ++ slots)
        (flags :: fade :: wordBytes count ++ slots) si (startExecutor levelKind) := by
  have hlen : (flags :: fade :: wordBytes count ++ slots).length = 4 + slots.length := by
    simp [wordBytes]; omega
  generalize hn : (flags :: fade :: wordBytes count ++ slots).length = n at *
  have hb := h.bypass
  have h0 : InLevel s n .body [levelKind, hiByte (natWord n), loByte (natWord n)]
      { places := List.replicate 28 none, intake := some s.beginIntake } (s.headed levelKind n) := by
    refine ⟨_, [levelKind, hiByte (natWord n)], held_plain _ false, by simp, rfl, ?_⟩
    rw [State.headed, if_neg (by omega)]
    rfl
  have h1 := h0.step hb (by simp) _ rfl flags
    { places := List.replicate 28 none,
      intake := some { s.beginIntake with
        wide := has flags 0, seize := has flags 1, state := .fade } }
    rfl (by simp only [List.length_cons, List.length_nil]; omega)
  have h2 := h1.step hb (by simp) _ rfl fade
    { places := List.replicate 28 none,
      intake := some { s.beginIntake with
        wide := has flags 0, seize := has flags 1, fade := fade, state := .count } }
    rfl (by simp only [List.length_append, List.length_cons, List.length_nil]; omega)
  have h3 := h2.step hb (by simp) _ rfl (hiByte count)
    { places := List.replicate 28 none,
      intake := some { s.beginIntake with
        wide := has flags 0, seize := has flags 1, fade := fade, state := .count,
        count := (hiByte count).toNat * 256 } }
    rfl (by simp only [List.length_append, List.length_cons, List.length_nil]; omega)
  have hcount : (hiByte count).toNat * 256 + (loByte count).toNat = count.toNat := by
    rw [hiByte_toNat, loByte_toNat]; omega
  have hk4 : SlotIntake.takeByte
      { places := List.replicate 28 none,
        intake := some { s.beginIntake with
          wide := has flags 0, seize := has flags 1, fade := fade, state := .count,
          count := (hiByte count).toNat * 256 } }
      { s.beginIntake with
        wide := has flags 0, seize := has flags 1, fade := fade, state := .count,
        count := (hiByte count).toNat * 256 } 4 n (loByte count) =
      ({ places := List.replicate 28 none,
         intake := some { s.beginIntake with
          wide := has flags 0, seize := has flags 1, fade := fade, state := .stopped,
          count := count.toNat } }, true) := by
    simp only [SlotIntake.takeByte, hcount]
    rw [if_neg (by decide), if_neg]
    rw [hlen]
    simpa [levelBodyConsistent] using hc
  obtain ⟨q, sent, hq, hs, hout, hst⟩ := h3
  have h4 := pace_body_fault hb n s.node.address
    ([levelKind, hiByte (natWord n), loByte (natWord n)] ++ [flags] ++ [fade] ++ [hiByte count])
    sent q _ (startExecutor levelKind) s.al (loByte count) (by simp) hs hq _ rfl
    { places := List.replicate 28 none,
      intake := some { s.beginIntake with
        wide := has flags 0, seize := has flags 1, fade := fade, state := .stopped,
        count := count.toNat } }
    hk4
  obtain ⟨q', sent', hq', hs', he, hf⟩ := foldl_pace_marked hb levelKind n s.node.address
    { places := List.replicate 28 none,
      intake := some { s.beginIntake with
        wide := has flags 0, seize := has flags 1, fade := fade, state := .stopped,
        count := count.toNat } }
    (startExecutor levelKind) s.al slots
    ([levelKind, hiByte (natWord n), loByte (natWord n)] ++ [flags] ++ [fade] ++ [hiByte count] ++
      [loByte count]) (sent ++ [q.sent]) (Place.of (loByte count) false false true none)
    (by simp) (by simp) (held_of _ _)
    (by simp only [List.length_append, List.length_cons, List.length_nil]; omega)
  refine ⟨⟨List.replicate 28 none,
    some { s.beginIntake with
      wide := has flags 0, seize := has flags 1, fade := fade, state := .stopped,
      count := count.toNat }⟩, q', sent', hq', hs', ?_, ?_⟩
  · rw [he, hout, hn]; simp [wordBytes, Place.of, Place.sent]
  · rw [hn]
    have hph : (if slots = [] then Phase.trail else .body) =
        (if ([levelKind, hiByte (natWord n), loByte (natWord n)] ++ [flags] ++ [fade] ++
          [hiByte count]).length = n + 2 then Phase.trail else .body) := by
      cases slots with
      | nil => rw [if_pos rfl, if_pos (by simp at hlen ⊢; omega)]
      | cons x xs =>
        rw [if_neg (by simp), if_neg (by simp only [List.length_append, List.length_cons, List.length_nil] at hlen ⊢; omega)]
    rw [hph, ← h4, ← hst] at hf
    simpa [wordBytes, dataChars] using hf

/-- A level frame whose count disagrees with its length, of a length within the limit (R24): FORMAT. -/
theorem passLevel_inconsistent {s : State} (h : LinkRest s) (flags fade : Byte) (count : Word)
    (slots : List Byte) (tail : FrameTail) (hc : levelBodyConsistent flags count slots = false)
    (hn : slots.length ≤ 1036) :
    s.passFrame levelKind (flags :: fade :: wordBytes count ++ slots) tail =
      s.afterFrame .format levelKind (flags :: fade :: wordBytes count ++ slots)
        (flags :: fade :: wordBytes count ++ slots) tail false s := by
  obtain ⟨si, hb⟩ := bodyPassed_inconsistent h flags fade count slots hc
  obtain ⟨f, hf⟩ := passFrame_of_body true h levelKind _ _ tail
    (by simp [wordBytes]; omega) (Or.inl (by simp)) rfl _ _ hb
  rw [hf]
  exact passed_notGood h _ _ _ _ _ _ _ _ _ rfl (by simp)

/-! ## Frames over the length limit -/

/-- The node in PASS, with one character waiting. -/
def inPass (s : State) (out : List LineChar) (d : Byte) : State :=
  { s with
    lpu := { s.lpu with
      buffer := [Place.of d false true false none]
      tracker := .pass
      stallTimer := false
      counters := { s.lpu.counters with damaged := countUp s.lpu.counters.damaged }
      lout := s.lpu.lout ++ out } }

theorem pass_inPass {s : State} (h : LinkRest s) (out : List LineChar) (x d : Byte) :
    (inPass s out x).pass (freshChar d false) = inPass s (out ++ [freshChar x false]) d := by
  simp [State.pass, State.keepPace, State.keepPaceN, bufferPlaces, State.charSent, State.transmit,
    inPass, h.tx, h.rx, h.bypass, State.receive, State.takeChar, State.takeStray, State.setBuffer,
    State.bufferFull, State.setLpu, State.frameForwarded, Place.of, Place.sent, joinBuffer]

theorem foldl_pass_inPass {s : State} (h : LinkRest s) (bs : List Byte) :
    ∀ (sent : List Byte) (x : Byte), sent ≠ [] →
      (dataChars bs).foldl State.pass (inPass s (frameOut sent) x) =
        inPass s (frameOut ((sent ++ x :: bs).dropLast)) ((sent ++ x :: bs).getLastD 0) := by
  induction bs with
  | nil => intro sent x _; simp [dataChars]
  | cons b bs ih =>
    intro sent x hs
    have := ih (sent ++ [x]) b (by simp)
    simp only [dataChars, List.map_cons, List.foldl_cons] at this ⊢
    rw [pass_inPass h, ← frameOut_append sent hs, this]
    simp

theorem length_of_word {n : Nat} (h : n ≤ 65535) :
    (hiByte (natWord n)).toNat * 256 + (loByte (natWord n)).toNat = n := by
  rw [hiByte_toNat, loByte_toNat, natWord_toNat (by omega)]
  omega

/-- A frame whose length is over 1040 (R10). -/
theorem passFrame_overlong {s : State} (h : LinkRest s) (kind : Byte) (body : List Byte)
    (tail : FrameTail) (hn : 1040 < body.length) (hm : body.length ≤ 65535) :
    s.passFrame kind body tail = s.afterOverlong (kind :: frameRest kind body tail) := by
  have hw := length_of_word hm
  generalize hhi : hiByte (natWord body.length) = hi at hw
  generalize hlo : loByte (natWord body.length) = lo at hw
  obtain ⟨b, rest, hrest⟩ : ∃ b rest, frameRest kind body tail = hi :: lo :: b :: rest := by
    cases body with
    | nil => simp at hn
    | cons b bs => exact ⟨b, bs ++ _, by simp only [frameRest, wordBytes, hhi, hlo]; simp; rfl⟩
  rw [State.passFrame, frameChars, hrest]
  simp only [dataChars, List.map_cons, List.foldl_cons]
  have h1 : s.pass (freshChar kind true) = s.receive (freshChar kind true) := by
    rw [State.pass, keepPace_rest h]
  have h2 : (((s.pass (freshChar kind true)).pass (freshChar hi false)).pass
      (freshChar lo false)).pass (freshChar b false) = inPass s (frameOut [kind, hi, lo]) b := by
    have e1 : ∀ x : State, ∀ c, x.pass c = x.keepPace.receive c := fun _ _ => rfl
    rw [h1, e1 (State.pass (State.pass _ _) _), e1 (State.pass _ _), State.pass]
    have e2 : (s.receive (freshChar kind true)).keepPace = _ := pace_opener h kind
    rw [e2]
    change ((pace _ _).receive _).keepPace.receive _ = _
    rw [pace_inFlight s h.bypass]
    simp only [State.takeFrameChar, FrameCtx.begin, State.takeHead, FrameCtx.feedLength,
      ↓reduceIte, Bool.false_eq_true, Nat.zero_add]
    rw [keepPace_hold _ _ _ _ _ _ _ _ _ rfl rfl rfl, receive_inFlight s h.bypass]
    simp only [State.takeFrameChar, State.takeHead, FrameCtx.feedLength, Nat.reduceAdd,
      ↓reduceIte, Bool.false_eq_true, OfNat.ofNat_ne_one, maxLength, Bool.or_false, hw]
    rw [if_pos (by omega)]
    have hc := h.claim
    simp [inPass, State.endsEarly, State.frameEnds, State.setBuffer, State.setLpu, State.setSi,
      State.setMe, State.setAl, inFlight, releaseAsReceived, joinBuffer, Attention.atOutcome, hc,
      Place.of, h.rx, h.tx, h.si, h.me, LinkCounters.countOutcome, frameOut, dataChars, Place.sent,
      State.keepPace, State.keepPaceN, bufferPlaces, State.charSent, State.transmit, State.receive,
      h.bypass, State.takeChar, State.takeStray, State.bufferFull, State.frameForwarded]
  rw [h2]
  have h3 := foldl_pass_inPass h rest [kind, hi, lo] b (by simp)
  rw [dataChars] at h3
  rw [h3]
  rfl

end Sys2Proof.Machine
end

