-- ==== Sys2Proof/Laws/Queue.lean ====
section
/-! SUPPORT. Every shared operation keeps the law of the store queue and of the frame in passage (`QueueLaw`,
`FrameLaw`). Most operations touch neither the Store Controller nor the Executor (`State.storeSide`). -/

namespace Sys2Proof.Machine

/-! ## Operations that leave the Store Controller and the Executor alone -/

/-- The Store Controller and the Executor. -/
def State.storeSide (s : State) : Store × Executor := (s.stc, s.me)

theorem storeSide_retarget (s : State) (i t c) : (s.retarget i t c).storeSide = s.storeSide := rfl

theorem storeSide_retargetAll (s : State) (ts c) : (s.retargetAll ts c).storeSide = s.storeSide :=
  foldl_keeps (fun s i => s.retarget i (ts.getD i 0) c) State.storeSide
    (fun s i => storeSide_retarget s i _ c) _ _

theorem storeSide_retargetPark (s : State) (c) : (s.retargetPark c).storeSide = s.storeSide :=
  foldl_keeps _ State.storeSide (by intro s a; split <;> rfl) _ _

theorem storeSide_retargetItems (s : State) (is) : (s.retargetItems is).storeSide = s.storeSide :=
  foldl_keeps (fun (s : State) (i : Item) => s.retarget i.place i.value i.code) State.storeSide
    (fun s _ => storeSide_retarget s _ _ _) _ _

theorem storeSide_quietReview (s : State) : s.quietReview.storeSide = s.storeSide := by
  rw [quietReview_eq]; rfl

theorem storeSide_enterMode (s : State) (m) : (s.enterMode m).storeSide = s.storeSide := by
  unfold State.enterMode; dsimp only
  rw [storeSide_quietReview]
  split
  · rw [leaveQuiet_eq]; rfl
  · rfl

theorem storeSide_dutiesHandedOn (s : State) : s.dutiesHandedOn.storeSide = s.storeSide := by
  unfold State.dutiesHandedOn; split
  · exact storeSide_enterMode _ _
  · exact storeSide_quietReview _

theorem storeSide_reshape (s : State) : s.reshape.storeSide = s.storeSide := by
  unfold State.reshape; split
  · exact storeSide_dutiesHandedOn _
  · rfl

theorem storeSide_commitStandby (s : State) : s.commitStandby.storeSide = s.storeSide := by
  unfold State.commitStandby; split <;> first | exact storeSide_enterMode _ _ | rfl

theorem storeSide_commitWake (s : State) : s.commitWake.storeSide = s.storeSide := by
  unfold State.commitWake; split <;> first | exact storeSide_enterMode _ _ | rfl

theorem storeSide_requestHot (s : State) : s.requestHot.storeSide = s.storeSide := by
  unfold State.requestHot; split <;> first | exact storeSide_enterMode _ _ | rfl

theorem storeSide_endHot (s : State) : s.endHot.storeSide = s.storeSide := by
  unfold State.endHot; split <;> first | exact storeSide_enterMode _ _ | rfl

theorem storeSide_evaluateThermal (s : State) (t) : (s.evaluateThermal t).storeSide = s.storeSide := by
  unfold State.evaluateThermal; dsimp only
  have h : ∀ b : Bool, (if b = true then
      (s.setMon { s.mon with thermal := s.mon.thermal.after s.mon.ceiling t }).raise .thermal
      else s.setMon { s.mon with thermal := s.mon.thermal.after s.mon.ceiling t }).storeSide =
        s.storeSide := by intro b; split <;> rfl
  split
  · rw [storeSide_requestHot, h]
  · split
    · rw [storeSide_endHot, h]
    · exact h _

theorem storeSide_completeStart (s : State) : s.completeStart.storeSide = s.storeSide := by
  rw [completeStart_eq]
  have h : s.blocksBegun.storeSide = s.storeSide := by
    unfold State.blocksBegun; dsimp only; split <;> rfl
  have : ∀ x : State, x.counterStart.storeSide = x.storeSide := fun _ => rfl
  rw [this, storeSide_enterMode]
  exact h

theorem storeSide_lossAction (s : State) : s.lossAction.storeSide = s.storeSide := by
  unfold State.lossAction
  split
  · split
    · rfl
    · rw [foldl_keeps (fun (x : State) i => x.retarget i 0 x.node.lossFade) State.storeSide
        (fun x i => storeSide_retarget x _ _ _)]
      rfl
    · split
      · rw [storeSide_retargetAll]; rfl
      · rfl
  all_goals rfl

theorem storeSide_lossExpires (s : State) : s.lossExpires.storeSide = s.storeSide := by
  unfold State.lossExpires
  rw [storeSide_reshape, storeSide_lossAction]; rfl

theorem storeSide_evaluateChannel (s : State) (ch mv) :
    (s.evaluateChannel ch mv).storeSide = s.storeSide := by
  unfold State.evaluateChannel; split
  · rw [evaluateShort_eq, evaluateOpen_eq]; rfl
  · rfl

theorem storeSide_recall (s : State) (n f) : (s.recall n f).storeSide = s.storeSide := by
  unfold State.recall; dsimp only; split
  · exact storeSide_retargetAll _ _ _
  · rfl

theorem storeSide_commitWritePatch (s : State) (f) (es : List PatchEntry) :
    (s.commitWritePatch f es).storeSide = s.storeSide := by
  induction es generalizing s f with
  | nil => rfl
  | cons e es ih =>
    unfold State.commitWritePatch
    rw [ih]
    unfold State.replaceEntry; dsimp only
    split <;> rfl

theorem storeSide_commitWriteNode (s : State) (w) : (s.commitWriteNode w).storeSide = s.storeSide := by
  unfold State.commitWriteNode; dsimp only
  rw [storeSide_quietReview]; rfl

theorem storeSide_takeCapturedSet (s : State) (is c z) :
    (s.takeCapturedSet is c z).storeSide = s.storeSide := by
  have h : ∀ s : State, (s.toStream is c).storeSide = s.storeSide := by
    intro s
    unfold State.toStream
    rw [storeSide_retargetItems, storeSide_retargetPark]; rfl
  unfold State.takeCapturedSet
  split
  · rfl
  · dsimp only
    split
    · rw [storeSide_retargetItems]; rfl
    · split
      · rw [h]; rfl
      · rfl
    all_goals rw [h]; rfl

theorem storeSide_handOver (s : State) : s.handOver.storeSide = s.storeSide := by
  unfold State.handOver; split
  · rfl
  · rw [storeSide_reshape, storeSide_takeCapturedSet]

/-- A staged write that asks for no store entry leaves the Store Controller and the Executor alone. -/
theorem storeSide_apply (s : State) (e : Staged) (h : e.storeKind = none) :
    (s.apply e).storeSide = s.storeSide := by
  cases e with
  | writePatch f es => exact storeSide_commitWritePatch _ _ _
  | writeNode w => exact storeSide_commitWriteNode _ _
  | recallScene n f => exact storeSide_recall _ _ _
  | standby => exact storeSide_commitStandby _
  | wake => exact storeSide_commitWake _
  | enumerate v => cases v <;> rfl
  | capture | saveConfig | setLock | eraseStore => cases h
  | _ => rfl

/-! ## The laws -/

/-- The two laws together. -/
structure StoreLaw (s : State) : Prop where
  queue : QueueLaw s
  frame : FrameLaw s

theorem storeLaw_of {s t : State} (h : StoreLaw s) (e : t.storeSide = s.storeSide) : StoreLaw t := by
  obtain ⟨e1, e2⟩ := Prod.mk.inj e
  have e1 : t.stc = s.stc := e1
  have e2 : t.me = s.me := e2
  obtain ⟨⟨a1, a2, a3, a4, a5⟩, ⟨b1, b2, b3, b4, b5, b6, b7, b8⟩⟩ := h
  unfold State.queuedKind State.reservedKind at *
  refine ⟨⟨?_, ?_, ?_, ?_, ?_⟩, ⟨?_, ?_, ?_, ?_, ?_, ?_, ?_, ?_⟩⟩ <;>
    simp only [State.queuedKind, State.reservedKind, e1, e2] <;> assumption

/-- The queue law where the queue's kinds, its started marks behind the head and the idle store stand. -/
theorem queueLaw_of {s t : State} (h : QueueLaw s) (hm : t.me.reservations = s.me.reservations)
    (hk : t.stc.queue.map (·.kind) = s.stc.queue.map (·.kind))
    (hi : t.stc.activity = .idle ↔ t.stc.queue = [])
    (hb : ∀ e ∈ t.stc.queue.tail, e.started = false) : QueueLaw t := by
  have hl : t.stc.queue.length = s.stc.queue.length := by
    simpa using congrArg List.length hk
  refine ⟨?_, ?_, ?_, hi, hb⟩
  · rw [hl, hm]; exact h.depth
  · rw [hk, hm]; exact h.config
  · have : ∀ k, t.queuedKind k = s.queuedKind k := by
      intro k
      have := congrArg (fun l => l.any fun x => decide (x = k)) hk
      simpa [State.queuedKind, Function.comp_def] using this
    unfold State.reservedKind
    rw [this, hm, hl]
    exact h.erase

theorem queuedKind_of {s t : State} (hk : t.stc.queue.map (·.kind) = s.stc.queue.map (·.kind)) (k) :
    t.queuedKind k = s.queuedKind k := by
  have := congrArg (fun l => l.any fun x => decide (x = k)) hk
  simpa [State.queuedKind, Function.comp_def] using this

theorem frameLaw_of {s t : State} (h : FrameLaw s) (hm : t.me = s.me)
    (hk : t.stc.queue.map (·.kind) = s.stc.queue.map (·.kind)) : FrameLaw t := by
  obtain ⟨b1, b2, b3, b4, b5, b6, b7, b8⟩ := h
  have hn : t.stc.queue = [] ↔ s.stc.queue = [] := by
    rw [← List.map_eq_nil_iff (f := (·.kind)), hk, List.map_eq_nil_iff]
  refine ⟨?_, ?_, ?_, ?_, ?_, ?_, ?_, ?_⟩ <;> simp only [hm, queuedKind_of hk, hn] <;> assumption

/-- No frame, or a frame just begun: the Executor holds nothing. -/
theorem frameLaw_fresh {s : State} (p : Option Parser)
    (hp : ∀ q, p = some q → q = Parser.begin) (h : s.me = { emptyExecutor with parser := p }) :
    FrameLaw s := by
  have hd : s.me.staged = [] := by
    rw [h]
    unfold Executor.staged Executor.decided
    cases p with
    | none => rfl
    | some q => rw [hp q rfl]; rfl
  refine ⟨?_, ?_, ?_, ?_, ?_, ?_, ?_, ?_⟩
  · intro k; rw [hd]; simp [joins]
  · intro k hk; rw [h] at hk; simp [emptyExecutor] at hk
  · intro hr; rw [h] at hr; simp [emptyExecutor] at hr
  · intro q out e hq hf
    rw [h] at hq
    rw [hp q hq] at hf
    simp [Parser.begin] at hf
  · intro q hq hr
    rw [h] at hq
    rw [hp q hq] at hr
    simp [Parser.begin] at hr
  · intro q hq
    rw [h] at hq ⊢
    rw [hp q hq]
    simp [Parser.begin, emptyExecutor]
  · intro _; rw [h]; rfl
  · rw [h]; simp [emptyExecutor]

theorem frameLaw_empty {s : State} (h : s.me = emptyExecutor) : FrameLaw s :=
  frameLaw_fresh none (by simp) (by rw [h]; rfl)

/-- The queue law without the places of a frame that has ended. -/
theorem queueLaw_noPlaces {s t : State} (h : QueueLaw s) (hq : t.stc = s.stc)
    (hr : t.me.reservations = []) : QueueLaw t := by
  refine ⟨?_, ?_, ?_, ?_, ?_⟩
  · rw [hq, hr]; have := h.depth; simp; omega
  · rw [hq, hr]; have := h.config; simp; omega
  · intro hh
    have hh : s.queuedKind .erase = true := by
      rcases hh with hh | hh
      · unfold State.queuedKind at *; rw [hq] at hh; exact hh
      · unfold State.reservedKind at hh; rw [hr] at hh; simp at hh
    have hl := h.erase (.inl hh)
    have : s.stc.queue ≠ [] := by
      intro hn; unfold State.queuedKind at hh; rw [hn] at hh; simp at hh
    have : 0 < s.stc.queue.length := List.length_pos_iff.mpr this
    rw [hq, hr]; simp; omega
  · rw [hq]; exact h.idle
  · rw [hq]; exact h.behind

/-- A frame has ended, or one begins, and the Store Controller stands (R151). -/
theorem storeLaw_fresh {s t : State} (h : StoreLaw s) (hq : t.stc = s.stc) (p : Option Parser)
    (hp : ∀ q, p = some q → q = Parser.begin) (hm : t.me = { emptyExecutor with parser := p }) :
    StoreLaw t :=
  ⟨queueLaw_noPlaces h.queue hq (by rw [hm]; rfl), frameLaw_fresh p hp hm⟩

/-- An empty queue, an idle store and an empty Executor (R157). -/
theorem storeLaw_clear {t : State} (hq : t.stc.queue = []) (ha : t.stc.activity = .idle)
    (hm : t.me = emptyExecutor) : StoreLaw t := by
  refine ⟨⟨?_, ?_, ?_, ?_, ?_⟩, frameLaw_empty hm⟩
  · rw [hq, hm]; simp [emptyExecutor]
  · rw [hq, hm]; simp [emptyExecutor]
  · unfold State.queuedKind State.reservedKind; rw [hq, hm]; simp [emptyExecutor]
  · rw [hq, ha]; simp
  · rw [hq]; simp

/-! ## Starting work -/

theorem markHeadStarted_queue (t : Store) :
    t.markHeadStarted.queue.map (·.kind) = t.queue.map (·.kind) ∧
      t.markHeadStarted.queue.tail = t.queue.tail ∧ (t.markHeadStarted.queue = [] ↔ t.queue = []) := by
  unfold Store.markHeadStarted
  split <;> rename_i h <;> simp [h]

/-- What starting a piece of work writes: the head's started mark, never an idle store (R150, R154). -/
theorem startWork_queue (s : State) (w : StoreWork) :
    (s.startWork w).me = s.me ∧
    (s.startWork w).stc.queue.map (·.kind) = s.stc.queue.map (·.kind) ∧
    (s.startWork w).stc.queue.tail = s.stc.queue.tail ∧
    ((s.startWork w).stc.queue = [] ↔ s.stc.queue = []) ∧
    (s.startWork w).stc.activity ≠ .idle ∧ (s.startWork w).stc.lock = s.stc.lock := by
  obtain ⟨h1, h2, h3⟩ := markHeadStarted_queue s.stc
  have hl : s.stc.markHeadStarted.lock = s.stc.lock := by rw [markHeadStarted_fields]
  unfold State.startWork
  split
  · exact ⟨rfl, rfl, rfl, Iff.rfl, by simp [State.setStc], rfl⟩
  · dsimp only
    split
    · exact ⟨rfl, h1, h2, h3, by simp [State.setStc], hl⟩
    · exact ⟨rfl, h1, h2, h3, by simp [State.setStc], hl⟩

/-- A queue that is not empty meets an idle store, or the law holds already: the head starts (R150). -/
theorem storeLaw_startHead {s : State} (hd : s.stc.queue.length + s.me.reservations.length ≤ 4)
    (hc : (s.stc.queue.map (·.kind)).count .config + s.me.reservations.count .config ≤ 1)
    (he : s.queuedKind .erase = true ∨ s.reservedKind .erase = true →
      s.stc.queue.length + s.me.reservations.length = 1)
    (hi : s.stc.queue = [] → s.stc.activity = .idle)
    (hb : ∀ e ∈ s.stc.queue.tail, e.started = false) (hf : FrameLaw s) : StoreLaw s.startHead := by
  unfold State.startHead
  split
  · rename_i e rest ha hq
    obtain ⟨h1, h2, h3, h4, h5, -⟩ := startWork_queue s e.kind.firstWork
    refine ⟨⟨?_, ?_, ?_, ?_, ?_⟩, frameLaw_of hf h1 h2⟩
    · have := congrArg List.length h2; simp at this; rw [this, h1]; exact hd
    · rw [h2, h1]; exact hc
    · have := congrArg List.length h2; simp at this
      unfold State.reservedKind
      rw [queuedKind_of h2, this, h1]; exact he
    · constructor
      · intro h; exact absurd h h5
      · intro h; rw [h4, hq] at h; cases h
    · rw [h3]; exact hb
  · rename_i hn
    refine ⟨⟨hd, hc, he, ⟨fun ha => ?_, hi⟩, hb⟩, hf⟩
    cases hq : s.stc.queue with
    | nil => rfl
    | cons e rest => exact absurd hq (hn e rest ha)

theorem storeLaw_startWork {s : State} (h : StoreLaw s) (w) (hq : s.stc.queue ≠ []) :
    StoreLaw (s.startWork w) := by
  obtain ⟨h1, h2, h3, h4, h5, -⟩ := startWork_queue s w
  refine ⟨queueLaw_of h.queue (by rw [h1]) h2 ?_ (by rw [h3]; exact h.queue.behind), frameLaw_of h.frame h1 h2⟩
  exact ⟨fun h => absurd h h5, fun h => absurd (h4.mp h) hq⟩

theorem joins_le_succ (k : StoreKind) (l : List Staged) :
    joins k true l ≤ joins k false l ∧ joins k false l ≤ joins k true l + 1 := by
  induction l with
  | nil => simp [joins]
  | cons e l ih =>
    unfold joins
    by_cases hk : e.storeKind = some k
    · cases hp : e.placed
      · cases hc : e.coalesced
        · simp [hk, ih]
        · simp only [hk]; simp
      · simp [hk]
    · simp [hk, ih]

/-- The head leaves, and a place of its kind may become the frame's (R151). -/
theorem frameLaw_leave {s : State} (h : StoreLaw s) (e : QueueEntry) (rest : List QueueEntry)
    (hq : s.stc.queue = e :: rest) (t : State) (htq : t.stc.queue = rest)
    (htm : t.me = s.me.entryLeft e.kind rest) :
    (t.stc.queue.length + t.me.reservations.length ≤ 4) ∧
    ((t.stc.queue.map (·.kind)).count .config + t.me.reservations.count .config ≤ 1) ∧
    (t.queuedKind .erase = true ∨ t.reservedKind .erase = true →
      t.stc.queue.length + t.me.reservations.length = 1) ∧ FrameLaw t := by
  obtain ⟨⟨a1, a2, a3, a4, a5⟩, hf⟩ := h
  have hplaces := hf.places
  unfold State.queuedKind State.reservedKind at *
  rw [hq] at a1 a2 a3
  have hme : t.me = if s.me.coalesced.contains e.kind && !(rest.any (·.kind = e.kind)) then
      { s.me with reservations := s.me.reservations ++ [e.kind], coalesced := s.me.coalesced.erase e.kind }
      else s.me := htm
  have hstaged : t.me.staged = s.me.staged := by rw [hme]; split <;> rfl
  have hparser : t.me.parser = s.me.parser := by rw [hme]; split <;> rfl
  have hcommits : t.me.commits = s.me.commits := by rw [hme]; split <;> rfl
  have hmark : t.me.restartMark = s.me.restartMark := by rw [hme]; split <;> rfl
  have hrest : FrameLaw t := by
    refine ⟨?_, ?_, ?_, ?_, ?_, ?_, ?_, ?_⟩
    · intro k
      have hk := hplaces k
      rw [hstaged, hme]
      unfold State.queuedKind
      rw [htq]
      rw [hq] at hk
      have hj := joins_le_succ k s.me.staged
      split
      · rename_i hc
        simp only [Bool.and_eq_true, Bool.not_eq_true'] at hc
        by_cases hke : k = e.kind
        · subst hke
          rw [hc.2]
          simp only [List.any_cons, decide_true, Bool.true_or, Bool.true_and, hc.1] at hk
          simp only [Bool.false_and, List.count_append, List.count_singleton_self]
          omega
        · have h1 : (s.me.coalesced.erase e.kind).contains k = s.me.coalesced.contains k := by
            rw [Bool.eq_iff_iff]
            simp only [List.contains_iff_mem]
            exact List.mem_erase_of_ne hke
          have h2 : ([e.kind] : List StoreKind).count k = 0 := by
            simp [Ne.symm hke]
          simp only [List.any_cons, (by simpa using Ne.symm hke : decide (e.kind = k) = false),
            Bool.false_or] at hk
          rw [h1, List.count_append, h2]
          exact hk
      · rename_i hc
        by_cases hke : k = e.kind
        · subst hke
          simp only [List.any_cons, decide_true, Bool.true_or, Bool.true_and] at hk
          cases hco : s.me.coalesced.contains e.kind
          · rw [hco] at hk; simpa using hk
          · cases hra : rest.any (fun x => decide (x.kind = e.kind))
            · exact absurd (by rw [hco, hra]; rfl) hc
            · rw [hco] at hk; simpa using hk
        · simp only [List.any_cons, (by simpa using Ne.symm hke : decide (e.kind = k) = false),
            Bool.false_or] at hk
          exact hk
    · intro k hk
      rw [hstaged]
      apply hf.behind k
      rw [hme] at hk
      split at hk
      · rename_i hc
        simp only [Bool.and_eq_true, Bool.not_eq_true', List.contains_iff_mem] at hc
        simp only [List.mem_append, List.mem_singleton] at hk
        rcases hk with (hk | hk) | hk
        · exact .inl hk
        · rw [hk]; exact .inr hc.1
        · exact .inr (List.mem_of_mem_erase hk)
      · exact hk
    · intro hr
      rw [hmark] at hr
      rw [(hf.restart hr).1] at hq
      cases hq
    · intro p; rw [hparser]; exact hf.noRoom p
    · intro p; rw [hparser, hcommits]; exact hf.running p
    · intro p; rw [hparser, hcommits]; exact hf.records p
    · rw [hparser, hcommits]; exact hf.noFrame
    · rw [hcommits]; exact hf.commits
  refine ⟨?_, ?_, ?_, hrest⟩
  · rw [htq, hme]
    rw [List.length_cons] at a1
    split
    · dsimp only; rw [List.length_append, List.length_singleton]; omega
    · omega
  · rw [htq, hme]
    simp only [List.map_cons, List.count_cons] at a2
    split
    · simp only [List.count_append, List.count_cons, List.count_nil]
      by_cases hke : e.kind = .config <;> simp [hke] at a2 ⊢ <;> omega
    · omega
  · intro hh
    rw [List.length_cons] at a3 a1
    rw [htq, hme] at hh ⊢
    by_cases he : (e :: rest).any (fun x => decide (x.kind = .erase)) = true ∨
        s.me.reservations.contains .erase = true
    · have hl := a3 he
      have hr : rest = [] := List.length_eq_zero_iff.mp (by omega)
      have hr' : s.me.reservations = [] := List.length_eq_zero_iff.mp (by omega)
      subst hr
      split at hh
      · rename_i hc; rw [if_pos hc]; simp [hr']
      · simp [hr'] at hh
    · simp only [not_or, List.any_cons, Bool.or_eq_true, decide_eq_true_eq] at he
      split at hh
      · rcases hh with hh | hh
        · exact absurd hh (fun h => he.1.2 h)
        · simp only [List.contains_iff_mem, List.mem_append, List.mem_singleton] at hh he
          rcases hh with hh | hh
          · exact absurd hh he.2
          · exact absurd hh.symm he.1.1
      · rcases hh with hh | hh
        · exact absurd hh (fun h => he.1.2 h)
        · exact absurd hh he.2

theorem storeLaw_endEntry {s : State} (h : StoreLaw s) : StoreLaw s.endEntry := by
  unfold State.endEntry
  split
  · rename_i hq
    refine ⟨queueLaw_of h.queue rfl rfl ?_ h.queue.behind, frameLaw_of h.frame rfl rfl⟩
    exact ⟨fun _ => hq, fun _ => rfl⟩
  · rename_i e rest hq
    dsimp only
    split
    · have hk : (({ e with started := false, again := false } : QueueEntry) :: rest).map (·.kind) =
          s.stc.queue.map (·.kind) := by rw [hq]; rfl
      have hl : rest.length + 1 = s.stc.queue.length := by rw [hq]; rfl
      have hb := h.queue.behind
      rw [hq] at hb
      refine storeLaw_startHead ?_ ?_ ?_ ?_ hb ?_
      · have := h.queue.depth; rw [← hl] at this; exact this
      · have := h.queue.config; rw [← hk] at this; exact this
      · have := h.queue.erase
        rw [← hl] at this
        intro hh
        refine this ?_
        rcases hh with hh | hh
        · exact .inl ((queuedKind_of (s := s) hk .erase).symm.trans hh)
        · exact .inr hh
      · intro hn; cases hn
      · exact frameLaw_of h.frame rfl hk
    · obtain ⟨b1, b2, b3, b4⟩ := frameLaw_leave h e rest hq
        ((s.setStc { s.stc with activity := .idle, queue := rest }).setMe (s.me.entryLeft e.kind rest))
        rfl rfl
      refine storeLaw_startHead b1 b2 b3 (fun _ => rfl) ?_ b4
      intro x hx
      refine h.queue.behind x ?_
      rw [hq]
      exact List.mem_of_mem_tail hx

theorem storeLaw_pageEnded {s : State} (h : StoreLaw s) (p) (hq : s.stc.queue ≠ []) :
    StoreLaw (s.pageEnded p) := by
  unfold State.pageEnded; split
  · exact storeLaw_startWork h _ hq
  · exact storeLaw_endEntry h

/-- A store that works has a queue. -/
theorem StoreLaw.busy {s : State} (h : StoreLaw s) (ha : s.stc.activity ≠ .idle) : s.stc.queue ≠ [] :=
  fun hq => ha (h.queue.idle.mpr hq)

/-- The law reads the queue, the activity and the Executor only. -/
theorem storeLaw_keep {s t : State} (h : StoreLaw s) (hq : t.stc.queue = s.stc.queue)
    (ha : t.stc.activity = s.stc.activity) (hm : t.me = s.me) : StoreLaw t :=
  ⟨queueLaw_of h.queue (by rw [hm]) (by rw [hq]) (by rw [ha, hq]; exact h.queue.idle)
    (by rw [hq]; exact h.queue.behind), frameLaw_of h.frame hm (by rw [hq])⟩

theorem storeLaw_spoil {s : State} (h : StoreLaw s) (w) : StoreLaw (s.spoil w) := by
  unfold State.spoil; split <;> exact storeLaw_keep h rfl rfl rfl

theorem storeLaw_storeFails {s : State} (h : StoreLaw s) (w c) : StoreLaw (s.storeFails w c) := by
  unfold State.storeFails; dsimp only
  refine storeLaw_endEntry (storeLaw_spoil ?_ _)
  exact storeLaw_keep h rfl rfl rfl

theorem storeLaw_evaluateSupply {s : State} (h : StoreLaw s) (mv) : StoreLaw (s.evaluateSupply mv) := by
  unfold State.evaluateSupply
  split
  · split
    · exact storeLaw_of h rfl
    · exact h
  · split
    · unfold State.preUvEnded
      have h' : StoreLaw (s.setMon { s.mon with supplyState := .normal }) := storeLaw_of h rfl
      split
      · rename_i w ha
        exact storeLaw_startWork h' _ (h'.busy (by rw [ha]; simp))
      · exact h'
      · exact h'
    · exact h

/-! ## Node reset, START and link reset -/

theorem storeLaw_nodeReset (s : State) : StoreLaw s.nodeReset :=
  storeLaw_clear (by unfold State.nodeReset State.cutOffStore; dsimp only; rfl)
    (by unfold State.nodeReset State.cutOffStore; dsimp only; rfl) rfl

theorem storeLaw_loadStore {s : State} (h : StoreLaw s) : StoreLaw s.loadStore := by
  unfold State.loadStore; dsimp only
  refine storeLaw_of ?_ (storeSide_retargetPark _ _)
  exact storeLaw_keep h rfl rfl rfl

theorem storeLaw_leaveReset {s : State} (h : StoreLaw s) : StoreLaw s.leaveReset := by
  unfold State.leaveReset; split
  · unfold State.enterStart; dsimp only
    have h1 : StoreLaw (s.setMc { s.mc with mode := .start }) := storeLaw_of h rfl
    generalize s.setMc { s.mc with mode := .start } = a at h1 ⊢
    have h2 : StoreLaw (a.setLpu { a.lpu with rate := a.pins.rate }) := storeLaw_of h1 rfl
    have h3 := storeLaw_loadStore h2
    generalize (a.setLpu { a.lpu with rate := a.pins.rate }).loadStore = b at h3 ⊢
    exact storeLaw_of h3 rfl
  · exact h

theorem storeLaw_resetNode (s : State) : StoreLaw s.resetNode := storeLaw_leaveReset (storeLaw_nodeReset s)

theorem storeLaw_linkReset {s : State} (h : StoreLaw s) : StoreLaw s.linkReset := by
  unfold State.linkReset; dsimp only
  split
  · exact storeLaw_resetNode _
  · exact storeLaw_fresh h rfl none (by simp) rfl

theorem storeLaw_longPulse {s : State} (h : StoreLaw s) : StoreLaw s.longPulse := by
  unfold State.longPulse; split
  · dsimp only; split
    · exact storeLaw_of h rfl
    · exact storeLaw_resetNode _
  · exact h

theorem storeLaw_releaseRstn {s : State} (h : StoreLaw s) (n) : StoreLaw (s.releaseRstn n) := by
  unfold State.releaseRstn; dsimp only
  have h1 : StoreLaw { s with
      pins := { s.pins with rstnLow := false }
      mc := { s.mc with timingLow := false, longReached := false } } := storeLaw_of h rfl
  split
  · split
    · exact storeLaw_linkReset h1
    · exact h1
  · exact storeLaw_leaveReset h1

end Sys2Proof.Machine
end

