-- ==== Sys2Proof/Laws/FrameQueue.lean ====
section
/-! SUPPORT. The law of the store queue and of the frame in passage through a frame: its commits, its body bytes
and its end. -/

namespace Sys2Proof.Machine

/-! ## Commits (R151, R162) -/

/-- The staged writes that ask for a store entry. -/
def storeOnes (l : List Staged) : List Staged := l.filter (·.storeKind.isSome)

theorem joins_storeOnes (k : StoreKind) (l : List Staged) (q : Bool) :
    joins k q (storeOnes l) = joins k q l := by
  induction l generalizing q with
  | nil => rfl
  | cons e l ih =>
    unfold storeOnes at *
    rw [List.filter_cons]
    cases hk : e.storeKind with
    | none =>
      simp only [Option.isSome_none, Bool.false_eq_true, if_false]
      rw [ih]; conv => rhs; unfold joins
      simp [hk]
    | some j =>
      simp only [Option.isSome_some, if_true]
      unfold joins
      rw [ih, ih]

theorem joins_le_append (k : StoreKind) (l m : List Staged) (q : Bool) :
    joins k q l ≤ joins k q (l ++ m) := by
  induction l generalizing q with
  | nil => simp [joins]
  | cons e l ih =>
    rw [List.cons_append]; unfold joins
    split
    · have := ih true; omega
    · exact ih q

theorem joins_append_other (k : StoreKind) (l : List Staged) (e : Staged) (q : Bool)
    (he : e.storeKind ≠ some k ∨ (e.placed = false ∧ e.coalesced = false)) :
    joins k q (l ++ [e]) = joins k q l := by
  induction l generalizing q with
  | nil =>
    rw [List.nil_append]; unfold joins
    rw [if_neg (by rintro ⟨h1, h2⟩; rcases he with he | ⟨h3, h4⟩
                   · exact he h1
                   · rw [h3, h4] at h2; simp at h2)]
    rfl
  | cons x l ih => rw [List.cons_append]; unfold joins; rw [ih, ih]

theorem joins_append_one (k : StoreKind) (l : List Staged) (e : Staged) (q : Bool) :
    joins k q (l ++ [e]) ≤ joins k q l + 1 := by
  induction l generalizing q with
  | nil => rw [List.nil_append]; unfold joins; split <;> simp [joins]
  | cons x l ih =>
    rw [List.cons_append]; unfold joins
    have := ih true; have := ih q
    split <;> omega

/-- With an entry queued, or with a write of the kind staged before, a coalescing write adds nothing. -/
theorem joins_append_coalesced (k : StoreKind) (l : List Staged) (e : Staged) (q : Bool)
    (he : e.placed = false)
    (h : q = true ∨ ∃ x ∈ l, x.storeKind = some k ∧ (x.placed = true ∨ x.coalesced = true)) :
    joins k q (l ++ [e]) = joins k q l := by
  induction l generalizing q with
  | nil =>
    rcases h with rfl | ⟨x, hx, -⟩
    · rw [List.nil_append]; unfold joins; simp [he, joins]
    · simp at hx
  | cons x l ih =>
    rw [List.cons_append]; unfold joins
    split
    · rw [ih true (.inl rfl)]
    · rename_i hn
      rw [ih q]
      rcases h with h | ⟨y, hy, hk⟩
      · exact .inl h
      · rcases List.mem_cons.mp hy with rfl | hy
        · left
          cases q
          · exact absurd ⟨hk.1, hk.2.imp id fun h => ⟨h, rfl⟩⟩ hn
          · rfl
        · exact .inr ⟨y, hy, hk⟩

/-- What one staged write adds to the queue (R151): an entry of its kind, or none; the Executor and the
activity stand, and no entry behind the head is started. -/
theorem apply_queue (s : State) (e : Staged) (hb : ∀ x ∈ s.stc.queue.tail, x.started = false) :
    (s.apply e).me = s.me ∧ (s.apply e).stc.activity = s.stc.activity ∧
    (∀ x ∈ (s.apply e).stc.queue.tail, x.started = false) ∧
    (s.apply e).stc.queue.map (·.kind) = s.stc.queue.map (·.kind) ++
      (match e.storeKind with
       | none => []
       | some k =>
         if e.placed = true ∨ (e.coalesced = true ∧ s.queuedKind k = false) then [k] else []) := by
  cases hk : e.storeKind with
  | none =>
    have h := storeSide_apply s e hk
    obtain ⟨h1, h2⟩ := Prod.mk.inj h
    have h1 : (s.apply e).stc = s.stc := h1
    have h2 : (s.apply e).me = s.me := h2
    rw [h1, h2]
    exact ⟨rfl, rfl, hb, by simp⟩
  | some k =>
    have hjoin : ∀ (x : State) (k : StoreKind), x.me = s.me → x.stc.activity = s.stc.activity →
        x.stc.queue = s.stc.queue →
        (x.joinQueue k).me = s.me ∧ (x.joinQueue k).stc.activity = s.stc.activity ∧
        (∀ y ∈ (x.joinQueue k).stc.queue.tail, y.started = false) ∧
        (x.joinQueue k).stc.queue.map (·.kind) = s.stc.queue.map (·.kind) ++ [k] := by
      intro x k h1 h2 h3
      refine ⟨h1, h2, ?_, ?_⟩
      · intro y hy
        change y ∈ (x.stc.queue ++ [(⟨k, false, false⟩ : QueueEntry)]).tail at hy
        rw [h3] at hy
        cases hq : s.stc.queue with
        | nil => rw [hq] at hy; simp at hy
        | cons a l =>
          rw [hq] at hy hb
          simp only [List.cons_append, List.tail_cons, List.mem_append, List.mem_singleton] at hy hb
          rcases hy with hy | hy
          · exact hb y hy
          · rw [hy]
      · change (x.stc.queue ++ [(⟨k, false, false⟩ : QueueEntry)]).map (·.kind) = _
        rw [h3]; simp
    have hstay : ∀ (x : State), x.me = s.me → x.stc.activity = s.stc.activity →
        x.stc.queue = s.stc.queue →
        x.me = s.me ∧ x.stc.activity = s.stc.activity ∧
        (∀ y ∈ x.stc.queue.tail, y.started = false) ∧
        x.stc.queue.map (·.kind) = s.stc.queue.map (·.kind) ++ [] := by
      intro x h1 h2 h3
      rw [h1, h2, h3]; exact ⟨rfl, rfl, hb, by simp⟩
    have hagain : ∀ (x : State) (k : StoreKind), x.me = s.me → x.stc.activity = s.stc.activity →
        x.stc.queue = s.stc.queue →
        (x.markAgain k).me = s.me ∧ (x.markAgain k).stc.activity = s.stc.activity ∧
        (∀ y ∈ (x.markAgain k).stc.queue.tail, y.started = false) ∧
        (x.markAgain k).stc.queue.map (·.kind) = s.stc.queue.map (·.kind) ++ [] := by
      intro x k h1 h2 h3
      refine ⟨h1, h2, ?_, ?_⟩
      · intro y hy
        change y ∈ (x.stc.queue.map fun (e : QueueEntry) => if e.kind = k then { e with again := true } else e).tail at hy
        rw [h3, ← List.map_tail] at hy
        obtain ⟨z, hz, rfl⟩ := List.mem_map.mp hy
        have := hb z hz
        split <;> exact this
      · change (x.stc.queue.map fun (e : QueueEntry) => if e.kind = k then { e with again := true } else e).map (·.kind) = _
        rw [h3, List.map_map, List.append_nil]
        apply List.map_congr_left
        intro a _
        dsimp only [Function.comp]
        split <;> rfl
    cases e with
    | capture n f how =>
      cases hk
      cases how with
      | accept =>
        simp only [Staged.placed, true_or, if_true]
        exact hjoin _ _ rfl rfl rfl
      | coalesce =>
        dsimp only [State.apply, State.commitCapture]
        have hq : (s.captureShadow n f).queuedKind (.scene n) = s.queuedKind (.scene n) := rfl
        rw [hq]
        cases hq : s.queuedKind (.scene n)
        · simp only [Bool.not_false, if_true, Staged.coalesced, Staged.placed, and_self, or_true, Bool.false_eq_true]
          exact hjoin _ _ rfl rfl rfl
        · simp only [Bool.not_true, Bool.false_eq_true, if_false, Staged.coalesced, Staged.placed,
            Bool.true_eq_false, and_false, or_false]
          split
          · exact hstay _ rfl rfl rfl
          · exact hagain _ _ rfl rfl rfl
      | busy => exact hstay (s.captureShadow n f) rfl rfl rfl
      | alreadyLocked => exact hstay (s.captureShadow n f) rfl rfl rfl
    | saveConfig how =>
      cases hk
      cases how with
      | accept =>
        simp only [Staged.placed, true_or, if_true]
        exact hjoin _ _ rfl rfl rfl
      | coalesce =>
        dsimp only [State.apply, State.commitSaveConfig]
        cases hq : s.queuedKind .config
        · simp only [Bool.not_false, if_true, Staged.coalesced, Staged.placed, and_self, or_true, Bool.false_eq_true]
          exact hjoin _ _ rfl rfl rfl
        · simp only [Bool.not_true, Bool.false_eq_true, if_false, Staged.coalesced, Staged.placed,
            Bool.true_eq_false, and_false, or_false]
          split
          · exact hagain _ _ rfl rfl rfl
          · exact hstay _ rfl rfl rfl
      | busy => exact hstay s rfl rfl rfl
      | alreadyLocked => exact hstay s rfl rfl rfl
    | setLock how =>
      cases hk
      cases how with
      | accept =>
        simp only [Staged.placed, true_or, if_true]
        exact hjoin _ _ rfl rfl rfl
      | coalesce => exact hstay s rfl rfl rfl
      | busy => exact hstay s rfl rfl rfl
      | alreadyLocked => exact hstay s rfl rfl rfl
    | eraseStore =>
      cases hk
      simp only [Staged.placed, true_or, if_true]
      exact hjoin _ _ rfl rfl rfl
    | _ => cases hk

theorem queuedKind_map (s : State) (k : StoreKind) :
    s.queuedKind k = (s.stc.queue.map (·.kind)).any (fun x => decide (x = k)) := by
  simp [State.queuedKind, Function.comp_def]

/-- What a commit list adds to the queue (R151, R162). -/
theorem commits_queue (l : List Staged) (s : State)
    (hb : ∀ x ∈ s.stc.queue.tail, x.started = false) :
    (l.foldl State.apply s).me = s.me ∧ (l.foldl State.apply s).stc.activity = s.stc.activity ∧
    (∀ x ∈ (l.foldl State.apply s).stc.queue.tail, x.started = false) ∧
    ∃ ks, (l.foldl State.apply s).stc.queue.map (·.kind) = s.stc.queue.map (·.kind) ++ ks ∧
      ∀ k, ks.count k = joins k (s.queuedKind k) l := by
  induction l generalizing s with
  | nil => exact ⟨rfl, rfl, hb, [], by simp, by simp [joins]⟩
  | cons e l ih =>
    obtain ⟨a1, a2, a3, a4⟩ := apply_queue s e hb
    obtain ⟨b1, b2, b3, ks, b4, b5⟩ := ih (s.apply e) a3
    rw [List.foldl_cons]
    refine ⟨b1.trans a1, b2.trans a2, b3, _, by rw [b4, a4, List.append_assoc], ?_⟩
    intro k
    have hq : (s.apply e).queuedKind k = (s.queuedKind k ||
        decide (e.storeKind = some k ∧ (e.placed = true ∨ (e.coalesced = true ∧ s.queuedKind k = false)))) := by
      rw [queuedKind_map, a4, List.any_append, ← queuedKind_map]
      congr 1
      cases hk : e.storeKind with
      | none => simp
      | some j =>
        by_cases hj : j = k
        · subst hj
          dsimp only
          split <;> rename_i h <;> simp [h]
        · dsimp only; split <;> simp [hj]
    rw [List.count_append, b5, hq]
    conv => rhs; unfold joins
    by_cases hc : e.storeKind = some k ∧ (e.placed = true ∨ (e.coalesced = true ∧ s.queuedKind k = false))
    · rw [if_pos hc, decide_eq_true hc, Bool.or_true, hc.1]
      dsimp only
      rw [if_pos hc.2]; simp; omega
    · rw [if_neg hc, decide_eq_false hc, Bool.or_false]
      have : List.count k (match e.storeKind with
         | none => []
         | some k =>
           if e.placed = true ∨ (e.coalesced = true ∧ s.queuedKind k = false) then [k] else []) = 0 := by
        cases hk : e.storeKind with
        | none => rfl
        | some j =>
          dsimp only
          by_cases hj : j = k
          · subst hj
            rw [if_neg (fun h => hc ⟨hk, h⟩)]; rfl
          · split
            · simp [hj]
            · rfl
      rw [this, Nat.zero_add]

theorem startHead_setMe (s : State) (m : Executor) : (s.setMe m).startHead = s.startHead.setMe m := by
  have hw : ∀ w, (s.setMe m).startWork w = (s.startWork w).setMe m := by
    intro w
    unfold State.startWork
    rw [State.setMe_mon]
    cases s.mon.supplyState
    · cases w <;> rfl
    · rfl
  unfold State.startHead
  rw [State.setMe_stc]
  split
  · exact hw _
  · rfl

theorem queues_iff (e : Staged) : e.queues = e.storeKind.isSome := by cases e <;> rfl

theorem storeSide_commits (l : List Staged) (h : l.any Staged.queues = false) (s : State) :
    (l.foldl State.apply s).storeSide = s.storeSide := by
  induction l generalizing s with
  | nil => rfl
  | cons e l ih =>
    rw [List.any_cons, Bool.or_eq_false_iff, queues_iff] at h
    rw [List.foldl_cons, ih h.2, storeSide_apply _ _ (by simpa using h.1)]

/-- A frame ends: its commit list, if it is GOOD, then an empty Executor (R16, R162). -/
theorem storeLaw_frameEnds {s : State} (h : StoreLaw s) (o : FrameOutcome) : StoreLaw (s.frameEnds o) := by
  unfold State.frameEnds
  dsimp only
  by_cases ho : o = .good
  case neg =>
    rw [decide_eq_false ho]
    exact storeLaw_fresh h rfl none (by simp) rfl
  rw [decide_eq_true ho, if_pos rfl]
  have hs : StoreLaw s.handOver := storeLaw_of h (storeSide_handOver s)
  have hme : s.handOver.me = s.me := (Prod.mk.inj (storeSide_handOver s)).2
  generalize hc : s.handOver = x at hs hme
  rw [← hme]
  suffices StoreLaw ((x.commitAll x.me.commits).setMe emptyExecutor) from storeLaw_of this rfl
  unfold State.commitAll
  dsimp only
  obtain ⟨c1, c2, c3, ks, c4, c5⟩ := commits_queue x.me.commits x hs.queue.behind
  generalize hl : x.me.commits = l at *
  generalize hy : l.foldl State.apply x = y at *
  have hz : ((if l.any Staged.shapes = true then y.reshape else y) : State).storeSide = y.storeSide := by
    split
    · exact storeSide_reshape y
    · rfl
  generalize hzz : ((if l.any Staged.shapes = true then y.reshape else y) : State) = z at *
  obtain ⟨z1, z2⟩ := Prod.mk.inj hz
  have z1 : z.stc = y.stc := z1
  have hks : ∀ k, ks.count k ≤ x.me.reservations.count k := by
    intro k
    rw [c5]
    have h1 := hs.frame.places k
    have h2 := joins_le_append k l x.me.decided (x.queuedKind k && x.me.coalesced.contains k)
    have h3 := (joins_le_succ k l).1
    have h4 : x.me.staged = l ++ x.me.decided := by rw [← hl]; rfl
    rw [h4] at h1
    cases hq : x.queuedKind k
    · rw [hq, Bool.false_and] at h1 h2; omega
    · rw [hq, Bool.true_and] at h1 h2
      cases hco : x.me.coalesced.contains k
      · rw [hco] at h1 h2; omega
      · rw [hco] at h1 h2; omega
  have hlen : ks.length ≤ x.me.reservations.length :=
    (List.subperm_ext_iff.mpr fun k _ => hks k).length_le
  have hql : y.stc.queue.length = x.stc.queue.length + ks.length := by
    have := congrArg List.length c4
    simpa using this
  split
  · rw [← startHead_setMe]
    have hstc : (z.setMe emptyExecutor).stc = y.stc := z1
    refine storeLaw_startHead ?_ ?_ ?_ ?_ ?_ (frameLaw_empty rfl)
    · rw [hstc, hql]; have := hs.queue.depth
      show _ + ([] : List StoreKind).length ≤ 4
      simp; omega
    · rw [hstc, c4, List.count_append]
      have := hs.queue.config; have := hks .config
      show _ + ([] : List StoreKind).count .config ≤ 1
      simp; omega
    · intro hh
      have hh : y.queuedKind .erase = true := by
        rcases hh with hh | hh
        · unfold State.queuedKind at *; rw [hstc] at hh; exact hh
        · simp [State.reservedKind, State.setMe, emptyExecutor] at hh
      rw [hstc, hql]
      show _ + ([] : List StoreKind).length = 1
      have hone : x.stc.queue.length + x.me.reservations.length = 1 := by
        apply hs.queue.erase
        rw [queuedKind_map, c4, List.any_append, ← queuedKind_map] at hh
        rcases Bool.or_eq_true_iff.mp hh with hh | hh
        · exact .inl hh
        · right
          obtain ⟨k, hk, he⟩ := List.any_eq_true.mp hh
          have he : k = .erase := by simpa using he
          subst he
          have h1 : 0 < ks.count .erase := List.count_pos_iff.mpr hk
          have h2 := hks .erase
          unfold State.reservedKind
          rw [List.contains_iff_mem]
          exact List.count_pos_iff.mp (by omega)
      have hpos : 0 < y.stc.queue.length := by
        rw [List.length_pos_iff]
        intro hn
        simp [State.queuedKind, hn] at hh
      rw [hql] at hpos
      simp; omega
    · intro hn
      rw [hstc] at hn ⊢
      rw [c2]
      apply hs.queue.idle.mpr
      rw [hn, List.length_nil] at hql
      exact List.length_eq_zero_iff.mp (by omega)
    · rw [hstc]; exact c3
  · rename_i hnq
    have hxy : y.storeSide = x.storeSide := by
      rw [← hy]; exact storeSide_commits l (by simpa using hnq) x
    exact storeLaw_fresh hs (z1.trans (Prod.mk.inj hxy).1) none (by simp) rfl

/-! ## A record's status byte (R27, R151, R170) -/

/-- What an accepted store request or RESTART says about the state it was admitted in (R151, R169, R170). -/
def State.admits (s : State) (e : Staged) : Prop :=
  match e with
  | .capture n _ how => s.me.restartMark = false ∧ how = s.admitScene n ∧ how ≠ .busy
  | .saveConfig how => s.me.restartMark = false ∧ how = s.admitConfig ∧ how ≠ .busy
  | .setLock how => s.me.restartMark = false ∧ how = s.admitLock ∧ how ≠ .busy
  | .eraseStore => s.me.restartMark = false ∧ s.admitErase ≠ .busy
  | .restart => s.stc.queue = [] ∧ s.me.reservations = []
  | _ => True

theorem unlessBusy_accept {s : State} {how st out e} (h : s.unlessBusy how st = .accept out (some e)) :
    out = [] ∧ e = st ∧ s.me.restartMark = false ∧ how ≠ .busy := by
  unfold State.unlessBusy at h
  cases hr : s.me.restartMark
  · rw [hr] at h
    simp only [Bool.false_eq_true, if_false] at h
    split at h
    · cases h
    · rename_i hb; cases h; exact ⟨rfl, rfl, rfl, hb⟩
  · rw [hr] at h; cases h

theorem unlessLocked_accept {s : State} {st out e} (h : s.unlessLocked st = .accept out (some e)) :
    out = [] ∧ e = st := by
  unfold State.unlessLocked at h
  split at h <;> cases h
  exact ⟨rfl, rfl⟩

theorem judge_admits (s : State) (a br code params out e)
    (h : judge s a br code params = .accept out (some e)) :
    (e.storeKind ≠ none → out = []) ∧ s.admits e ∧
      (e.storeKind = some .lock → Cmd.ofCode? code = some .setLock) := by
  have plain : ∀ r, judgePlainRead r params = .accept out (some e) → False := by
    intro r h; unfold judgePlainRead at h; split at h <;> cases h
  have lk : ∀ st : Staged, s.unlessLocked st = .accept out (some e) → st.storeKind = none →
      (∀ s' : State, s'.admits st) → (e.storeKind ≠ none → out = []) ∧ s.admits e ∧
      (e.storeKind = some .lock → Cmd.ofCode? code = some .setLock) := by
    intro st h h1 h2
    obtain ⟨-, rfl⟩ := unlessLocked_accept h
    exact ⟨fun hn => absurd h1 hn, h2 s, fun h => nomatch h1.symm.trans h⟩
  unfold judge at h
  split at h
  · cases h
  split at h
  · cases h
  split at h
  · cases h
  rename_i c hc _ _
  cases c <;> dsimp only [judgeCommand] at h
  case identify => exact (plain _ h).elim
  case readStatus => exact (plain _ h).elim
  case readFaults => exact (plain _ h).elim
  case readGroups => exact (plain _ h).elim
  case readNode => exact (plain _ h).elim
  case readStore => exact (plain _ h).elim
  case readLink =>
    unfold judgeReadLink at h
    split at h
    · split at h
      · cases h
      · split at h <;> cases h
        exact ⟨fun hn => absurd rfl hn, trivial, nofun⟩
    · cases h
  case readPatch =>
    unfold judgeReadPatch at h
    split at h <;> try cases h
    split at h <;> cases h
  case readCurve =>
    unfold judgeReadCurve at h
    split at h <;> try cases h
    split at h <;> cases h
  case readLevels =>
    unfold judgeReadLevels at h
    split at h <;> try cases h
    split at h <;> cases h
  case writePatch =>
    unfold judgeWritePatch at h
    split at h <;> try cases h
    split at h <;> try cases h
    split at h <;> try cases h
    exact lk _ h rfl (fun _ => trivial)
  case writeGroup =>
    unfold judgeWriteGroup at h
    split at h <;> try cases h
    split at h <;> try cases h
    exact lk _ h rfl (fun _ => trivial)
  case writeCurve =>
    unfold judgeWriteCurve at h
    split at h <;> try cases h
    split at h <;> try cases h
    split at h <;> try cases h
    exact lk _ h rfl (fun _ => trivial)
  case writeNode =>
    unfold judgeWriteNode at h
    split at h <;> try cases h
    split at h <;> try cases h
    split at h <;> try cases h
    exact lk _ h rfl (fun _ => trivial)
  case setMasks =>
    unfold judgeSetMasks at h
    split at h <;> try cases h
    exact lk _ h rfl (fun _ => trivial)
  case recallScene =>
    have : ∀ n c, s.unlessEmpty n c = .accept out (some e) →
        (e.storeKind ≠ none → out = []) ∧ s.admits e ∧
      (e.storeKind = some .lock → Cmd.ofCode? code = some .setLock) := by
      intro n c h
      unfold State.unlessEmpty at h
      split at h <;> cases h
      exact ⟨fun _ => rfl, trivial, nofun⟩
    unfold judgeRecall at h
    split at h <;> try cases h
    all_goals
      split at h <;> try cases h
      exact this _ _ h
  case captureScene =>
    unfold judgeCapture at h
    split at h <;> try cases h
    split at h <;> try cases h
    obtain ⟨h1, rfl, h3, h4⟩ := unlessBusy_accept h
    exact ⟨fun _ => h1, ⟨h3, rfl, h4⟩, nofun⟩
  case saveConfig =>
    unfold judgeSaveConfig at h
    split at h <;> try cases h
    split at h <;> try cases h
    obtain ⟨h1, rfl, h3, h4⟩ := unlessBusy_accept h
    exact ⟨fun _ => h1, ⟨h3, rfl, h4⟩, nofun⟩
  case setLock =>
    unfold judgeSetLock at h
    split at h <;> try cases h
    obtain ⟨h1, rfl, h3, h4⟩ := unlessBusy_accept h
    exact ⟨fun _ => h1, ⟨h3, rfl, h4⟩, fun _ => hc⟩
  case eraseStore =>
    unfold judgeEraseStore at h
    split at h <;> try cases h
    obtain ⟨h1, rfl, h3, h4⟩ := unlessBusy_accept h
    exact ⟨fun _ => h1, ⟨h3, h4⟩, nofun⟩
  case force => unfold judgeForce at h; split at h <;> cases h; exact ⟨fun _ => rfl, trivial, nofun⟩
  case release => unfold judgeRelease at h; split at h <;> cases h; exact ⟨fun _ => rfl, trivial, nofun⟩
  case clearFaults => unfold judgeClearFaults at h; split at h <;> cases h; exact ⟨fun _ => rfl, trivial, nofun⟩
  case ackAttention => unfold judgeAck at h; split at h <;> cases h; exact ⟨fun _ => rfl, trivial, nofun⟩
  case standby => unfold judgeStandby at h; split at h <;> cases h; exact ⟨fun _ => rfl, trivial, nofun⟩
  case wake => unfold judgeWake at h; split at h <;> cases h; exact ⟨fun _ => rfl, trivial, nofun⟩
  case restart =>
    unfold judgeRestart at h
    split at h <;> try cases h
    split at h <;> try cases h
    rename_i hn
    simp only [not_or, Decidable.not_not] at hn
    exact ⟨fun _ => rfl, ⟨hn.2.1, hn.2.2⟩, nofun⟩
  case enumerate =>
    unfold judgeEnumerate at h
    split at h <;> try cases h
    split at h
    · exact lk _ h rfl (fun _ => trivial)
    · split at h <;> cases h
  case addressById =>
    unfold judgeAddressById at h
    split at h <;> try cases h
    split at h <;> try cases h
    split at h <;> try cases h
    split at h <;> try cases h
    exact lk _ h rfl (fun _ => trivial)

theorem answer_admits (s : State) (a tgt code params st out e)
    (h : (answerRecord s a tgt code params st).verdict = .accept out (some e)) :
    (e.storeKind ≠ none → out = []) ∧ s.admits e := by
  unfold answerRecord at h
  split at h
  · have k := judge_admits _ _ _ _ _ _ _ h
    exact ⟨k.1, k.2.1⟩
  · split at h
    · have k := judge_admits _ _ _ _ _ _ _ h
      exact ⟨k.1, k.2.1⟩
    · cases h

/-! ## Moves of the parser -/

theorem storeOnes_append (l m : List Staged) : storeOnes (l ++ m) = storeOnes l ++ storeOnes m := by
  unfold storeOnes; exact List.filter_append ..

/-- A byte that reserves nothing and stages the same store requests keeps the law. -/
theorem storeLaw_move {s : State} (h : StoreLaw s) (m : Executor) (p : Parser)
    (hr : m.reservations = s.me.reservations) (hc : m.coalesced = s.me.coalesced)
    (hk : m.restartMark = s.me.restartMark) (hp : m.parser = some p)
    (hs : storeOnes m.staged = storeOnes s.me.staged)
    (hn : ∀ out e, p.field = .rlen → p.answer.verdict = .accept out (some e) → e.storeKind ≠ none → out = [])
    (hrun : p.running = true → ∃ v, m.commits.getLast? = some (.enumerate v))
    (hrec : p.total ≤ 8 ∧ p.index ≤ p.total ∧ m.commits.length ≤ p.answered ∧ (p.field = .count ∨ 1 ≤ p.index)) :
    StoreLaw (s.setMe m) := by
  refine ⟨?_, ⟨?_, ?_, ?_, ?_, ?_, ?_, ?_, ?_⟩⟩
  · exact queueLaw_of h.queue hr rfl h.queue.idle h.queue.behind
  · intro k
    have := h.frame.places k
    rw [← joins_storeOnes] at this ⊢
    show joins k (s.queuedKind k && m.coalesced.contains k) (storeOnes m.staged) ≤ m.reservations.count k
    rw [hs, hc, hr]; exact this
  · intro k hk
    have hk : k ∈ s.me.reservations ∨ k ∈ s.me.coalesced := by rw [← hr, ← hc]; exact hk
    obtain ⟨e, he, h1, h2⟩ := h.frame.behind k hk
    have : e ∈ storeOnes s.me.staged := by
      unfold storeOnes; rw [List.mem_filter]; exact ⟨he, by simp [h1]⟩
    rw [← hs] at this
    exact ⟨e, (List.mem_filter.mp this).1, h1, h2⟩
  · intro hm
    show s.stc.queue = [] ∧ m.reservations = []
    rw [hr]; exact h.frame.restart (hk ▸ hm)
  · intro q out e hq
    have hq : m.parser = some q := hq
    rw [hp] at hq; cases hq
    exact hn out e
  · intro q hq
    have hq : m.parser = some q := hq
    rw [hp] at hq; cases hq
    exact hrun
  · intro q hq
    have hq : m.parser = some q := hq
    rw [hp] at hq; cases hq
    exact hrec
  · intro hq
    have hq : m.parser = none := hq
    rw [hp] at hq; cases hq
  · show m.commits.length ≤ 8
    have : p.answered ≤ p.index := by unfold Parser.answered; split <;> omega
    omega

/-- The next record, or the end of the body: the parser holds no decided write. -/
theorem nextRecord_parser (p : Parser) (hi : p.total ≤ 8 ∧ p.index ≤ p.total ∧ 1 ≤ p.index) :
    p.nextRecord.field ≠ .rlen ∧ p.nextRecord.field ≠ .count ∧ p.nextRecord.running = false ∧
    p.nextRecord.answered = p.index ∧
    p.nextRecord.total ≤ 8 ∧ p.nextRecord.index ≤ p.nextRecord.total ∧ 1 ≤ p.nextRecord.index := by
  unfold Parser.nextRecord
  split
  · refine ⟨by simp, by simp, rfl, by simp [Parser.answered], hi.1, ?_, ?_⟩ <;> dsimp only <;> omega
  · exact ⟨by simp, by simp, rfl, by simp [Parser.answered], hi.1, hi.2.1, hi.2.2⟩

theorem enterReply_parser (p : Parser) (q out run)
    (hi : p.total ≤ 8 ∧ p.index ≤ p.total ∧ 1 ≤ p.index) :
    (p.enterReply q out run).field ≠ .rlen ∧ (p.enterReply q out run).field ≠ .count ∧
    ((p.enterReply q out run).running = true → run = true) ∧ (p.enterReply q out run).answered = p.index ∧
    (p.enterReply q out run).total ≤ 8 ∧ (p.enterReply q out run).index ≤ (p.enterReply q out run).total ∧
    1 ≤ (p.enterReply q out run).index := by
  unfold Parser.enterReply
  split
  · obtain ⟨h1, h2, h3, h4, h5⟩ := nextRecord_parser { p with rlen := q } hi
    exact ⟨h1, h2, fun h => absurd (h3.symm.trans h) (by simp), h4, h5⟩
  · exact ⟨by simp, by simp, fun h => h, by simp [Parser.answered], hi⟩

theorem replyTaken_parser (p : Parser) (left out)
    (hi : p.total ≤ 8 ∧ p.index ≤ p.total ∧ 1 ≤ p.index) :
    (p.replyTaken left out).field ≠ .rlen ∧ (p.replyTaken left out).field ≠ .count ∧
    (p.replyTaken left out).running = false ∧ (p.replyTaken left out).answered = p.index ∧
    (p.replyTaken left out).total ≤ 8 ∧ (p.replyTaken left out).index ≤ (p.replyTaken left out).total ∧
    1 ≤ (p.replyTaken left out).index := by
  unfold Parser.replyTaken
  split
  · exact nextRecord_parser p hi
  · exact ⟨by simp, by simp, rfl, by simp [Parser.answered], hi⟩

theorem staged_noDecision (m : Executor) (p : Parser) (hp : m.parser = some p) (hf : p.field ≠ .rlen) :
    m.staged = m.commits := by
  have : m.decided = [] := by
    unfold Executor.decided
    rw [hp]
    dsimp only
    split
    · exact absurd ‹p.field = .rlen› hf
    · rfl
  unfold Executor.staged; rw [this, List.append_nil]

/-- A byte that only moves the parser away from and to fields with no decided write. -/
theorem storeLaw_walk {s : State} (h : StoreLaw s) (p q : Parser) (hp : s.me.parser = some p)
    (hf : p.field ≠ .rlen) (hq : q.field ≠ .rlen) (hrun : q.running = true → p.running = true)
    (hrec : q.total ≤ 8 ∧ q.index ≤ q.total ∧ p.answered ≤ q.answered ∧ (q.field = .count ∨ 1 ≤ q.index)) :
    StoreLaw (s.setMe { s.me with parser := some q }) := by
  have hr := h.frame.records p hp
  refine storeLaw_move h _ q rfl rfl rfl rfl ?_ (fun _ _ hl => absurd hl hq) ?_ ?_
  · rw [staged_noDecision s.me p hp hf, staged_noDecision _ q rfl hq]
  · intro hq; exact h.frame.running p hp (hrun hq)
  · exact ⟨hrec.1, hrec.2.1, by have := hr.2.2.1; have := hrec.2.2.1; dsimp only; omega, hrec.2.2.2⟩

/-! ## The status byte -/

/-- A record is accepted and reserves (R151, R170). -/
theorem storeLaw_reserve {s : State} (h : StoreLaw s) (p q : Parser) (e : Staged)
    (hp : s.me.parser = some p) (hf : p.field ≠ .rlen) (hq : q.field = .rlen) (out)
    (hv : q.answer.verdict = .accept out (some e)) (ho : e.storeKind ≠ none → out = [])
    (ha : s.admits e) (hrun : q.running = p.running)
    (hrec : q.total ≤ 8 ∧ q.index ≤ q.total ∧ p.answered ≤ q.answered ∧ 1 ≤ q.index) :
    StoreLaw (s.setMe (Executor.reserve { s.me with parser := some q } s e)) := by
  have hst : s.me.staged = s.me.commits := staged_noDecision s.me p hp hf
  have hr := h.frame.records p hp
  obtain ⟨hd, hc, he, hi, hb⟩ := h.queue
  have hpl := h.frame.places
  have hbh := h.frame.behind
  rw [hst] at hpl hbh
  have staged' : ∀ m : Executor, m.parser = some q → m.commits = s.me.commits →
      m.staged = s.me.commits ++ [e] := by
    intro m h1 h2
    unfold Executor.staged Executor.decided
    rw [h1, h2]; dsimp only; rw [hq, hv]
  -- everything but the places, the mark and the queue law is the same for every form
  have frame : ∀ m : Executor, m.parser = some q → m.commits = s.me.commits →
      (∀ k, joins k (s.queuedKind k && m.coalesced.contains k) (s.me.commits ++ [e]) ≤
        m.reservations.count k) →
      (∀ k, k ∈ m.reservations ∨ k ∈ m.coalesced → (k ∈ s.me.reservations ∨ k ∈ s.me.coalesced) ∨
        (e.storeKind = some k ∧ (e.placed = true ∨ e.coalesced = true))) →
      (m.restartMark = true → s.stc.queue = [] ∧ m.reservations = []) → FrameLaw (s.setMe m) := by
    intro m h1 h2 h3 h4 h5
    refine ⟨?_, ?_, h5, ?_, ?_, ?_, ?_, ?_⟩
    · intro k; show joins k _ m.staged ≤ _; rw [staged' m h1 h2]; exact h3 k
    · intro k hk
      show ∃ x ∈ m.staged, _
      rw [staged' m h1 h2]
      rcases h4 k hk with hk | hk
      · obtain ⟨x, hx, hxk⟩ := hbh k hk
        exact ⟨x, by simp [hx], hxk⟩
      · exact ⟨e, by simp, hk⟩
    · intro q' out' e' h6 _ h8
      have h6 : m.parser = some q' := h6
      rw [h1] at h6; cases h6
      rw [hv] at h8; cases h8
      exact ho
    · intro q' h6 h7
      have h6 : m.parser = some q' := h6
      rw [h1] at h6; cases h6
      show ∃ v, m.commits.getLast? = _
      rw [h2]; exact h.frame.running p hp (hrun ▸ h7)
    · intro q' h6
      have h6 : m.parser = some q' := h6
      rw [h1] at h6; cases h6
      refine ⟨hrec.1, hrec.2.1, ?_, .inr hrec.2.2.2⟩
      show m.commits.length ≤ _
      rw [h2]; have := hr.2.2.1; have := hrec.2.2.1; omega
    · intro h6
      have h6 : m.parser = none := h6
      rw [h1] at h6; cases h6
    · show m.commits.length ≤ 8; rw [h2]; exact h.frame.commits
  -- nothing is reserved
  have stay : (e.storeKind = none ∨ (e.placed = false ∧ e.coalesced = false) ∨
      (e.placed = false ∧ ∃ j, e.storeKind = some j ∧ j ∈ s.me.reservations)) →
      ∀ mark : Bool, (mark = true → s.stc.queue = [] ∧ s.me.reservations = []) →
      StoreLaw (s.setMe { s.me with parser := some q, restartMark := mark }) := by
    intro hk mark hm
    refine ⟨⟨hd, hc, he, hi, hb⟩, frame _ rfl rfl ?_ (fun k hk => .inl hk) hm⟩
    intro k
    refine le_trans (le_of_eq ?_) (hpl k)
    rcases hk with hk | hk | ⟨h1, j, h2, h3⟩
    · exact joins_append_other k _ e _ (.inl (by rw [hk]; simp))
    · exact joins_append_other k _ e _ (.inr hk)
    · by_cases hj : e.storeKind = some k
      · rw [h2] at hj; cases hj
        exact joins_append_coalesced _ _ e _ h1 (.inr (hbh _ (.inl h3)))
      · exact joins_append_other k _ e _ (.inl hj)
  -- a place is reserved
  have reserve : ∀ j, e.storeKind = some j → e.placed = true → s.me.restartMark = false →
      s.stc.queue.length + s.me.reservations.length + 1 ≤ 4 →
      (j = .config → s.queuedKind .config = false ∧ s.reservedKind .config = false) →
      (s.queuedKind .erase = true ∨ s.reservedKind .erase = true ∨ j = .erase →
        s.stc.queue.length + s.me.reservations.length = 0) →
      StoreLaw (s.setMe { s.me with parser := some q, reservations := s.me.reservations ++ [j] }) := by
    intro j h1 h2 h3 h4 h5 h6
    refine ⟨⟨?_, ?_, ?_, hi, hb⟩, frame _ rfl rfl ?_ ?_ ?_⟩
    · show s.stc.queue.length + (s.me.reservations ++ [j]).length ≤ 4
      rw [List.length_append, List.length_singleton]; omega
    · show _ + (s.me.reservations ++ [j]).count .config ≤ 1
      rw [List.count_append]
      by_cases hj : j = .config
      · obtain ⟨h7, h8⟩ := h5 hj
        have h9 : (s.stc.queue.map (·.kind)).count .config = 0 := by
          rw [List.count_eq_zero]
          intro hm
          rw [queuedKind_map] at h7
          simp only [List.any_eq_false, decide_eq_true_eq] at h7
          exact h7 _ hm rfl
        have h10 : s.me.reservations.count .config = 0 := by
          rw [List.count_eq_zero]
          intro hm
          unfold State.reservedKind at h8
          rw [List.contains_iff_mem.mpr hm] at h8; cases h8
        rw [hj, h10]
        show (s.stc.queue.map (·.kind)).count .config + _ ≤ 1
        rw [h9]; simp
      · have : ([j] : List StoreKind).count .config = 0 := by
          rw [List.count_eq_zero]; simpa using Ne.symm hj
        rw [this]; exact hc
    · intro hh
      show s.stc.queue.length + (s.me.reservations ++ [j]).length = 1
      rw [List.length_append, List.length_singleton]
      have : s.queuedKind .erase = true ∨ s.reservedKind .erase = true ∨ j = .erase := by
        rcases hh with hh | hh
        · exact .inl hh
        · right
          have hh : (s.me.reservations ++ [j]).contains .erase = true := hh
          rw [List.contains_iff_mem, List.mem_append, List.mem_singleton] at hh
          rcases hh with hh | hh
          · left; unfold State.reservedKind; exact List.contains_iff_mem.mpr hh
          · exact .inr hh.symm
      have := h6 this
      omega
    · intro k
      show joins k (s.queuedKind k && s.me.coalesced.contains k) _ ≤ (s.me.reservations ++ [j]).count k
      rw [List.count_append]
      by_cases hj : j = k
      · subst hj
        have := joins_append_one j s.me.commits e (s.queuedKind j && s.me.coalesced.contains j)
        have := hpl j
        rw [List.count_singleton_self]; omega
      · rw [joins_append_other k _ e _ (.inl (by rw [h1]; simpa using hj))]
        have := hpl k; omega
    · intro k hk
      have hk : k ∈ s.me.reservations ++ [j] ∨ k ∈ s.me.coalesced := hk
      rw [List.mem_append, List.mem_singleton] at hk
      rcases hk with (hk | rfl) | hk
      · exact .inl (.inl hk)
      · exact .inr ⟨h1, .inl h2⟩
      · exact .inl (.inr hk)
    · intro hm
      have hm : s.me.restartMark = true := hm
      rw [h3] at hm; cases hm
  -- a request coalesces into a queued entry
  have coalesce : ∀ j, e.storeKind = some j → e.placed = false → e.coalesced = true →
      s.queuedKind j = true → s.me.restartMark = false →
      StoreLaw (s.setMe { s.me with parser := some q, coalesced := s.me.coalesced ++ [j] }) := by
    intro j h1 h2 h3 h4 h5
    refine ⟨⟨hd, hc, he, hi, hb⟩, frame _ rfl rfl ?_ ?_ ?_⟩
    · intro k
      show joins k (s.queuedKind k && (s.me.coalesced ++ [j]).contains k) _ ≤ _
      have h6 := hpl k
      by_cases hj : j = k
      · subst hj
        have hin : (s.me.coalesced ++ [j]).contains j = true := by simp
        rw [h4] at h6 ⊢
        rw [hin, Bool.and_self, joins_append_coalesced j _ e _ h2 (.inl rfl)]
        rw [Bool.true_and] at h6
        have := (joins_le_succ j s.me.commits).1
        show _ ≤ s.me.reservations.count j
        cases hcj : s.me.coalesced.contains j
        · rw [hcj] at h6; omega
        · rw [hcj] at h6; omega
      · have hin : (s.me.coalesced ++ [j]).contains k = s.me.coalesced.contains k := by
          rw [Bool.eq_iff_iff]; simp only [List.contains_iff_mem, List.mem_append, List.mem_singleton]
          constructor
          · rintro (h | h)
            · exact h
            · exact absurd h.symm hj
          · exact .inl
        rw [hin, joins_append_other k _ e _ (.inl (by rw [h1]; simpa using hj))]
        exact h6
    · intro k hk
      have hk : k ∈ s.me.reservations ∨ k ∈ s.me.coalesced ++ [j] := hk
      rw [List.mem_append, List.mem_singleton] at hk
      rcases hk with hk | hk | rfl
      · exact .inl (.inl hk)
      · exact .inl (.inr hk)
      · exact .inr ⟨h1, .inr h3⟩
    · intro hm
      have hm : s.me.restartMark = true := hm
      rw [h5] at hm; cases hm
  have mark : s.me.restartMark = s.me.restartMark := rfl
  have notFull : s.queueFull = false → s.stc.queue.length + s.me.reservations.length + 1 ≤ 4 := by
    intro hn; unfold State.queueFull at hn; simp at hn; omega
  have room : ∀ a, s.acceptIfRoom = a → a ≠ .busy → a = .accept ∧ s.queueFull = false := by
    intro a h1 h2
    unfold State.acceptIfRoom at h1
    split at h1
    · exact absurd h1.symm h2
    · exact ⟨h1.symm, by simpa using ‹¬ s.queueFull = true›⟩
  have noErase : s.eraseBusy = false → ∀ j : StoreKind, j ≠ .erase →
      s.queuedKind .erase = true ∨ s.reservedKind .erase = true ∨ j = .erase →
      s.stc.queue.length + s.me.reservations.length = 0 := by
    intro h1 j h2 h3
    unfold State.eraseBusy at h1
    rw [Bool.or_eq_false_iff] at h1
    rw [h1.1, h1.2] at h3
    rcases h3 with h3 | h3 | h3
    · cases h3
    · cases h3
    · exact absurd h3 h2
  have reserved : ∀ j, s.reservedKind j = true → j ∈ s.me.reservations := by
    intro j h1; exact List.contains_iff_mem.mp h1
  cases e with
  | capture n f how =>
    obtain ⟨h1, h2, h3⟩ := ha
    unfold State.admitScene at h2
    split at h2
    · exact absurd h2 h3
    rename_i hne
    split at h2
    · rename_i hor
      subst h2
      unfold Executor.reserve; dsimp only
      split
      · rename_i hopen
        have hqk : s.queuedKind (.scene n) = true := by
          unfold State.sceneOpen at hopen; unfold State.queuedKind
          rw [List.any_eq_true] at hopen ⊢
          obtain ⟨x, hx, hx2⟩ := hopen
          exact ⟨x, hx, (Bool.and_eq_true_iff.mp hx2).1⟩
        exact coalesce _ rfl rfl rfl hqk h1
      · rename_i hopen
        have hres : s.reservedKind (.scene n) = true := by
          rcases Bool.or_eq_true_iff.mp hor with h | h
          · exact absurd h hopen
          · exact h
        exact stay (.inr (.inr ⟨rfl, _, rfl, reserved _ hres⟩)) s.me.restartMark h.frame.restart
    · obtain ⟨rfl, hfull⟩ := room _ h2.symm h3
      exact reserve _ rfl rfl h1 (notFull hfull) (by simp) (noErase (by simpa using hne) _ (by simp))
  | saveConfig how =>
    obtain ⟨h1, h2, h3⟩ := ha
    unfold State.admitConfig at h2
    split at h2
    · exact absurd h2 h3
    rename_i hne
    rw [Bool.or_eq_true, not_or] at hne
    split at h2
    · rename_i hor
      subst h2
      unfold Executor.reserve; dsimp only
      split
      · rename_i hqk
        exact coalesce _ rfl rfl rfl hqk h1
      · rename_i hopen
        have hres : s.reservedKind .config = true := by
          rcases Bool.or_eq_true_iff.mp hor with h | h
          · exact absurd h hopen
          · exact h
        exact stay (.inr (.inr ⟨rfl, _, rfl, reserved _ hres⟩)) s.me.restartMark h.frame.restart
    · rename_i hor
      obtain ⟨rfl, hfull⟩ := room _ h2.symm h3
      rw [Bool.or_eq_true, not_or] at hor
      exact reserve _ rfl rfl h1 (notFull hfull) (fun _ => by simpa using hor)
        (noErase (by simpa using hne.1) _ (by simp))
  | setLock how =>
    obtain ⟨h1, h2, h3⟩ := ha
    unfold State.admitLock at h2
    split at h2
    · exact absurd h2 h3
    rename_i hne
    split at h2
    · subst h2
      exact stay (.inr (.inl ⟨rfl, rfl⟩)) s.me.restartMark h.frame.restart
    split at h2
    · subst h2
      exact stay (.inr (.inl ⟨rfl, rfl⟩)) s.me.restartMark h.frame.restart
    · obtain ⟨rfl, hfull⟩ := room _ h2.symm h3
      exact reserve _ rfl rfl h1 (notFull hfull) (by simp) (noErase (by simpa using hne) _ (by simp))
  | eraseStore =>
    obtain ⟨h1, h3⟩ := ha
    unfold State.admitErase at h3
    split at h3
    · exact absurd rfl h3
    split at h3
    · rename_i hem
      rw [Bool.and_eq_true, List.isEmpty_iff, List.isEmpty_iff] at hem
      have hz : s.stc.queue.length + s.me.reservations.length = 0 := by rw [hem.1, hem.2]; rfl
      exact reserve _ rfl rfl h1 (by omega) (by simp) (fun _ => hz)
    · exact absurd rfl h3
  | restart => exact stay (.inl rfl) true (fun _ => ha)
  | _ => exact stay (.inl rfl) s.me.restartMark h.frame.restart

theorem storeLaw_takeStatus {s : State} (h : StoreLaw s) (p : Parser) (hp : s.me.parser = some p)
    (hf : p.field = .status) (a b) : StoreLaw (s.setMe (takeStatus s s.me p a b).me) := by
  have hr := h.frame.records p hp
  have hi : 1 ≤ p.index := by
    rcases hr.2.2.2 with h | h
    · rw [hf] at h; cases h
    · exact h
  have hpa : p.answered = p.index - 1 := by unfold Parser.answered; rw [hf]
  have none_ : ∀ v, (∀ out e, v ≠ .accept out (some e)) →
      (answerRecord s a p.target p.command p.params b).verdict = v →
      StoreLaw (s.setMe { s.me with parser := (some { p with
        field := .rlen, status := b, answer := answerRecord s a p.target p.command p.params b } : Option Parser) }) := by
    intro v hv he
    refine storeLaw_move h _ _ rfl rfl rfl rfl ?_ (fun out e _ h2 => absurd (he ▸ h2) (hv out e)) ?_
      ⟨hr.1, hr.2.1, ?_, .inr hi⟩
    · rw [staged_noDecision s.me p hp (by rw [hf]; simp)]
      have : Executor.decided { s.me with parser := (some { p with
        field := .rlen, status := b, answer := answerRecord s a p.target p.command p.params b } : Option Parser) } = [] := by
        unfold Executor.decided; dsimp only
        rw [he]
        split
        · exact absurd rfl (hv _ _)
        · rfl
      unfold Executor.staged; rw [this, List.append_nil]
    · exact h.frame.running p hp
    · have := hr.2.2.1; rw [hpa] at this; exact this
  unfold takeStatus
  dsimp only
  split
  · rename_i hv; exact none_ _ (by simp) hv
  · rename_i hv; exact none_ _ (by simp) hv
  · rename_i hv; exact none_ _ (by simp) hv
  · rename_i out e hv
    obtain ⟨h1, h2⟩ := answer_admits _ _ _ _ _ _ _ _ hv
    exact storeLaw_reserve h p _ e hp (by rw [hf]; simp) rfl out hv h1 h2 rfl
      ⟨hr.1, hr.2.1, by rw [hpa]; exact le_refl _, hi⟩

/-! ## The rlen byte and the reply -/

theorem withdraw_other (m : Executor) (e : Staged) (h : e.storeKind = none) : m.withdraw e = m := by
  cases e <;> first | rfl | cases h

theorem storeOnes_none (l : List Staged) (e : Staged) (h : e.storeKind = none) :
    storeOnes (l ++ [e]) = storeOnes l := by
  rw [storeOnes_append]
  have : storeOnes [e] = [] := by unfold storeOnes; simp [h]
  rw [this, List.append_nil]

theorem storeLaw_takeRoom {s : State} (h : StoreLaw s) (p : Parser) (hp : s.me.parser = some p)
    (hf : p.field = .rlen) (a q) : StoreLaw (s.setMe (takeRoom s.me p a q).me) := by
  have hr := h.frame.records p hp
  have hi : 1 ≤ p.index := by
    rcases hr.2.2.2 with h | h
    · rw [hf] at h; cases h
    · exact h
  have hpa : p.answered = p.index - 1 := by unfold Parser.answered; rw [hf]
  have hst : s.me.staged = s.me.commits ++ (match p.answer.verdict with
      | .accept _ (some e) => [e] | _ => []) := by
    unfold Executor.staged Executor.decided; rw [hp]; dsimp only; rw [hf]
    cases p.answer.verdict with
    | accept r st => cases st <;> rfl
    | untouched => rfl
    | refuse st => rfl
  have go : ∀ m : Executor, m.reservations = s.me.reservations → m.coalesced = s.me.coalesced →
      m.restartMark = s.me.restartMark → ∀ out run, storeOnes m.commits = storeOnes s.me.staged →
      m.commits.length ≤ s.me.commits.length + 1 →
      (run = true → ∃ v, m.commits.getLast? = some (.enumerate v)) →
      StoreLaw (s.setMe { m with parser := some (p.enterReply q out run) }) := by
    intro m h1 h2 h3 out run h4 h5 h6
    obtain ⟨e1, e2, e3, e4, e5, e6, e7⟩ := enterReply_parser p q out run ⟨hr.1, hr.2.1, hi⟩
    refine storeLaw_move h _ _ h1 h2 h3 rfl ?_ (fun _ _ hl => absurd hl e1) (fun hx => h6 (e3 hx))
      ⟨e5, e6, ?_, .inr e7⟩
    · rw [staged_noDecision _ _ rfl e1]; exact h4
    · rw [e4]; have := hr.2.2.1; dsimp only; omega
  unfold takeRoom
  split
  · rename_i hv
    exact go s.me rfl rfl rfl _ _ (by rw [hst, hv, List.append_nil]) (by omega) (by simp)
  · rename_i hv
    exact go s.me rfl rfl rfl _ _ (by rw [hst, hv, List.append_nil]) (by omega) (by simp)
  · rename_i reply staged hv
    split
    · rename_i hlt
      cases staged with
      | none => exact go s.me rfl rfl rfl _ _ (by rw [hst, hv, List.append_nil]) (by omega) (by simp)
      | some e =>
        have hk : e.storeKind = none := by
          by_contra hk
          have := h.frame.noRoom p reply e hp hf hv hk
          subst this
          cases e <;> first | exact hk rfl | simp [replyLength] at hlt
        dsimp only
        rw [withdraw_other _ _ hk]
        exact go s.me rfl rfl rfl _ _ (by rw [hst, hv]; exact (storeOnes_none _ _ hk).symm) (by omega) (by simp)
    · refine go { s.me with commits := s.me.commits ++ staged.toList } rfl rfl rfl _ _ ?_ ?_ ?_
      · rw [hst, hv]; cases staged <;> rfl
      · dsimp only; rw [List.length_append]; cases staged <;> simp
      · intro hx
        cases staged with
        | none => cases hx
        | some e =>
          cases e with
          | enumerate v => exact ⟨v, by simp⟩
          | _ => cases hx

theorem storeLaw_takeReply {s : State} (h : StoreLaw s) (p : Parser) (hp : s.me.parser = some p)
    (left) (hf : p.field = .reply left) (b) : StoreLaw (s.setMe (takeReply s.me p left b).me) := by
  have hr := h.frame.records p hp
  have hi : 1 ≤ p.index := by
    rcases hr.2.2.2 with h | h
    · rw [hf] at h; cases h
    · exact h
  have hpa : p.answered = p.index := by unfold Parser.answered; rw [hf]
  have hn : p.field ≠ .rlen := by rw [hf]; simp
  have hst := staged_noDecision s.me p hp hn
  have go : ∀ (l : List Staged) out, storeOnes l = storeOnes s.me.commits →
      l.length ≤ s.me.commits.length →
      StoreLaw (s.setMe { s.me with commits := l, parser := some (p.replyTaken left out) }) := by
    intro l out h4 h5
    obtain ⟨e1, e2, e3, e4, e5, e6, e7⟩ := replyTaken_parser p left out ⟨hr.1, hr.2.1, hi⟩
    refine storeLaw_move h _ _ rfl rfl rfl rfl ?_ (fun _ _ hl => absurd hl e1)
      (fun hx => by rw [e3] at hx; cases hx) ⟨e5, e6, ?_, .inr e7⟩
    · rw [staged_noDecision _ _ rfl e1, hst]; exact h4
    · rw [e4]; have := hr.2.2.1; dsimp only; omega
  unfold takeReply
  split
  · rename_i hrun
    obtain ⟨v, hv⟩ := h.frame.running p hp hrun
    obtain ⟨l, hl⟩ := List.getLast?_eq_some_iff.mp hv
    have hd : s.me.commits.dropLast = l := by rw [hl]; simp
    have h1 : storeOnes l = storeOnes s.me.commits := by rw [hl]; exact (storeOnes_none _ _ rfl).symm
    have h2 : l.length + 1 = s.me.commits.length := by rw [hl]; simp
    unfold takeRunning
    dsimp only
    rw [hd]
    split
    · split
      · exact go l _ h1 (by omega)
      · exact go (l ++ [_]) _ (by rw [storeOnes_none _ _ rfl]; exact h1) (by simp; omega)
    · exact go l _ h1 (by omega)
  · split
    · exact go s.me.commits _ rfl (le_refl _)
    · exact go s.me.commits _ rfl (le_refl _)

/-- The Executor takes one body byte (R25 to R27). -/
theorem storeLaw_takeBodyByte {s : State} (h : StoreLaw s) (p : Parser) (hp : s.me.parser = some p)
    (a r b) : StoreLaw (s.setMe (takeBodyByte s s.me p a r b).me) := by
  have hr := h.frame.records p hp
  have hi : p.field ≠ .count → 1 ≤ p.index := fun hn => hr.2.2.2.resolve_left hn
  unfold takeBodyByte
  split
  · rename_i hf
    split
    · exact h
    · rename_i hb
      exact storeLaw_walk h p _ hp (by rw [hf]; simp) (by simp) id
        ⟨by dsimp only; omega, by dsimp only; omega, by unfold Parser.answered; rw [hf]; exact Nat.zero_le _,
          .inr (by dsimp only; omega)⟩
  · rename_i hf
    exact storeLaw_walk h p _ hp (by rw [hf]; simp) (by simp) id
      ⟨hr.1, hr.2.1, by unfold Parser.answered; rw [hf], .inr (hi (by rw [hf]; simp))⟩
  · rename_i hf
    exact storeLaw_walk h p _ hp (by rw [hf]; simp) (by simp) id
      ⟨hr.1, hr.2.1, by unfold Parser.answered; rw [hf], .inr (hi (by rw [hf]; simp))⟩
  · rename_i hf
    split
    · exact h
    split
    · exact storeLaw_walk h p _ hp (by rw [hf]; simp) (by simp) id
        ⟨hr.1, hr.2.1, by unfold Parser.answered; rw [hf], .inr (hi (by rw [hf]; simp))⟩
    · exact storeLaw_walk h p _ hp (by rw [hf]; simp) (by simp) id
        ⟨hr.1, hr.2.1, by unfold Parser.answered; rw [hf], .inr (hi (by rw [hf]; simp))⟩
  · rename_i left hf
    refine storeLaw_walk h p _ hp (by rw [hf]; simp) ?_ id
      ⟨hr.1, hr.2.1, ?_, .inr (hi (by rw [hf]; simp))⟩
    · dsimp only; split <;> simp
    · unfold Parser.answered; rw [hf]; by_cases hl : left = 1 <;> simp [hl]
  · rename_i hf; exact storeLaw_takeStatus h p hp hf a b
  · rename_i hf
    split
    · exact h
    · exact storeLaw_takeRoom h p hp hf a _
  · rename_i left hf; exact storeLaw_takeReply h p hp left hf b
  · exact h

/-! ## Characters (R4 to R14) -/

theorem storeLaw_holdChar {s : State} (h : StoreLaw s) (f p full) : StoreLaw (s.holdChar f p full) :=
  storeLaw_of h rfl

theorem storeLaw_endsEarly {s : State} (h : StoreLaw s) (o) : StoreLaw (s.endsEarly o) := by
  unfold State.endsEarly
  refine storeLaw_frameEnds ?_ o
  exact storeLaw_of h rfl

theorem storeLaw_startFrame {s : State} (h : StoreLaw s) (k e f) : StoreLaw (s.startFrame k e f) := by
  unfold State.startFrame
  refine storeLaw_fresh h rfl (if k = managementKind then some Parser.begin else none) ?_ rfl
  intro q hq; split at hq <;> cases hq; rfl

theorem storeLaw_takeOpener {s : State} (h : StoreLaw s) (d e f) : StoreLaw (s.takeOpener d e f) := by
  unfold State.takeOpener
  dsimp only
  have : StoreLaw (match s.lpu.tracker with
    | .frame _ => s.endsEarly .truncated
    | .idle => s
    | .pass => s) := by
    split
    · exact storeLaw_endsEarly h _
    · exact h
    · exact h
  refine storeLaw_startFrame ?_ _ _ _
  exact storeLaw_of this rfl

theorem storeLaw_bodyEnds {s : State} (h : StoreLaw s) (f) : StoreLaw (s.bodyEnds f).1 := by
  unfold State.bodyEnds
  split
  · exact h
  split
  · split
    · exact h
    · exact storeLaw_of h rfl
  split
  · split
    · exact h
    · exact h
  · exact h

theorem storeLaw_consume {s : State} (h : StoreLaw s) (f d) : StoreLaw (s.consume f d).1 := by
  unfold State.consume
  split
  · exact h
  split
  · split
    · exact h
    · exact storeLaw_of h rfl
  split
  · split
    · exact h
    · rename_i p hp
      exact storeLaw_of (storeLaw_takeBodyByte h p hp _ _ _) rfl
  · exact h

theorem storeLaw_takeFrameChar {s : State} (h : StoreLaw s) (f d e fu) :
    StoreLaw (s.takeFrameChar f d e fu) := by
  unfold State.takeFrameChar
  dsimp only
  split
  · unfold State.takeHead; dsimp only
    split
    · exact storeLaw_holdChar h _ _ _
    split
    · exact storeLaw_of (storeLaw_endsEarly h .overlong) rfl
    split
    · exact storeLaw_holdChar (storeLaw_bodyEnds h _) _ _ _
    · exact storeLaw_holdChar h _ _ _
  · unfold State.takeBody; dsimp only
    split
    · exact storeLaw_holdChar (storeLaw_bodyEnds (storeLaw_consume h _ _) _) _ _ _
    · exact storeLaw_holdChar (storeLaw_consume h _ _) _ _ _
  · unfold State.takeTrail
    split
    · unfold State.takeAttention; dsimp only
      split
      · exact storeLaw_of h rfl
      · exact storeLaw_of h rfl
    split
    · exact storeLaw_of h rfl
    · unfold State.takeLastCrc; dsimp only
      refine storeLaw_frameEnds ?_ _
      exact storeLaw_of h rfl

theorem storeLaw_receive {s : State} (h : StoreLaw s) (c) : StoreLaw (s.receive c) := by
  unfold State.receive
  split
  · exact storeLaw_of h rfl
  split
  · exact h
  unfold State.takeChar
  dsimp only
  have h1 : StoreLaw (s.setLpu { s.lpu with
    rx := if c.stop then .hunting else .awaitStop
    counters := s.lpu.counters.countArrival (charError c) s.bufferFull }) := storeLaw_of h rfl
  split
  · exact storeLaw_takeOpener h1 _ _ _
  · split
    · exact storeLaw_of h1 rfl
    · exact storeLaw_of h1 rfl
    · exact storeLaw_takeFrameChar h1 _ _ _ _

theorem storeLaw_transmit {s : State} (h : StoreLaw s) : StoreLaw s.transmit := by
  unfold State.transmit
  split
  · split
    · exact storeLaw_of h rfl
    · exact h
  · exact h

theorem storeLaw_charSent {s : State} (h : StoreLaw s) : StoreLaw s.charSent := by
  unfold State.charSent
  split
  · exact h
  · unfold State.frameForwarded
    split
    · exact storeLaw_resetNode _
    · exact storeLaw_of h rfl

theorem storeLaw_keepPaceN (n) {s : State} (h : StoreLaw s) : StoreLaw (s.keepPaceN n) := by
  induction n generalizing s with
  | zero => exact h
  | succ n ih => exact ih (storeLaw_charSent (storeLaw_transmit h))

theorem storeLaw_passFrame {s : State} (h : StoreLaw s) (k b t) : StoreLaw (s.passFrame k b t) :=
  foldl_preserves (P := StoreLaw) State.pass
    (fun _ c h => storeLaw_receive (storeLaw_keepPaceN _ (storeLaw_charSent h)) c) _ h

theorem storeLaw_stall {s : State} (h : StoreLaw s) : StoreLaw s.stall := by
  unfold State.stall
  split
  · split
    · exact storeLaw_endsEarly h _
    · exact h
  · exact h
  · exact h

end Sys2Proof.Machine
end

