-- ==== Sys2Proof/Laws/Lock.lean ====
section
/-! SUPPORT. What every shared operation does to the live lock (R156): a commit of SET_LOCK sets it, the load
at START takes it from page 0, and nothing else in a frame's passage changes it. -/

namespace Sys2Proof.Machine

theorem lock_of {s t : State} (e : t.storeSide = s.storeSide) : t.stc.lock = s.stc.lock :=
  congrArg Store.lock (Prod.mk.inj e).1

theorem lock_startWork (s : State) (w) : (s.startWork w).stc.lock = s.stc.lock :=
  (startWork_queue s w).2.2.2.2.2

theorem lock_startHead (s : State) : s.startHead.stc.lock = s.stc.lock := by
  unfold State.startHead; split
  · exact lock_startWork _ _
  · rfl

theorem lock_endEntry (s : State) : s.endEntry.stc.lock = s.stc.lock := by
  unfold State.endEntry; split
  · rfl
  · dsimp only; split <;> rw [lock_startHead] <;> rfl

theorem lock_pageEnded (s : State) (p) : (s.pageEnded p).stc.lock = s.stc.lock := by
  unfold State.pageEnded; split
  · exact lock_startWork _ _
  · exact lock_endEntry _

theorem lock_storeFails (s : State) (w c) : (s.storeFails w c).stc.lock = s.stc.lock := by
  unfold State.storeFails; dsimp only
  rw [lock_endEntry]
  unfold State.spoil; split <;> rfl

theorem lock_evaluateSupply (s : State) (mv) : (s.evaluateSupply mv).stc.lock = s.stc.lock := by
  unfold State.evaluateSupply
  split
  · split <;> rfl
  · split
    · unfold State.preUvEnded; split
      · rw [lock_startWork]; rfl
      · rfl
      · rfl
    · rfl

/-! ## Node reset and the load (R133, R148) -/

/-- The node is in START, and the live lock is as page 0 says. -/
def LockLoaded (t : State) : Prop :=
  t.mc.mode = .start ∧ (t.stc.lock = true ↔ (t.page 0).classify 0 ≠ .blank)

theorem lockFromPage_iff (pg : Page) : lockFromPage pg = true ↔ pg.classify 0 ≠ .blank := by
  unfold lockFromPage; split <;> rename_i h <;> simp [h]

theorem lock_nodeReset (s : State) : s.nodeReset.stc.lock = s.stc.lock := by
  unfold State.nodeReset State.cutOffStore; dsimp only
  split <;> rfl

theorem lock_leaveReset (s : State) : s.leaveReset.stc.lock = s.stc.lock ∨ LockLoaded s.leaveReset := by
  unfold State.leaveReset
  split
  · right
    have h : ∀ x : State, x.loadStore.stc.pages = x.stc.pages ∧
        x.loadStore.stc.lock = lockFromPage (x.page 0) ∧ x.loadStore.mc = x.mc := by
      intro x
      unfold State.loadStore; dsimp only
      refine ⟨?_, ?_, ?_⟩
      · rw [congrArg Store.pages (Prod.mk.inj (storeSide_retargetPark _ _)).1]
      · rw [congrArg Store.lock (Prod.mk.inj (storeSide_retargetPark _ _)).1]
      · unfold State.retargetPark
        rw [foldl_keeps _ State.mc (by intro s a; split <;> rfl)]
    unfold State.enterStart
    dsimp only
    generalize hx : (State.setLpu _ _ : State) = x
    obtain ⟨h1, h2, h3⟩ := h x
    generalize x.loadStore = y at h1 h2 h3
    refine ⟨?_, ?_⟩
    · show y.mc.mode = .start
      rw [h3, ← hx]; rfl
    · show y.stc.lock = true ↔ (y.page 0).classify 0 ≠ .blank
      rw [h2]
      unfold State.page
      rw [h1]
      exact lockFromPage_iff _
  · exact .inl rfl

/-- A node reset keeps the live lock, until the load where nothing holds the node in RESET (R156). -/
theorem lock_resetNode (s : State) : s.resetNode.stc.lock = s.stc.lock ∨ LockLoaded s.resetNode := by
  unfold State.resetNode
  rw [← lock_nodeReset s]
  exact lock_leaveReset _

theorem link_leaveReset (s : State) :
    s.leaveReset.lpu.bypass = s.lpu.bypass ∧ s.leaveReset.lpu.tx = s.lpu.tx ∧
      s.leaveReset.lpu.buffer = s.lpu.buffer := by
  unfold State.leaveReset
  split
  · have h : ∀ x : State, x.loadStore.lpu = x.lpu := by
      intro x; unfold State.loadStore State.retargetPark; dsimp only
      rw [foldl_keeps _ State.lpu (by intro s a; split <;> rfl)]
    unfold State.enterStart; dsimp only
    generalize hx : (State.setLpu _ _ : State) = x
    have h := h x
    generalize x.loadStore = y at h
    show y.lpu.bypass = _ ∧ y.lpu.tx = _ ∧ y.lpu.buffer = _
    rw [h, ← hx]
    exact ⟨rfl, rfl, rfl⟩
  · exact ⟨rfl, rfl, rfl⟩

/-- A node reset closes the bypass and empties the link (R7). -/
theorem link_resetNode (s : State) :
    s.resetNode.lpu.bypass = true ∧ s.resetNode.lpu.tx = none ∧ s.resetNode.lpu.buffer = [] := by
  unfold State.resetNode
  obtain ⟨h1, h2, h3⟩ := link_leaveReset s.nodeReset
  rw [h1, h2, h3]
  exact ⟨rfl, rfl, rfl⟩

theorem lock_linkReset (s : State) : s.linkReset.stc.lock = s.stc.lock ∨ LockLoaded s.linkReset := by
  unfold State.linkReset; dsimp only
  split
  · exact lock_resetNode _
  · exact .inl rfl

/-- A long low pulse resets the node with the pin still low, so that nothing is loaded (R132). -/
theorem lock_longPulse (s : State) : s.longPulse.stc.lock = s.stc.lock := by
  unfold State.longPulse
  split
  · rename_i h
    dsimp only; split
    · rfl
    · unfold State.resetNode State.leaveReset
      rw [if_neg]
      · exact lock_nodeReset _
      · intro hc
        have : (s.setMc { s.mc with longReached := true }).nodeReset.pins.rstnLow = s.pins.rstnLow := by
          unfold State.nodeReset State.cutOffStore; dsimp only; split <;> rfl
        rw [this, h.1] at hc
        exact absurd hc.2.2 (by decide)
  · rfl

theorem lock_releaseRstn (s : State) (n) :
    (s.releaseRstn n).stc.lock = s.stc.lock ∨ LockLoaded (s.releaseRstn n) := by
  unfold State.releaseRstn; dsimp only
  split
  · split
    · exact lock_linkReset { s with
        pins := { s.pins with rstnLow := false }
        mc := { s.mc with timingLow := false, longReached := false } }
    · exact .inl rfl
  · exact lock_leaveReset { s with
      pins := { s.pins with rstnLow := false }
      mc := { s.mc with timingLow := false, longReached := false } }

/-! ## Commits (R156, R162) -/

theorem lock_apply (s : State) (e : Staged) :
    (s.apply e).stc.lock = if e = .setLock .accept then true else s.stc.lock := by
  by_cases he : e = .setLock .accept
  · subst he; rfl
  rw [if_neg he]
  cases e with
  | capture n f how =>
    cases how <;> try rfl
    dsimp only [State.apply, State.commitCapture]
    split
    · rfl
    · split <;> rfl
  | saveConfig how =>
    cases how <;> try rfl
    dsimp only [State.apply, State.commitSaveConfig]
    split
    · rfl
    · split <;> rfl
  | setLock how => cases how <;> first | rfl | exact absurd rfl he
  | eraseStore => rfl
  | _ => exact lock_of (storeSide_apply s _ rfl)

theorem lock_commits (l : List Staged) (s : State) :
    (l.foldl State.apply s).stc.lock = if .setLock .accept ∈ l then true else s.stc.lock := by
  induction l generalizing s with
  | nil => simp
  | cons e l ih =>
    rw [List.foldl_cons, ih, lock_apply]
    by_cases h1 : Staged.setLock .accept ∈ l
    · rw [if_pos h1, if_pos (List.mem_cons_of_mem _ h1)]
    · rw [if_neg h1]
      by_cases h2 : e = .setLock .accept
      · rw [if_pos h2, if_pos (by rw [h2]; exact List.mem_cons_self ..)]
      · rw [if_neg h2, if_neg (by rw [List.mem_cons]; rintro (h | h); exacts [h2 h.symm, h1 h])]

/-- A frame's end sets the lock exactly where it commits a SET_LOCK (R156). -/
theorem lock_frameEnds (s : State) (o) :
    (s.frameEnds o).stc.lock =
      if o = .good ∧ Staged.setLock .accept ∈ s.me.commits then true else s.stc.lock := by
  unfold State.frameEnds
  dsimp only
  by_cases ho : o = .good
  case neg => rw [decide_eq_false ho, if_neg (by simp), if_neg (fun h => ho h.1)]; rfl
  rw [decide_eq_true ho, if_pos rfl]
  have hme : s.handOver.me = s.me := (Prod.mk.inj (storeSide_handOver s)).2
  have hl : s.handOver.stc.lock = s.stc.lock := lock_of (storeSide_handOver s)
  generalize s.handOver = x at hme hl
  show (x.commitAll s.me.commits).stc.lock = _
  unfold State.commitAll; dsimp only
  generalize hy : s.me.commits.foldl State.apply x = y
  have h1 : y.stc.lock = if .setLock .accept ∈ s.me.commits then true else s.stc.lock := by
    rw [← hy, lock_commits, hl]
  have h2 : (if s.me.commits.any Staged.shapes = true then y.reshape else y).stc.lock = y.stc.lock := by
    split
    · exact lock_of (storeSide_reshape y)
    · rfl
  have h3 : (if o = .good ∧ Staged.setLock .accept ∈ s.me.commits then true else s.stc.lock) =
      (if .setLock .accept ∈ s.me.commits then true else s.stc.lock) := by simp [ho]
  rw [h3, ← h1, ← h2]
  split
  · exact lock_startHead _
  · rfl

/-! ## A character (R9 to R12) -/

theorem lock_endsEarly (s : State) (o) (ho : o ≠ .good) : (s.endsEarly o).stc.lock = s.stc.lock := by
  unfold State.endsEarly
  rw [lock_frameEnds, if_neg (fun h => ho h.1)]; rfl

theorem lock_bodyEnds (s : State) (f) :
    (s.bodyEnds f).1.stc = s.stc ∧ (s.bodyEnds f).1.me = s.me ∧ (s.bodyEnds f).2.kind = f.kind ∧
      (s.bodyEnds f).2.phase = f.phase := by
  unfold State.bodyEnds
  split
  · exact ⟨rfl, rfl, rfl, rfl⟩
  split
  · split <;> exact ⟨rfl, rfl, rfl, rfl⟩
  split
  · split <;> exact ⟨rfl, rfl, rfl, rfl⟩
  · exact ⟨rfl, rfl, rfl, rfl⟩

/-- What a body byte does to the store, the Executor and the format mark (R11): the parser takes it in a
management frame without a format fault, and otherwise nothing of the Executor changes. -/
theorem lock_consume (s : State) (f d) :
    (s.consume f d).1.stc = s.stc ∧
    (((s.consume f d).1.me = s.me ∧ (f.format = true → (s.consume f d).2.2 = true) ∧
        (f.kind = managementKind → f.format = true ∨ s.me.parser = none)) ∨
      ∃ p q, f.kind = managementKind ∧ f.format = false ∧ s.me.parser = some p ∧
        (s.consume f d).1.me = (takeBodyByte s s.me p f.address q d).me ∧
        (s.consume f d).2.2 = (takeBodyByte s s.me p f.address q d).fault) := by
  unfold State.consume
  split
  · rename_i hf
    exact ⟨rfl, .inl ⟨rfl, fun _ => rfl, fun _ => .inl hf⟩⟩
  rename_i hf
  split
  · rename_i hk
    have hn : f.kind = managementKind → f.format = true ∨ s.me.parser = none := by
      rw [hk]; intro h; exact absurd h (by decide)
    split
    · exact ⟨rfl, .inl ⟨rfl, fun h => absurd h hf, hn⟩⟩
    · exact ⟨rfl, .inl ⟨rfl, fun h => absurd h hf, hn⟩⟩
  split
  · rename_i hk
    split
    · rename_i hp
      exact ⟨rfl, .inl ⟨rfl, fun h => absurd h hf, fun _ => .inr hp⟩⟩
    · rename_i p hp
      exact ⟨rfl, .inr ⟨p, _, hk, by simpa using hf, hp, rfl, rfl⟩⟩
  · rename_i hk
    exact ⟨rfl, .inl ⟨rfl, fun h => absurd h hf, fun h => absurd h hk⟩⟩

/-- The next character of a frame in passage, and the frame's end, as far as the lock can see them: `A`
holds of the lock, and `Q` of the frame that goes on. -/
def Rides (A : Bool → Prop) (Q : FrameCtx → Executor → Prop) (t : State) : Prop :=
  A t.stc.lock ∧ ∀ g, t.lpu.tracker = .frame g → Q g t.me

/-- The commit list holds no accepted SET_LOCK, and while the body is read without a format fault `P` holds. -/
def Calm (P : FrameCtx → Executor → Prop) (f : FrameCtx) (m : Executor) : Prop :=
  Staged.setLock .accept ∉ m.commits ∧ (f.phase = .trail ∨ (f.phase = .body ∧ f.format = true) ∨ P f m)

theorem rides_holdChar {A Q} (s : State) (f : FrameCtx) (p full) (h : A s.stc.lock)
    (q : Q { f with txCrc := feedSent f.txCrc s.lpu.buffer } s.me) : Rides A Q (s.holdChar f p full) := by
  refine ⟨h, ?_⟩
  intro g hg
  cases hg
  exact q

theorem rides_bodyEnds {A P} (s : State) (f : FrameCtx) (p full) (hp : f.phase = .trail)
    (hA : A s.stc.lock) (hc : Staged.setLock .accept ∉ s.me.commits) :
    Rides A (Calm P) ((s.bodyEnds f).1.holdChar (s.bodyEnds f).2 p full) := by
  obtain ⟨h1, h2, _, h4⟩ := lock_bodyEnds s f
  refine rides_holdChar _ _ _ _ (h1 ▸ hA) ?_
  rw [h2]
  exact ⟨hc, .inl (h4.trans hp)⟩

theorem rides_takeTrail {A : Bool → Prop} {P} (s : State) (f : FrameCtx) (d full) (hp : f.phase = .trail)
    (hA : A s.stc.lock) (hc : Staged.setLock .accept ∉ s.me.commits) :
    Rides A (Calm P) (s.takeTrail f d full) := by
  unfold State.takeTrail
  split
  · unfold State.takeAttention; dsimp only
    split
    · exact rides_holdChar _ _ _ _ hA ⟨hc, .inl hp⟩
    · exact rides_holdChar _ _ _ _ hA ⟨hc, .inl hp⟩
  split
  · exact rides_holdChar _ _ _ _ hA ⟨hc, .inl hp⟩
  · refine ⟨?_, fun g hg => ?_⟩
    · unfold State.takeLastCrc; dsimp only
      rw [lock_frameEnds, if_neg (fun h => hc h.2)]; exact hA
    · exact absurd hg (by unfold State.takeLastCrc State.frameEnds; simp)

/-- A body byte: the frame goes on as `P'` says, given what the parser makes of the byte (R11, R26). -/
theorem rides_takeBody {A P'} (s : State) (f : FrameCtx) (d full)
    (hA : A s.stc.lock) (hc : Staged.setLock .accept ∉ s.me.commits) (hp : f.phase = .body)
    (h : f.format = true ∨
      (f.kind ≠ managementKind ∧ ∀ g : FrameCtx, g.phase = .body → g.kind = f.kind → P' g s.me) ∨
      ∃ p, f.kind = managementKind ∧ s.me.parser = some p ∧ ∀ q a,
        Staged.setLock .accept ∉ (takeBodyByte s s.me p a q d).me.commits ∧
          ((takeBodyByte s s.me p a q d).fault = true ∨ ∀ g : FrameCtx, g.phase = .body →
            g.kind = f.kind → P' g (takeBodyByte s s.me p a q d).me)) :
    Rides A (Calm P') (s.takeBody f d full) := by
  unfold State.takeBody; dsimp only
  obtain ⟨h1, h2⟩ := lock_consume s { f with rxCrc := crcByte f.rxCrc d } d
  generalize hk : s.consume { f with rxCrc := crcByte f.rxCrc d } d = k at h1 h2
  have key : Staged.setLock .accept ∉ k.1.me.commits ∧
      (k.2.2 = true ∨ ∀ g : FrameCtx, g.phase = .body → g.kind = f.kind → P' g k.1.me) := by
    rcases h2 with ⟨e, hf, hn⟩ | ⟨p, q, hm, hf, hpar, e, ef⟩
    · rw [e]
      refine ⟨hc, ?_⟩
      rcases h with h | ⟨_, h⟩ | ⟨p, hm, hpar, _⟩
      · exact .inl (hf h)
      · exact .inr h
      · rcases hn hm with h | h
        · exact .inl (hf h)
        · rw [hpar] at h; cases h
    · rw [e, ef]
      rcases h with h | ⟨h, _⟩ | ⟨p', _, hpar', h⟩
      · rw [h] at hf; cases hf
      · exact absurd hm h
      · rw [hpar] at hpar'; cases hpar'; exact h q f.address
  split
  · rw [← h1] at hA
    exact rides_bodyEnds _ _ _ _ rfl hA key.1
  · refine rides_holdChar _ _ _ _ (h1 ▸ hA) ⟨key.1, ?_⟩
    rcases key.2 with e | e
    · exact .inr (.inl ⟨hp, e⟩)
    · exact .inr (.inr (e _ hp rfl))

theorem rides_takeHead {A : Bool → Prop} {P} (s : State) (f : FrameCtx) (d full)
    (hA : A s.stc.lock) (hc : Staged.setLock .accept ∉ s.me.commits) (hp : f.phase = .head)
    (h : if f.position = 1
      then ∀ g : FrameCtx, g.phase = .head → g.position = 1 → g.kind = f.kind → P g s.me
      else ∀ g : FrameCtx, g.phase = .body → g.kind = f.kind → P g s.me) :
    Rides A (Calm P) (s.takeHead f d full) := by
  unfold State.takeHead; dsimp only
  by_cases h1 : f.position = 1
  · rw [if_pos h1] at h
    rw [if_pos (show (f.feedLength d full).position = 1 from h1)]
    exact rides_holdChar _ _ _ _ hA ⟨hc, .inr (.inr (h _ hp h1 rfl))⟩
  rw [if_neg h1] at h
  rw [if_neg (show ¬ (f.feedLength d full).position = 1 from h1)]
  split
  · refine ⟨?_, fun g hg => by cases hg⟩
    exact (lock_endsEarly s .overlong (by decide)).symm ▸ hA
  split
  · exact rides_bodyEnds _ _ _ _ rfl hA hc
  · exact rides_holdChar _ _ _ _ hA ⟨hc, .inr (.inr (h _ rfl rfl))⟩

/-! ## Whole frames (log 1) -/

/-- The node was reset on the way, and the bypass now passes the line through (R7). -/
def Bypassed (A : Bool → Prop) (t : State) : Prop :=
  t.lpu.bypass = true ∧ t.lpu.tx = none ∧ t.lpu.buffer = [] ∧ (A t.stc.lock ∨ LockLoaded t)

/-- A state within the passage of a whole frame: the bypass is closed, or the receiver takes no
character, or the frame is where `Q` says. -/
def OnItsWay (A : Bool → Prop) (Q : FrameCtx → Executor → Prop) (t : State) : Prop :=
  Bypassed A t ∨
    (A t.stc.lock ∧ (t.lpu.bypass = true ∨ t.lpu.rx = .awaitStop ∨
      ∀ g, t.lpu.tracker = .frame g → Q g t.me))

theorem OnItsWay.end {A Q} {t : State} (h : OnItsWay A Q t) : A t.stc.lock ∨ LockLoaded t := by
  rcases h with h | h
  · exact h.2.2.2
  · exact .inl h.1

theorem onItsWay_transmit {A Q} {s : State} (h : OnItsWay A Q s) : OnItsWay A Q s.transmit := by
  unfold State.transmit
  split
  · rename_i p rest ht hb
    split
    · rcases h with h | h
      · rw [h.2.2.1] at hb; cases hb
      · exact .inr h
    · exact h
  · exact h

theorem onItsWay_charSent {A Q} {s : State} (h : OnItsWay A Q s) : OnItsWay A Q s.charSent := by
  unfold State.charSent
  split
  · exact h
  rename_i p hp
  rcases h with h | h
  · rw [h.2.1] at hp; cases hp
  unfold State.frameForwarded
  split
  · left
    refine ⟨(link_resetNode _).1, (link_resetNode _).2.1, (link_resetNode _).2.2, ?_⟩
    rcases lock_resetNode (s.setLpu { s.lpu with
      tx := none, lout := s.lpu.lout ++ [freshChar p.sent p.mark] }) with e | e
    · exact .inl (e ▸ h.1)
    · exact .inr e
  · exact .inr h

theorem onItsWay_keepPace {A Q} {s : State} (h : OnItsWay A Q s) : OnItsWay A Q s.keepPace := by
  have : ∀ n (x : State), OnItsWay A Q x → OnItsWay A Q (State.keepPaceN n x) := by
    intro n
    induction n with
    | zero => intro x h; exact h
    | succ n ih => intro x h; exact ih _ (onItsWay_charSent (onItsWay_transmit h))
  exact this _ _ (onItsWay_charSent h)

/-- A received good character meets the tracker, the store and the Executor as they stood. -/
theorem takeChar_fresh (s : State) (d : Byte) (m : Bool) :
    ∃ (x : State) (err full : Bool), x.stc = s.stc ∧ x.me = s.me ∧ x.lpu.tracker = s.lpu.tracker ∧
      s.takeChar (freshChar d m) =
        if m then x.takeOpener d err full
        else match s.lpu.tracker with
          | .idle => x.takeStray d full
          | .pass => x.takeStray d full
          | .frame f => x.takeFrameChar f d err full :=
  ⟨s.setLpu { s.lpu with
      rx := .hunting, counters := s.lpu.counters.countArrival (charError (freshChar d m)) s.bufferFull },
    charError (freshChar d m), s.bufferFull, rfl, rfl, rfl, by cases m <;> rfl⟩

/-- One good character with M = 0 that arrives back to back. -/
theorem onItsWay_pass {A Q Q'} {s : State} (d : Byte) (h : OnItsWay A Q s)
    (step : ∀ (x : State) f e full, A x.stc.lock → Q f x.me →
      Rides A Q' (x.takeFrameChar f d e full)) : OnItsWay A Q' (s.pass (freshChar d false)) := by
  have h := onItsWay_keepPace h
  unfold State.pass
  generalize s.keepPace = s at h
  unfold State.receive
  by_cases hb : s.lpu.bypass = true
  · rw [if_pos hb]
    rcases h with h | h
    · exact .inl h
    · exact .inr ⟨h.1, .inl hb⟩
  rw [if_neg hb]
  rcases h with h | ⟨hA, h⟩
  · exact absurd h.1 hb
  split
  · rename_i hr; exact .inr ⟨hA, .inr (.inl hr)⟩
  rename_i hr
  rcases h with h | h | h
  · exact absurd h hb
  · exact absurd h hr
  right
  obtain ⟨x, err, full, h1, h2, h3, e⟩ := takeChar_fresh s d false
  rw [e, if_neg (by decide)]
  rw [← h1] at hA
  split
  · rename_i ht
    rw [ht] at h3
    exact ⟨hA, .inr (.inr fun g (hg : x.lpu.tracker = _) => by rw [h3] at hg; cases hg)⟩
  · rename_i ht
    rw [ht] at h3
    exact ⟨hA, .inr (.inr fun g (hg : x.lpu.tracker = _) => by rw [h3] at hg; cases hg)⟩
  · rename_i f ht
    have r := step x f err full hA (h2 ▸ h f ht)
    exact ⟨r.1, .inr (.inr r.2)⟩

/-- The opener of a whole frame. -/
theorem onItsWay_opener {Q} {s : State} (kind : Byte)
    (h : ∀ (f : FrameCtx), f.kind = kind → f.phase = .head → f.position = 0 →
      Q f { emptyExecutor with parser := if kind = managementKind then some Parser.begin else none }) :
    OnItsWay (· = s.stc.lock) Q (s.pass (freshChar kind true)) := by
  have h0 : OnItsWay (· = s.stc.lock) (fun _ _ => True) s := .inr ⟨rfl, .inr (.inr fun _ _ => trivial)⟩
  have h0 := onItsWay_keepPace h0
  unfold State.pass
  generalize s.stc.lock = L at h0
  generalize s.keepPace = s at h0
  unfold State.receive
  by_cases hb : s.lpu.bypass = true
  · rw [if_pos hb]
    rcases h0 with h0 | h0
    · exact .inl h0
    · exact .inr ⟨h0.1, .inl hb⟩
  rw [if_neg hb]
  rcases h0 with h0 | ⟨hA, -⟩
  · exact absurd h0.1 hb
  split
  · rename_i hr; exact .inr ⟨hA, .inr (.inl hr)⟩
  right
  obtain ⟨x, err, full, h1, _, _, e⟩ := takeChar_fresh s kind true
  rw [e, if_pos rfl]
  rw [← h1] at hA
  unfold State.takeOpener; dsimp only
  have hy : ∀ y : State, y.stc.lock = x.stc.lock → ((y.setBuffer (joinBuffer y.lpu.buffer
      (Place.of kind true false false none) full)).startFrame kind err full).stc.lock = L :=
    fun y hy => hy.trans hA
  refine ⟨hy _ ?_, .inr (.inr fun g hg => ?_)⟩
  · split
    · exact lock_endsEarly x .truncated (by decide)
    · rfl
    · rfl
  · cases hg
    exact h _ rfl rfl rfl

/-! ## Which frames commit a SET_LOCK (R156) -/

theorem ofCode_setLock : ∀ code : Byte, Cmd.ofCode? code = some .setLock → code = 0x13 := by decide

/-- Only the SET_LOCK command stages a SET_LOCK (Table 11-4). -/
theorem judge_setLock (s : State) (a br code params out how)
    (h : judge s a br code params = .accept out (some (.setLock how))) : code = 0x13 :=
  ofCode_setLock code ((judge_admits _ _ _ _ _ _ _ h).2.2 rfl)

theorem answer_setLock (s : State) (a tgt code params st out how)
    (h : (answerRecord s a tgt code params st).verdict = .accept out (some (.setLock how))) :
    code = 0x13 := by
  unfold answerRecord at h
  split at h
  · exact judge_setLock _ _ _ _ _ _ _ h
  split at h
  · exact judge_setLock _ _ _ _ _ _ _ h
  · cases h

/-- The parser reads the one record of a frame, past its command byte, and that record is no SET_LOCK. -/
def ReadsOther (p : Parser) : Prop :=
  p.command ≠ 0x13 ∧ p.total = 1 ∧ p.index = 1 ∧
    p.field ≠ .count ∧ p.field ≠ .target ∧ p.field ≠ .command ∧
    ∀ out how, p.answer.verdict ≠ .accept out (some (.setLock how))

theorem readsOther_nextRecord {p : Parser} (h : ReadsOther p) : ReadsOther p.nextRecord := by
  obtain ⟨h1, h2, h3, h4, h5, h6, h7⟩ := h
  unfold Parser.nextRecord
  rw [if_neg (by omega)]
  exact ⟨h1, h2, h3, by simp, by simp, by simp, h7⟩

theorem readsOther_enterReply {p : Parser} (h : ReadsOther p) (q out run) :
    ReadsOther (p.enterReply q out run) := by
  unfold Parser.enterReply
  split
  · exact readsOther_nextRecord (p := { p with rlen := q }) h
  · exact ⟨h.1, h.2.1, h.2.2.1, by simp, by simp, by simp, h.2.2.2.2.2.2⟩

theorem readsOther_replyTaken {p : Parser} (h : ReadsOther p) (left out) :
    ReadsOther (p.replyTaken left out) := by
  unfold Parser.replyTaken
  split
  · exact readsOther_nextRecord h
  · exact ⟨h.1, h.2.1, h.2.2.1, by simp, by simp, by simp, h.2.2.2.2.2.2⟩

theorem commits_withdraw (m : Executor) (e : Staged) : (m.withdraw e).commits = m.commits := by
  cases e with
  | capture n f how => cases how <;> rfl
  | saveConfig how => cases how <;> rfl
  | setLock how => cases how <;> rfl
  | _ => rfl

theorem commits_reserve (m : Executor) (s : State) (e : Staged) :
    (m.reserve s e).commits = m.commits ∧ (m.reserve s e).parser = m.parser := by
  cases e with
  | capture n f how =>
    cases how <;> try exact ⟨rfl, rfl⟩
    dsimp only [Executor.reserve]; split <;> exact ⟨rfl, rfl⟩
  | saveConfig how =>
    cases how <;> try exact ⟨rfl, rfl⟩
    dsimp only [Executor.reserve]; split <;> exact ⟨rfl, rfl⟩
  | setLock how => cases how <;> exact ⟨rfl, rfl⟩
  | _ => exact ⟨rfl, rfl⟩

/-- A body byte of a record that is no SET_LOCK stages no SET_LOCK (R162). -/
theorem readsOther_takeBodyByte (s : State) (m : Executor) (p : Parser) (a q b)
    (hp : ReadsOther p) (hc : Staged.setLock .accept ∉ m.commits) :
    Staged.setLock .accept ∉ (takeBodyByte s m p a q b).me.commits ∧
      ((takeBodyByte s m p a q b).fault = true ∨
        ∃ p', (takeBodyByte s m p a q b).me.parser = some p' ∧ ReadsOther p') := by
  have hp' := hp
  obtain ⟨h1, h2, h3, h4, h5, h6, h7⟩ := hp
  unfold takeBodyByte
  cases hf : p.field <;> dsimp only
  · exact absurd hf h4
  · exact absurd hf h5
  · exact absurd hf h6
  · split
    · exact ⟨hc, .inl rfl⟩
    split
    · exact ⟨hc, .inr ⟨_, rfl, h1, h2, h3, by simp, by simp, by simp, h7⟩⟩
    · exact ⟨hc, .inr ⟨_, rfl, h1, h2, h3, by simp, by simp, by simp, h7⟩⟩
  · refine ⟨hc, .inr ⟨_, rfl, h1, h2, h3, ?_, ?_, ?_, h7⟩⟩ <;> (dsimp only; split <;> simp)
  · have key : ReadsOther { p with
        field := .rlen, status := b, answer := answerRecord s a p.target p.command p.params b } :=
      ⟨h1, h2, h3, by simp, by simp, by simp,
        fun out how h => h1 (answer_setLock _ _ _ _ _ _ _ _ h)⟩
    unfold takeStatus; dsimp only
    split
    · exact ⟨hc, .inr ⟨_, rfl, key⟩⟩
    · exact ⟨hc, .inr ⟨_, rfl, key⟩⟩
    · exact ⟨hc, .inr ⟨_, rfl, key⟩⟩
    · refine ⟨?_, .inr ⟨_, (commits_reserve _ _ _).2, key⟩⟩
      rw [(commits_reserve _ _ _).1]; exact hc
  · split
    · exact ⟨hc, .inl rfl⟩
    unfold takeRoom
    split
    · exact ⟨hc, .inr ⟨_, rfl, readsOther_enterReply hp' _ _ _⟩⟩
    · exact ⟨hc, .inr ⟨_, rfl, readsOther_enterReply hp' _ _ _⟩⟩
    · rename_i reply staged hv
      split
      · refine ⟨?_, .inr ⟨_, rfl, readsOther_enterReply hp' _ _ _⟩⟩
        show Staged.setLock .accept ∉ Executor.commits _
        split
        · exact (commits_withdraw _ _).symm ▸ hc
        · exact hc
      · refine ⟨?_, .inr ⟨_, rfl, readsOther_enterReply hp' _ _ _⟩⟩
        show Staged.setLock .accept ∉ m.commits ++ staged.toList
        rw [List.mem_append]
        rintro (h | h)
        · exact hc h
        · cases staged with
          | none => cases h
          | some e =>
            have he : Staged.setLock .accept = e := List.mem_singleton.1 h
            exact h7 reply .accept (by rw [hv, he])
  · unfold takeReply
    split
    · unfold takeRunning; dsimp only
      have hd : Staged.setLock .accept ∉ m.commits.dropLast :=
        fun h => hc (List.dropLast_subset _ h)
      split
      · split
        · exact ⟨hd, .inr ⟨_, rfl, readsOther_replyTaken hp' _ _⟩⟩
        · refine ⟨?_, .inr ⟨_, rfl, readsOther_replyTaken hp' _ _⟩⟩
          show Staged.setLock .accept ∉ m.commits.dropLast ++ _
          rw [List.mem_append]
          rintro (h | h)
          · exact hd h
          · simp at h
      · exact ⟨hd, .inr ⟨_, rfl, readsOther_replyTaken hp' _ _⟩⟩
    · split
      · exact ⟨hc, .inr ⟨_, rfl, readsOther_replyTaken hp' _ _⟩⟩
      · exact ⟨hc, .inr ⟨_, rfl, readsOther_replyTaken hp' _ _⟩⟩
  · exact ⟨hc, .inl rfl⟩

/-- A character of a frame in passage whose end is near, or whose body has a format fault, stages
nothing; the others are as `h` says. -/
theorem rides_takeFrameChar {A : Bool → Prop} {P P'} (s : State) (f : FrameCtx) (d e full)
    (hA : A s.stc.lock) (hc : Calm P f s.me)
    (h : ∀ f : FrameCtx, Staged.setLock .accept ∉ s.me.commits → P f s.me →
      Rides A (Calm P') (s.takeFrameChar f d e full)) :
    Rides A (Calm P') (s.takeFrameChar f d e full) := by
  obtain ⟨hn, hp | ⟨hb, hf⟩ | hp⟩ := hc
  · unfold State.takeFrameChar; dsimp only
    rw [hp]
    exact rides_takeTrail _ _ _ _ rfl hA hn
  · unfold State.takeFrameChar; dsimp only
    rw [hb]
    exact rides_takeBody _ _ _ _ hA hn rfl (.inl hf)
  · exact h f hn hp

/-- A frame of another kind than the management frame, in passage. -/
def OtherKind (f : FrameCtx) (_ : Executor) : Prop := f.kind ≠ managementKind

theorem rides_otherKind {A : Bool → Prop} (d) (s : State) (f : FrameCtx) (e full) (hA : A s.stc.lock)
    (hc : Calm OtherKind f s.me) : Rides A (Calm OtherKind) (s.takeFrameChar f d e full) := by
  refine rides_takeFrameChar s f d e full hA hc fun f hn (hk : f.kind ≠ _) => ?_
  unfold State.takeFrameChar; dsimp only
  cases hp : f.phase <;> dsimp only
  · refine rides_takeHead _ _ _ _ hA hn rfl ?_
    split
    · intro g _ _ h hg; exact hk (h.symm.trans hg)
    · intro g _ h hg; exact hk (h.symm.trans hg)
  · exact rides_takeBody _ _ _ _ hA hn rfl (.inr (.inl ⟨hk, fun g _ h hg => hk (h.symm.trans hg)⟩))
  · exact rides_takeTrail _ _ _ _ rfl hA hn

theorem onItsWay_dataChars {A : Bool → Prop} {Q} (step : ∀ d (x : State) f e full, A x.stc.lock →
      Q f x.me → Rides A Q (x.takeFrameChar f d e full)) (l : List Byte) :
    ∀ {s : State}, OnItsWay A Q s → OnItsWay A Q ((dataChars l).foldl State.pass s) := by
  induction l with
  | nil => intro s h; exact h
  | cons b l ih => intro s h; exact ih (onItsWay_pass b h (step b))

theorem passFrame_eq (s : State) (kind body tail) : s.passFrame kind body tail =
    (dataChars (frameRest kind body tail)).foldl State.pass (s.pass (freshChar kind true)) := by
  unfold State.passFrame frameChars
  rw [List.foldl_cons]

theorem frameRest_eq (kind body tail) : ∃ rest, frameRest kind body tail =
    hiByte (natWord body.length) :: loByte (natWord body.length) :: (body ++ rest) := by
  unfold frameRest wordBytes
  refine ⟨[tail.attention] ++ arrivingCrc tail.crc (crc16 (coveredBytes kind body tail.attention)), ?_⟩
  generalize crc16 _ = c
  simp only [List.append_assoc, List.cons_append, List.nil_append]

/-- A whole level frame or foreign frame keeps the live lock, but for a load at START (R156). -/
theorem lock_passFrame (s : State) (kind body tail) (hk : kind ≠ managementKind) :
    (s.passFrame kind body tail).stc.lock = s.stc.lock ∨ LockLoaded (s.passFrame kind body tail) := by
  have h : OnItsWay (· = s.stc.lock) (Calm OtherKind) (s.pass (freshChar kind true)) :=
    onItsWay_opener kind fun f h _ _ => ⟨by simp [emptyExecutor], .inr (.inr (by
      unfold OtherKind; rw [h]; exact hk))⟩
  rw [passFrame_eq]
  exact (onItsWay_dataChars rides_otherKind (frameRest kind body tail) h).end

/-- Where the frame of one record stands before the record's command byte. -/
def BeforeCommand (phase : Phase) (position : Nat) (field : Field) (count : Nat) (f : FrameCtx)
    (m : Executor) : Prop :=
  f.kind = managementKind ∧ f.phase = phase ∧ (phase = .head → f.position = position) ∧
    ∃ p, m.parser = some p ∧ p.field = field ∧ p.total = count ∧ p.index = count ∧
      p.answer = { verdict := .untouched, writes := false }

/-- The frame of one record stands past its command byte, and the record is no SET_LOCK. -/
def OtherRecord (f : FrameCtx) (m : Executor) : Prop :=
  f.phase = .body ∧ f.kind = managementKind ∧ ∃ p, m.parser = some p ∧ ReadsOther p

theorem rides_otherRecord {A : Bool → Prop} (d) (s : State) (f : FrameCtx) (e full)
    (hA : A s.stc.lock) (hc : Calm OtherRecord f s.me) :
    Rides A (Calm OtherRecord) (s.takeFrameChar f d e full) := by
  refine rides_takeFrameChar s f d e full hA hc fun f hn ⟨hp, hk, p, hpar, hr⟩ => ?_
  unfold State.takeFrameChar; dsimp only
  rw [hp]
  refine rides_takeBody _ _ _ _ hA hn rfl (.inr (.inr ⟨p, hk, hpar, fun q a => ?_⟩))
  obtain ⟨h1, h2⟩ := readsOther_takeBodyByte s s.me p a q d hr hn
  exact ⟨h1, h2.imp_right fun h g hg hgk => ⟨hg, hgk.trans hk, h⟩⟩

theorem rides_head {A : Bool → Prop} (d) (s : State) (f : FrameCtx) (e full) (hA : A s.stc.lock)
    (hc : Calm (BeforeCommand .head 0 .count 0) f s.me) :
    Rides A (Calm (BeforeCommand .head 1 .count 0)) (s.takeFrameChar f d e full) := by
  refine rides_takeFrameChar s f d e full hA hc fun f hn ⟨hk, hp, h0, hm⟩ => ?_
  unfold State.takeFrameChar; dsimp only
  rw [hp]
  refine rides_takeHead _ _ _ _ hA hn rfl ?_
  rw [if_pos (show f.position + 1 = 1 by rw [h0 rfl])]
  intro g hg h1 hgk
  exact ⟨hgk.trans hk, hg, fun _ => h1, hm⟩

theorem rides_length {A : Bool → Prop} (d) (s : State) (f : FrameCtx) (e full) (hA : A s.stc.lock)
    (hc : Calm (BeforeCommand .head 1 .count 0) f s.me) :
    Rides A (Calm (BeforeCommand .body 0 .count 0)) (s.takeFrameChar f d e full) := by
  refine rides_takeFrameChar s f d e full hA hc fun f hn ⟨hk, hp, h0, hm⟩ => ?_
  unfold State.takeFrameChar; dsimp only
  rw [hp]
  refine rides_takeHead _ _ _ _ hA hn rfl ?_
  rw [if_neg (show ¬ f.position + 1 = 1 by rw [h0 rfl]; decide)]
  intro g hg hgk
  exact ⟨hgk.trans hk, hg, fun h => (nomatch h), hm⟩

/-- A body byte before the command byte's end. -/
theorem rides_before {A : Bool → Prop} {field : Field} {count : Nat} {P'} (d)
    (h : ∀ (p : Parser) (s : State) (m : Executor) a q, m.parser = some p → p.field = field →
      p.total = count → p.index = count → p.answer = { verdict := .untouched, writes := false } →
      (takeBodyByte s m p a q d).me.commits = m.commits ∧
        ∀ g : FrameCtx, g.phase = .body → g.kind = managementKind →
          P' g (takeBodyByte s m p a q d).me)
    (s : State) (f : FrameCtx) (e full) (hA : A s.stc.lock)
    (hc : Calm (BeforeCommand .body 0 field count) f s.me) :
    Rides A (Calm P') (s.takeFrameChar f d e full) := by
  refine rides_takeFrameChar s f d e full hA hc fun f hn ⟨hk, hp, _, p, hm, h1, h2, h3, h4⟩ => ?_
  unfold State.takeFrameChar; dsimp only
  rw [hp]
  refine rides_takeBody _ _ _ _ hA hn rfl (.inr (.inr ⟨p, hk, hm, fun q a => ?_⟩))
  obtain ⟨e1, e2⟩ := h p s s.me a q hm h1 h2 h3 h4
  exact ⟨e1.symm ▸ hn, .inr fun g hg hgk => e2 g hg (hgk.trans hk)⟩

/-- A whole management frame of one record keeps the live lock where the record is no SET_LOCK, but for
a load at START (R156). -/
theorem lock_passRecord (s : State) (code r) (hk : code ≠ 0x13) :
    (s.passRecord code r).stc.lock = s.stc.lock ∨ LockLoaded (s.passRecord code r) := by
  have h0 : OnItsWay (· = s.stc.lock) (Calm (BeforeCommand .head 0 .count 0))
      (s.pass (freshChar managementKind true)) :=
    onItsWay_opener managementKind fun f h1 h2 h3 => ⟨by simp [emptyExecutor], .inr (.inr
      ⟨h1, h2, fun _ => h3, Parser.begin, by rw [if_pos rfl], rfl, rfl, rfl, rfl⟩)⟩
  have h1 := onItsWay_pass (hiByte (natWord (1 :: recordBytes code r).length)) h0 (rides_head (A := (· = s.stc.lock)) _)
  have h2 := onItsWay_pass (loByte (natWord (1 :: recordBytes code r).length)) h1 (rides_length (A := (· = s.stc.lock)) _)
  have h3 := onItsWay_pass (Q' := Calm (BeforeCommand .body 0 .target 1)) 1 h2
    (rides_before (A := (· = s.stc.lock)) _ fun p s m a q hm e1 e2 e3 e4 => by
      unfold takeBodyByte; rw [e1]
      exact ⟨rfl, fun g hg hgk => ⟨hgk, hg, fun h => (nomatch h), _, rfl, rfl, rfl, rfl, e4⟩⟩)
  have h4 := onItsWay_pass (Q' := Calm (BeforeCommand .body 0 .command 1)) r.target h3
    (rides_before (A := (· = s.stc.lock)) _ fun p s m a q hm e1 e2 e3 e4 => by
      unfold takeBodyByte; rw [e1]
      exact ⟨rfl, fun g hg hgk => ⟨hgk, hg, fun h => (nomatch h), _, rfl, rfl, e2, e3, e4⟩⟩)
  have h5 := onItsWay_pass (Q' := Calm OtherRecord) code h4
    (rides_before (A := (· = s.stc.lock)) _ fun p s m a q hm e1 e2 e3 e4 => by
      unfold takeBodyByte; rw [e1]
      refine ⟨rfl, fun g hg hgk => ⟨hg, hgk, _, rfl, hk, e2, e3, by simp, by simp, by simp, ?_⟩⟩
      intro out how h
      dsimp only at h
      rw [e4] at h; cases h)
  obtain ⟨rest, e⟩ := frameRest_eq managementKind (1 :: recordBytes code r) r.tail
  unfold State.passRecord
  rw [passFrame_eq, e]
  generalize natWord (1 :: recordBytes code r).length = w at h5 ⊢
  unfold recordBytes
  simp only [List.cons_append, dataChars, List.map_cons, List.foldl_cons]
  have h6 := onItsWay_dataChars (rides_otherRecord (A := (· = s.stc.lock)))
    ((natByte r.params.length :: (r.params ++ r.status :: natByte r.reply.length :: r.reply)) ++ rest) h5
  simp only [List.cons_append, dataChars, List.map_cons, List.foldl_cons] at h6
  exact h6.end

/-- A character of a frame in passage changes the lock only where it ends a GOOD frame that staged a
SET_LOCK (R156, R162). -/
theorem lock_takeFrameChar (s : State) (f d e full) :
    (s.takeFrameChar f d e full).stc.lock = s.stc.lock ∨
      ((s.takeFrameChar f d e full).stc.lock = true ∧ Staged.setLock .accept ∈ s.me.commits) := by
  have hbe : ∀ (x : State) (g : FrameCtx) p, ((x.bodyEnds g).1.holdChar (x.bodyEnds g).2 p full).stc.lock =
      x.stc.lock := fun x g p => congrArg Store.lock (lock_bodyEnds x g).1
  unfold State.takeFrameChar; dsimp only
  split
  · left
    unfold State.takeHead; dsimp only
    split
    · rfl
    split
    · exact lock_endsEarly s .overlong (by decide)
    split
    · exact hbe _ _ _
    · rfl
  · left
    unfold State.takeBody; dsimp only
    split
    · rw [hbe, (lock_consume _ _ _).1]
    · exact congrArg Store.lock (lock_consume _ _ _).1
  · unfold State.takeTrail; dsimp only
    split
    · left; unfold State.takeAttention; dsimp only; split <;> rfl
    split
    · exact .inl rfl
    · unfold State.takeLastCrc; dsimp only
      rw [lock_frameEnds]
      split
      · rename_i h; exact .inr ⟨rfl, h.2⟩
      · exact .inl rfl

/-- A whole SET_LOCK frame keeps the live lock or sets it, but for a load at START (R156). -/
theorem lock_passSetLock (s : State) (r) :
    (s.passRecord 0x13 r).stc.lock = s.stc.lock ∨ (s.passRecord 0x13 r).stc.lock = true ∨
      LockLoaded (s.passRecord 0x13 r) := by
  have step : ∀ d (x : State) f e full, (x.stc.lock = s.stc.lock ∨ x.stc.lock = true) → True →
      Rides (fun b => b = s.stc.lock ∨ b = true) (fun _ _ => True) (x.takeFrameChar f d e full) := by
    intro d x f e full h _
    refine ⟨?_, fun _ _ => trivial⟩
    rcases lock_takeFrameChar x f d e full with e | e
    · rw [e]; exact h
    · exact .inr e.1
  have h0 : OnItsWay (fun b => b = s.stc.lock ∨ b = true) (fun _ _ => True)
      (s.pass (freshChar managementKind true)) := by
    have h := onItsWay_opener (Q := fun _ _ => True) (s := s) managementKind (fun _ _ _ _ => trivial)
    rcases h with h | h
    · exact .inl ⟨h.1, h.2.1, h.2.2.1, h.2.2.2.imp_left .inl⟩
    · exact .inr ⟨.inl h.1, h.2⟩
  have h := (onItsWay_dataChars step
    (frameRest managementKind (1 :: recordBytes 0x13 r) r.tail) h0).end
  unfold State.passRecord
  rw [passFrame_eq, ← or_assoc]
  exact h

/-- CHARACTER_RECEIVED changes the lock only at the end of a GOOD frame that staged a SET_LOCK. -/
theorem lock_receive (s : State) (c) :
    (s.receive c).stc.lock = s.stc.lock ∨
      ((s.receive c).stc.lock = true ∧ Staged.setLock .accept ∈ s.me.commits) := by
  unfold State.receive
  split
  · exact .inl rfl
  split
  · exact .inl rfl
  unfold State.takeChar; dsimp only
  generalize hx : s.setLpu _ = x
  have h1 : x.stc = s.stc := by rw [← hx]; rfl
  have h2 : x.me = s.me := by rw [← hx]; rfl
  rw [← h1, ← h2]
  split
  · left
    unfold State.takeOpener; dsimp only
    split
    · exact lock_endsEarly x .truncated (by decide)
    · rfl
    · rfl
  · split
    · exact .inl rfl
    · exact .inl rfl
    · exact lock_takeFrameChar _ _ _ _ _

end Sys2Proof.Machine
end

