-- ==== Sys2Proof/Laws/NodeInvariant.lean ====
section
/-! SUPPORT. Every shared operation keeps the node invariant (`NodeInv`). -/

namespace Sys2Proof.Machine

/-- The node invariant reads the mode, the timers, the counter, the channels, the source, the contexts
and the ceiling, and in RESET and START the link. -/
theorem nodeInv_same {s t : State} (h : NodeInv s)
  (e1 : t.mc.mode = s.mc.mode) (e2 : t.mc.quietTimer = s.mc.quietTimer)
  (e3 : t.pwu = s.pwu) (e4 : t.fm.shortLatch = s.fm.shortLatch)
  (e5 : s.mc.mode.operating = true ∨ (t.lpu.bypass = s.lpu.bypass ∧ t.lpu.tx = s.lpu.tx ∧ t.lpu.buffer = s.lpu.buffer ∧ t.lpu.tracker = s.lpu.tracker))
  (e6 : t.ss.source = s.ss.source) (e7 : t.ss.lossTimer = s.ss.lossTimer)
  (e8 : t.fe = s.fe) (e9 : t.mon.ceiling = s.mon.ceiling) (e10 : t.mon.thermal = s.mon.thermal) : NodeInv t := by
  constructor
  · intro hm
    rw [e1] at hm
    have hh := h.held hm
    rcases e5 with e5 | ⟨a,b,c,d⟩
    · rw [hm] at e5; cases e5
    · exact ⟨a ▸ hh.bypass, b ▸ hh.tx, c ▸ hh.buffer, d ▸ hh.tracker, e6 ▸ hh.source, e7 ▸ hh.lossTimer, e8 ▸ hh.timebase, e2 ▸ hh.quietTimer⟩
  · have := h.counter
    exact ⟨by rw [e3, e1]; exact this.running, by rw [e3, e1]; exact this.down, by rw [e3, e1]; exact this.held⟩
  · intro i hi
    have := h.blocks i hi
    simp only [State.channel, State.blockCause, e1, e3, e4] at this ⊢
    exact this
  · have := h.ceiling
    simp only [CeilingInRange, e9, e10] at this ⊢; exact this
  · have := h.fades
    simp only [FadesBounded, e8] at this ⊢; exact this
  · have := h.loss
    simp only [NoTimerInLoss, e6, e7] at this ⊢; exact this

theorem blockedByCause_reblock (s : State) (h : ∀ i, i < 24 → (s.channel i).block ≠ .driving →
    (s.channel i).onCount = 0 ∧ (s.channel i).endDue = false) : BlockedByCause s.reblock := by
  intro i hi
  have hc : s.reblock.blockCause i = s.blockCause i := rfl
  rw [reblock_channel s i hi, hc]
  have := h i hi
  unfold PwmChannel.reblock
  cases hb : s.blockCause i
  · simp only [Bool.false_eq_true, if_false]
    cases hx : (s.channel i).block <;> simp_all
  · simp [blockedChannel]

/-- The node invariant in an operating mode, where nothing is held. -/
structure OperatingInv (s : State) : Prop where
  op : s.mc.mode.operating = true
  counter : CounterMatches s
  blocks : BlockedByCause s
  ceiling : CeilingInRange s
  fades : FadesBounded s
  loss : NoTimerInLoss s

theorem OperatingInv.nodeInv {s} (h : OperatingInv s) : NodeInv s :=
  ⟨fun hm => (by rw [h.op] at hm; cases hm), h.counter, h.blocks, h.ceiling, h.fades, h.loss⟩

theorem NodeInv.operating {s} (h : NodeInv s) (ho : s.mc.mode.operating = true) : OperatingInv s :=
  ⟨ho, h.counter, h.blocks, h.ceiling, h.fades, h.loss⟩

theorem operatingInv_same {s t : State} (h : OperatingInv s)
  (e1 : t.mc.mode = s.mc.mode)
  (e3 : t.pwu = s.pwu) (e4 : t.fm.shortLatch = s.fm.shortLatch)
  (e6 : t.ss.source = s.ss.source) (e7 : t.ss.lossTimer = s.ss.lossTimer)
  (e8 : t.fe.contexts = s.fe.contexts) (e9 : t.mon.ceiling = s.mon.ceiling) (e10 : t.mon.thermal = s.mon.thermal) : OperatingInv t := by
  refine ⟨e1 ▸ h.op, ?_, ?_, ?_, ?_, ?_⟩
  · have := h.counter
    exact ⟨by rw [e3, e1]; exact this.running, by rw [e3, e1]; exact this.down, by rw [e3, e1]; exact this.held⟩
  · intro i hi
    have := h.blocks i hi
    simp only [State.channel, State.blockCause, e1, e3, e4] at this ⊢
    exact this
  · have := h.ceiling
    simp only [CeilingInRange, e9, e10] at this ⊢; exact this
  · have := h.fades
    simp only [FadesBounded, e8] at this ⊢; exact this
  · have := h.loss
    simp only [NoTimerInLoss, e6, e7] at this ⊢; exact this

theorem operatingInv_quietReview {s} (h : OperatingInv s) : OperatingInv s.quietReview := by
  rw [quietReview_eq]; exact operatingInv_same h rfl rfl rfl rfl rfl rfl rfl rfl

theorem operatingInv_enterMode {s} (h : OperatingInv s) (m : Mode) (hm : m.operating = true) (hq :
    m ≠ .quiet) : OperatingInv (s.enterMode m) := by
  unfold State.enterMode; dsimp only
  apply operatingInv_quietReview
  have hc := h.counter
  split
  · rename_i hh
    simp only [Bool.and_eq_true, decide_eq_true_eq] at hh
    have e1 := leaveQuiet_eq (s.setMc { s.mc with mode := m })
    obtain ⟨e2, e3⟩ := leaveQuiet_mon (s.setMc { s.mc with mode := m })
    generalize hx : (s.setMc { s.mc with mode := m }).leaveQuiet = x at *
    have hpw : x.pwu = { s.pwu with drivers := .powering } := by rw [e1]; rfl
    have hmc : x.mc.mode = m := by rw [e1]; rfl
    have hfe : x.fe = s.fe := by rw [e1]; rfl
    have hss : x.ss = s.ss := by rw [e1]; rfl
    refine ⟨by show x.mc.mode.operating = true; rw [hmc]; exact hm, ?_, ?_, ?_, ?_, ?_⟩
    · constructor
      · show x.pwu.running = true ↔ x.mc.mode.operating = true ∧ x.pwu.drivers = .up
        rw [hpw, hmc]
        simp only [reduceCtorEq, and_false, iff_false]
        intro hr
        have := (hc.running.1 hr).2
        have hd := hc.down.2 hh.1
        rw [this] at hd; cases hd
      · show x.pwu.drivers = .down ↔ x.mc.mode = .quiet
        rw [hpw, hmc]; simp [hq]
      · show x.mc.mode.operating = false → x.pwu.drivers = .up
        rw [hmc, hm]; simp
    · apply blockedByCause_reblock
      intro i hi
      have : x.channel i = s.channel i := by unfold State.channel; rw [hpw]
      rw [this]; exact (h.blocks i hi).2
    · have := h.ceiling
      unfold CeilingInRange at *
      have a : x.reblock.mon.ceiling = s.mon.ceiling := e2
      have b : x.reblock.mon.thermal = s.mon.thermal := e3
      rw [a,b]; exact this
    · have := h.fades
      unfold FadesBounded at *
      have a : x.reblock.fe = s.fe := hfe
      rw [a]; exact this
    · have := h.loss
      unfold NoTimerInLoss at *
      have a : x.reblock.ss = s.ss := hss
      rw [a]; exact this
  · rename_i hh
    simp only [Bool.and_eq_true, decide_eq_true_eq, not_and] at hh
    have hnq : s.mc.mode ≠ .quiet := fun e => hh e hq
    refine ⟨hm, ?_, ?_, h.ceiling, h.fades, h.loss⟩
    · constructor
      · show s.pwu.running = true ↔ m.operating = true ∧ s.pwu.drivers = .up
        rw [hc.running, hm, h.op]
      · show s.pwu.drivers = .down ↔ m = .quiet
        rw [hc.down]; simp [hq, hnq]
      · show m.operating = false → _
        rw [hm]; simp
    · apply blockedByCause_reblock
      intro i hi
      exact (h.blocks i hi).2

theorem operatingInv_enterQuiet {s} (h : OperatingInv s) : OperatingInv s.enterQuiet := by
  unfold State.enterQuiet State.enterMode; dsimp only
  apply operatingInv_quietReview
  simp only [ne_eq, not_true_eq_false, decide_false, Bool.and_false, Bool.false_eq_true, if_false]
  refine ⟨rfl, ⟨?_, ?_, ?_⟩, ?_, h.ceiling, h.fades, h.loss⟩
  · show false = true ↔ _ ∧ Drivers.down = .up
    simp
  · show Drivers.down = .down ↔ Mode.quiet = .quiet
    simp
  · show true = false → _
    simp
  · apply blockedByCause_reblock
    intro i hi
    exact (h.blocks i hi).2

theorem operatingInv_setOs {s} (h : OperatingInv s) (x) : OperatingInv (s.setOs x) :=
    operatingInv_same h rfl rfl rfl rfl rfl rfl rfl rfl

theorem nodeInv_setOs {s} (h : NodeInv s) (x) : NodeInv (s.setOs x) :=
    nodeInv_same h rfl rfl rfl rfl (.inr ⟨rfl, rfl, rfl, rfl⟩) rfl rfl rfl rfl rfl

theorem operatingInv_reshape {s} (h : OperatingInv s) : OperatingInv s.reshape := by
  unfold State.reshape; rw [h.op]
  simp only [if_true]
  have h1 : OperatingInv s.shapeAll := operatingInv_setOs h _
  unfold State.dutiesHandedOn; split
  · exact operatingInv_enterMode h1 _ rfl (by simp)
  · exact operatingInv_quietReview h1

theorem nodeInv_reshape {s} (h : NodeInv s) : NodeInv s.reshape := by
  cases ho : s.mc.mode.operating
  · unfold State.reshape; rw [ho]; exact h
  · exact (operatingInv_reshape (h.operating ho)).nodeInv

/-! ## Contexts and sources -/
theorem retarget_fadeBounded (c : FadeContext) (t code) : (c.retarget t code).remaining ≤ 25500 ∧
    ((c.retarget t code).remaining = 0 → (c.retarget t code).level = (c.retarget t code).target) :=
    by
  unfold FadeContext.retarget
  split
  · simp
  · rename_i hc
    have := code.isLt
    have h0 : code.toNat ≠ 0 := fun e => hc (BitVec.eq_of_toNat_eq (by simpa using e))
    simp only
    constructor
    · omega
    · omega

theorem fadesBounded_retarget {s} (h : FadesBounded s) (i t c) : FadesBounded (s.retarget i t c) :=
    by
  intro x hx
  rcases List.mem_or_eq_of_mem_set hx with hx | hx
  · exact h x hx
  · rw [hx]; exact retarget_fadeBounded _ _ _

theorem operatingInv_retarget {s} (h : OperatingInv s) (i t c) : OperatingInv (s.retarget i t c) :=
  ⟨h.op, ⟨h.counter.1, h.counter.2, h.counter.3⟩, h.blocks, h.ceiling, fadesBounded_retarget h.fades _ _ _, h.loss⟩

theorem operatingInv_retargetAll {s} (h : OperatingInv s) (ts c) : OperatingInv (s.retargetAll ts c)
    :=
  foldl_preserves (P := OperatingInv) _ (fun _ _ h => operatingInv_retarget h _ _ _) _ h

theorem operatingInv_retargetPark {s} (h : OperatingInv s) (c) : OperatingInv (s.retargetPark c) :=
  foldl_preserves (P := OperatingInv) _ (fun _ _ h => by split; exact operatingInv_retarget h _ _ _; exact h) _ h

theorem operatingInv_retargetItems {s} (h : OperatingInv s) (is) : OperatingInv (s.retargetItems is)
    :=
  foldl_preserves (P := OperatingInv) _ (fun _ _ h => operatingInv_retarget h _ _ _) _ h

theorem operatingInv_setSs {s} (h : OperatingInv s) (x : SourceSelector) (hx :
    x.source.isLoss = true → ∀ n, x.lossTimer ≠ .running n) : OperatingInv (s.setSs x) :=
  ⟨h.op, ⟨h.counter.1, h.counter.2, h.counter.3⟩, h.blocks, h.ceiling, h.fades, hx⟩

theorem operatingInv_takeCapturedSet {s} (h : OperatingInv s) (is c z) : OperatingInv
    (s.takeCapturedSet is c z) := by
  unfold State.takeCapturedSet
  split
  · exact h
  · dsimp only [State.setSs_ss]
    have ts : ∀ (x : SourceSelector) (hh : OperatingInv {s with ss := {x with source := .stream}}) is c, OperatingInv ((s.setSs x).toStream is c) := fun x hh is c =>
      operatingInv_retargetItems (operatingInv_retargetPark hh _) _
    have hb : ∀ (x : SourceSelector), OperatingInv {s with ss := {x with source := .stream}} := fun x => operatingInv_setSs h _ (by simp [Source.isLoss])
    split
    · rename_i e
      refine operatingInv_retargetItems (operatingInv_setSs h _ ?_) _
      have e' : s.ss.source = .stream := e
      simp [e', Source.isLoss]
    · rename_i e
      have e' : s.ss.source = _ := e
      split
      · exact ts _ (hb _) _ _
      · refine (operatingInv_setSs h _ ?_)
        simp [e', Source.isLoss]
    all_goals exact ts _ (hb _) _ _

theorem operatingInv_handOver {s} (h : OperatingInv s) : OperatingInv s.handOver := by
  unfold State.handOver; split
  · exact h
  · exact operatingInv_reshape (operatingInv_takeCapturedSet h _ _ _)

theorem operatingInv_setMc {s} (h : OperatingInv s) (x : ModeController) (hx : x.mode = s.mc.mode) :
    OperatingInv (s.setMc x) :=
  operatingInv_same h hx rfl rfl rfl rfl rfl rfl rfl

theorem operatingInv_commitWritePatch {s} (h : OperatingInv s) (f) (es : List PatchEntry) :
    OperatingInv (s.commitWritePatch f es) := by
  induction es generalizing s f with
  | nil => exact h
  | cons e es ih =>
    refine ih ?_ _
    unfold State.replaceEntry; dsimp only
    have := operatingInv_same (t := s.setPt { s.pt with entries := s.pt.entries.set f e }) h rfl rfl rfl rfl rfl rfl rfl rfl
    split
    · exact operatingInv_retarget this _ _ _
    · exact this

theorem noTimerInLoss_recoded (t : LossTimer) (src : Source) (a b) (h : src.isLoss = true →
    ∀ n, t ≠ .running n) : src.isLoss = true → ∀ n, t.recoded src a b ≠ .running n := by
  intro hl n
  unfold LossTimer.recoded
  split
  · exact h hl n
  · split
    · simp
    · split
      · exact absurd rfl (h hl _)
      · simp [hl]
      · simp

theorem operatingInv_apply {s} (h : OperatingInv s) (e : Staged) : OperatingInv (s.apply e) := by
  have triv : ∀ {t : State}, t.mc = s.mc → t.pwu = s.pwu → t.fm.shortLatch = s.fm.shortLatch → t.ss = s.ss → t.fe = s.fe → t.mon = s.mon → OperatingInv t := by
    intro t a b c d e f
    exact operatingInv_same h (by rw [a]) b c (by rw [d]) (by rw [d]) (by rw [e]) (by rw [f]) (by rw [f])
  unfold State.apply
  split
  · exact triv rfl rfl rfl rfl rfl rfl
  · exact operatingInv_commitWritePatch h _ _
  · exact triv rfl rfl rfl rfl rfl rfl
  · exact triv rfl rfl rfl rfl rfl rfl
  · rename_i w
    refine operatingInv_quietReview (operatingInv_setSs (s := s.setNode (s.node.write w)) (triv rfl rfl rfl rfl rfl rfl) _ ?_)
    exact noTimerInLoss_recoded _ _ _ _ h.loss
  · exact triv rfl rfl rfl rfl rfl rfl
  · unfold State.recall; dsimp only; split
    · exact operatingInv_retargetAll (operatingInv_setSs h _ (by simp [Source.isLoss])) _ _
    · exact h
  · unfold State.commitCapture; dsimp only
    split
    · exact triv rfl rfl rfl rfl rfl rfl
    · split
      · exact triv rfl rfl rfl rfl rfl rfl
      · split <;> exact triv rfl rfl rfl rfl rfl rfl
    · exact triv rfl rfl rfl rfl rfl rfl
    · exact triv rfl rfl rfl rfl rfl rfl
  · unfold State.commitSaveConfig
    split
    · exact triv rfl rfl rfl rfl rfl rfl
    · split
      · exact triv rfl rfl rfl rfl rfl rfl
      · split <;> exact triv rfl rfl rfl rfl rfl rfl
    · exact h
    · exact h
  · unfold State.commitSetLock
    split <;> exact triv rfl rfl rfl rfl rfl rfl
  · exact triv rfl rfl rfl rfl rfl rfl
  · exact triv rfl rfl rfl rfl rfl rfl
  · exact triv rfl rfl rfl rfl rfl rfl
  · refine ⟨h.op, ⟨h.counter.1, h.counter.2, h.counter.3⟩, ?_, h.ceiling, h.fades, h.loss⟩
    apply blockedByCause_reblock
    intro i hi
    exact (h.blocks i hi).2
  · exact triv rfl rfl rfl rfl rfl rfl
  · unfold State.commitStandby
    split
    · exact operatingInv_enterMode h _ rfl (by simp)
    · exact operatingInv_enterMode h _ rfl (by simp)
    · exact operatingInv_setMc h _ rfl
    all_goals exact h
  · unfold State.commitWake
    split
    · exact operatingInv_enterMode h _ rfl (by simp)
    · exact operatingInv_setMc h _ rfl
    all_goals exact h
  · exact operatingInv_setMc h _ rfl
  · exact triv rfl rfl rfl rfl rfl rfl
  · exact h
  · exact triv rfl rfl rfl rfl rfl rfl

theorem operatingInv_startHead {s} (h : OperatingInv s) : OperatingInv s.startHead := by
  rw [startHead_fields]; exact operatingInv_same h rfl rfl rfl rfl rfl rfl rfl rfl

theorem operatingInv_commitAll {s} (h : OperatingInv s) (l) : OperatingInv (s.commitAll l) := by
  have h1 := foldl_preserves (P := OperatingInv) State.apply (fun s a h => operatingInv_apply h a) l h
  unfold State.commitAll; dsimp only
  split <;> split
  · exact operatingInv_startHead (operatingInv_reshape h1)
  · exact operatingInv_startHead h1
  · exact operatingInv_reshape h1
  · exact h1

theorem operatingInv_frameEnds {s} (h : OperatingInv s) (o) : OperatingInv (s.frameEnds o) := by
  unfold State.frameEnds; dsimp only
  have h1 : OperatingInv (if decide (o = FrameOutcome.good) = true then s.handOver.commitAll s.me.commits else s) := by
    split
    · exact operatingInv_commitAll (operatingInv_handOver h) _
    · exact h
  exact operatingInv_same h1 rfl rfl rfl rfl rfl rfl rfl rfl

theorem operatingInv_setLpu {s} (h : OperatingInv s) (x) : OperatingInv (s.setLpu x) :=
    operatingInv_same h rfl rfl rfl rfl rfl rfl rfl rfl

theorem operatingInv_endsEarly {s} (h : OperatingInv s) (o) : OperatingInv (s.endsEarly o) :=
    operatingInv_frameEnds (operatingInv_setLpu h _) _

theorem operatingInv_bodyEnds {s} (h : OperatingInv s) (f) : OperatingInv (s.bodyEnds f).1 := by
  unfold State.bodyEnds
  split
  · exact h
  · split
    · split
      · exact h
      · exact operatingInv_same h rfl rfl rfl rfl rfl rfl rfl rfl
    · split
      · split <;> exact h
      · exact h

theorem operatingInv_consume {s} (h : OperatingInv s) (f d) : OperatingInv (s.consume f d).1 := by
  unfold State.consume
  split
  · exact h
  · split
    · split
      · exact h
      · exact operatingInv_same h rfl rfl rfl rfl rfl rfl rfl rfl
    · split
      · split
        · exact h
        · exact operatingInv_same h rfl rfl rfl rfl rfl rfl rfl rfl
      · exact h

theorem operatingInv_takeFrameChar {s} (h : OperatingInv s) (f d e full) : OperatingInv
    (s.takeFrameChar f d e full) := by
  unfold State.takeFrameChar; dsimp only
  split
  · unfold State.takeHead; dsimp only
    split
    · exact operatingInv_setLpu h _
    · split
      · exact operatingInv_setLpu (operatingInv_endsEarly h _) _
      · split
        · exact operatingInv_setLpu (operatingInv_bodyEnds h _) _
        · exact operatingInv_setLpu h _
  · unfold State.takeBody; dsimp only
    split
    · exact operatingInv_setLpu (operatingInv_bodyEnds (operatingInv_consume h _ _) _) _
    · exact operatingInv_setLpu (operatingInv_consume h _ _) _
  · unfold State.takeTrail
    split
    · unfold State.takeAttention; dsimp only
      split
      · exact operatingInv_same h rfl rfl rfl rfl rfl rfl rfl rfl
      · exact operatingInv_setLpu h _
    · split
      · exact operatingInv_setLpu h _
      · exact operatingInv_frameEnds (operatingInv_setLpu h _) _

theorem operatingInv_takeChar {s} (h : OperatingInv s) (c) : OperatingInv (s.takeChar c) := by
  unfold State.takeChar; dsimp only
  split
  · unfold State.takeOpener; dsimp only
    have key : ∀ {s : State}, OperatingInv s → ∀ b k e f, OperatingInv ((s.setBuffer b).startFrame k e f) := fun h b k e f =>
      operatingInv_same h rfl rfl rfl rfl rfl rfl rfl rfl
    refine key ?_ _ _ _ _
    split
    · exact operatingInv_endsEarly (operatingInv_setLpu h _) _
    · exact operatingInv_setLpu h _
    · exact operatingInv_setLpu h _
  · split
    · exact operatingInv_setLpu h _
    · exact operatingInv_setLpu h _
    · exact operatingInv_takeFrameChar (operatingInv_setLpu h _) _ _ _ _

theorem nodeInv_receive {s} (h : NodeInv s) (c) : NodeInv (s.receive c) := by
  unfold State.receive
  split
  · exact nodeInv_same h rfl rfl rfl rfl (.inr ⟨rfl, rfl, rfl, rfl⟩) rfl rfl rfl rfl rfl
  · rename_i hb
    have ho : s.mc.mode.operating = true := by
      cases ho : s.mc.mode.operating
      · exact absurd (h.held ho).bypass hb
      · rfl
    split
    · exact h
    · exact (operatingInv_takeChar (h.operating ho) _).nodeInv

/-! ## Resets and START -/
theorem nodeInv_nodeReset (s : State) : NodeInv s.nodeReset := by
  have e := cutOffStore_fields s
  constructor
  · intro _
    exact ⟨rfl, rfl, rfl, rfl, rfl, rfl, rfl, rfl⟩
  · constructor
    · show false = true ↔ false = true ∧ _
      simp
    · show Drivers.up = .down ↔ Mode.reset = .quiet
      simp
    · intro _; rfl
  · intro i hi
    have h1 : s.nodeReset.channel i = blockedChannel := by
      show (List.replicate 24 blockedChannel).getD i blockedChannel = _
      rw [List.getD_eq_getElem?_getD, List.getElem?_replicate]; split <;> rfl
    have h2 : s.nodeReset.blockCause i = true := by
      show (_ || decide (Mode.reset ≠ .run)) = true
      simp
    rw [h1, h2]; simp [blockedChannel]
  · exact ⟨show 16 ≤ 64 by decide, show 64 ≤ 64 by decide, fun _ => rfl⟩
  · intro c hc
    have : c = restContext := by
      have : c ∈ List.replicate 28 restContext := hc
      simpa using this
    rw [this]; simp [restContext]
  · intro h; cases h

theorem nodeInv_retarget {s} (h : NodeInv s) (i t c) : NodeInv (s.retarget i t c) :=
  ⟨fun hm => by
     have a := h.held hm
     exact ⟨a.1, a.2, a.3, a.4, a.5, a.6, a.7, a.8⟩, ⟨h.counter.1, h.counter.2, h.counter.3⟩, h.blocks, h.ceiling, fadesBounded_retarget h.fades _ _ _, h.loss⟩

theorem nodeInv_loadStore {s} (h : NodeInv s) : NodeInv s.loadStore := by
  unfold State.loadStore; dsimp only
  refine foldl_preserves (P := NodeInv) _ (fun _ _ h => by split; exact nodeInv_retarget h _ _ _; exact h) _ ?_
  exact nodeInv_same h rfl rfl rfl rfl (.inr ⟨rfl, rfl, rfl, rfl⟩) rfl rfl rfl rfl rfl

theorem nodeInv_enterStart {s} (h : NodeInv s) (hm : s.mc.mode = .reset) : NodeInv s.enterStart :=
    by
    unfold State.enterStart; dsimp only
    have h0 := h.held (by rw [hm]; rfl)
    have h1 : NodeInv (s.setMc { s.mc with mode := .start }) := by
      constructor
      · intro _; exact ⟨h0.1, h0.2, h0.3, h0.4, h0.5, h0.6, h0.7, h0.8⟩
      · have := h.counter
        constructor
        · show s.pwu.running = true ↔ false = true ∧ _
          rw [this.running, hm]; simp [Mode.operating]
        · show s.pwu.drivers = .down ↔ Mode.start = .quiet
          rw [this.down, hm]; simp
        · intro _; exact this.held (by rw [hm]; rfl)
      · intro i hi
        have a := h.blocks i hi
        have b : s.blockCause i = true := by simp [State.blockCause, hm]
        have c : (s.setMc { s.mc with mode := .start }).blockCause i = true := by simp [State.blockCause, State.setMc]
        rw [c]; rw [b] at a; exact a
      · exact h.ceiling
      · exact h.fades
      · exact h.loss
    generalize s.setMc { s.mc with mode := .start } = s1 at h1
    have h1' : NodeInv (s1.setLpu { s1.lpu with rate := s1.pins.rate }) := nodeInv_same h1 rfl rfl rfl rfl (.inr ⟨rfl, rfl, rfl, rfl⟩) rfl rfl rfl rfl rfl
    have h2 := nodeInv_loadStore h1'
    generalize (s1.setLpu { s1.lpu with rate := s1.pins.rate }).loadStore = s2 at h2 ⊢
    exact nodeInv_same h2 rfl rfl rfl rfl (.inr ⟨rfl, rfl, rfl, rfl⟩) rfl rfl rfl rfl rfl

theorem nodeInv_leaveReset {s} (h : NodeInv s) : NodeInv s.leaveReset := by
  unfold State.leaveReset; split
  · rename_i hm; exact nodeInv_enterStart h hm.1
  · exact h

theorem nodeInv_resetNode (s : State) : NodeInv s.resetNode := nodeInv_leaveReset
    (nodeInv_nodeReset s)

theorem operatingInv_beginPeriod {s} (h : OperatingInv s) (p) : OperatingInv (s.beginPeriod p) := by
  refine ⟨h.op, ⟨h.counter.1, h.counter.2, h.counter.3⟩, ?_, h.ceiling, h.fades, h.loss⟩
  intro i hi
  have hc : (s.beginPeriod p).blockCause i = s.blockCause i := rfl
  rw [beginPeriod_channel s p i hi, hc]
  have a := latch_block (s.channel i) (onCountOf (s.os.duty.getD i 0) s.node.periodCode s.node.dither p.val)
  exact ⟨a.1.trans (h.blocks i hi).1, a.2⟩

/-- A counter start in an operating mode other than QUIET. -/
theorem operatingInv_counterStart {s} (ho : s.mc.mode.operating = true) (hq : s.mc.mode ≠ .quiet)
    (hb : BlockedByCause s) (hc : CeilingInRange s) (hf : FadesBounded s) (hl : NoTimerInLoss s) :
    OperatingInv s.counterStart := by
  apply operatingInv_beginPeriod
  refine ⟨ho, ⟨?_, ?_, ?_⟩, hb, hc, hf, hl⟩
  · show true = true ↔ s.mc.mode.operating = true ∧ Drivers.up = .up
    simp [ho]
  · show Drivers.up = .down ↔ s.mc.mode = .quiet
    simp [hq]
  · intro _; rfl

theorem nodeInv_completeStart {s} (h : NodeInv s) (hm : s.mc.mode = .start) :
    NodeInv s.completeStart := by
  have h0 := h.held (by rw [hm]; rfl)
  apply OperatingInv.nodeInv
  have goal : ∀ s2 : State, ∀ r, s2.mc = s.mc → s2.pwu = s.pwu → s2.fm = s.fm → s2.fe.contexts = s.fe.contexts → s2.ss.source = s.ss.source →
      s2.mon.ceiling = s.mon.ceiling → s2.mon.thermal = s.mon.thermal → ∀ m : Mode, m.operating = true → m ≠ .quiet → OperatingInv (((s2.setMc { s2.mc with returnMode := r }).shapeAll.enterMode m).counterStart) := by
    intro s2 r f1 f2 f3 f4 f5 f6 f7 m ho hq
    generalize hx3 : (s2.setMc { s2.mc with returnMode := r }).shapeAll = s3
    have g1 : s3.mc.mode = .start := by rw [← hx3]; show s2.mc.mode = _; rw [f1, hm]
    have g2 : s3.pwu = s.pwu := by rw [← hx3]; show s2.pwu = _; rw [f2]
    have g4 : s3.fe.contexts = s.fe.contexts := by rw [← hx3]; show s2.fe.contexts = _; rw [f4]
    have g5 : s3.ss.source = .stream := by rw [← hx3]; show s2.ss.source = _; rw [f5, h0.source]
    have g6 : s3.mon.ceiling = s.mon.ceiling := by rw [← hx3]; show s2.mon.ceiling = _; rw [f6]
    have g7 : s3.mon.thermal = s.mon.thermal := by rw [← hx3]; show s2.mon.thermal = _; rw [f7]
    rw [enterMode_notQuiet _ _ (by rw [g1]; simp), quietReview_eq]
    refine operatingInv_counterStart ho hq ?_ ?_ ?_ ?_
    · have hb := blockedByCause_reblock (s3.setMc { s3.mc with mode := m }) (by
        intro i hi
        have : (s3.setMc { s3.mc with mode := m }).channel i = s.channel i := by
          show s3.pwu.channels.getD i _ = _
          rw [g2]; rfl
        rw [this]; exact (h.blocks i hi).2)
      exact hb
    · have := h.ceiling
      unfold CeilingInRange at *
      dsimp only
      have a : (s3.setMc { s3.mc with mode := m }).reblock.mon = s3.mon := rfl
      rw [a, g6, g7]; exact this
    · have := h.fades
      unfold FadesBounded at *
      have a : (s3.setMc { s3.mc with mode := m }).reblock.fe = s3.fe := rfl
      dsimp only
      rw [a, g4]; exact this
    · intro hl
      have a : (s3.setMc { s3.mc with mode := m }).reblock.ss = s3.ss := rfl
      dsimp only at hl
      rw [a, g5] at hl; cases hl
  have hmode : ∀ p : Prop, ∀ d : Decidable p, (if p then Mode.hot else Mode.run).operating = true ∧ (if p then Mode.hot else Mode.run) ≠ .quiet := by
    intro p d; split <;> simp [Mode.operating]
  rw [completeStart_eq]
  obtain ⟨a,b,c,d,e,f,g⟩ := blocksBegun_keeps s
  exact goal _ _ a b c d e f g _ (hmode _ _).1 (hmode _ _).2

theorem nodeInv_pinsMode {s : State} (h : NodeInv s) (p) (m : ModeController) (e1 :
    m.mode = s.mc.mode) (e2 : m.quietTimer = s.mc.quietTimer) : NodeInv
    { s with pins := p, mc := m } :=
  nodeInv_same h e1 e2 rfl rfl (.inr ⟨rfl, rfl, rfl, rfl⟩) rfl rfl rfl rfl rfl

theorem nodeInv_transmit {s} (h : NodeInv s) : NodeInv s.transmit := by
  unfold State.transmit; split
  · rename_i hb
    split
    · refine nodeInv_same h rfl rfl rfl rfl (.inl ?_) rfl rfl rfl rfl rfl
      cases ho : s.mc.mode.operating
      · rw [(h.held ho).buffer] at hb; cases hb
      · rfl
    · exact h
  · exact h

theorem nodeInv_charSent {s} (h : NodeInv s) : NodeInv s.charSent := by
  unfold State.charSent; split
  · exact h
  · rename_i hb
    unfold State.frameForwarded; split
    · exact nodeInv_resetNode _
    · refine nodeInv_same h rfl rfl rfl rfl (.inl ?_) rfl rfl rfl rfl rfl
      cases ho : s.mc.mode.operating
      · rw [(h.held ho).tx] at hb; cases hb
      · rfl

theorem nodeInv_keepPace {s} (h : NodeInv s) : NodeInv s.keepPace := by
  have : ∀ n {s}, NodeInv s → NodeInv (State.keepPaceN n s) := by
    intro n; induction n with
    | zero => exact fun h => h
    | succ n ih => exact fun h => ih (nodeInv_charSent (nodeInv_transmit h))
  exact this _ (nodeInv_charSent h)

theorem nodeInv_passFrame {s} (h : NodeInv s) (k b t) : NodeInv (s.passFrame k b t) :=
    foldl_preserves (P := NodeInv) _ (fun _ a h => nodeInv_receive (nodeInv_keepPace h) a) _ h

theorem nodeInv_linkReset {s} (h : NodeInv s) : NodeInv s.linkReset := by
  unfold State.linkReset; dsimp only; split
  · exact nodeInv_resetNode _
  · cases ho : s.mc.mode.operating
    · have a := h.held ho
      refine nodeInv_same h rfl rfl rfl rfl (.inr ⟨rfl, rfl, a.buffer.symm, a.tracker.symm⟩) rfl rfl rfl rfl rfl
    · exact nodeInv_same h rfl rfl rfl rfl (.inl ho) rfl rfl rfl rfl rfl

theorem nodeInv_longPulse {s} (h : NodeInv s) : NodeInv s.longPulse := by
  unfold State.longPulse; dsimp only; split
  · split
    · exact nodeInv_pinsMode h _ _ rfl rfl
    · exact nodeInv_resetNode _
  · exact h

theorem nodeInv_releaseRstn {s} (h : NodeInv s) (n) : NodeInv (s.releaseRstn n) := by
  unfold State.releaseRstn; dsimp only; split
  · split
    · exact nodeInv_linkReset (nodeInv_pinsMode h _ _ rfl rfl)
    · exact (nodeInv_pinsMode h _ _ rfl rfl)
  · exact nodeInv_leaveReset (nodeInv_pinsMode h _ _ rfl rfl)

theorem nodeInv_setMon {s} (h : NodeInv s) (x : Monitor) (e1 : x.ceiling = s.mon.ceiling) (e2 :
    x.thermal = s.mon.thermal) : NodeInv (s.setMon x) :=
  nodeInv_same h rfl rfl rfl rfl (.inr ⟨rfl, rfl, rfl, rfl⟩) rfl rfl rfl e1 e2

theorem nodeInv_setAl {s} (h : NodeInv s) (x) : NodeInv (s.setAl x) :=
  nodeInv_same h rfl rfl rfl rfl (.inr ⟨rfl, rfl, rfl, rfl⟩) rfl rfl rfl rfl rfl

theorem nodeInv_setStc {s} (h : NodeInv s) (x) : NodeInv (s.setStc x) :=
  nodeInv_same h rfl rfl rfl rfl (.inr ⟨rfl, rfl, rfl, rfl⟩) rfl rfl rfl rfl rfl

theorem nodeInv_storeExecutor {s : State} (h : NodeInv s) (x m) : NodeInv
    { s with stc := x, me := m} :=
  nodeInv_same h rfl rfl rfl rfl (.inr ⟨rfl, rfl, rfl, rfl⟩) rfl rfl rfl rfl rfl

theorem nodeInv_startWork {s} (h : NodeInv s) (w) : NodeInv (s.startWork w) :=
    by rw [startWork_fields]; exact nodeInv_setStc h _

theorem nodeInv_endEntry {s} (h : NodeInv s) : NodeInv s.endEntry :=
    by rw [endEntry_fields]; exact nodeInv_storeExecutor h _ _

theorem nodeInv_storeFails {s} (h : NodeInv s) (w c) : NodeInv (s.storeFails w c) := by
  unfold State.storeFails; dsimp only
  apply nodeInv_endEntry
  have h1 : NodeInv ((s.setStc { s.stc with lastFailure := some ⟨s.stc.headKind, (match w with
    | .page p => some p
    | .erase => none), c⟩ }).raise .store) := nodeInv_setAl (nodeInv_setStc h _) _
  unfold State.spoil
  split <;> exact nodeInv_same h1 rfl rfl rfl rfl (.inr ⟨rfl, rfl, rfl, rfl⟩) rfl rfl rfl rfl rfl

theorem step_fadeBounded (c : FadeContext) (h : c.remaining ≤ 25500 ∧ (c.remaining = 0 →
    c.level = c.target)) : c.step.remaining ≤ 25500 ∧ (c.step.remaining = 0 →
    c.step.level = c.step.target) := by
  unfold FadeContext.step
  split
  · exact h
  · rename_i h0
    refine ⟨by dsimp only; omega, ?_⟩
    dsimp only
    intro h1
    have hr : c.remaining = 1 := by omega
    have hsz : c.stepSize = c.distance := by unfold FadeContext.stepSize; rw [hr]; simp
    rw [hsz]; unfold FadeContext.distance
    have a := c.level.isLt
    have b := c.target.isLt
    apply BitVec.eq_of_toNat_eq
    split
    · rw [natWord, BitVec.toNat_ofNat]; omega
    · split
      · rw [natWord, BitVec.toNat_ofNat]; omega
      · omega

theorem nodeInv_timebaseTick {s} (h : NodeInv s) (htb : s.fe.timebase = true) :
    NodeInv s.timebaseTick := by
  have ho : s.mc.mode.operating = true := by
    cases ho : s.mc.mode.operating
    · rw [(h.held ho).timebase] at htb; cases htb
    · rfl
  refine OperatingInv.nodeInv ⟨ho, ⟨h.counter.1, h.counter.2, h.counter.3⟩, h.blocks, h.ceiling, ?_, ?_⟩
  · intro c hc
    have : c ∈ s.fe.contexts.map FadeContext.step := hc
    obtain ⟨x, hx, rfl⟩ := List.mem_map.1 this
    exact step_fadeBounded x (h.fades x hx)
  · intro hl n hn
    have hn' : s.ss.lossTimer.tick = .running n := hn
    have := h.loss hl
    cases hs : s.ss.lossTimer with
    | off => rw [hs] at hn'; cases hn'
    | expired => rw [hs] at hn'; cases hn'
    | running k => exact this k hs

theorem stepCeiling_range (c : Nat) (t : Int) (h1 : 16 ≤ c) (h2 : c ≤ 64) : 16 ≤ stepCeiling c t ∧
    stepCeiling c t ≤ 64 := by
  unfold stepCeiling; split
  · split <;> omega
  · split
    · split <;> omega
    · omega

theorem nodeInv_requestHot {s} (h : NodeInv s) : NodeInv s.requestHot := by
  unfold State.requestHot
  split
  · rename_i e; exact (operatingInv_enterMode (m := .hot) (operatingInv_setMc (h.operating (by rw [e]; rfl)) _ (by rfl)) rfl (by simp)).nodeInv
  · rename_i e; exact (operatingInv_enterMode (m := .hot) (operatingInv_setMc (h.operating (by rw [e]; rfl)) _ (by rfl)) rfl (by simp)).nodeInv
  · rename_i e; exact (operatingInv_enterMode (m := .hot) (operatingInv_setMc (h.operating (by rw [e]; rfl)) _ (by rfl)) rfl (by simp)).nodeInv
  all_goals exact h

theorem nodeInv_endHot {s} (h : NodeInv s) : NodeInv s.endHot := by
  unfold State.endHot
  split
  · rename_i e
    refine (operatingInv_enterMode (h.operating (by rw [e]; rfl)) _ ?_ ?_).nodeInv
    · cases s.mc.returnMode <;> rfl
    · cases s.mc.returnMode <;> simp [ReturnMode.toMode]
  · exact h

/-- The node with another thermal state. -/
def State.withThermal (s : State) (x : Thermal) : State := { s with mon := { s.mon with thermal := x } }

theorem quietReview_withThermal (s : State) (x) :
    (State.withThermal s x).quietReview = State.withThermal s.quietReview x := by
  unfold State.quietReview
  have e1 : (State.withThermal s x).mc = s.mc := rfl
  have e2 : (State.withThermal s x).node = s.node := rfl
  have e3 : (State.withThermal s x).dark = s.dark := rfl
  rw [e1,e2,e3]
  split
  · split <;> rfl
  · rfl

theorem rotationFallsDue_withThermal (m : Monitor) (x : Thermal) : ({ m with thermal := x } :
    Monitor).rotationFallsDue = { m.rotationFallsDue with thermal := x } := by
  unfold Monitor.rotationFallsDue; cases m.converting <;> rfl

theorem leaveQuiet_withThermal (s : State) (x) :
    (State.withThermal s x).leaveQuiet = State.withThermal s.leaveQuiet x := by
  unfold State.leaveQuiet; dsimp only
  have e : ∀ n, ((State.withThermal s x).setPwu { (State.withThermal s x).pwu with drivers := .powering }).mon.rotationDue n = (s.setPwu { s.pwu with drivers := .powering }).mon.rotationDue n := fun n => rfl
  rw [e]
  have e1 : ((State.withThermal s x).setPwu { (State.withThermal s x).pwu with drivers := .powering }).mc = (s.setPwu { s.pwu with drivers := .powering }).mc := rfl
  rw [e1]
  split
  · have := rotationFallsDue_withThermal s.mon x
    show State.setMon _ _ = _
    unfold State.setMon State.withThermal
    exact congrArg (fun m => ({ (s.setPwu { s.pwu with drivers := .powering }) with mon := m } : State)) this
  · rfl

theorem enterMode_withThermal (s : State) (m x) :
    (State.withThermal s x).enterMode m = State.withThermal (s.enterMode m) x := by
  unfold State.enterMode; dsimp only
  have e1 : (State.withThermal s x).mc = s.mc := rfl
  rw [e1]
  split
  · have : ((State.withThermal s x).setMc { s.mc with mode := m }).leaveQuiet = State.withThermal ((s.setMc { s.mc with mode := m }).leaveQuiet) x := leaveQuiet_withThermal (s.setMc { s.mc with mode := m }) x
    rw [this, ← quietReview_withThermal]; rfl
  · rw [← quietReview_withThermal]; rfl

theorem reshape_withThermal (s : State) (x) :
    (State.withThermal s x).reshape = State.withThermal s.reshape x := by
  unfold State.reshape State.dutiesHandedOn
  have e1 : (State.withThermal s x).mc = s.mc := rfl
  have e2 : (State.withThermal s x).shapeAll = State.withThermal s.shapeAll x := rfl
  have e3 : (State.withThermal s.shapeAll x).mc = s.shapeAll.mc := rfl
  have e4 : (State.withThermal s.shapeAll x).dark = s.shapeAll.dark := rfl
  rw [e1, e2, e3, e4]
  split
  · split
    · exact enterMode_withThermal _ _ _
    · exact quietReview_withThermal _ _
  · rfl

theorem ceilingInRange_after (th : Thermal) (c c' : Nat) (t : Int) (h16 : 16 ≤ c) (h64 : c ≤ 64)
    (hc : th = .normal ∨ th = .warm → c = 64)
   (e : c' = stepCeiling c t) :
   (th.after c' t = .normal ∨ th.after c' t = .warm → c' = 64) := by
  subst e
  intro h
  cases th
  · have := hc (.inl rfl)
    subst this
    unfold Thermal.after stepCeiling at *
    by_cases h135 : (135:Int) ≤ t
    · simp only [h135, if_true] at h
      split at h <;> simp at h
    · simp [h135]
  · have := hc (.inr rfl)
    subst this
    unfold Thermal.after stepCeiling at *
    by_cases h135 : (135:Int) ≤ t
    · simp only [h135, if_true] at h
      split at h <;> simp at h
    · simp [h135]
  · unfold Thermal.after at h
    dsimp only at h
    split at h
    · simp at h
    · split at h
      · rename_i hh; exact hh.1
      · simp at h
  · unfold Thermal.after at h
    dsimp only at h
    split at h <;> simp at h

theorem nodeInv_takeTemperature {s} (h : NodeInv s) (raw) : NodeInv (s.takeTemperature raw) := by
  unfold State.takeTemperature; dsimp only
  generalize ht : temperatureOf raw = t
  have hr := stepCeiling_range s.mon.ceiling t h.ceiling.1 h.ceiling.2.1
  have hn := ceilingInRange_after s.mon.thermal s.mon.ceiling _ t h.ceiling.1 h.ceiling.2.1 h.ceiling.2.2 rfl
  have key : ∀ {s : State}, NodeInv s → ∀ x : Monitor, CeilingInRange { s with mon := x } → NodeInv (s.setMon x) := fun h x hx =>
    ⟨fun hm => (by have a := h.held hm; exact ⟨a.1, a.2, a.3, a.4, a.5, a.6, a.7, a.8⟩), ⟨h.counter.1, h.counter.2, h.counter.3⟩, h.blocks, hx, h.fades, h.loss⟩
  have h1 : NodeInv (s.setMon { s.mon with temperature := t, ceiling := stepCeiling s.mon.ceiling t, converting := some .supply, thermal := .derate }) :=
    key h _ ⟨hr.1, hr.2, by simp⟩
  have h2 := nodeInv_reshape h1
  generalize hs1 : (s.setMon { s.mon with temperature := t, ceiling := stepCeiling s.mon.ceiling t, converting := some .supply }) = s1
  have e1 : (s.setMon { s.mon with temperature := t, ceiling := stepCeiling s.mon.ceiling t, converting := some .supply, thermal := .derate }) = State.withThermal s1 .derate := by rw [← hs1]; rfl
  rw [e1, reshape_withThermal] at h2
  have ct := reshape_mon s1
  have c1 : s1.mon.ceiling = stepCeiling s.mon.ceiling t := by rw [← hs1]; rfl
  have c2 : s1.mon.thermal = s.mon.thermal := by rw [← hs1]; rfl
  generalize s1.reshape = s2 at h2 ct
  rw [c1, c2] at ct
  have key2 : ∀ new, (new = .normal ∨ new = .warm → s2.mon.ceiling = 64) → NodeInv (s2.setMon { s2.mon with thermal := new }) := fun new hh =>
    key h2 { s2.mon with thermal := new } ⟨by show 16 ≤ s2.mon.ceiling; rw [ct.1]; exact hr.1, by show s2.mon.ceiling ≤ 64; rw [ct.1]; exact hr.2, hh⟩
  unfold State.evaluateThermal; dsimp only
  have h3 := key2 (s2.mon.thermal.after s2.mon.ceiling t) (by rw [ct.1, ct.2]; exact hn)
  generalize (s2.mon.thermal.after s2.mon.ceiling t) = new at h3
  generalize (s2.setMon { s2.mon with thermal := new }) = s3 at h3
  have h4 : ∀ b : Bool, NodeInv (if b = true then s3.raise .thermal else s3) := by
    intro b; split
    · exact nodeInv_setAl h3 _
    · exact h3
  split
  · exact nodeInv_requestHot (h4 _)
  · split
    · exact nodeInv_endHot (h4 _)
    · exact h4 _

theorem nodeInv_evaluateOpen {s} (h : NodeInv s) (c b) : NodeInv (s.evaluateOpen c b) := by
  unfold State.evaluateOpen; dsimp only
  have h1 : ∀ x y, NodeInv (s.setFm { s.fm with openCount := x, openLatch := y }) :=
    fun x y => nodeInv_same h rfl rfl rfl rfl (.inr ⟨rfl, rfl, rfl, rfl⟩) rfl rfl rfl rfl rfl
  split <;> split <;> first | exact nodeInv_setAl (h1 _ _) _ | exact h1 _ _

theorem nodeInv_evaluateShort {s} (h : NodeInv s) (c b) : NodeInv (s.evaluateShort c b) := by
  unfold State.evaluateShort; dsimp only
  have ha : ∀ x y, NodeInv ((s.setFm { s.fm with shortCount := x, shortLatch := y })).reblock := by
    intro x y
    refine ⟨fun hm => (by have a := h.held hm; exact ⟨a.1, a.2, a.3, a.4, a.5, a.6, a.7, a.8⟩), ⟨h.counter.1, h.counter.2, h.counter.3⟩, ?_, h.ceiling, h.fades, h.loss⟩
    apply blockedByCause_reblock
    intro i hi; exact (h.blocks i hi).2
  have hb : ∀ x, NodeInv ((s.setFm { s.fm with shortCount := x, shortLatch := s.fm.shortLatch })) :=
    fun x => nodeInv_same h rfl rfl rfl rfl (.inr ⟨rfl, rfl, rfl, rfl⟩) rfl rfl rfl rfl rfl
  by_cases hn : latchesNow (has s.fm.shortLatch c) b (s.fm.shortCount.getD c 0) (confirmCount s.node.confirmCode) = true
  · simp only [hn, if_true]
    split
    · exact nodeInv_setAl (ha _ _) _
    · exact ha _ _
  · simp only [hn]
    exact hb _

theorem nodeInv_markEnd {s} (h : NodeInv s) (c) : NodeInv (s.markEnd c) := by
  refine ⟨fun hm => (by have a := h.held hm; exact ⟨a.1, a.2, a.3, a.4, a.5, a.6, a.7, a.8⟩), ⟨h.counter.1, h.counter.2, h.counter.3⟩, ?_, h.ceiling, h.fades, h.loss⟩
  intro i hi
  have hc : (s.markEnd c).blockCause i = s.blockCause i := rfl
  rw [hc]
  have a := h.blocks i hi
  have hch : (s.markEnd c).channel i = s.channel i ∨ (s.markEnd c).channel i = { s.channel i with endDue := false } := by
    unfold State.channel State.markEnd
    simp only [State.setPwu_pwu]
    simp only [List.getD_eq_getElem?_getD, List.getElem?_set]
    split
    · rename_i e; subst e
      split
      · right; rfl
      · left; rename_i h; rw [List.getElem?_eq_none (by omega)]
    · left; rfl
  rcases hch with e | e <;> rw [e]
  · exact a
  · exact ⟨a.1, fun hd => ⟨(a.2 hd).1, rfl⟩⟩

end Sys2Proof.Machine
end

