-- ==== Sys2Proof/Laws/Pages.lean ====
section
/-! SUPPORT. A page image is classified valid, and its content is what was written (R146, R147). -/

namespace Sys2Proof.Machine

theorem padContent_length (c : List Byte) (h : c.length ≤ 126) : (padContent c).length = 126 := by
  simp [padContent, pageContentLength]; omega

theorem pageImage_take (c : List Byte) (h : c.length ≤ 126) :
    (pageImage c).take 126 = padContent c := by
  unfold pageImage
  rw [List.take_append_of_le_length (by rw [padContent_length c h]),
    List.take_of_length_le (by rw [padContent_length c h])]

theorem pageImage_crc (c : List Byte) (h : c.length ≤ 126) :
    be16 ((pageImage c).getD 126 0) ((pageImage c).getD 127 0) = crc16 (padContent c) := by
  have hl := padContent_length c h
  unfold pageImage
  rw [List.getD_eq_getElem?_getD, List.getD_eq_getElem?_getD,
    List.getElem?_append_right (by omega), List.getElem?_append_right (by omega), hl]
  exact be16_bytes _

/-- The content read back is the content written, then padding. -/
theorem content_pageImage (c : List Byte) (h : c.length ≤ 126) :
    (Page.bytes (pageImage c)).content = padContent c := pageImage_take c h

/-- A page with a byte other than 0FFH and its own CRC is valid; page 0 only as the lock record. -/
theorem classify_pageImage (c : List Byte) (p : Nat) (h : c.length ≤ 126)
    (hb : (pageImage c).all (· = 0xFF) = false) (hp : p ≠ 0 ∨ padContent c = padContent lockContent) :
    (Page.bytes (pageImage c)).classify p = .valid := by
  unfold Page.classify
  simp only [hb, Bool.false_eq_true, if_false]
  rw [if_pos]
  rw [pageImage_take c h, pageImage_crc c h]
  exact ⟨rfl, hp⟩

/-- The first byte settles it. -/
theorem pageImage_notBlank (b : Byte) (c : List Byte) (hb : b ≠ 0xFF) :
    (pageImage (b :: c)).all (· = 0xFF) = false := by
  simp only [pageImage, padContent, List.cons_append, List.all_cons, Bool.and_eq_false_iff]
  exact .inl (decide_eq_false hb)

/-- The CRC of 126 bytes 0FFH, in nine runs of 14 bytes. -/
theorem crc16_allOnes : crc16 (List.replicate 126 0xFF) = 0x6372 := by
  let run (c : Word) : Word := (List.replicate 14 (0xFF : Byte)).foldl crcByte c
  have h1 : run 0xFFFF = 0xC321 := by decide +kernel
  have h2 : run 0xC321 = 0xF322 := by decide +kernel
  have h3 : run 0xF322 = 0x67BF := by decide +kernel
  have h4 : run 0x67BF = 0xE313 := by decide +kernel
  have h5 : run 0xE313 = 0xDFF7 := by decide +kernel
  have h6 : run 0xDFF7 = 0x55B4 := by decide +kernel
  have h7 : run 0x55B4 = 0x8A16 := by decide +kernel
  have h8 : run 0x8A16 = 0xB943 := by decide +kernel
  have h9 : run 0xB943 = 0x6372 := by decide +kernel
  have h : crc16 (List.replicate 126 0xFF) =
      run (run (run (run (run (run (run (run (run 0xFFFF)))))))) := by
    rw [show 126 = 14 + 14 + 14 + 14 + 14 + 14 + 14 + 14 + 14 from rfl]
    simp only [crc16, List.replicate_add, List.foldl_append, run]
  rw [h, h1, h2, h3, h4, h5, h6, h7, h8, h9]

/-- No page image is blank: where all 126 content bytes are 0FFH, their CRC is not (R147). -/
theorem pageImage_neverBlank (c : List Byte) (h : c.length ≤ 126) :
    (pageImage c).all (· = 0xFF) = false := by
  rw [Bool.eq_false_iff]
  intro hb
  unfold pageImage at hb
  rw [List.all_append, Bool.and_eq_true, List.all_eq_true] at hb
  have hc : padContent c = List.replicate 126 0xFF :=
    List.eq_replicate_iff.mpr ⟨padContent_length c h, fun b hm => of_decide_eq_true (hb.1 b hm)⟩
  rw [hc, crc16_allOnes] at hb
  exact absurd hb.2 (by decide)

/-- Every page image but one on page 0 is valid (R147). -/
theorem classify_saved (c : List Byte) (p : Nat) (h : c.length ≤ 126) (hp : p ≠ 0) :
    (Page.bytes (pageImage c)).classify p = .valid :=
  classify_pageImage c p h (pageImage_neverBlank c h) (.inl hp)

end Sys2Proof.Machine
end

