-- ==== Sys2Proof/Laws/Shapes.lean ====
section
/-! SUPPORT. Every shared operation keeps the lengths of the state's lists (`WellShaped`). -/

namespace Sys2Proof.Machine

/-- WellShaped reads lengths, the tables and the store. -/
theorem wellShaped_of {s t : State} (h : WellShaped s)
   (e1 : t.si.places.length = s.si.places.length)
   (e2 : t.pt.entries.length = s.pt.entries.length)
   (e3 : t.pt.groups.length = s.pt.groups.length)
   (e4 : t.fe.contexts.length = s.fe.contexts.length)
   (e5 : t.os.tables = s.os.tables)
   (e6 : t.os.forces.length = s.os.forces.length)
   (e7 : t.os.duty.length = s.os.duty.length)
   (e8 : t.pwu.channels.length = s.pwu.channels.length)
   (e9 : t.fm.openCount.length = s.fm.openCount.length)
   (e10 : t.fm.shortCount.length = s.fm.shortCount.length)
   (e11 : t.stc = s.stc)
   (e12 : t.lpu.buffer.length ≤ 8) : WellShaped t := by
  constructor <;> (try simp only [e1,e2,e3,e4,e5,e6,e7,e8,e9,e10,e11])
  · exact h.places
  · exact h.entries
  · exact h.groups
  · exact h.contexts
  · exact h.tables
  · exact h.points
  · exact h.forces
  · exact h.duty
  · exact h.channels
  · exact h.openCount
  · exact h.shortCount
  · exact h.pages
  · exact h.pageBytes
  · exact h.pageBuffer
  · exact h.writing
  · exact h.snapshot
  · exact h.shadow
  · exact h.targets
  · exact e12

theorem wellShaped_setLpu {s} (h : WellShaped s) (x : Lpu) (hx : x.buffer.length ≤ 8) : WellShaped
    (s.setLpu x) :=
  wellShaped_of h rfl rfl rfl rfl rfl rfl rfl rfl rfl rfl rfl hx

theorem wellShaped_setSi {s} (h : WellShaped s) (x : SlotIntake) (hx : x.places.length = 28) :
    WellShaped (s.setSi x) :=
  wellShaped_of h (hx.trans h.places.symm) rfl rfl rfl rfl rfl rfl rfl rfl rfl rfl h.buffer

theorem wellShaped_setSs {s} (h : WellShaped s) (x) : WellShaped (s.setSs x) :=
  wellShaped_of h rfl rfl rfl rfl rfl rfl rfl rfl rfl rfl rfl h.buffer

theorem wellShaped_setAl {s} (h : WellShaped s) (x) : WellShaped (s.setAl x) :=
  wellShaped_of h rfl rfl rfl rfl rfl rfl rfl rfl rfl rfl rfl h.buffer

theorem wellShaped_setMon {s} (h : WellShaped s) (x) : WellShaped (s.setMon x) :=
  wellShaped_of h rfl rfl rfl rfl rfl rfl rfl rfl rfl rfl rfl h.buffer

theorem wellShaped_setMc {s} (h : WellShaped s) (x) : WellShaped (s.setMc x) :=
  wellShaped_of h rfl rfl rfl rfl rfl rfl rfl rfl rfl rfl rfl h.buffer

theorem wellShaped_setMe {s} (h : WellShaped s) (x) : WellShaped (s.setMe x) :=
  wellShaped_of h rfl rfl rfl rfl rfl rfl rfl rfl rfl rfl rfl h.buffer

theorem wellShaped_setPins {s} (h : WellShaped s) (x) : WellShaped (s.setPins x) :=
  wellShaped_of h rfl rfl rfl rfl rfl rfl rfl rfl rfl rfl rfl h.buffer

theorem wellShaped_setNode {s} (h : WellShaped s) (x) : WellShaped (s.setNode x) :=
  wellShaped_of h rfl rfl rfl rfl rfl rfl rfl rfl rfl rfl rfl h.buffer

theorem wellShaped_setFe {s} (h : WellShaped s) (x : FadeEngine) (hx : x.contexts.length = 28) :
    WellShaped (s.setFe x) :=
  wellShaped_of h rfl rfl rfl (hx.trans h.contexts.symm) rfl rfl rfl rfl rfl rfl rfl h.buffer

theorem wellShaped_setPwu {s} (h : WellShaped s) (x : Pwu) (hx : x.channels.length = 24) :
    WellShaped (s.setPwu x) :=
  wellShaped_of h rfl rfl rfl rfl rfl rfl rfl (hx.trans h.channels.symm) rfl rfl rfl h.buffer

theorem wellShaped_setPt {s} (h : WellShaped s) (x : PatchTable) (hx : x.entries.length = 24) (hy :
    x.groups.length = 4) : WellShaped (s.setPt x) :=
  wellShaped_of h rfl (hx.trans h.entries.symm) (hy.trans h.groups.symm) rfl rfl rfl rfl rfl rfl rfl rfl h.buffer

theorem wellShaped_setFm {s} (h : WellShaped s) (x : FaultMonitor) (hx : x.openCount.length = 24)
    (hy : x.shortCount.length = 24) : WellShaped (s.setFm x) :=
  wellShaped_of h rfl rfl rfl rfl rfl rfl rfl rfl (hx.trans h.openCount.symm) (hy.trans h.shortCount.symm) rfl h.buffer

theorem wellShaped_setOs {s} (h : WellShaped s) (x : OutputShaper) (h1 : x.forces.length = 24) (h2 :
    x.duty.length = 24) (h3 : x.tables.length = 4) (h4 : ∀ t ∈ x.tables, t.length = 33) : WellShaped
    (s.setOs x) := by
  constructor <;> first | exact h1 | exact h2 | exact h3 | exact h4 | skip
  · exact h.places
  · exact h.entries
  · exact h.groups
  · exact h.contexts
  · exact h.channels
  · exact h.openCount
  · exact h.shortCount
  · exact h.pages
  · exact h.pageBytes
  · exact h.pageBuffer
  · exact h.writing
  · exact h.snapshot
  · exact h.shadow
  · exact h.targets
  · exact h.buffer

structure StoreShaped (t : Store) : Prop where
  pages : t.pages.length = 23
  pageBytes : ∀ b, Page.bytes b ∈ t.pages → b.length = 128
  pageBuffer : ∀ b, t.pageBuffer = some b → b.length = 128
  writing : ∀ p, t.activity = .running (.page p) → t.pageBuffer ≠ none
  snapshot : ∀ l, t.snapshot = some l → ∀ c ∈ l, c.length ≤ 126
  shadow : t.shadow.length = 16
  targets : ∀ r ∈ t.shadow, r.targets.length = 28

theorem wellShaped_store {s : State} (h : WellShaped s) : StoreShaped s.stc :=
  ⟨h.pages, h.pageBytes, h.pageBuffer, h.writing, h.snapshot, h.shadow, h.targets⟩

theorem wellShaped_setStc {s : State} (h : WellShaped s) (x : Store) (hx : StoreShaped x) :
    WellShaped (s.setStc x) :=
  ⟨h.places, h.entries, h.groups, h.contexts, h.tables, h.points, h.forces, h.duty, h.channels,
   h.openCount, h.shortCount, hx.pages, hx.pageBytes, hx.pageBuffer, hx.writing, hx.snapshot, hx.shadow, hx.targets, h.buffer⟩

theorem wellShaped_freeCount {s : State} (h : WellShaped s) (n : Nat) : WellShaped
    { s with freeCount := n } :=
  wellShaped_of h rfl rfl rfl rfl rfl rfl rfl rfl rfl rfl rfl h.buffer

theorem wellShaped_raise {s} (h : WellShaped s) (r) : WellShaped (s.raise r) := wellShaped_setAl h _

theorem wellShaped_retarget {s} (h : WellShaped s) (i t c) : WellShaped (s.retarget i t c) :=
  wellShaped_setFe h _ (by simp [h.contexts])

theorem wellShaped_foldl {α} (f : State → α → State) (hf : ∀ s a, WellShaped s → WellShaped (f s a))
    (l : List α) {s} (h : WellShaped s) :
   WellShaped (l.foldl f s) := by
  induction l generalizing s with
  | nil => exact h
  | cons a l ih => exact ih (hf s a h)

theorem wellShaped_retargetAll {s} (h : WellShaped s) (ts c) : WellShaped (s.retargetAll ts c) :=
  wellShaped_foldl _ (fun _ _ h => wellShaped_retarget h _ _ _) _ h

theorem wellShaped_retargetPark {s} (h : WellShaped s) (c) : WellShaped (s.retargetPark c) :=
  wellShaped_foldl _ (fun s a h => by split; exact wellShaped_retarget h _ _ _; exact h) _ h

theorem wellShaped_retargetItems {s} (h : WellShaped s) (is) : WellShaped (s.retargetItems is) :=
  wellShaped_foldl _ (fun _ _ h => wellShaped_retarget h _ _ _) _ h

theorem wellShaped_reblock {s} (h : WellShaped s) : WellShaped s.reblock := wellShaped_setPwu h _
    (by simp [perChannel])

theorem wellShaped_quietReview {s} (h : WellShaped s) : WellShaped s.quietReview := by
  unfold State.quietReview; split
  · split
    · exact wellShaped_setMc h _
    · exact h
  · exact wellShaped_setMc h _

theorem wellShaped_leaveQuiet {s} (h : WellShaped s) : WellShaped s.leaveQuiet := by
  unfold State.leaveQuiet; dsimp only; split
  · exact wellShaped_setMon (wellShaped_setPwu h _ (by exact h.channels)) _
  · exact (wellShaped_setPwu h _ (by exact h.channels))

theorem wellShaped_enterMode {s} (h : WellShaped s) (m) : WellShaped (s.enterMode m) := by
  unfold State.enterMode; dsimp only; split
  · exact wellShaped_quietReview (wellShaped_reblock (wellShaped_leaveQuiet (wellShaped_setMc h _)))
  · exact wellShaped_quietReview (wellShaped_reblock (wellShaped_setMc h _))

theorem wellShaped_enterQuiet {s} (h : WellShaped s) : WellShaped s.enterQuiet :=
  wellShaped_enterMode (wellShaped_setPwu h _ (by exact h.channels)) _

theorem wellShaped_dutiesHandedOn {s} (h : WellShaped s) : WellShaped s.dutiesHandedOn := by
  unfold State.dutiesHandedOn; split
  · exact wellShaped_enterMode h _
  · exact wellShaped_quietReview h

theorem wellShaped_shapeAll {s} (h : WellShaped s) : WellShaped s.shapeAll :=
  wellShaped_setOs h _ h.forces (by simp [perChannel]) h.tables h.points

theorem wellShaped_reshape {s} (h : WellShaped s) : WellShaped s.reshape := by
  unfold State.reshape; split
  · exact wellShaped_dutiesHandedOn (wellShaped_shapeAll h)
  · exact h

theorem wellShaped_commitStandby {s} (h : WellShaped s) : WellShaped s.commitStandby := by
  unfold State.commitStandby; split <;> first | exact wellShaped_enterMode h _ | exact wellShaped_setMc h _

theorem wellShaped_commitWake {s} (h : WellShaped s) : WellShaped s.commitWake := by
  unfold State.commitWake; split <;> first | exact wellShaped_enterMode h _ | exact wellShaped_setMc h _

theorem wellShaped_requestHot {s} (h : WellShaped s) : WellShaped s.requestHot := by
  unfold State.requestHot; split <;> first | exact wellShaped_enterMode (wellShaped_setMc h _) _ | exact h

theorem wellShaped_endHot {s} (h : WellShaped s) : WellShaped s.endHot := by
  unfold State.endHot; split <;> first | exact wellShaped_enterMode h _ | exact h

theorem wellShaped_beginPeriod {s} (h : WellShaped s) (p) : WellShaped (s.beginPeriod p) :=
    wellShaped_setPwu h _ (by simp [perChannel])

theorem wellShaped_counterStart {s} (h : WellShaped s) : WellShaped s.counterStart :=
    wellShaped_beginPeriod (wellShaped_setPwu h _ (by exact h.channels)) _

/-! ## The store -/
theorem pageImage_length {c : List Byte} (h : c.length ≤ 126) : (pageImage c).length = 128 := by
  simp [pageImage, padContent, pageContentLength, wordBytes]; omega

theorem sceneContent_length {r : SceneRecord} (h : r.targets.length = 28) :
    (sceneContent r).length = 57 := by
  have : ∀ l : List Word, (l.flatMap wordBytes).length = 2 * l.length := by
    intro l; induction l with
    | nil => rfl
    | cons a l ih => simp [wordBytes, ih]; omega
  simp only [sceneContent, List.length_append, this, h]; rfl

theorem pageSource_length {s} (h : WellShaped s) (p : Nat) : (s.pageSource p).length ≤ 126 := by
  unfold State.pageSource
  split
  · decide
  · split
    · cases hs : s.stc.snapshot with
      | none => simp
      | some l =>
        simp only [Option.getD_some]
        rw [List.getD_eq_getElem?_getD]
        cases hl : l[p-1]? with
        | none => simp
        | some c => exact h.snapshot l hs c (List.mem_of_getElem? hl)
    · rw [List.getD_eq_getElem?_getD]
      cases hl : s.stc.shadow[p-7]? with
      | none => decide
      | some c =>
        have := h.targets c (List.mem_of_getElem? hl)
        simp [sceneContent_length this]

theorem wellShaped_startWork {s} (h : WellShaped s) (w) : WellShaped (s.startWork w) := by
  unfold State.startWork
  split
  · exact wellShaped_setStc h _ ⟨h.pages, h.pageBytes, h.pageBuffer, by simp, h.snapshot, h.shadow, h.targets⟩
  · dsimp only
    rw [markHeadStarted_fields]
    split
    · refine wellShaped_setStc h _ ⟨h.pages, h.pageBytes, ?_, by simp, h.snapshot, h.shadow, h.targets⟩
      intro b hb
      simp only [Option.some.injEq] at hb
      rw [← hb]; exact pageImage_length (pageSource_length h _)
    · exact wellShaped_setStc h _ ⟨h.pages, h.pageBytes, h.pageBuffer, by simp, h.snapshot, h.shadow, h.targets⟩

theorem wellShaped_startHead {s} (h : WellShaped s) : WellShaped s.startHead := by
  unfold State.startHead; split
  · exact wellShaped_startWork h _
  · exact h

theorem words_length (l : List Word) : (l.flatMap wordBytes).length = 2 * l.length := by
    induction l with
    | nil => rfl
    | cons a l ih => simp [wordBytes, ih]; omega

theorem liveSnapshot_length {s} (h : WellShaped s) : ∀ c ∈ s.liveSnapshot, c.length ≤ 126 := by
  intro c hc
  unfold State.liveSnapshot at hc
  simp only [List.mem_cons, List.mem_map] at hc
  rcases hc with rfl | rfl | ⟨t, _, rfl⟩
  · simp [settingsContent, NodeSettings.toBytes, channelSetBytes]
  · have e : ∀ l : List PatchEntry, (l.flatMap PatchEntry.toBytes).length = 4 * l.length := by
      intro l; induction l with
      | nil => rfl
      | cons a l ih =>
        have : a.toBytes.length = 4 := by unfold PatchEntry.toBytes; dsimp only; split <;> rfl
        simp [this, ih]; omega
    have g : ∀ l : List GroupRecord, (l.flatMap GroupRecord.toBytes).length = 3 * l.length := by
      intro l; induction l with
      | nil => rfl
      | cons a l ih =>
        have : a.toBytes.length = 3 := by unfold GroupRecord.toBytes; split <;> rfl
        simp [this, ih]; omega
    simp [patchContent, e, g, h.entries, h.groups]
  · have : (s.os.tables.getD t defaultTable).length = 33 := by
      rw [List.getD_eq_getElem?_getD]
      cases ht : s.os.tables[t]? with
      | none => simp [defaultTable]
      | some x => exact h.points x (List.mem_of_getElem? ht)
    simp only [curveContent, words_length, this]; omega

theorem wellShaped_endEntry {s} (h : WellShaped s) : WellShaped s.endEntry := by
  unfold State.endEntry
  split
  · exact wellShaped_setStc h _ ⟨h.pages, h.pageBytes, h.pageBuffer, by simp, h.snapshot, h.shadow, h.targets⟩
  · dsimp only
    split
    · refine wellShaped_startHead (wellShaped_setStc h _ ?_)
      refine ⟨h.pages, h.pageBytes, h.pageBuffer, by simp, ?_, h.shadow, h.targets⟩
      intro l hl
      dsimp only at hl
      split at hl
      · cases hl; exact liveSnapshot_length h
      · exact h.snapshot l hl
    · exact wellShaped_startHead (wellShaped_setMe (wellShaped_setStc h _ (by exact ⟨h.pages, h.pageBytes, h.pageBuffer, by simp, h.snapshot, h.shadow, h.targets⟩)) _)

theorem wellShaped_pageEnded {s} (h : WellShaped s) (p) : WellShaped (s.pageEnded p) := by
  unfold State.pageEnded; split
  · exact wellShaped_startWork h _
  · exact wellShaped_endEntry h

theorem set_pageBytes {l : List Page} (h : ∀ b, Page.bytes b ∈ l → b.length = 128) (p : Nat) (x :
    Page) (hx : ∀ b, x = .bytes b → b.length = 128) :
   ∀ b, Page.bytes b ∈ l.set p x → b.length = 128 := by
  intro b hb
  rcases List.mem_or_eq_of_mem_set hb with hb | hb
  · exact h b hb
  · exact hx b hb.symm

theorem wellShaped_spoil {s} (h : WellShaped s) (w) : WellShaped (s.spoil w) := by
  unfold State.spoil
  split
  · rename_i p
    refine wellShaped_freeCount (s := s.setStc { s.stc with pages := s.stc.pages.set p.val (freePage s.freeCount p.val) }) (wellShaped_setStc h _ ?_) _
    refine ⟨by simp [h.pages], set_pageBytes h.pageBytes _ _ ?_, h.pageBuffer, h.writing, h.snapshot, h.shadow, h.targets⟩
    intro b hb; cases hb; simp
  · refine wellShaped_freeCount (s := s.setStc { s.stc with pages := (List.range 23).map (freePage s.freeCount) }) (wellShaped_setStc h _ ?_) _
    refine ⟨by simp, ?_, h.pageBuffer, h.writing, h.snapshot, h.shadow, h.targets⟩
    intro b hb
    simp only [List.mem_map] at hb
    obtain ⟨a, _, hb⟩ := hb; cases hb; simp

theorem wellShaped_storeFails {s} (h : WellShaped s) (w c) : WellShaped (s.storeFails w c) := by
  unfold State.storeFails; dsimp only
  exact wellShaped_endEntry (wellShaped_spoil (wellShaped_raise (wellShaped_setStc h _ (by exact ⟨h.pages, h.pageBytes, h.pageBuffer, h.writing, h.snapshot, h.shadow, h.targets⟩)) _) _)

theorem wellShaped_cutOffStore {s} (h : WellShaped s) : WellShaped s.cutOffStore := by
  have key : ∀ {s : State}, WellShaped s → WellShaped (s.setStc { s.stc with
    queue := [], snapshot := none, pageBuffer := none, activity := .idle, lastFailure := none }) := by
    intro s h
    exact wellShaped_setStc h _ ⟨h.pages, h.pageBytes, by simp, by simp, by simp, h.shadow, h.targets⟩
  unfold State.cutOffStore; dsimp only
  split
  · refine key (wellShaped_setStc h _ ⟨by simp [h.pages], set_pageBytes h.pageBytes _ _ (by simp), h.pageBuffer, h.writing, h.snapshot, h.shadow, h.targets⟩)
  · exact key (wellShaped_spoil h .erase)
  · exact key h
  · exact key h

theorem wellShaped_nodeReset {s} (h : WellShaped s) : WellShaped s.nodeReset := by
  have h' := wellShaped_cutOffStore h
  unfold State.nodeReset; dsimp only
  exact ⟨by simp [clearIntake], h'.entries, h'.groups, by simp, h'.tables, h'.points, by simp, by simp, by simp [Pwu.nodeReset],
   by simp [FaultMonitor.nodeReset], by simp [FaultMonitor.nodeReset], h'.pages, h'.pageBytes, h'.pageBuffer, h'.writing, h'.snapshot, h'.shadow, h'.targets, by simp [Lpu.nodeReset]⟩

theorem wordsOf_half : ∀ bs : List Byte, (wordsOf bs).length = bs.length / 2
  | [] => rfl
  | [_] => by simp [wordsOf]
  | a :: b :: bs => by simp [wordsOf, wordsOf_half bs]; omega

theorem valid_content_length {pg : Page} {p : Nat} (hp : ∀ b, pg = .bytes b → b.length = 128) (h :
    pg.classify p = .valid) : pg.content.length = 126 := by
  cases pg with
  | cutOff => simp [Page.classify] at h
  | bytes b => simp [Page.content, hp b rfl]

theorem page_bytes_length {s} (h : WellShaped s) (p : Nat) : ∀ b, s.page p = .bytes b →
    b.length = 128 := by
  intro b hb
  unfold State.page at hb
  rw [List.getD_eq_getElem?_getD] at hb
  cases hl : s.stc.pages[p]? with
  | none => rw [hl] at hb; simp [blankPage] at hb; rw [← hb]; simp
  | some x => rw [hl] at hb; simp at hb; subst hb; exact h.pageBytes b (List.mem_of_getElem? hl)

theorem wellShaped_loadStore {s} (h : WellShaped s) : WellShaped s.loadStore := by
  unfold State.loadStore; dsimp only
  refine wellShaped_retargetPark ?_ _
  refine ⟨h.places, ?_, ?_, h.contexts, by simp, ?_, h.forces, h.duty, h.channels, h.openCount, h.shortCount, h.pages, h.pageBytes, h.pageBuffer, h.writing, h.snapshot, by simp, ?_, h.buffer⟩
  · dsimp only [patchFromPage]; split <;> simp [PatchTable.ofPage, defaultPatchTable]
  · dsimp only [patchFromPage]; split <;> simp [PatchTable.ofPage, defaultPatchTable]
  · intro t ht
    dsimp only at ht
    simp only [List.mem_map] at ht
    obtain ⟨k, _, rfl⟩ := ht
    unfold tableFromPage
    split
    · rename_i hc
      have := valid_content_length (page_bytes_length h _) hc
      simp [tableOfPage, wordsOf_half, this]
    · simp [defaultTable]
    · simp [defaultTable]
  · intro t ht
    dsimp only at ht
    simp only [List.mem_map] at ht
    obtain ⟨k, _, rfl⟩ := ht
    unfold sceneFromPage
    split
    · rename_i hc
      have := valid_content_length (page_bytes_length h _) hc
      simp [SceneRecord.ofPage, wordsOf_half, this]
    · simp [invalidScene]
    · simp [invalidScene]

theorem wellShaped_enterStart {s} (h : WellShaped s) : WellShaped s.enterStart := by
  unfold State.enterStart
  exact wellShaped_setMon (wellShaped_loadStore (wellShaped_setLpu (wellShaped_setMc h _) _ (by exact h.buffer))) _

theorem wellShaped_leaveReset {s} (h : WellShaped s) : WellShaped s.leaveReset := by
  unfold State.leaveReset; split
  · exact wellShaped_enterStart h
  · exact h

theorem wellShaped_resetNode {s} (h : WellShaped s) : WellShaped s.resetNode :=
    wellShaped_leaveReset (wellShaped_nodeReset h)

theorem wellShaped_completeStart {s} (h : WellShaped s) : WellShaped s.completeStart := by
  unfold State.completeStart; dsimp only
  refine wellShaped_counterStart (wellShaped_enterMode (wellShaped_shapeAll (wellShaped_setMc ?_ _)) _)
  have : WellShaped ((((s.setFe { s.fe with timebase := true }).setMon { s.mon with sinceStart := some 0 }).setSs
     { s.ss with lossTimer := LossTimer.started s.node.lossTimeout }).raise .start) :=
    wellShaped_raise (wellShaped_setSs (wellShaped_setMon (wellShaped_setFe h _ (by exact h.contexts)) _) _) _
  split
  · exact this
  · exact wellShaped_raise this _

theorem wellShaped_linkReset {s} (h : WellShaped s) : WellShaped s.linkReset := by
  have : WellShaped
    { s with
      lpu := { s.lpu with
        buffer := [], tracker := .idle, stallTimer := false, counters := zeroCounters }
      si := clearIntake
      me := emptyExecutor
      al := { s.al with claim := false } } :=
    wellShaped_of h (by simp [clearIntake, h.places]) rfl rfl rfl rfl rfl rfl rfl rfl rfl rfl (by simp)
  unfold State.linkReset; dsimp only; split
  · exact wellShaped_resetNode this
  · exact this

theorem wellShaped_longPulse {s} (h : WellShaped s) : WellShaped s.longPulse := by
  unfold State.longPulse; dsimp only; split
  · split
    · exact wellShaped_setMc h _
    · exact wellShaped_resetNode (wellShaped_setMc h _)
  · exact h

theorem wellShaped_pinsMode {s : State} (h : WellShaped s) (p m) : WellShaped
    { s with pins := p, mc := m } :=
  wellShaped_of h rfl rfl rfl rfl rfl rfl rfl rfl rfl rfl rfl h.buffer

theorem wellShaped_releaseRstn {s} (h : WellShaped s) (n) : WellShaped (s.releaseRstn n) := by
  unfold State.releaseRstn; dsimp only; split
  · split
    · exact wellShaped_linkReset (wellShaped_pinsMode h _ _)
    · exact (wellShaped_pinsMode h _ _)
  · exact wellShaped_leaveReset (wellShaped_pinsMode h _ _)

/-! ## Commits -/
theorem wellShaped_commitWritePatch {s} (h : WellShaped s) (f) (es : List PatchEntry) : WellShaped
    (s.commitWritePatch f es) := by
  induction es generalizing s f with
  | nil => exact h
  | cons e es ih =>
    refine ih ?_ _
    unfold State.replaceEntry; dsimp only
    have := wellShaped_setPt h { s.pt with entries := s.pt.entries.set f e } (by simp [h.entries]) h.groups
    split
    · exact wellShaped_retarget this _ _ _
    · exact this

theorem replacePoints_length (ps : List Word) : ∀ (t : List Word) (f : Nat),
    (replacePoints t f ps).length = t.length := by
  induction ps with
  | nil => intros; rfl
  | cons p ps ih => intro t f; simp [replacePoints, ih]

theorem wellShaped_commitWriteCurve {s} (h : WellShaped s) (t f ps) : WellShaped
    (s.commitWriteCurve t f ps) := by
  unfold State.commitWriteCurve
  refine wellShaped_setOs h _ h.forces h.duty (by simp [h.tables]) ?_
  intro x hx
  rcases List.mem_or_eq_of_mem_set hx with hx | hx
  · exact h.points x hx
  · rw [hx, replacePoints_length, List.getD_eq_getElem?_getD]
    cases ht : s.os.tables[t.val]? with
    | none => simp [defaultTable]
    | some x => exact h.points x (List.mem_of_getElem? ht)

theorem wellShaped_captureShadow {s} (h : WellShaped s) (n f) : WellShaped (s.captureShadow n f) :=
    by
  unfold State.captureShadow; dsimp only
  refine wellShaped_setStc h _ ⟨h.pages, h.pageBytes, h.pageBuffer, h.writing, h.snapshot, by simp [h.shadow], ?_⟩
  intro r hr
  rcases List.mem_or_eq_of_mem_set hr with hr | hr
  · exact h.targets r hr
  · rw [hr]; simp

theorem wellShaped_setQueueLock {s} (h : WellShaped s) (x : Store) (e : x =
    { s.stc with queue := x.queue, lock := x.lock }) : WellShaped (s.setStc x) := by
  refine wellShaped_setStc h _ ?_
  rw [e]
  exact ⟨h.pages, h.pageBytes, h.pageBuffer, h.writing, h.snapshot, h.shadow, h.targets⟩

theorem wellShaped_joinQueue {s} (h : WellShaped s) (k) : WellShaped (s.joinQueue k) :=
    wellShaped_setQueueLock h _ rfl

theorem wellShaped_markAgain {s} (h : WellShaped s) (k) : WellShaped (s.markAgain k) :=
    wellShaped_setQueueLock h _ rfl

theorem wellShaped_takeSnapshot {s} (h : WellShaped s) : WellShaped s.takeSnapshot :=
  wellShaped_setStc h _ ⟨h.pages, h.pageBytes, h.pageBuffer, h.writing, fun l hl => by cases hl; exact liveSnapshot_length h, h.shadow, h.targets⟩

theorem wellShaped_recall {s} (h : WellShaped s) (n f) : WellShaped (s.recall n f) := by
  unfold State.recall; dsimp only; split
  · exact wellShaped_retargetAll (wellShaped_setSs h _) _ _
  · exact h

theorem wellShaped_apply {s} (h : WellShaped s) (e : Staged) : WellShaped (s.apply e) := by
  unfold State.apply
  split
  · exact wellShaped_setLpu h _ h.buffer
  · exact wellShaped_commitWritePatch h _ _
  · exact wellShaped_setPt h _ h.entries (by simp [h.groups])
  · exact wellShaped_commitWriteCurve h _ _ _
  · exact wellShaped_quietReview (wellShaped_setSs (wellShaped_setNode h _) _)
  · exact wellShaped_setAl (wellShaped_setFm h _ (by exact h.openCount) (by exact h.shortCount)) _
  · exact wellShaped_recall h _ _
  · unfold State.commitCapture
    have h' := fun a b => wellShaped_captureShadow (n := a) (f := b) h
    dsimp only
    split
    · exact wellShaped_joinQueue (h' _ _) _
    · split
      · exact wellShaped_joinQueue (h' _ _) _
      · split
        · exact h' _ _
        · exact wellShaped_markAgain (h' _ _) _
    · exact h' _ _
    · exact h' _ _
  · unfold State.commitSaveConfig
    split
    · exact wellShaped_joinQueue (wellShaped_takeSnapshot h) _
    · split
      · exact wellShaped_joinQueue (wellShaped_takeSnapshot h) _
      · split
        · exact wellShaped_markAgain h _
        · exact wellShaped_takeSnapshot h
    · exact h
    · exact h
  · unfold State.commitSetLock
    split
    · exact wellShaped_joinQueue (wellShaped_setQueueLock h _ rfl) _
    all_goals exact h
  · exact wellShaped_joinQueue h _
  · exact wellShaped_setOs h _ (by simp [OutputShaper.force, perChannel]) h.duty h.tables h.points
  · exact wellShaped_setOs h _ (by simp [OutputShaper.release, perChannel]) h.duty h.tables h.points
  · exact wellShaped_reblock (wellShaped_setFm h _ (by simp [clearCounts, perChannel]) (by simp [clearCounts, perChannel]))
  · exact wellShaped_setAl h _
  · exact wellShaped_commitStandby h
  · exact wellShaped_commitWake h
  · exact wellShaped_setMc h _
  · exact wellShaped_setNode h _
  · exact h
  · exact wellShaped_setNode h _

theorem wellShaped_commitAll {s} (h : WellShaped s) (l) : WellShaped (s.commitAll l) := by
  have h1 := wellShaped_foldl State.apply (fun s a h => wellShaped_apply h a) l h
  unfold State.commitAll; dsimp only
  split <;> split
  · exact wellShaped_startHead (wellShaped_reshape h1)
  · exact wellShaped_startHead h1
  · exact wellShaped_reshape h1
  · exact h1

theorem wellShaped_handOver {s} (h : WellShaped s) : WellShaped s.handOver := by
  unfold State.handOver; split
  · exact h
  · refine wellShaped_reshape ?_
    unfold State.takeCapturedSet
    have ts : ∀ {s} (h : WellShaped s) (i c), WellShaped (s.toStream i c) := fun h i c =>
      wellShaped_retargetItems (wellShaped_retargetPark (wellShaped_setSs h _) _) _
    split
    · exact h
    · dsimp only
      split
      · exact wellShaped_retargetItems (wellShaped_setSs h _) _
      · split
        · exact ts (wellShaped_setSs h _) _ _
        · exact wellShaped_setSs h _
      all_goals exact ts (wellShaped_setSs h _) _ _

theorem wellShaped_frameEnds {s} (h : WellShaped s) (o) : WellShaped (s.frameEnds o) := by
  unfold State.frameEnds; dsimp only
  have key : ∀ {s} (h : WellShaped s), WellShaped (((s.setSi clearIntake).setMe emptyExecutor)) := fun h => wellShaped_setMe (wellShaped_setSi h _ (by simp [clearIntake])) _
  have key2 : ∀ {s} (h : WellShaped s) (a) (l : Lpu) (hl : l.buffer = s.lpu.buffer), WellShaped ((s.setAl a).setLpu l) := fun h a l hl => wellShaped_setLpu (wellShaped_setAl h _) _ (by rw [hl]; exact h.buffer)
  have h1 : WellShaped (if decide (o = FrameOutcome.good) = true then s.handOver.commitAll s.me.commits else s) := by
    split
    · exact wellShaped_commitAll (wellShaped_handOver h) _
    · exact h
  exact key2 (key h1) _ _ rfl

theorem releaseAsReceived_length (b : List Place) : (releaseAsReceived b).length = b.length :=
    by simp [releaseAsReceived]

theorem joinBuffer_length (b : List Place) (p full) (h : b.length ≤ 8) (hf : full = false →
    b.length < 8) : (joinBuffer b p full).length ≤ 8 := by
  cases full
  · simp [joinBuffer]; exact hf rfl
  · simp [joinBuffer]; exact h

theorem wellShaped_setBuffer {s} (h : WellShaped s) (b) (hb : b.length ≤ 8) : WellShaped
    (s.setBuffer b) := wellShaped_setLpu h _ hb

theorem wellShaped_endsEarly {s} (h : WellShaped s) (o) : WellShaped (s.endsEarly o) :=
  wellShaped_frameEnds (wellShaped_setBuffer h _ (by rw [releaseAsReceived_length]; exact h.buffer)) _

theorem bufferFull_false (s : State) : s.bufferFull = false → s.lpu.buffer.length < 8 := by
  unfold State.bufferFull bufferPlaces; rw [decide_eq_false_iff_not]; omega

theorem wellShaped_startFrame {s} (h : WellShaped s) (k e f) : WellShaped (s.startFrame k e f) := by
  unfold State.startFrame; dsimp only
  exact wellShaped_setLpu (wellShaped_setMe (wellShaped_setSi h _ (by simp)) _) _ (by exact h.buffer)

theorem releaseHeld_length (b : List Place) : (releaseHeld b).length = b.length :=
    by simp [releaseHeld]

theorem resubstitute_length (b : List Place) (o) : (resubstitute b o).length = b.length :=
    by cases o <;> simp [resubstitute]

theorem wellShaped_holdChar {s} (h : WellShaped s) (f p full) (hf : full = false →
    s.lpu.buffer.length < 8) : WellShaped (s.holdChar f p full) :=
  wellShaped_setLpu h _ (by
    apply joinBuffer_length
    · rw [releaseHeld_length]; exact h.buffer
    · rw [releaseHeld_length]; exact hf)

theorem bodyEnd_places (si : SlotIntake) (t) : (si.bodyEnd t).1.places = si.places := by
  unfold SlotIntake.bodyEnd; split <;> rfl

theorem wellShaped_bodyEnds {s} (h : WellShaped s) (f) : WellShaped (s.bodyEnds f).1 ∧
    (s.bodyEnds f).1.lpu = s.lpu := by
  unfold State.bodyEnds
  split
  · exact ⟨h, rfl⟩
  · split
    · split
      · exact ⟨h, rfl⟩
      · rename_i t _
        refine ⟨wellShaped_setSi h _ (by rw [bodyEnd_places]; exact h.places), rfl⟩
    · split
      · split <;> exact ⟨h, rfl⟩
      · exact ⟨h, rfl⟩

theorem takeByte_places (si : SlotIntake) (hs : si.places.length = 28) (t pos len b) :
    (si.takeByte t pos len b).1.places.length = 28 := by
  unfold SlotIntake.takeByte
  split <;> (try exact hs)
  · split
    · exact hs
    · dsimp only; split <;> exact hs
  · split
    · split
      · exact hs
      · simp [Intake.capture]
    · simp [Intake.capture]

theorem wellShaped_consume {s} (h : WellShaped s) (f d) : WellShaped (s.consume f d).1 ∧
    (s.consume f d).1.lpu.buffer.length = s.lpu.buffer.length := by
  unfold State.consume
  split
  · exact ⟨h, rfl⟩
  · split
    · split
      · exact ⟨h, rfl⟩
      · refine ⟨wellShaped_setSi h _ (takeByte_places _ h.places _ _ _ _), rfl⟩
    · split
      · split
        · exact ⟨h, rfl⟩
        · refine ⟨wellShaped_setBuffer (wellShaped_setMe h _) _ (by rw [resubstitute_length]; exact h.buffer), resubstitute_length _ _⟩
      · exact ⟨h, rfl⟩

theorem wellShaped_takeHead {s} (h : WellShaped s) (f d full) (hf : full = false →
    s.lpu.buffer.length < 8) : WellShaped (s.takeHead f d full) := by
  unfold State.takeHead; dsimp only
  split
  · exact wellShaped_holdChar h _ _ _ hf
  · split
    · refine wellShaped_setLpu (wellShaped_endsEarly h _) _ (joinBuffer_length _ _ _ ?_ ?_)
      · exact (wellShaped_endsEarly h _).buffer
      · intro hh
        have : (s.endsEarly .overlong).lpu.buffer = releaseAsReceived s.lpu.buffer := rfl
        rw [this, releaseAsReceived_length]; exact hf hh
    · split
      · have := wellShaped_bodyEnds h { f.feedLength d full with length := (f.feedLength d full).length + d.toNat, phase := .trail }
        exact wellShaped_holdChar this.1 _ _ _ (by rw [this.2]; exact hf)
      · exact wellShaped_holdChar h _ _ _ hf

theorem wellShaped_takeBody {s} (h : WellShaped s) (f d full) (hf : full = false →
    s.lpu.buffer.length < 8) : WellShaped (s.takeBody f d full) := by
  unfold State.takeBody; dsimp only
  have hc := wellShaped_consume h { f with rxCrc := crcByte f.rxCrc d } d
  generalize s.consume { f with rxCrc := crcByte f.rxCrc d } d = x at hc
  obtain ⟨s1, sub, fault⟩ := x
  dsimp only at hc ⊢
  split
  · have := wellShaped_bodyEnds hc.1 { f with rxCrc := crcByte f.rxCrc d, format := fault, phase := .trail }
    exact wellShaped_holdChar this.1 _ _ _ (by rw [this.2]; rw [hc.2]; exact hf)
  · exact wellShaped_holdChar hc.1 _ _ _ (by rw [hc.2]; exact hf)

theorem wellShaped_takeTrail {s} (h : WellShaped s) (f d full) (hf : full = false →
    s.lpu.buffer.length < 8) : WellShaped (s.takeTrail f d full) := by
  unfold State.takeTrail
  split
  · unfold State.takeAttention; dsimp only
    split
    · exact wellShaped_holdChar (wellShaped_setAl h _) _ _ _ hf
    · exact wellShaped_holdChar h _ _ _ hf
  · split
    · exact wellShaped_holdChar h _ _ _ hf
    · unfold State.takeLastCrc; dsimp only
      refine wellShaped_frameEnds (wellShaped_setBuffer h _ (joinBuffer_length _ _ _ ?_ ?_)) _
      · rw [releaseHeld_length, resubstitute_length]; exact h.buffer
      · rw [releaseHeld_length, resubstitute_length]; exact hf

theorem wellShaped_takeChar {s} (h : WellShaped s) (c) : WellShaped (s.takeChar c) := by
  have hf := bufferFull_false s
  unfold State.takeChar; dsimp only
  generalize s.bufferFull = full at hf
  have h1 := wellShaped_setLpu h { s.lpu with rx := if c.stop then .hunting else .awaitStop, counters := s.lpu.counters.countArrival (charError c) full } (by exact h.buffer)
  have hf1 : full = false → (s.setLpu { s.lpu with rx := if c.stop then .hunting else .awaitStop, counters := s.lpu.counters.countArrival (charError c) full }).lpu.buffer.length < 8 := hf
  generalize s.setLpu { s.lpu with rx := if c.stop then .hunting else .awaitStop, counters := s.lpu.counters.countArrival (charError c) full } = s1 at h1 hf1
  split
  · unfold State.takeOpener; dsimp only
    refine wellShaped_startFrame ?_ _ _ _
    split
    · refine wellShaped_setBuffer (wellShaped_endsEarly h1 _) _ (joinBuffer_length _ _ _ (wellShaped_endsEarly h1 _).buffer ?_)
      intro hh
      have : (s1.endsEarly .truncated).lpu.buffer = releaseAsReceived s1.lpu.buffer := rfl
      rw [this, releaseAsReceived_length]; exact hf1 hh
    · exact wellShaped_setBuffer h1 _ (joinBuffer_length _ _ _ h1.buffer hf1)
    · exact wellShaped_setBuffer h1 _ (joinBuffer_length _ _ _ h1.buffer hf1)
  · split
    · exact wellShaped_setBuffer h1 _ (joinBuffer_length _ _ _ h1.buffer hf1)
    · exact wellShaped_setBuffer h1 _ (joinBuffer_length _ _ _ h1.buffer hf1)
    · unfold State.takeFrameChar; dsimp only
      split
      · exact wellShaped_takeHead h1 _ _ _ hf1
      · exact wellShaped_takeBody h1 _ _ _ hf1
      · exact wellShaped_takeTrail h1 _ _ _ hf1

theorem wellShaped_receive {s} (h : WellShaped s) (c) : WellShaped (s.receive c) := by
  unfold State.receive; split
  · exact wellShaped_setLpu h _ (by exact h.buffer)
  · split
    · exact h
    · exact wellShaped_takeChar h _

theorem wellShaped_transmit {s} (h : WellShaped s) : WellShaped s.transmit := by
  unfold State.transmit; split
  · rename_i hb
    split
    · exact wellShaped_setLpu h _ (by have := h.buffer; rw [hb] at this; simp at this ⊢; omega)
    · exact h
  · exact h

theorem wellShaped_charSent {s} (h : WellShaped s) : WellShaped s.charSent := by
  unfold State.charSent; split
  · exact h
  · unfold State.frameForwarded; split
    · exact wellShaped_resetNode (wellShaped_setLpu h _ (by exact h.buffer))
    · exact (wellShaped_setLpu h _ (by exact h.buffer))

theorem wellShaped_keepPace {s} (h : WellShaped s) : WellShaped s.keepPace := by
  have : ∀ n {s}, WellShaped s → WellShaped (State.keepPaceN n s) := by
    intro n; induction n with
    | zero => exact fun h => h
    | succ n ih => exact fun h => ih (wellShaped_charSent (wellShaped_transmit h))
  exact this _ (wellShaped_charSent h)

theorem wellShaped_pass {s} (h : WellShaped s) (c) : WellShaped (s.pass c) := wellShaped_receive
    (wellShaped_keepPace h) _

theorem wellShaped_passFrame {s} (h : WellShaped s) (k b t) : WellShaped (s.passFrame k b t) :=
    wellShaped_foldl _ (fun _ a h => wellShaped_pass h a) _ h

theorem wellShaped_passRecord {s} (h : WellShaped s) (k b) : WellShaped (s.passRecord k b) :=
    wellShaped_passFrame h _ _ _

theorem wellShaped_evaluateThermal {s} (h : WellShaped s) (t) : WellShaped (s.evaluateThermal t) :=
    by
  unfold State.evaluateThermal; dsimp only
  have h1 := wellShaped_setMon h { s.mon with thermal := s.mon.thermal.after s.mon.ceiling t }
  generalize s.setMon { s.mon with thermal := s.mon.thermal.after s.mon.ceiling t } = s1 at h1
  have h2 : ∀ b : Bool, WellShaped (if b = true then s1.raise .thermal else s1) := by
    intro b; split
    · exact wellShaped_raise h1 _
    · exact h1
  split
  · exact wellShaped_requestHot (h2 _)
  · split
    · exact wellShaped_endHot (h2 _)
    · exact h2 _

theorem wellShaped_evaluateSupply {s} (h : WellShaped s) (t) : WellShaped (s.evaluateSupply t) := by
  unfold State.evaluateSupply
  split
  · split
    · exact wellShaped_raise (wellShaped_setMon h _) _
    · exact h
  · split
    · unfold State.preUvEnded; split
      · exact wellShaped_startWork (wellShaped_setMon h _) _
      · exact (wellShaped_setMon h _)
      · exact (wellShaped_setMon h _)
    · exact h

theorem wellShaped_evaluateOpen {s} (h : WellShaped s) (c b) : WellShaped (s.evaluateOpen c b) := by
  unfold State.evaluateOpen; dsimp only
  have h1 : ∀ x, WellShaped (s.setFm { s.fm with openCount := s.fm.openCount.set c (countAfter (has s.fm.openLatch c) b (s.fm.openCount.getD c 0)), openLatch := x }) :=
    fun x => (wellShaped_setFm h _ (by simp [h.openCount]) (by exact h.shortCount))
  split <;> split <;> first | exact wellShaped_raise (h1 _) _ | exact h1 _

theorem wellShaped_evaluateShort {s} (h : WellShaped s) (c b) : WellShaped (s.evaluateShort c b) :=
    by
  unfold State.evaluateShort; dsimp only
  have h1 : ∀ x, WellShaped (s.setFm { s.fm with shortCount := s.fm.shortCount.set c (countAfter (has s.fm.shortLatch c) b (s.fm.shortCount.getD c 0)), shortLatch := x }) :=
    fun x => (wellShaped_setFm h _ (by exact h.openCount) (by simp [h.shortCount]))
  split <;> split
  · exact wellShaped_raise (wellShaped_reblock (h1 _)) _
  · exact (wellShaped_reblock (h1 _))
  · exact wellShaped_raise ((h1 _)) _
  · exact h1 _

end Sys2Proof.Machine
end

