-- ==== Sys2Proof/Tests/Slice0.lean ====
section
/-! SUPPORT. The model's own tests: operands that the layouts cannot carry, the worked examples of the
spec, and for every statement with hypotheses a state and operands that meet them. -/

namespace Sys2Proof.Tests

open Sys2Proof Sys2Proof.Machine

/-! ## Small states and operands -/

/-- The state a command ends in. -/
def landed (o : Host.Outcome State Fault Refusal) : Option State :=
  match o with
  | .next t => some t
  | .fault _ => none
  | .refused _ => none

/-- A node in RUN at address 5, the link open and at rest, every channel driving, all else at its
defaults. -/
def running : State :=
  { State.reset with
    pins := { rstnLow := false, rate := 0, vddOk := true }
    lpu := { State.reset.lpu with bypass := false }
    fe := { State.reset.fe with timebase := true }
    ss := { source := .stream, lossTimer := .running 3000, live := false }
    pwu := { State.reset.pwu with
      running := true
      channels := List.replicate 24 { block := .driving, onCount := 0, endDue := false } }
    mon := { State.reset.mon with sinceStart := some 0 }
    mc := { State.reset.mc with mode := .run, quietTimer := some 2000 }
    node := { defaultNode with address := 5 } }

/-- The running node with another link. -/
def withLpu (f : Lpu → Lpu) : State := { running with lpu := f running.lpu }

/-- The running node with another store. -/
def withStore (f : Store → Store) : State := { running with stc := f running.stc }

/-- The running node in another mode. -/
def withMode (m : Mode) : State := { running with mc := { running.mc with mode := m } }

/-- The running node with another source state. -/
def withSource (src : Source) : State := { running with ss := { running.ss with source := src } }

/-- A node in START, its rotation at the AUX conversion. -/
def starting : State :=
  { State.reset with
    pins := { rstnLow := false, rate := 0, vddOk := true }
    mc := { State.reset.mc with mode := .start }
    mon := { State.reset.mon with converting := some .aux } }

def tail : FrameTail := { attention := 0, crc := .correct }

/-- A record to the node at address 5. -/
def toNode (params reply : List Byte) : Record :=
  { target := 5, params := params, status := 0, reply := reply, tail := tail }

/-- A broadcast record. -/
def toAll (params reply : List Byte) : Record := { toNode params reply with target := 0xFF }

/-- A reply area of n bytes 00H. -/
def room (n : Nat) : List Byte := List.replicate n 0

theorem running_rest : LinkRest running := by constructor <;> rfl

/-- A record that the running node takes, in a GOOD frame. -/
theorem taken (r : Record) (hw : r.wellFormed = true) (ht : r.tail = tail)
    (h : r.target = 0xFF ∨ (r.target = 5 ∧ r.status = 0)) : TakenRecord running r := by
  refine ⟨running_rest, hw, ?_, by rw [ht]; rfl⟩
  rcases h with h | ⟨h1, h2⟩
  · exact .inl h
  · exact .inr ⟨by rw [h1]; rfl, h2⟩

theorem wellShaped_running : WellShaped running := by
  constructor <;> first | rfl | decide | skip
  intro b h
  have := List.eq_of_mem_replicate h
  cases this; rfl

theorem blockedByCause_running : BlockedByCause running := by
  intro i hi
  have h : running.channel i = { block := .driving, onCount := 0, endDue := false } := by
    unfold State.channel running
    simp only [List.getD_eq_getElem?_getD, List.getElem?_replicate, if_pos hi]; rfl
  rw [h]
  simp [State.blockCause, running, State.reset, has]

theorem fadesBounded_running : FadesBounded running := by
  intro c h
  have : c = restContext := List.eq_of_mem_replicate h
  subst this; simp [restContext]

theorem nodeInv_running : NodeInv running := by
  refine ⟨fun h => ?_, ?_, blockedByCause_running, ?_, fadesBounded_running, fun h => ?_⟩
  · cases h
  · constructor <;> simp [running, State.reset, Mode.operating]
  · simp [CeilingInRange, running, State.reset]
  · cases h

theorem nodeInv_starting : NodeInv starting := by
  refine ⟨fun _ => ⟨rfl, rfl, rfl, rfl, rfl, rfl, rfl, rfl⟩, ?_, ?_, ?_, fadesBounded_running,
    fun h => ?_⟩
  · constructor <;> simp [starting, State.reset, Mode.operating]
  · intro i hi
    have h : starting.channel i = blockedChannel := by
      unfold State.channel starting State.reset
      simp only [List.getD_eq_getElem?_getD, List.getElem?_replicate, if_pos hi]; rfl
    rw [h]; simp [State.blockCause, starting, State.reset, blockedChannel]
  · simp [CeilingInRange, starting, State.reset]
  · cases h

/-! ## Well-formed operands: an ill-formed term for each check -/

theorem test_wf_params : (Instr.identify (toNode (room 33) [])).wellFormed = false := by decide

theorem test_wf_reply : (Instr.readStore (toNode [] (room 49))).wellFormed = false := by decide

theorem test_wf_record_limits : (Instr.force (toNode (room 32) (room 48))).wellFormed = true := by
  decide

theorem test_wf_level (slots : List Byte) (h : slots.length = 65532) :
    (Instr.levelFrame 0 0 0 slots tail).wellFormed = false := by
  simp [Instr.wellFormed, h]

theorem test_wf_foreign :
    (Instr.foreignKindFrame 0xA1 [] tail).wellFormed = false ∧
    (Instr.foreignKindFrame 0xA2 [] tail).wellFormed = false ∧
    (Instr.foreignKindFrame 0xA3 [] tail).wellFormed = true := by decide

theorem test_wf_foreign_body (body : List Byte) (h : body.length = 65536) :
    (Instr.foreignKindFrame 0xA3 body tail).wellFormed = false := by
  simp [Instr.wellFormed, h]

theorem test_wf_unknown :
    (Instr.unknownCommand 0x01 (toNode [] [])).wellFormed = false ∧
    (Instr.unknownCommand 0x0E (toNode [] [])).wellFormed = true := by decide

theorem test_wf_readBack :
    (Instr.pageWriteCompletion false (.holds (room 127))).wellFormed = false ∧
    (Instr.pageWriteCompletion false (.holds (room 128))).wellFormed = true := by
  decide +kernel

/-! ## Commands have no bits -/

theorem test_decode : decodeTableWord 16 0 = none ∧ (State.reset.withFetchWord 16 0) = State.reset := by
  exact ⟨rfl, rfl⟩

/-! ## Characters, CRC and counters (01) -/

theorem test_crc_check_value :
    crc16 [0x31, 0x32, 0x33, 0x34, 0x35, 0x36, 0x37, 0x38, 0x39] = 0x29B1 := by
  decide +kernel

theorem test_parity :
    charError ⟨0x00, false, true, true⟩ = false ∧ charError ⟨0x00, false, false, true⟩ = true ∧
    charError ⟨0x01, true, true, true⟩ = false ∧ charError ⟨0x00, false, true, false⟩ = true := by
  decide

theorem test_counter_stops : countUp 0xFFFE = 0xFFFF ∧ countUp 0xFFFF = 0xFFFF := by decide

/-- A character error in passage is counted and marks the frame (R2). -/
theorem test_char_error_marks :
    ((landed (exec (.characterReceived ⟨0xA2, true, true, true⟩) running)).map fun t =>
      (t.lpu.counters.charErrors, match t.lpu.tracker with | .frame f => f.charError | _ => false)) =
      some (0, false) ∧
    ((landed (exec (.characterReceived ⟨0xA2, true, false, true⟩) running)).map fun t =>
      (t.lpu.counters.charErrors, match t.lpu.tracker with | .frame f => f.charError | _ => false)) =
      some (1, true) := by decide

/-! ## Level frames (02, 03) -/

/-- Table 2-4: the consistent bodies at the limits. -/
theorem test_level_limits :
    levelConsistent 4 0 false = true ∧ levelConsistent 1028 1024 false = true ∧
    levelConsistent 1029 1025 false = false ∧ levelConsistent 1028 512 true = true ∧
    levelConsistent 1030 513 true = false ∧ levelConsistent 5 0 false = false := by decide

/-- The Patch Table of Table 3-5, at slot base 40. -/
def example38 : State :=
  let slot := fun (o : Byte) (m : Option (Fin 4)) =>
    ({ source := .slot o, master := m, curve := .linear, trim := 0xFF, fade := .frame } : PatchEntry)
  { running with
    node := { running.node with slotBase := 40 }
    pt := {
      entries := [slot 0 (some 0), slot 1 (some 0), slot 2 (some 0), slot 0 (some 1),
        slot 1 (some 1), slot 2 (some 1), { slot 0 none with source := .park 0x80 },
        { slot 3 none with fade := .own 0 }, slot 4 none] ++
        (List.range 15).map fun k => defaultPatchEntry (9 + k)
      groups := [{ kind := .slot 7, fade := .frame }, { kind := .slot 20, fade := .own 50 },
        defaultGroup, defaultGroup] } }

/-- Table 3-8: the captured set of the narrow frame. -/
theorem test_captured_set :
    (example38.capturedSet 0 10
      (List.replicate 40 0 ++ [0xFF, 0x80, 0x00, 0x40, 0xC8, 0x11, 0x22, 0xFF])) =
      [⟨0, 65535, 10⟩, ⟨1, 32896, 10⟩, ⟨2, 0, 10⟩, ⟨3, 65535, 10⟩, ⟨4, 32896, 10⟩, ⟨5, 0, 10⟩,
        ⟨7, 16448, 0⟩, ⟨8, 51400, 10⟩, ⟨24, 65535, 10⟩] := by decide

/-- Section 3.8.2: a wide frame of 24 slots holds no slot of the window. -/
theorem test_captured_empty :
    example38.capturedSet 1 0 (List.replicate 48 0) = [] := by decide

/-- A level frame of one slot, its CRC characters sent at the end: slot 0 snaps channel 0 (R61). -/
theorem test_level_frame :
    ((landed (exec (.levelFrame 0 0 1 [0x80] tail) running)).map fun t =>
      (t.context 0, t.ss.live, t.ss.lossTimer, t.lpu.counters.good)) =
      some (⟨32896, 32896, 0⟩, true, .running 3000, 1) := by decide +kernel

/-! ## Management records (02, 11) -/

/-- ACK_ATTENTION of FAULT, claimed in the same frame (section 2.9, node A, record 1). -/
theorem test_ack :
    ((landed (exec (.ackAttention (toNode [0x02] []))
        { running with al := { running.al with reasons := 2 } })).map fun t =>
      (t.al.reasons, t.al.holdOff, t.lpu.counters.good)) = some (0, some 100, 1) := by
  decide +kernel

/-- RECALL_SCENE broadcast at a node whose scene 3 is invalid: EMPTY, and the node's address in the
reply byte (section 2.9, node B, record 2). -/
theorem test_recall_empty :
    ((landed (exec (.recallScene (toAll [3] [0])) running)).map fun t =>
      (t.ss.source, (t.lpu.lout.map (·.data)).drop 4 |>.take 6)) =
      some (.stream, [0xFF, 0x10, 1, 3, 0x07, 1]) := by decide +kernel

/-- READ_LINK with the clear flag: the clear is taken before the frame counts (R20). -/
theorem test_read_link_clear :
    ((landed (exec (.readLink (toNode [1] (room 14)))
        (withLpu fun l => { l with counters := { zeroCounters with good := 120, stalls := 4 } }))).map
      fun t => t.lpu.counters) = some { zeroCounters with good := 1 } := by decide +kernel

/-- ENUMERATE: the node takes 9 and sends 10 on (R166). -/
theorem test_enumerate :
    ((landed (exec (.enumerate (toAll [0] [9])) running)).map fun t =>
      (t.node.address.val, (t.lpu.lout.map (·.data)).drop 8 |>.take 3)) =
      some (9, [0x01, 1, 10]) := by decide +kernel

/-- WRITE_NODE of the ceiling field alone (R165). -/
theorem test_write_node :
    ((landed (exec (.writeNode (toNode [0, 0x40, 0, 0, 0, 0, 9, 0, 0, 48, 9, 0, 9] [])) running)).map
      fun t => t.node) = some { running.node with ceiling := 48 } := by decide +kernel

/-! ## Fades (05) -/

/-- Table 5-4: the sizes of the first steps. -/
theorem test_step_sizes :
    (FadeContext.stepSize ⟨0, 30000, 1000⟩ = 30 ∧ FadeContext.stepSize ⟨17000, 0, 300⟩ = 57 ∧
    FadeContext.stepSize ⟨5600, 0, 100⟩ = 56 ∧ FadeContext.stepSize ⟨0, 65535, 100⟩ = 656 ∧
    FadeContext.stepSize ⟨0, 65535, 25500⟩ = 3 ∧ FadeContext.stepSize ⟨0, 32896, 2000⟩ = 17 ∧
    FadeContext.stepSize ⟨0, 10, 1000⟩ = 1) := by decide

/-- Table 5-5: tick 401 after the second retarget. -/
theorem test_step_after_retarget :
    (FadeContext.retarget ⟨22000, 40000, 600⟩ 5000 3).step = ⟨21943, 5000, 299⟩ := by decide

/-- Table 5-6: the last step reaches the target. -/
theorem test_last_step : FadeContext.step ⟨5056, 5000, 1⟩ = ⟨5000, 5000, 0⟩ := by decide

/-! ## Shaping (06) -/

/-- Table 6-2. -/
theorem test_interpolation :
    (let points := (List.replicate 33 (0 : Word)).set 0 40000 |>.set 1 30000 |>.set 2 40000
    interpolate points 1000 = 35118 ∧ interpolate points 2047 = 30005 ∧
    interpolate points 3048 = 34882) := by decide

theorem test_log_ends :
    interpolate logTable 65535 = 65529 ∧ interpolate logTable 41 = 0 ∧
    interpolate logTable 42 = 1 := by decide

theorem test_default_table :
    interpolate defaultTable 65535 = 65534 ∧ interpolate defaultTable 63487 = 63487 := by decide

/-- Channel 4 of section 6.6. -/
def example66 (level : Word) (master : Option (Fin 4)) (thermal : Nat) : State :=
  { running with
    node := { running.node with ceiling := 48 }
    mon := { running.mon with ceiling := thermal }
    pt := {
      entries := defaultPatchTable.entries.set 4
        { source := .slot 4, master := master, curve := .log, trim := 200, fade := .frame }
      groups := [defaultGroup, { kind := .slot 0, fade := .frame }, defaultGroup, defaultGroup] }
    fe := { running.fe with
      contexts := (running.fe.contexts.set 4 ⟨level, level, 0⟩).set 25 ⟨49151, 49151, 0⟩ } }

/-- Tables 6-4 and 6-5, and the derating and the force after them. -/
theorem test_duties :
    ([66, 132, 660, 6600, 33000, 65535].map fun x => (example66 x none 64).computedDuty 4) =
      [0, 1, 8, 113, 2319, 38546] ∧
    (example66 40000 (some 1) 64).computedDuty 4 = 1768 ∧
    (example66 40000 (some 1) 40).computedDuty 4 = 1473 ∧
    ({ example66 40000 (some 1) 40 with
      os := { running.os with
        forces := running.os.forces.set 4 (.active 20000 (some 5000)) } } : State).computedDuty 4 =
      12500 := by decide

/-! ## PWM (07) -/

/-- Table 7-2. -/
theorem test_on_counts :
    ((List.range 8).map (onCountOf 2 1 true) = [1, 0, 0, 0, 0, 0, 0, 0] ∧
    (List.range 8).map (onCountOf 1000 1 true) = [63, 63, 63, 63, 62, 62, 62, 62] ∧
    (List.range 8).map (onCountOf 65534 1 true) =
      [4096, 4096, 4096, 4096, 4096, 4096, 4096, 4095] ∧
    onCountOf 65535 1 true 7 = 4096 ∧ onCountOf 15 1 false 0 = 0 ∧ onCountOf 65534 1 false 0 = 4095)
    := by decide

/-- Table 7-5, periods A6, C3 and C7. -/
theorem test_on_counts_over_codes :
    onCountOf 1005 1 true 6 = 62 ∧ onCountOf 1005 3 true 3 = 16 ∧ onCountOf 1005 3 true 7 = 15 := by
  decide

/-- Table 7-3. -/
theorem test_on_phases :
    (startOffset true 1 0 = 0 ∧ startOffset true 1 7 = 1024 ∧ startOffset true 1 22 = 3584 ∧
    lastPosition 4096 0 600 = 599 ∧ lastPosition 4096 1024 63 = 1086 ∧
    lastPosition 4096 3584 600 = 87 ∧ lastPosition 4096 3584 4096 = 3583 ∧
    inOnPhase 4096 3584 600 87 = true ∧ inOnPhase 4096 3584 600 88 = false ∧
    inOnPhase 4096 3584 600 4095 = true) := by decide

theorem test_period_start :
    ((landed (exec .periodStart
        { running with os := { running.os with duty := List.replicate 24 1000 } })).map fun t =>
      (t.channel 7, t.pwu.phase, t.pwu.count)) = some (⟨.driving, 63, true⟩, 1, 0) := by decide

/-! ## Temperature and modes (09) -/

/-- Table 9-4: state, ceiling and return mode over the thirteen results. -/
theorem test_thermal_states :
    ([(Thermal.normal, 64, (126 : Int)), (.warm, 64, 136), (.derate, 63, 150), (.derate, 62, 161),
      (.hot, 61, 162), (.hot, 60, 145), (.derate, 59, 132), (.derate, 59, 129), (.derate, 60, 128),
      (.derate, 61, 127), (.derate, 62, 126), (.derate, 63, 125), (.warm, 64, 119)].map
      fun (st, c, t) => (stepCeiling c t, st.after (stepCeiling c t) t)) =
    [(64, .warm), (63, .derate), (62, .derate), (61, .hot), (60, .hot), (59, .derate),
      (59, .derate), (60, .derate), (61, .derate), (62, .derate), (63, .derate), (64, .warm),
      (64, .normal)] := by decide

/-- The running node, its rotation at a conversion. -/
def converting (c : Conversion) : State :=
  { running with mon := { running.mon with converting := some c } }

/-- 161 °C from T_DERATE: HOT, every channel blocked, THERMAL raised (Table 9-4, result 4). -/
theorem test_hot :
    ((landed (exec (.temperatureResult 3376)
        { converting .temperature with
          mon := { (converting .temperature).mon with thermal := .derate, ceiling := 62 } })).map
      fun t => (t.mc.mode, t.mc.returnMode, t.mon.ceiling, t.mon.temperature,
        (t.channel 23).block, t.al.reasons)) =
      some (.hot, .run, 61, 161, .blocked, 5) := by decide

theorem test_start_completes :
    ((landed (exec (.auxResult 7) starting)).map fun t =>
      (t.mc.mode, t.fe.timebase, t.ss.lossTimer, t.pwu.running, (t.channel 0).block, t.lpu.bypass)) =
      some (.run, true, .running 3000, true, .driving, true) := by decide

theorem test_power_up :
    ((landed (exec (.vddReachesThreshold 2) State.reset)).map fun t =>
      (t.mc.mode, t.lpu.rate, t.mon.converting, decide (t.node = defaultNode), t.stc.lock)) =
      some (Mode.start, 2, some Conversion.temperature, true, false) := by decide +kernel

/-! ## The store (10) -/

/-- SAVE_CONFIG on an idle store: the CONFIG entry starts with page 1 (R150, R151). -/
theorem test_save_config :
    ((landed (exec (.saveConfig (toNode [] [])) running)).map fun t =>
      (t.stc.activity, t.stc.queue, t.me)) =
      some (.running (.page 1), [⟨.config, true, false⟩], emptyExecutor) := by decide +kernel

/-- A store that writes page p of an entry, with a page buffer. -/
def writing (k : StoreKind) (p : Fin 23) : State :=
  withStore fun t => { t with
    activity := .running (.page p), queue := [⟨k, true, false⟩], pageBuffer := some (room 128) }

/-- A store that erases. -/
def erasing : State :=
  withStore fun t => { t with activity := .running .erase, queue := [⟨.erase, true, false⟩] }

theorem test_page_write_ends :
    ((landed (exec (.pageWriteCompletion false .asProgrammed) (writing .lock 0))).map fun t =>
      (t.stc.activity, t.stc.queue, t.stc.pages.getD 0 .cutOff)) =
      some (.idle, [], .bytes (room 128)) := by decide

theorem test_page_write_times_out :
    ((landed (exec .pageWriteTimeout (writing .lock 0))).map fun t =>
      (t.stc.lastFailure, t.al.reasons, t.freeCount)) =
      some (some ⟨.lock, some 0, .timeout⟩, 17, 1) := by decide

/-- A page write cut off by a node reset leaves its page corrupt (R157). -/
theorem test_power_on_cuts_off :
    ((landed (exec .powerOn (writing (.scene 2) 9))).map fun t =>
      (t.stc.pages.getD 9 blankPage, (t.page 9).classify 9, t.mc.mode, t.stc.queue)) =
      some (.cutOff, .corrupt, .reset, []) := by decide

/-! ## Hypotheses that are met: the queue, characters and frames -/

theorem test_hyp_step : State.reset.pending = [] := rfl

theorem test_hyp_linkArithmetic :
    (0xFFFE : Word) ≠ 0xFFFF ∧ (0 : Word) ≠ crc16 [0xA3, 0, 0, 0] ∧
    (0 : Word) ≠ ~~~crc16 [0xA3, 0, 0, 0] := by decide +kernel

theorem test_hyp_bypass :
    State.reset.lpu.bypass = true ∧ State.reset.lpu.tx = none ∧ State.reset.lpu.buffer = [] := by
  decide

/-- A character with M = 0. -/
def plainChar : LineChar := freshChar 0 false

/-- A character with M = 1. -/
def markChar : LineChar := freshChar 0xA3 true

/-- A place of the repeat buffer. -/
def place (released : Bool) : Place := Place.of 0 false released false none

theorem receives (f : Lpu → Lpu) (h1 : (f running.lpu).bypass = false)
    (h2 : (f running.lpu).rx ≠ .awaitStop) : (withLpu f).receives := ⟨h1, h2⟩

theorem test_hyp_stray :
    (∃ s : State, s.receives ∧ s.lpu.tracker = .idle ∧ ¬ 8 ≤ s.lpu.buffer.length) ∧
    (∃ s : State, s.receives ∧ s.lpu.tracker = .pass ∧ 8 ≤ s.lpu.buffer.length) ∧
    plainChar.mark = false :=
  ⟨⟨running, receives id rfl (by decide), rfl, by decide⟩,
   ⟨withLpu fun l => { l with tracker := .pass, buffer := List.replicate 8 (place true) },
    receives (fun l => { l with tracker := .pass, buffer := List.replicate 8 (place true) }) rfl
      (by decide), rfl, by decide⟩, rfl⟩

/-- The context of a frame of an empty body whose last CRC character is still to come. -/
def lastCrc (charError format : Bool) (rx : Word) : FrameCtx :=
  { kind := 0xA3, phase := .trail, length := 0, position := 4, charError := charError,
    overrun := false, format := format, rxCrc := rx, txCrc := 0, crcIn := 0, address := 5 }

/-- The node with a frame in passage. -/
def inFrame (f : FrameCtx) : State :=
  withLpu fun l => { l with tracker := .frame f, stallTimer := true }

/-- The context of a frame in HEAD or BODY, after the character at `position`. -/
def midFrame (kind : Byte) (phase : Phase) (length position : Nat) (format : Bool) : FrameCtx :=
  { kind := kind, phase := phase, length := length, position := position, charError := false,
    overrun := false, format := format, rxCrc := 0, txCrc := 0, crcIn := 0, address := 5 }

/-- The node with a level frame in passage whose intake stands at `st`. -/
def inLevel (f : FrameCtx) (st : IntakeState) : State :=
  { inFrame f with si := { clearIntake with intake := some { running.beginIntake with state := st } } }

/-- The node with a management frame in passage whose parser is p. -/
def inManagement (f : FrameCtx) (p : Parser) : State :=
  { inFrame f with me := { emptyExecutor with parser := some p } }

/-- A parser of the one record of a frame, at a field. -/
def parserAt (field : Field) : Parser := { Parser.begin with total := 1, index := 1, field := field }

theorem inFrame_receives (f : FrameCtx) : (inFrame f).receives :=
  receives (fun l => { l with tracker := .frame f, stallTimer := true }) rfl
    (show Receiver.hunting ≠ .awaitStop by decide)

theorem bodyByte (length position : Nat) (p : Parser) :
    BodyByte (inManagement (midFrame 0xA2 .body length position false) p) plainChar
      (midFrame 0xA2 .body length position false) p :=
  ⟨inFrame_receives _, rfl, rfl, rfl, rfl, rfl, rfl⟩

/-- Body bytes of a foreign frame and of one with a format mark; of a level frame with a fault, before
the last byte, and at the last byte, with and without a fault at the body end; of a management frame. -/
theorem test_hyp_body :
    Foreign (midFrame 0xA3 .body 1 2 false).kind ∧ (midFrame 0xA1 .body 1 2 true).format = true ∧
    (let f := midFrame 0xA1 .body 6 5 false
     ((inLevel f .count).si.takeByte { running.beginIntake with state := .count } (f.position - 1)
        f.length plainChar.data).2 = true) ∧
    (midFrame 0xA1 .body 4 2 false).position + 1 ≠ (midFrame 0xA1 .body 4 2 false).length + 2 ∧
    (∀ st ∈ [IntakeState.flags, .slots],
      let f := midFrame 0xA1 .body 1 2 false
      let t : Intake := { running.beginIntake with state := st }
      let taken := (inLevel f st).si.takeByte t (f.position - 1) f.length plainChar.data
      (inLevel f st).si.intake = some t ∧ taken.2 = false ∧ f.position + 1 = f.length + 2 ∧
        (taken.1.intake.map fun u => (taken.1.bodyEnd u).2) = some (decide (st = .flags))) ∧
    BodyByte (inManagement (midFrame 0xA2 .body 1 2 false) Parser.begin) plainChar
      (midFrame 0xA2 .body 1 2 false) Parser.begin :=
  ⟨⟨by decide, by decide⟩, rfl, by decide, by decide, by decide, bodyByte _ _ _⟩

/-- The last byte of a level body of L 1, 2 and 3, of an empty one of L 4, and of one with a slot; slot
counts at the ends of their ranges. -/
theorem test_hyp_levelEnds :
    (∀ x ∈ [(IntakeState.flags, 1), (.fade, 2), (.count, 3), (.count, 4), (.slots, 5)],
      let f := midFrame 0xA1 .body x.2 (x.2 + 1) false
      (inLevel f x.1).lpu.tracker = .frame f ∧ f.position = f.length + 1 ∧ f.phase = .body ∧
        f.format = false ∧
        (inLevel f x.1).si.intake = some { running.beginIntake with state := x.1 }) ∧
    (midFrame 0xA1 .body 3 4 false).length = 3 ∧
    running.beginIntake.count + plainChar.data.toNat = 0 ∧
    (1028 = 4 + 2 * 512 ∧ 512 ≤ 512) ∧ (1028 = 4 + 1024 ∧ 1024 ≤ 1024) ∧ ¬1025 ≤ 1024 := by
  refine ⟨?_, by decide⟩
  intro x _
  exact ⟨rfl, rfl, rfl, rfl, rfl⟩

/-- The length bytes: the first; then L of 1041, 1040, 1 and 0, the last in each kind of frame. -/
theorem test_hyp_length :
    (midFrame 0xA3 .head 0 0 false).position = 0 ∧
    (midFrame 0xA3 .head 1024 1 false).position = 1 ∧ 1040 < 1024 + (17 : Byte).toNat ∧
    1024 + (16 : Byte).toNat ≤ 1040 ∧ 1 ≤ 0 + (1 : Byte).toNat ∧
    0 + plainChar.data.toNat = 0 ∧ Foreign (midFrame 0xA3 .head 0 1 false).kind ∧
    (inLevel (midFrame 0xA1 .head 0 1 false) .flags).receives ∧
    (inLevel (midFrame 0xA1 .head 0 1 false) .flags).si.intake = some running.beginIntake ∧
    running.beginIntake.state = .flags ∧
    (inManagement (midFrame 0xA2 .head 0 1 false) Parser.begin).receives ∧
    (inManagement (midFrame 0xA2 .head 0 1 false) Parser.begin).me.parser = some Parser.begin ∧
    Parser.begin.field ≠ .done :=
  ⟨rfl, rfl, by decide, by decide, by decide, by decide, ⟨by decide, by decide⟩,
    inFrame_receives _, rfl, rfl, inFrame_receives _, rfl, by decide⟩

theorem test_hyp_opener :
    running.receives ∧ running.lpu.tracker = .idle ∧
    (inFrame (lastCrc false false 0)).receives ∧
    (inFrame (lastCrc false false 0)).lpu.tracker = .frame (lastCrc false false 0) ∧
    markChar.mark = true :=
  ⟨receives id rfl (by decide), rfl, receives (fun l => { l with
    tracker := .frame (lastCrc false false 0), stallTimer := true }) rfl (by decide), rfl, rfl⟩

/-- An outcome that is not GOOD for each reason: a mark, the format mark, the complement, another CRC. -/
theorem test_hyp_lastCrc :
    ∀ f ∈ [lastCrc true false 0, lastCrc false true 0, lastCrc false false (~~~0),
        lastCrc false false 7],
      (inFrame f).receives ∧ (inFrame f).lpu.tracker = .frame f ∧ f.phase = .trail ∧
      f.position = f.length + 4 ∧ (inFrame f).lpu.buffer.length < 8 ∧ plainChar.mark = false ∧
      (if charError plainChar = true ∨ f.charError = true ∨ f.overrun = true then
          FrameOutcome.damaged
        else if f.format = true then .format
        else if f.crcIn + natWord plainChar.data.toNat = f.rxCrc then .good
        else if f.crcIn + natWord plainChar.data.toNat = ~~~f.rxCrc then .poisoned
        else .damaged) ≠ .good := by
  intro f hf
  refine ⟨receives (fun l => { l with tracker := .frame f, stallTimer := true }) rfl
    (show Receiver.hunting ≠ .awaitStop by decide), rfl, ?_⟩
  revert f
  decide

/-- A GOOD outcome, with and without a captured set; lists that reach the store and lists that do not. -/
theorem test_hyp_lastCrcGood :
    (let f := lastCrc false false 0
     charError plainChar = false ∧ f.charError = false ∧ f.overrun = false ∧
      f.crcIn + natWord plainChar.data.toNat = f.rxCrc) ∧
    (inFrame (lastCrc false false 0)).si.intake = none ∧
    (inLevel (lastCrc false false 0) .ended).si.intake ≠ none ∧
    (∃ e ∈ [Staged.standby, .eraseStore], e.queues = true) ∧
    (∀ e ∈ [Staged.standby], e.queues = false) := by decide

/-- The attention byte, claimed and not for each reason; the CRC high character. -/
theorem test_hyp_attention :
    let f := { lastCrc false false 0 with position := 2 }
    (inFrame f).receives ∧ (inFrame f).lpu.tracker = .frame f ∧ f.phase = .trail ∧
    f.position = f.length + 2 ∧ plainChar.data = 0 ∧
    (running.al.reasons &&& ~~~running.al.mask ≠ 0 ∧ f.address ≠ 0 ∧ running.al.holdOff = none) ∧
    (freshChar 7 false).data ≠ 0 ∧ ¬({ f with address := 0 } : FrameCtx).address ≠ 0 ∧
    ({ f with position := 3 } : FrameCtx).position = f.length + 3 :=
  ⟨inFrame_receives _, rfl, rfl, rfl, by decide, by decide, by decide, by decide, rfl⟩

theorem test_hyp_receiver :
    running.lpu.bypass = false ∧ running.lpu.rx = .hunting ∧
    (withLpu fun l => { l with rx := .awaitStop }).lpu.rx = .awaitStop ∧
    (withLpu fun l => { l with bypass := true }).lpu.bypass = true ∧
    (withLpu fun l => { l with bypass := true }).mc.mode.operating = true ∧
    State.reset.mc.mode.operating = false := by decide

theorem test_hyp_stall :
    (inFrame (lastCrc false false 0)).lpu.stallTimer = true ∧ running.lpu.tracker = .idle ∧
    (withLpu fun l => { l with tracker := .pass }).lpu.tracker = .pass := by decide

/-- The node with a character being sent. -/
def sending (p : Place) (pending : Bool) : State :=
  { withLpu fun l => { l with tx := some p } with
    mc := { running.mc with restartPending := pending } }

theorem test_hyp_transmitter :
    running.lpu.tx = none ∧ running.lpu.buffer = [] ∧ (place true).released = true ∧
    (place false).released = false ∧
    (withLpu fun l => { l with buffer := [place true] }).lpu.buffer = place true :: [] ∧
    (withLpu fun l => { l with buffer := [place false] }).lpu.buffer = place false :: [] ∧
    (sending (place true) false).lpu.tx = some (place true) ∧
    (sending (place true) false).mc.restartPending = false ∧
    (sending (place true) true).lpu.tx = some (place true) ∧
    (sending (place true) true).mc.restartPending = true ∧ (place true).forwards = false ∧
    (let p := { place true with forwards := true, restarts := true }
     (sending p true).lpu.tx = some p ∧ p.forwards = true ∧ p.restarts = true) := by decide

theorem test_hyp_frameForwarded :
    (let p := fun r => { place true with forwards := true, restarts := r }
    (sending (p false) false).lpu.tx = some (p false) ∧ (p false).forwards = true ∧
    (p false).restarts = false ∧ (sending (p true) false).mc.restartPending = false ∧
    (sending (p true) true).lpu.tx = some (p true) ∧ (p true).restarts = true ∧
    (sending (p true) true).mc.restartPending = true ∧
    (sending (p true) true).pins.vddOk = true ∧
    (sending (p true) true).pins.rstnLow = false) := by decide

/-- A frame poisoned upstream. -/
def poisoned : FrameTail := { tail with crc := .complement }

theorem test_hyp_frames :
    LinkRest running ∧ Foreign 0xA3 ∧ (List.replicate 1040 (0 : Byte)).length ≤ 1040 ∧
    1040 < (List.replicate 1041 (0 : Byte)).length ∧
    (List.replicate 65535 (0 : Byte)).length ≤ 65535 ∧
    1036 < (List.replicate 1037 (0 : Byte)).length ∧
    (List.replicate 65531 (0 : Byte)).length ≤ 65531 ∧
    levelBodyConsistent 0 1 [0] = true ∧
    frameOutcome false 0xA1 [0, 0, 0, 1, 0] poisoned ≠ .good ∧
    levelBodyConsistent 0 2 [0] = false ∧
    levelBodyConsistent 0 0 (List.replicate 1036 0) = false := by
  refine ⟨running_rest, ⟨by decide, by decide⟩, List.length_replicate.le,
    lt_of_lt_of_eq (by decide) List.length_replicate.symm, List.length_replicate.le,
    lt_of_lt_of_eq (by decide) List.length_replicate.symm, List.length_replicate.le,
    by decide, by decide +kernel, by decide, ?_⟩
  unfold levelBodyConsistent
  rw [List.length_replicate]
  decide

theorem test_hyp_goodLevelFrame :
    LinkRest running ∧ levelBodyConsistent 0 1 [0] = true ∧
    levelBodyConsistent 1 1 [0, 0] = true ∧ levelBodyConsistent 0 0 [] = true ∧
    tail.crc = .correct :=
  ⟨running_rest, by decide, by decide, by decide, rfl⟩

theorem wellShaped_withSource (src : Source) : WellShaped (withSource src) := by
  have h := wellShaped_running
  exact ⟨h.places, h.entries, h.groups, h.contexts, h.tables, h.points, h.forces, h.duty,
    h.channels, h.openCount, h.shortCount, h.pages, h.pageBytes, h.pageBuffer, h.writing,
    h.snapshot, h.shadow, h.targets, h.buffer⟩

theorem test_hyp_feeds :
    (example38.entry 0).source = .slot 0 ∧ (example38.entry 23).source = .slot 23 ∧
    (example38.entry 6).source = .park 0x80 ∧ (example38.group 0).kind = .slot 7 ∧
    (example38.group 3).kind = .none ∧ (example38.feed 6).offset = none ∧
    (example38.feed 27).offset = none := by decide

theorem test_hyp_capturedSet :
    WellShaped (withSource .stream) ∧ WellShaped (withSource (.cue 15)) ∧
    WellShaped (withSource .lossHold) ∧
    (withSource .stream).capturedSet 0 0 [] = [] ∧
    (withSource .stream).capturedSet 0 0 [1] ≠ [] ∧
    (withSource (.cue 15)).capturedSet 0 0 [1] ≠ [] ∧
    (withSource .lossHold).capturedSet 0 0 [1] ≠ [] ∧
    (∃ n, (withSource (.cue 15)).ss.source = .cue n ∧ false = false) ∧
    ¬ (∃ n, (withSource (.cue 15)).ss.source = .cue n ∧ true = false) ∧
    ¬ (∃ n, (withSource .lossHold).ss.source = .cue n ∧ false = false) :=
  ⟨wellShaped_withSource _, wellShaped_withSource _, wellShaped_withSource _, by decide, by decide,
    by decide, by decide, ⟨15, rfl, rfl⟩, (by rintro ⟨_, _, h⟩; cases h),
    (by rintro ⟨_, h, _⟩; cases h)⟩

theorem test_hyp_backToBack :
    LinkRest (State.keepPace
      (withLpu fun l => { l with buffer := crcPlaces 0 0 0 false })) ∧
    (withLpu fun l => { l with tracker := .pass }).receives ∧
    (withLpu fun l => { l with tracker := .pass }).lpu.tracker = .pass :=
  ⟨by constructor <;> rfl, receives (fun l => { l with tracker := .pass }) rfl (by decide), rfl⟩

/-- The format faults of a management body at the end of each range, and the bytes just inside. -/
theorem test_hyp_formatFaults :
    (∀ b ∈ [(0 : Byte), 9, 255], (parserAt .count).faultyByte 3 b) ∧
    (∀ b ∈ [(1 : Byte), 8], ¬(parserAt .count).faultyByte 3 b) ∧
    (parserAt .plen).faultyByte 99 33 ∧ (parserAt .plen).faultyByte 33 32 ∧
    (parserAt .plen).faultyByte 1 0 ∧ ¬(parserAt .plen).faultyByte 34 32 ∧
    ¬(parserAt .plen).faultyByte 2 0 ∧
    (parserAt .rlen).faultyByte 99 49 ∧ (parserAt .rlen).faultyByte 47 48 ∧
    ¬(parserAt .rlen).faultyByte 48 48 ∧ ¬(parserAt .rlen).faultyByte 0 0 ∧
    (parserAt .done).faultyByte 0 0 ∧
    (∀ field ∈ [Field.target, .command, .params 1, .params 2, .status, .reply 1, .reply 2],
      ¬(parserAt field).faultyByte 0 255) := by
  simp [Parser.faultyByte, parserAt]

/-- A faulty body byte, and a last body byte that leaves a record unread. -/
theorem test_hyp_faultyBody :
    BodyByte (inManagement (midFrame 0xA2 .body 1 2 false) Parser.begin) plainChar
      (midFrame 0xA2 .body 1 2 false) Parser.begin ∧
    Parser.begin.faultyByte 0 plainChar.data ∧
    BodyByte (inManagement (midFrame 0xA2 .body 2 3 false) (parserAt .target)) plainChar
      (midFrame 0xA2 .body 2 3 false) (parserAt .target) ∧
    ¬(parserAt .target).faultyByte 0 plainChar.data ∧
    (∃ q, (takeBodyByte running { emptyExecutor with parser := some (parserAt .target) }
        (parserAt .target) 5 0 plainChar.data).me.parser = some q ∧ q.field ≠ .done) :=
  ⟨bodyByte _ _ _, by simp [Parser.faultyByte, Parser.begin, plainChar, freshChar], bodyByte _ _ _,
    by simp [Parser.faultyByte, parserAt], _, rfl, by simp⟩

/-! ## Hypotheses that are met: records -/

theorem test_hyp_recordFrame :
    LinkRest running ∧ (toNode [] []).wellFormed = true ∧
    recordOutcome 0x23 (toNode [] []) = .good ∧
    recordOutcome 0x23 { toNode [] [] with tail := poisoned } ≠ .good :=
  ⟨running_rest, rfl, by decide +kernel, by decide +kernel⟩

/-- Every field at a byte that is no format fault; at the rlen byte every verdict, with a reply that just
fits and one that does not; a reply byte of a record that is not the running address. -/
theorem test_hyp_recordBytes :
    (∀ field ∈ [Field.count, .target, .command, .plen, .params 1, .status, .rlen, .reply 1],
      ¬(parserAt field).faultyByte 34 1) ∧
    [0x2A].length ≤ (1 : Byte).toNat ∧ (0 : Byte).toNat < replyLength [0x2A] none ∧
    (0 : Byte).toNat < replyLength [] (some (.enumerate none)) ∧
    (∀ v, Staged.standby ≠ .enumerate v) ∧ (parserAt (.reply 1)).running = false ∧
    (answerRecord running 5 4 0x01 [] 0).verdict = .untouched ∧
    (answerRecord running 5 5 0xFF [] 0).verdict = .refuse .unknown ∧
    (∃ out, (answerRecord running 5 5 0x01 [] 0).verdict = .accept out none ∧ out.length = 15) ∧
    (answerRecord running 5 5 0x22 [] 0).verdict = .accept [] (some .standby) := by
  refine ⟨by simp [Parser.faultyByte, parserAt], by decide, by decide, by decide, nofun, rfl, rfl,
    rfl, ⟨_, rfl, by decide⟩, rfl⟩

/-- The status byte: every verdict, written and not written. The running address at each end of its
range and the values outside it. -/
theorem test_hyp_statusAndRunning :
    (parserAt .status).field = .status ∧ (answerRecord running 5 5 0xFF [] 0).writes = true ∧
    (answerRecord running 5 0xFF 0x22 [] 1).writes = false ∧
    (answerRecord running 5 0xFF 0x22 [] 1).verdict = .accept [] (some .standby) ∧
    (answerRecord running 5 5 0x22 [] 0).writes = true ∧ Staged.storeKind .standby = none ∧
    (answerRecord running 5 0xFF 0x30 [0] 0).verdict = .accept [] (some (.enumerate none)) ∧
    (let p := { parserAt (.reply 1) with running := true }
     p.field = .reply 1 ∧ p.running = true ∧ ¬p.faultyByte 0 1) ∧
    (∀ b ∈ [(1 : Byte), 250], ∃ a : Fin 251, a.val = b.toNat ∧ 1 ≤ b.toNat) ∧
    250 < (251 : Byte).toNat ∧ 250 < (255 : Byte).toNat := by
  refine ⟨rfl, rfl, rfl, rfl, rfl, rfl, rfl, ⟨rfl, rfl, by simp [Parser.faultyByte, parserAt]⟩, ?_,
    by decide, by decide⟩
  intro b hb
  simp only [List.mem_cons, List.not_mem_nil, or_false] at hb
  rcases hb with rfl | rfl
  · exact ⟨1, rfl, by decide⟩
  · exact ⟨250, rfl, by decide⟩

theorem takes_toNode (params reply : List Byte) : running.takes (toNode params reply) :=
  .inr ⟨rfl, rfl⟩

theorem takes_toAll (params reply : List Byte) (s : State) : s.takes (toAll params reply) := .inl rfl

theorem test_hyp_foreignRecords :
    ¬ running.takes { toNode [] [] with target := 6 } ∧
    ¬ running.takes { toNode [] [] with status := 1 } ∧
    (0x0E : Byte) ∉ commandCodes ∧ Cmd.isRead .readLevels = true ∧
    (toAll [] []).target = 0xFF ∧ running.takes (toNode [] []) := by
  refine ⟨?_, ?_, by decide, rfl, rfl, takes_toNode _ _⟩
  · rintro (h | h)
    · exact absurd h (by decide)
    · exact absurd h.1 (by decide)
  · rintro (h | h)
    · exact absurd h (by decide)
    · exact absurd h.2 (by decide)

/-- A directed record meets every common premise. -/
theorem directed (params reply : List Byte) (h : (toNode params reply).wellFormed = true) :
    DirectedRecord running (toNode params reply) := ⟨running_rest, h, ⟨rfl, rfl⟩, rfl⟩

/-- A broadcast record meets every common premise. -/
theorem broadcast (params reply : List Byte) (h : (toAll params reply).wellFormed = true) :
    TakenRecord running (toAll params reply) := ⟨running_rest, h, .inl rfl, rfl⟩

/-- A record to the node meets every common premise. -/
theorem addressed (params reply : List Byte) (h : (toNode params reply).wellFormed = true) :
    TakenRecord running (toNode params reply) := ⟨running_rest, h, .inr ⟨rfl, rfl⟩, rfl⟩

theorem test_hyp_wrongForm :
    ¬ Cmd.lengthOk .identify [0] ∧ ¬ Cmd.lengthOk .writePatch [0, 1, 0, 0, 0] ∧
    ¬ Cmd.lengthOk .recallScene [0, 0, 0] ∧ Cmd.onlyBroadcast .enumerate = true ∧
    Cmd.onlyBroadcast .addressById = true ∧ running.directed (toNode [0] []) := by
  refine ⟨?_, ?_, ?_, rfl, rfl, rfl, rfl⟩ <;> simp [Cmd.lengthOk]

/-- Params just past each bound. -/
theorem test_hyp_ranges :
    2 ≤ (2 : Byte).toNat ∧ 12 < (13 : Byte).toNat ∧ 24 < (13 : Byte).toNat + (12 : Byte).toNat ∧
    3 < (4 : Byte).toNat ∧ 24 < (25 : Byte).toNat ∧ 33 < (10 : Byte).toNat + (24 : Byte).toNat ∧
    8 < (9 : Byte).toNat ∧ 7 < (8 : Byte).toNat ∧ patchEntries? [0x60, 0, 0, 0] = none ∧
    patchEntries? [0x05, 0, 0, 0] = none ∧ 1 < (2 : Byte).toNat ∧ 14 < (15 : Byte).toNat ∧
    33 < (20 : Byte).toNat + (14 : Byte).toNat ∧
    NodeWrite.ofBytes? 0x0001 [251, 0, 0, 0, 0, 0, 0, 0, 0, 0, 0] = none ∧
    NodeWrite.ofBytes? 0x0002 [0, 4, 0, 0, 0, 0, 0, 0, 0, 0, 0] = none ∧
    NodeWrite.ofBytes? 0x0040 [0, 0, 0, 0, 0, 0, 0, 65, 0, 0, 0] = none ∧
    has (1 : Byte) 0 = true ∧ 15 < (16 : Byte).toNat ∧ 250 < (251 : Byte).toNat ∧
    (0 : Byte).toNat = 0 := by decide

/-- The running node with its lock set. -/
def locked : State := withStore fun t => { t with lock := true }

theorem test_hyp_locked :
    LinkRest locked ∧ locked.takes (toAll [0] []) ∧ locked.stc.lock = true ∧
    (∃ es, patchEntries? (room 28) = some es ∧ es.length = (7 : Byte).toNat ∧
      (17 : Byte).toNat + (7 : Byte).toNat ≤ 24) ∧
    ((3 : Byte).toNat ≤ 3 ∧ (1 : Byte).toNat ≤ 1) ∧
    ((room 28).length = 2 * (14 : Byte).toNat ∧ (19 : Byte).toNat + (14 : Byte).toNat ≤ 33) ∧
    (∃ w, NodeWrite.ofBytes? (be16 0x03 0xFE) [0, 3, 255, 0, 2, 15, 0, 64, 3, 7, 3] = some w) ∧
    has (0xFE : Byte) 0 = false ∧ (room 7).length = 7 ∧
    (1 ≤ (250 : Byte).toNat ∧ (250 : Byte).toNat ≤ 250) ∧
    ({ locked with node := defaultNode } : State).node.address = 0 ∧
    LinkRest { locked with node := defaultNode } := by
  refine ⟨by constructor <;> rfl, .inl rfl, rfl, ⟨_, rfl, rfl, by decide⟩, by decide, by decide,
    ⟨_, rfl⟩, by decide, by decide, by decide, rfl, by constructor <;> rfl⟩

/-- The lock set by a SET_LOCK record, by the last character of a frame that staged one, and by a load
of a page 0 that is not blank; cleared by erase completion and by a load of a blank page 0. -/
theorem test_hyp_lockChanges :
    ((landed (exec (.setLock (toNode [] [])) running)).map fun t => t.stc.lock) = some true ∧
    ((landed (exec (.characterReceived plainChar)
        { inFrame (lastCrc false false 0) with
          me := { emptyExecutor with commits := [.setLock .accept], reservations := [.lock] } })).map
      fun t => t.stc.lock) = some true ∧
    ((landed (exec (.eraseCompletion false)
        { erasing with stc := { erasing.stc with lock := true } })).map fun t => t.stc.lock) =
      some false ∧
    ((landed (exec (.vddReachesThreshold 0)
        { State.reset with stc := { State.reset.stc with
            pages := State.reset.stc.pages.set 0 .cutOff } })).map
      fun t => (t.stc.lock, decide (t.mc.mode = .start))) = some (true, true) ∧
    ((landed (exec (.vddReachesThreshold 0)
        { State.reset with stc := { State.reset.stc with lock := true } })).map
      fun t => (t.stc.lock, decide (t.mc.mode = .start))) = some (false, true) ∧
    running.stc.lock = false ∧ (toNode [] []).wellFormed = true := by decide +kernel

theorem test_hyp_noRoom :
    running.directed (toNode [] (room 14)) ∧ (toNode [] (room 14)).wellFormed = true ∧
    Cmd.isRead .readStatus = true ∧
    judgeCommand running running.node.address false .readStatus [] =
      .accept running.statusReply none ∧
    (toNode [] (room 14)).reply.length < running.statusReply.length :=
  ⟨⟨rfl, rfl⟩, rfl, rfl, rfl, by decide⟩

theorem test_hyp_wholeReads :
    ∀ n ∈ [11, 12, 13, 15, 48],
      DirectedRecord running (toNode [] (room n)) ∧ (toNode [] (room n)).params = [] ∧
      n ≤ (toNode [] (room n)).reply.length := by
  intro n hn
  refine ⟨directed _ _ ?_, rfl, ?_⟩
  · revert n; decide
  · simp [toNode, room]

theorem test_hyp_rangeReads :
    DirectedRecord running (toNode [12, 12] (room 48)) ∧
    (12 : Byte).toNat + (12 : Byte).toNat ≤ 24 ∧
    4 * (12 : Byte).toNat ≤ (toNode [12, 12] (room 48)).reply.length ∧
    DirectedRecord running (toNode [3, 9, 24] (room 48)) ∧
    (9 : Byte).toNat + (24 : Byte).toNat ≤ 33 ∧
    2 * (24 : Byte).toNat ≤ (toNode [3, 9, 24] (room 48)).reply.length ∧
    DirectedRecord running (toNode [16, 8] (room 48)) ∧
    (16 : Byte).toNat + (8 : Byte).toNat ≤ 24 ∧
    6 * (8 : Byte).toNat ≤ (toNode [16, 8] (room 48)).reply.length :=
  ⟨directed _ _ rfl, by decide, by decide, directed _ _ rfl, by decide, by decide,
    directed _ _ rfl, by decide, by decide⟩

theorem test_hyp_readLink :
    DirectedRecord running (toNode [0] (room 14)) ∧ DirectedRecord running (toNode [1] (room 14)) ∧
    14 ≤ (toNode [0] (room 14)).reply.length :=
  ⟨directed _ _ rfl, directed _ _ rfl, by decide⟩

/-- The last channel alone, and the longest run. -/
theorem test_hyp_writePatch :
    WellShaped running ∧ running.stc.lock = false ∧
    (TakenRecord running (toNode ([23, 1] ++ [0x80, 7, 0xFF, 0xFF]) []) ∧
      ∃ es, patchEntries? [0x80, 7, 0xFF, 0xFF] = some es ∧ es.length = (1 : Byte).toNat ∧
        (23 : Byte).toNat + (1 : Byte).toNat ≤ 24) ∧
    (TakenRecord running (toAll ([17, 7] ++ room 28) []) ∧
      ∃ es, patchEntries? (room 28) = some es ∧ es.length = (7 : Byte).toNat ∧
        (17 : Byte).toNat + (7 : Byte).toNat ≤ 24) :=
  ⟨wellShaped_running, rfl, ⟨addressed _ _ rfl, _, rfl, rfl, by decide⟩,
    ⟨broadcast _ _ rfl, _, rfl, rfl, by decide⟩⟩

theorem test_hyp_writeGroupCurve :
    TakenRecord running (toNode [3, 1, 0xFF, 0xFF] []) ∧
    (∃ r, GroupRecord.ofBytes? 1 0xFF 0xFF = some r) ∧
    (∃ r, GroupRecord.ofBytes? 0 0 0 = some r) ∧
    TakenRecord running (toNode (3 :: 19 :: 14 :: room 28) []) ∧
    room 28 = (List.replicate 14 (0 : Word)).flatMap wordBytes ∧
    (19 : Byte).toNat + (List.replicate 14 (0 : Word)).length ≤ 33 ∧
    (32 : Byte).toNat + (List.replicate 1 (0 : Word)).length ≤ 33 :=
  ⟨addressed _ _ rfl, ⟨_, rfl⟩, ⟨_, rfl⟩, addressed _ _ rfl, rfl, by decide, by decide⟩

/-- The end of each field's range, with and without the address and the ceiling. -/
theorem test_hyp_writeNode :
    TakenRecord running (toNode ([3, 0xFF] ++ [250, 3, 255, 0, 2, 15, 0, 64, 3, 7, 3]) []) ∧
    (∃ w, NodeWrite.ofBytes? (be16 3 0xFF) [250, 3, 255, 0, 2, 15, 0, 64, 3, 7, 3] = some w) ∧
    TakenRecord running (toAll ([0, 0] ++ room 11) []) ∧
    (∃ w, NodeWrite.ofBytes? (be16 0 0) (room 11) = some w) ∧ has (0 : Byte) 0 = false ∧
    has (0xFF : Byte) 6 = true ∧ has (0 : Byte) 6 = false ∧ Source.isLoss .stream = false ∧
    Source.isLoss .lossBlack = true :=
  ⟨addressed _ _ rfl, ⟨_, rfl⟩, broadcast _ _ rfl, ⟨_, rfl⟩, by decide, by decide, by decide, rfl,
    rfl⟩

theorem test_hyp_masksFaultsAck :
    TakenRecord running (toNode (room 7) []) ∧ running.stc.lock = false ∧
    TakenRecord running (toNode [0xFF] []) ∧ TakenRecord running (toAll (room 6) []) ∧
    BlockedByCause running :=
  ⟨addressed _ _ rfl, rfl, addressed _ _ rfl, broadcast _ _ rfl, blockedByCause_running⟩

theorem test_hyp_force :
    TakenRecord running (toNode [0xFF, 0, 1, 0xFF, 0xFF, 255] []) ∧
    TakenRecord running (toAll [0xFF, 0, 1] []) :=
  ⟨addressed _ _ rfl, broadcast _ _ rfl⟩

/-- The running node with scene 15 captured. -/
def withScene : State :=
  withStore fun t => { t with
    shadow := t.shadow.set 15 { valid := true, targets := List.replicate 28 1, fade := 3 } }

theorem wellShaped_withScene : WellShaped withScene := by
  have h := wellShaped_running
  refine ⟨h.places, h.entries, h.groups, h.contexts, h.tables, h.points, h.forces, h.duty,
    h.channels, h.openCount, h.shortCount, h.pages, h.pageBytes, h.pageBuffer, h.writing,
    h.snapshot, rfl, ?_, h.buffer⟩
  show ∀ r ∈ withScene.stc.shadow, r.targets.length = 28
  decide

theorem test_hyp_recall :
    TakenRecord withScene (toNode [15, 0] []) ∧ WellShaped withScene ∧
    (toNode [15, 0] []).params = natByte (15 : Fin 16).val :: (some (0 : Byte)).toList ∧
    (toNode [15] []).params = natByte (15 : Fin 16).val :: (none : Option Byte).toList ∧
    (withScene.scene 15).valid = true ∧ (withScene.scene 0).valid = false :=
  ⟨⟨by constructor <;> rfl, rfl, .inr ⟨rfl, rfl⟩, rfl⟩, wellShaped_withScene, rfl, rfl, rfl, rfl⟩

/-- The running node with queued entries. -/
def queued (q : List QueueEntry) : State := withStore fun t => { t with queue := q }

/-- A queue with one place left. -/
def three : List QueueEntry :=
  [⟨.lock, true, false⟩, ⟨.scene 0, false, false⟩, ⟨.scene 1, false, false⟩]

theorem test_hyp_storeRequests :
    TakenRecord (queued three) (toNode [15, 0] []) ∧ (queued three).queuedKind .erase = false ∧
    (queued three).stc.queue.length < 4 ∧ (queued three).sceneOpen 15 = false ∧
    (queued three).stc.lock = false ∧ (queued three).queuedKind .config = false ∧
    running.stc.queue = [] ∧ TakenRecord running (toAll [] []) :=
  ⟨⟨by constructor <;> rfl, rfl, .inr ⟨rfl, rfl⟩, rfl⟩, by decide, by decide, by decide, by decide,
    by decide, rfl, broadcast _ _ rfl⟩

theorem test_hyp_coalesceBusy :
    (queued three).sceneOpen 1 = true ∧
    (queued [⟨.config, false, false⟩]).queuedKind .config = true ∧
    (queued [⟨.config, false, false⟩]).configStarted = false ∧ locked.stc.lock = true ∧
    locked.queuedKind .erase = false ∧ (queued [⟨.erase, true, false⟩]).queuedKind .erase = true ∧
    (queued [⟨.config, true, false⟩]).configStarted = true ∧
    (queued (three ++ [⟨.scene 2, false, false⟩])).sceneOpen 15 = false ∧
    4 ≤ (queued (three ++ [⟨.scene 2, false, false⟩])).stc.queue.length ∧
    (queued (three ++ [⟨.scene 2, false, false⟩])).queuedKind .config = false ∧
    (queued three).stc.queue ≠ [] ∧ (writing .lock 0).stc.activity ≠ .idle := by decide

/-- The running node with the frame in passage at this point. -/
def reserved (places : List StoreKind) (restarts : Bool) : State :=
  { running with me := { emptyExecutor with reservations := places, restartMark := restarts } }

/-- Each line of Table 10-4 by what the frame in passage has reserved, and after its RESTART. -/
theorem test_hyp_reserved :
    (reserved [] true).me.restartMark = true ∧ StoreKind.erase ∈ (reserved [.erase] false).me.reservations ∧
    StoreKind.scene 3 ∈ (reserved [.scene 3] false).me.reservations ∧
    StoreKind.config ∈ (reserved [.config] false).me.reservations ∧
    StoreKind.lock ∈ (reserved [.lock] false).me.reservations ∧
    (let s := reserved [.scene 0, .scene 1, .lock, .config] false
     4 ≤ s.stc.queue.length + s.me.reservations.length ∧ s.sceneOpen 3 = false ∧
       s.queuedKind .erase = false) ∧
    (let s := reserved [.scene 0, .scene 1, .scene 2, .scene 4] false
     4 ≤ s.stc.queue.length + s.me.reservations.length ∧ StoreKind.lock ∉ s.me.reservations ∧
       StoreKind.config ∉ s.me.reservations ∧ s.queuedKind .config = false ∧ s.stc.lock = false) ∧
    (let s := reserved [.scene 0, .scene 1, .scene 2] false
     ¬4 ≤ s.stc.queue.length + s.me.reservations.length ∧ s.me.restartMark = false) ∧
    (running.stc.queue = [] ∧ running.me.reservations = [] ∧ running.stc.activity = .idle ∧
      running.configStarted = false) ∧
    (locked.stc.lock = true ∧ StoreKind.erase ∉ locked.me.reservations) := by decide

/-- What the status byte of a record of each kind decides, accepted with a place, by coalescing with an
entry or with a place, and with nothing to reserve. -/
theorem test_hyp_statusByte :
    (parserAt .status).field = .status ∧
    (let verdict (s : State) (code : Byte) (params : List Byte) :=
      (answerRecord s 5 5 code params 0).verdict
     let take (e : Staged) : Verdict := .accept [] (some e)
     verdict running 0x11 [3, 9] = take (.capture 3 9 .accept) ∧
     verdict (queued [⟨.scene 3, false, false⟩]) 0x11 [3, 9] = take (.capture 3 9 .coalesce) ∧
     (queued [⟨.scene 3, false, false⟩]).sceneOpen 3 = true ∧
     verdict (reserved [.scene 3] false) 0x11 [3, 9] = take (.capture 3 9 .coalesce) ∧
     (reserved [.scene 3] false).sceneOpen 3 = false ∧
     verdict running 0x12 [] = take (.saveConfig .accept) ∧
     verdict (queued [⟨.config, false, false⟩]) 0x12 [] = take (.saveConfig .coalesce) ∧
     verdict (reserved [.config] false) 0x12 [] = take (.saveConfig .coalesce) ∧
     (reserved [.config] false).queuedKind .config = false ∧
     verdict running 0x13 [] = take (.setLock .accept) ∧
     verdict (reserved [.lock] false) 0x13 [] = take (.setLock .coalesce) ∧
     verdict locked 0x13 [] = take (.setLock .alreadyLocked) ∧
     verdict running 0x14 [] = take .eraseStore ∧ verdict running 0x24 [] = take .restart ∧
     verdict running 0x22 [] = take .standby ∧ Staged.storeKind .standby = none ∧
     verdict (reserved [] true) 0x12 [] = .refuse .busy) := by decide

/-- An entry that a record of the frame coalesced with leaves, with and without another of its kind; the
commit of a request that coalesced, with the entry gone, standing and started. -/
theorem test_hyp_entryLeft :
    StoreKind.config ∈ [StoreKind.config] ∧
    (∀ e ∈ ([⟨.lock, false, false⟩] : List QueueEntry), e.kind ≠ .config) ∧
    StoreKind.config ∉ [StoreKind.lock] ∧
    (∃ e ∈ ([⟨.config, false, false⟩] : List QueueEntry), e.kind = .config) ∧
    running.queuedKind .config = false ∧ running.queuedKind (.scene 1) = false ∧
    (queued [⟨.config, false, false⟩]).configStarted = false ∧
    (queued [⟨.config, true, false⟩]).configStarted = true ∧
    (queued [⟨.scene 1, true, true⟩]).sceneOpen 1 = true ∧
    (queued [⟨.scene 1, true, false⟩]).queuedKind (.scene 1) = true ∧
    (queued [⟨.scene 1, true, false⟩]).sceneOpen 1 = false := by decide

theorem test_hyp_modes :
    (∀ m ∈ [Mode.run, .quiet, .standby, .hot],
      (withMode m).mc.mode = m ∧ LinkRest (withMode m)) ∧
    TakenRecord running (toNode [] []) ∧ running.stc.activity = .idle ∧ running.stc.queue = [] :=
  ⟨fun _ _ => ⟨rfl, by constructor <;> rfl⟩, addressed _ _ rfl, rfl, rfl⟩

/-- The running node without an address. -/
def unaddressed : State := { running with node := defaultNode }

theorem test_hyp_enumerate :
    TakenRecord running (toAll [0] [1]) ∧ (toAll [0] [250]).reply = natByte (250 : Fin 251).val :: [] ∧
    (250 : Fin 251) ≠ 0 ∧ (1 : Fin 251) ≠ 0 ∧ 250 < (251 : Byte).toNat ∧ (toAll [0] []).reply = [] ∧
    TakenRecord unaddressed (toAll [1] [1]) ∧ unaddressed.node.address = 0 ∧
    running.node.address ≠ 0 ∧ running.stc.lock = false :=
  ⟨broadcast _ _ rfl, rfl, by decide, by decide, by decide, rfl,
    ⟨by constructor <;> rfl, rfl, .inl rfl, rfl⟩, rfl, by decide, rfl⟩

theorem other_id : uniqueIdBytes.map (· + 1) ≠ uniqueIdBytes := by
  have h : ∀ x : Byte, x + 1 ≠ x := by decide
  intro e
  exact h _ (List.cons.inj e).1

theorem test_hyp_addressById :
    TakenRecord running (toAll (uniqueIdBytes ++ [natByte (250 : Fin 251).val]) []) ∧
    uniqueIdBytes.length = 6 ∧ (uniqueIdBytes.map (· + 1)).length = 6 ∧ (250 : Fin 251) ≠ 0 ∧
    uniqueIdBytes.map (· + 1) ≠ uniqueIdBytes :=
  ⟨broadcast _ _ rfl, rfl, rfl, by decide, other_id⟩

/-! ## Hypotheses that are met: fades, duties, timers and modes -/

theorem test_hyp_fades :
    (restContext.remaining = 0 ∧ restContext.level = restContext.target) ∧
    (0 < (FadeContext.mk 0 9 1).remaining ∧ (0 : Word).toNat < (9 : Word).toNat) ∧
    (0 < (FadeContext.mk 9 0 25500).remaining) ∧ (0 ≤ 25500 ∧ 25500 ≤ 25500) ∧
    (FadeContext.mk 9 0 1).remaining = 1 ∧ (FadeContext.mk 4 4 7).level = (4 : Word) ∧
    (FadeContext.retarget restContext 7 0).remaining = 0 ∧ (255 : Byte) ≠ 0 := by decide

theorem test_hyp_tick : running.fe.timebase = true ∧ State.reset.fe.timebase = false := by decide

/-- The running node, its loss timer run down, with a loss action. -/
def lossDue (src : Source) (a : LossAction) : State :=
  { withScene with
    ss := { source := src, lossTimer := .running 0, live := true }
    node := { running.node with lossAction := a, lossScene := 15 } }

theorem test_hyp_lossExpiry :
    (∀ src a, WellShaped (lossDue src a)) ∧ running.ss.lossTimer ≠ .running 0 ∧
    (lossDue .stream .hold).ss.lossTimer = .running 0 ∧
    (lossDue .stream .hold).ss.source = .stream ∧
    (lossDue .stream .hold).node.lossAction = .hold ∧
    (lossDue .stream .black).node.lossAction = .black ∧
    (lossDue .stream .scene).node.lossAction = .scene ∧
    ((lossDue .stream .scene).scene 15).valid = true ∧
    (running.scene 15).valid = false ∧ (lossDue (.cue 2) .hold).ss.source = .cue 2 := by
  refine ⟨fun _ _ => ?_, by decide, rfl, rfl, rfl, rfl, rfl, rfl, rfl, rfl⟩
  have h := wellShaped_withScene
  exact ⟨h.places, h.entries, h.groups, h.contexts, h.tables, h.points, h.forces, h.duty,
    h.channels, h.openCount, h.shortCount, h.pages, h.pageBytes, h.pageBuffer, h.writing,
    h.snapshot, h.shadow, h.targets, h.buffer⟩

theorem test_hyp_runOuts :
    ({ running with al := { running.al with holdOff := some 0 } } : State).al.holdOff = some 0 ∧
    running.al.holdOff ≠ some 0 ∧
    (({ running with os := { running.os with
      forces := running.os.forces.set 23 (.active 9 (some 0)) } } : State).os.forces.getD 23
        .inactive) = .active 9 (some 0) ∧
    (∀ level, running.os.forces.getD 0 .inactive ≠ .active level (some 0)) ∧
    ({ running with mc := { running.mc with quietTimer := some 0 } } : State).mc.quietTimer = some 0 ∧
    running.mc.quietTimer ≠ some 0 :=
  ⟨rfl, by decide, by decide, (by intro _ h; cases h), rfl, by decide⟩

theorem test_hyp_modeEntry :
    Mode.operating .hot = true ∧ State.reset.mc.mode.operating = false ∧
    running.mc.mode.operating = true ∧ running.mc.mode ≠ .quiet ∧
    (perChannel (withMode .quiet).computedDuty).all (· = 0) = true ∧
    (let s := { withMode .quiet with fe := { running.fe with
        contexts := running.fe.contexts.set 3 ⟨9, 9, 0⟩ } }
    s.mc.mode = .quiet ∧ (perChannel s.computedDuty).all (· = 0) = false) := by decide

theorem test_hyp_shaping :
    (running.entry 0).master = none ∧ ((example66 9 (some 1) 64).entry 4).master = some 1 ∧
    ((example66 9 (some 1) 64).group 1).kind = .slot 0 ∧ (running.group 1).kind = .none ∧
    running.mon.ceiling ≤ 64 ∧ running.os.forces.getD 23 .inactive = .inactive ∧
    ({ running with os := { running.os with
      forces := running.os.forces.set 23 (.active 9 none) } } : State).os.forces.getD 23 .inactive =
      .active 9 none := by decide

theorem test_hyp_tables :
    logTable.length = 33 ∧ defaultTable.length = 33 ∧
    ((logTable.getD 31 0).toNat ≤ (logTable.getD 32 0).toNat) ∧
    (let flat := List.replicate 33 (5 : Word)
    flat.length = 33 ∧ (flat.getD 31 0) = (flat.getD 32 0)) := by decide

theorem test_hyp_onCount :
    (1000 : Word) ≠ 0xFFFF ∧ 3 < (1000 : Word).toNat / 2 ^ 1 % 8 ∧
    (1000 : Word).toNat / 2 ^ 1 % 8 ≤ 4 ∧ (15 : Word).toNat < 2 ^ (16 - 12) := by decide

theorem test_hyp_onPhase :
    (3584 < 4096 ∧ 4096 ≤ 4096 ∧ 0 < 4096) ∧ (0 < 600 ∧ 4096 < 3584 + 600) ∧
    (3584 + 512 ≤ 4096) ∧ (23 < 24 ∧ 0 / 3 ≠ 23 / 3 ∧ 512 ≤ 2 ^ (13 - 1) / 8) := by decide

/-- The running node with other drivers. -/
def withDrivers (d : Drivers) (r : Bool) : State :=
  { running with pwu := { running.pwu with drivers := d, running := r } }

theorem test_hyp_period :
    running.pwu.running = true ∧ (withDrivers .powering false).pwu.running = false ∧
    (withDrivers .powering false).pwu.drivers = .powering ∧
    running.pwu.drivers ≠ .powering := by decide

/-! ## Hypotheses that are met: faults, MON and START -/

/-- Channel 7 in an on-phase of n counts, with two counts of each sense and the counter at c. -/
def onPhase (n c : Nat) (m : Mode) : State :=
  { withMode m with
    pwu := { running.pwu with
      count := c, channels := running.pwu.channels.set 7 ⟨.driving, n, true⟩ }
    fm := { running.fm with
      openCount := running.fm.openCount.set 7 3, shortCount := running.fm.shortCount.set 7 3 } }

theorem wellShaped_onPhase (n c : Nat) : WellShaped (onPhase n c .run) := by
  have h := wellShaped_running
  exact ⟨h.places, h.entries, h.groups, h.contexts, h.tables, h.points, h.forces, h.duty,
    rfl, rfl, rfl, h.pages, h.pageBytes, h.pageBuffer, h.writing,
    h.snapshot, h.shadow, h.targets, h.buffer⟩

theorem blockedByCause_onPhase (n c : Nat) : BlockedByCause (onPhase n c .run) := by
  intro i hi
  have hc : (onPhase n c .run).blockCause i = false := by
    simp [State.blockCause, onPhase, withMode, running, State.reset, has]
  have hd : ((onPhase n c .run).channel i).block = .driving := by
    unfold State.channel onPhase
    interval_cases i <;> rfl
  rw [hc, hd]
  simp

/-- Its end can come at the threshold of 128 counts, with four counts to confirm, and is evaluated;
it is not at 127 counts, and it cannot come when the counter is past it. -/
theorem test_hyp_onPhaseEnd :
    (let can := fun s : State => s.pwu.running = true ∧ (s.channel 7).block = .driving ∧
      (s.channel 7).endDue = true ∧ s.pwu.count ≤ s.endPosition 7
    can (onPhase 128 0 .run) ∧ 2 ^ (13 - 1) / 32 ≤ ((onPhase 128 0 .run).channel 7).onCount ∧
    (onPhase 128 0 .run).mc.mode = .run ∧ has (onPhase 128 0 .run).fm.shortLatch 7 = false ∧
    2 ^ ((onPhase 128 0 .run).node.confirmCode.val + 1) ≤
      (onPhase 128 0 .run).fm.openCount.getD 7 0 + 1 ∧
    can (onPhase 127 0 .run) ∧ ¬ 2 ^ (13 - 1) / 32 ≤ ((onPhase 127 0 .run).channel 7).onCount ∧
    ¬ can (onPhase 128 1152 .run)) := by decide

/-- The running node, its rotation timer at n. -/
def rotationAt (n : Option Nat) (c : Option Conversion) : State :=
  { running with mon := { running.mon with sinceStart := n, converting := c } }

theorem test_hyp_rotation :
    (rotationAt (some 10) none).mon.sinceStart = some 10 ∧
    (if (rotationAt (some 10) none).mc.mode = .quiet then 1000 else 10) ≤ 10 ∧
    (rotationAt (some 10) none).mon.converting = none ∧
    (rotationAt (some 10) (some .aux)).mon.converting = some .aux ∧
    9 < (if running.mc.mode = .quiet then 1000 else 10) ∧
    (rotationAt none none).mon.sinceStart = none := by decide

/-- A node converting a temperature in a mode and thermal state. -/
def hotCase (m : Mode) (st : Thermal) : State :=
  { withMode m with
    mon := { running.mon with converting := some .temperature, thermal := st, ceiling := 40 } }

/-- 160 °C and 145 °C, as raw results. -/
theorem test_hyp_temperature :
    running.mon.converting ≠ some .temperature ∧
    (hotCase .run .derate).mon.converting = some .temperature ∧
    temperatureOf 3360 = 160 ∧ temperatureOf 3120 = 145 ∧
    thermalAfter .derate 39 160 = .hot ∧ thermalAfter .hot 39 145 = .derate ∧
    thermalAfter .hot 39 146 = .hot ∧ thermalAfter .derate 40 130 = .derate ∧
    (∀ m ∈ [Mode.run, .standby, .hot, .start],
      ({ hotCase m .derate with mon := { (hotCase m .derate).mon with
        temperature := 160, ceiling := 39, converting := some .supply } } : State).reshape.mc.mode =
        m) := by decide

/-- A node converting the supply. -/
def supplyCase (u : SupplyState) (a : StoreActivity) : State :=
  { withStore fun t => { t with activity := a } with
    mon := { running.mon with converting := some .supply, supplyState := u } }

/-- 4498 mV, 4500 mV, 4698 mV and 4700 mV. -/
theorem test_hyp_supplyAux :
    running.mon.converting ≠ some .supply ∧
    (supplyCase .normal .idle).mon.converting = some .supply ∧
    (supplyCase .normal .idle).mon.supplyState = .normal ∧ (2249 : BitVec 12).toNat * 2 < 4500 ∧
    4500 ≤ (2250 : BitVec 12).toNat * 2 ∧ (supplyCase .preUv .idle).mon.supplyState = .preUv ∧
    4700 ≤ (2350 : BitVec 12).toNat * 2 ∧ (2349 : BitVec 12).toNat * 2 < 4700 ∧
    (supplyCase .preUv (.waiting .erase)).stc.activity = .waiting .erase ∧
    (converting .aux).mon.converting = some .aux ∧ (converting .aux).mc.mode ≠ .start ∧
    (converting .aux).mon.dueAgain = false := by decide

theorem test_hyp_start :
    NodeInv starting ∧ starting.mc.mode = .start ∧ starting.mon.converting = some .aux ∧
    starting.mon.dueAgain = false := ⟨nodeInv_starting, rfl, rfl, rfl⟩

/-! ## Hypotheses that are met: the store, resets and invariants -/

theorem test_hyp_storeEntries :
    (queued three).stc.queue = three ∧ (supplyCase .preUv .idle).mon.supplyState = .preUv ∧
    (queued three).mon.supplyState = .normal ∧ (queued three).stc.activity = .idle ∧
    (writing .lock 0).stc.activity ≠ .idle ∧ (QueueEntry.mk .config true true).again = true ∧
    (QueueEntry.mk .config true false).again = false ∧ running.stc.queue = [] := by decide

/-- Pages 0, 1, 5, 6 and 22, where the clauses meet. -/
theorem test_hyp_storeWork :
    (writing .config 5).stc.activity = .running (.page 5) ∧
    (writing .config 5).stc.pageBuffer = some (room 128) ∧ room 127 ≠ room 128 ∧
    ((1 : Nat) ≤ (5 : Fin 23).val ∧ (6 : Fin 23).val = (5 : Fin 23).val + 1 ∧ (6 : Fin 23).val ≤ 6) ∧
    ((1 : Nat) ≤ (1 : Fin 23).val ∧ (2 : Fin 23).val = (1 : Fin 23).val + 1) ∧
    ((0 : Fin 23).val = 0 ∧ 6 ≤ (6 : Fin 23).val ∧ 6 ≤ (22 : Fin 23).val) ∧
    erasing.stc.activity = .running .erase := by decide +kernel

/-- The running node with RSTn low for a time that is being measured. -/
def lowPulse (m : Mode) (long : Bool) : State :=
  { withMode m with
    pins := { running.pins with rstnLow := true }
    mc := { (withMode m).mc with timingLow := true, longReached := long } }

theorem test_hyp_nodeReset :
    (∃ pages n, (writing .lock 0).leavesPages pages n) ∧ running.pins.vddOk = true ∧
    State.reset.pins.vddOk = false ∧ (lowPulse .run false).pins.rstnLow = true ∧
    (lowPulse .run false).mc.timingLow = true ∧ (lowPulse .run false).mc.longReached = false ∧
    (lowPulse .run false).mc.mode ≠ .reset ∧ (lowPulse .reset false).mc.mode = .reset ∧
    running.pins.rstnLow = false ∧ (lowPulse .run true).mc.longReached = true :=
  ⟨⟨_, _, rfl, rfl⟩, rfl, rfl, rfl, rfl, rfl, by decide, rfl, rfl, rfl⟩

theorem test_hyp_rstn :
    (lowPulse .run false).pins.rstnLow = true ∧ running.pins.rstnLow = false ∧
    (lowPulse .run false).mc.mode.operating = true ∧ (999 < 1000 ∧ 1000 ≤ 19999 ∧ 19999 < 20000) ∧
    (lowPulse .run false).mc.timingLow = true ∧ (lowPulse .run false).mc.longReached = false ∧
    (lowPulse .run false).mc.restartPending = false ∧
    ({ lowPulse .run false with mc := { (lowPulse .run false).mc with restartPending := true } }
      : State).mc.restartPending = true ∧
    (lowPulse .start false).mc.mode = .start ∧ (lowPulse .start false).mc.timingLow = true ∧
    (lowPulse .start false).mc.longReached = false ∧ 20000 ≤ 20000 ∧
    (lowPulse .run true).mc.longReached = true := by decide

/-- A node held in RESET by its pins. -/
def held (low ok : Bool) : State :=
  { State.reset with pins := { rstnLow := low, rate := 0, vddOk := ok } }

theorem wellShaped_held (low ok : Bool) : WellShaped (held low ok) := by
  have h := wellShaped_running
  exact ⟨h.places, h.entries, h.groups, h.contexts, h.tables, h.points, h.forces, h.duty,
    rfl, h.openCount, h.shortCount, h.pages, h.pageBytes, h.pageBuffer, h.writing,
    h.snapshot, h.shadow, h.targets, h.buffer⟩

theorem test_hyp_startLoads :
    (∀ low ok, WellShaped (held low ok) ∧ (held low ok).mc.mode = .reset) ∧
    ((held false false).page 1).classify 1 ≠ .valid ∧
    (Page.bytes (pageImage (sceneContent invalidScene))).classify 22 = .valid ∧
    Page.classify .cutOff 0 ≠ .blank ∧ Page.classify .cutOff 22 = .corrupt :=
  ⟨fun _ _ => ⟨wellShaped_held _ _, rfl⟩, by decide +kernel,
    classify_pageImage _ _ (by decide) (pageImage_notBlank 0 _ (by decide)) (.inl (by decide)),
    by decide, rfl⟩

theorem test_hyp_wireForms :
    (-32768 ≤ (-40 : Int) ∧ (32767 : Int) < 32768) ∧
    (0x03FF : Word).extractLsb' 0 10 = 0x3FF ∧ (0xFC00 : Word).extractLsb' 0 10 = 0 := by decide

/-- Each field of Table 2-12 at the first value out of its range and at the last one in it, selected and
not selected; curve and master codes, group kinds and lengths at the ends of their ranges. -/
theorem test_hyp_ranges_of_fields :
    (∀ w ∈ [(0x001, [251, 0, 0, 0, 0, 0, 0, 0, 0, 0, 0]), (0x002, [0, 4, 0, 0, 0, 0, 0, 0, 0, 0, 0]),
        (0x008, [0, 0, 0, 0, 3, 0, 0, 0, 0, 0, 0]), (0x010, [0, 0, 0, 0, 0, 16, 0, 0, 0, 0, 0]),
        (0x040, [0, 0, 0, 0, 0, 0, 0, 65, 0, 0, 0]), (0x080, [0, 0, 0, 0, 0, 0, 0, 0, 4, 0, 0]),
        (0x200, [0, 0, 0, 0, 0, 0, 0, 0, 0, 0, 4])],
      NodeWrite.ofBytes? w.1 w.2 = none ∧ (NodeWrite.ofBytes? 0 w.2).isSome) ∧
    (NodeWrite.ofBytes? 0x3FF [250, 3, 255, 255, 2, 15, 255, 64, 3, 255, 3]).isSome ∧
    NodeWrite.ofBytes? 0 (room 10) = none ∧
    PatchEntry.ofBytes? 0x60 0 0 0 = none ∧ PatchEntry.ofBytes? 0x05 0 0 0 = none ∧
    (PatchEntry.ofBytes? 0xD4 9 64 0xFF).isSome ∧ patchEntries? (room 5) = none ∧
    patchEntries? [0, 0, 0, 0, 0x60, 0, 0, 0] = none ∧ (patchEntries? (room 8)).isSome ∧
    2 ≤ (2 : Byte).toNat := by decide +kernel

theorem test_hyp_savedPages :
    WellShaped running ∧ (invalidScene.targets.length = 28) ∧
    ({ invalidScene with valid := true } : SceneRecord).valid = true ∧ (3 < 4 ∧ 3 ≤ 6 ∧ 7 ≤ 22) :=
  ⟨wellShaped_running, by decide, rfl, by decide⟩

/-- A parser at the rlen byte of an accepted SAVE_CONFIG, the second record of two. -/
def savingNext : Parser :=
  { parserAt .rlen with
    total := 2, index := 2
    answer := { verdict := .accept [] (some (.saveConfig .accept)), writes := true } }

/-- A node that writes a page while the frame in passage has reserved two places. -/
def reserving : State :=
  { writing .lock 0 with
    me := { emptyExecutor with
      parser := some savingNext
      commits := [.capture 3 0 .accept]
      reservations := [.scene 3, .config] } }

theorem test_hyp_queueLaw :
    QueueLaw reserving ∧ FrameLaw reserving ∧
      ∃ t, step { reserving with pending := [.pageWriteTimeout] } = .next t := by
  have hs : reserving.me.staged = [.capture 3 0 .accept, .saveConfig .accept] := rfl
  have hr : reserving.me.reservations = [.scene 3, .config] := rfl
  refine ⟨⟨by decide, by decide, by decide, by decide, by decide⟩, ⟨?_, ?_, ?_, ?_, ?_, ?_,
    nofun, by decide⟩, _, rfl⟩
  · intro k
    rw [hs, hr, show (reserving.queuedKind k && reserving.me.coalesced.contains k) = false from
      Bool.and_false _]
    by_cases h1 : k = .scene 3
    · subst h1; decide
    by_cases h2 : k = .config
    · subst h2; decide
    have h1' : ¬ some (StoreKind.scene 3) = some k := fun h => h1 (Option.some.inj h).symm
    have h2' : ¬ some StoreKind.config = some k := fun h => h2 (Option.some.inj h).symm
    simp only [joins, Staged.storeKind, h1', h2', false_and, if_false]
    exact Nat.zero_le _
  · intro k hk
    rw [hr] at hk
    rw [hs]
    simp only [List.mem_cons, List.not_mem_nil, or_false, show reserving.me.coalesced = [] from rfl] at hk
    rcases hk with rfl | rfl
    · exact ⟨_, List.mem_cons_self .., rfl, .inl rfl⟩
    · exact ⟨_, List.mem_cons_of_mem _ (List.mem_cons_self ..), rfl, .inl rfl⟩
  · intro h; cases h
  · intro p out e h1 _ h3
    cases h1; cases h3; exact fun _ => rfl
  · intro p h1 h2; cases h1; cases h2
  · intro p h1; cases h1; decide

theorem test_hyp_invariants :
    NodeInv running ∧ WellShaped running ∧ DutiesCurrent running ∧
    ∃ t, step { running with pending := [.tick] } = .next t :=
  ⟨nodeInv_running, wellShaped_running, fun _ => by decide, _, rfl⟩

end Sys2Proof.Tests
end

namespace Sys2Proof.Machine

/-! ## The way covered after n steps (R79), in numbers -/

/-- The way a fade of distance d over r ticks has gone after n steps: the quotient at every step, and
1 more at each of the first d mod r. -/
def wayGone (d r n : Nat) : Nat := n * (d / r) + min n (d % r)

/-- With n of r steps done, what is left is the quotient for each step left, and the longer steps not
yet taken. -/
theorem wayGone_add_rest (d r n : Nat) (h : n ≤ r) :
    wayGone d r n + ((r - n) * (d / r) + (d % r - n)) = d := by
  obtain ⟨m, rfl⟩ := Nat.exists_eq_add_of_le h
  have hd := Nat.div_add_mod d (n + m)
  rw [Nat.add_mul] at hd
  rw [wayGone, Nat.add_sub_cancel_left]
  omega

/-- A remainder e of the way, at most m, over m steps left: rounding up gives the quotient when e is
0, and 1 more otherwise. -/
theorem roundUp_mul_add (m q e : Nat) (hm : 0 < m) (he : e ≤ m) :
    (m * q + e + m - 1) / m = q + min 1 e := by
  rw [Nat.add_assoc, Nat.add_sub_assoc (by omega), Nat.mul_add_div hm]
  congr 1
  rcases Nat.eq_zero_or_pos e with rfl | hpos
  · rw [Nat.zero_add, Nat.div_eq_of_lt (by omega)]; rfl
  · rw [Nat.min_eq_left hpos]
    exact Nat.div_eq_of_lt_le (by omega) (by omega)

/-- The step after n steps has the size that R79 computes from the distance and count left. -/
theorem wayGone_succ (d r n : Nat) (h : n < r) :
    wayGone d r (n + 1) =
      wayGone d r n + (d - wayGone d r n + (r - n) - 1) / (r - n) := by
  have hrest := wayGone_add_rest d r n h.le
  have hmod : d % r < r := Nat.mod_lt _ (by omega)
  have hleft : d - wayGone d r n = (r - n) * (d / r) + (d % r - n) := by omega
  rw [hleft, roundUp_mul_add _ _ _ (by omega) (by omega), wayGone, wayGone, Nat.succ_mul]
  omega

/-! ## One step of a fade context, any number of steps, and a retarget (R75, R79, R80) -/

namespace FadeContext

/-! ### Distance and step size -/

theorem level_add_distance {c : FadeContext} (h : c.level.toNat ≤ c.target.toNat) :
    c.level.toNat + c.distance = c.target.toNat := by
  unfold FadeContext.distance; omega

theorem target_add_distance {c : FadeContext} (h : c.target.toNat ≤ c.level.toNat) :
    c.target.toNat + c.distance = c.level.toNat := by
  unfold FadeContext.distance; omega

theorem stepSize_of_rest {c : FadeContext} (h : c.remaining = 0) : c.stepSize = 0 := by
  rw [FadeContext.stepSize, h, Nat.div_zero]

theorem stepSize_of_last {c : FadeContext} (h : c.remaining = 1) : c.stepSize = c.distance := by
  rw [FadeContext.stepSize, h, Nat.div_one, Nat.add_sub_cancel]

/-- Dividing by a count of at least 1 and rounding up never overshoots: a distance of 0 gives size 0,
and a distance of at least 1 is not exceeded. -/
theorem stepSize_le_distance (c : FadeContext) : c.stepSize ≤ c.distance := by
  rcases Nat.eq_zero_or_pos c.remaining with hr | hr
  · rw [stepSize_of_rest hr]; exact Nat.zero_le _
  · refine Nat.lt_succ_iff.1 (Nat.div_lt_of_lt_mul ?_)
    have : c.distance ≤ c.remaining * c.distance := Nat.le_mul_of_pos_left _ hr
    rw [Nat.mul_succ]; omega

/-! ### One step -/

theorem step_of_rest {c : FadeContext} (h : c.remaining = 0) : c.step = c := if_pos h

@[simp] theorem step_target (c : FadeContext) : c.step.target = c.target := by
  unfold FadeContext.step; split <;> rfl

@[simp] theorem step_remaining (c : FadeContext) : c.step.remaining = c.remaining - 1 := by
  unfold FadeContext.step
  split
  · omega
  · rfl

/-- The step's addition stays in a word, because the size does not pass the distance. -/
theorem step_level_of_le_target {c : FadeContext}
    (h : c.level.toNat ≤ c.target.toNat) : c.step.level.toNat = c.level.toNat + c.stepSize := by
  have hsize := c.stepSize_le_distance
  have hdist := level_add_distance h
  have hword := c.target.isLt
  rcases Nat.eq_zero_or_pos c.remaining with hr | hr
  · rw [step_of_rest hr, stepSize_of_rest hr, Nat.add_zero]
  rw [FadeContext.step, if_neg hr.ne']
  rcases h.lt_or_eq with hlt | heq
  · rw [if_pos hlt, natWord, BitVec.toNat_ofNat, Nat.mod_eq_of_lt (by omega)]
  · rw [if_neg heq.not_lt, if_neg heq.not_gt]
    show c.level.toNat = _
    omega

theorem step_level_of_target_le {c : FadeContext}
    (h : c.target.toNat ≤ c.level.toNat) : c.step.level.toNat + c.stepSize = c.level.toNat := by
  have hsize := c.stepSize_le_distance
  have hdist := target_add_distance h
  have hword := c.level.isLt
  rcases Nat.eq_zero_or_pos c.remaining with hr | hr
  · rw [step_of_rest hr, stepSize_of_rest hr, Nat.add_zero]
  rw [FadeContext.step, if_neg hr.ne']
  rcases h.lt_or_eq with hlt | heq
  · rw [if_neg hlt.not_gt, if_pos hlt, natWord, BitVec.toNat_ofNat, Nat.mod_eq_of_lt (by omega)]
    omega
  · rw [if_neg heq.not_gt, if_neg heq.not_lt]
    show c.level.toNat + _ = _
    omega

/-- A step does not pass the target from below. -/
theorem step_le_target {c : FadeContext} (h : c.level.toNat ≤ c.target.toNat) :
    c.step.level.toNat ≤ c.step.target.toNat := by
  rw [step_target, step_level_of_le_target h, ← level_add_distance h]
  exact Nat.add_le_add_left c.stepSize_le_distance _

/-- A step does not pass the target from above. -/
theorem target_le_step {c : FadeContext} (h : c.target.toNat ≤ c.level.toNat) :
    c.step.target.toNat ≤ c.step.level.toNat := by
  have hlevel := step_level_of_target_le h
  have hdist := target_add_distance h
  have hsize := c.stepSize_le_distance
  rw [step_target]
  omega

/-- In either direction a step takes its size off the distance. -/
theorem step_distance_add_stepSize (c : FadeContext) :
    c.step.distance + c.stepSize = c.distance := by
  rcases Nat.le_total c.level.toNat c.target.toNat with h | h
  · have hbefore := level_add_distance h
    have hafter := level_add_distance (step_le_target h)
    rw [step_target, step_level_of_le_target h] at hafter
    omega
  · have hbefore := target_add_distance h
    have hafter := target_add_distance (target_le_step h)
    have hlevel := step_level_of_target_le h
    rw [step_target] at hafter
    omega

/-- The last step of a fade ends at its target, from either side. -/
theorem step_level_of_last {c : FadeContext} (h : c.remaining = 1) : c.step.level = c.target := by
  have hrest : c.step.remaining = 0 := by rw [step_remaining, h]
  rw [(step_fadeBounded c ⟨by omega, by omega⟩).2 hrest, step_target]

theorem step_level_of_at_target {c : FadeContext} (h : c.level = c.target) :
    c.step.level = c.level := by
  have hbelow := step_le_target (congrArg BitVec.toNat h).le
  have habove := target_le_step (congrArg BitVec.toNat h).ge
  rw [step_target] at hbelow habove
  rw [h]
  exact BitVec.eq_of_toNat_eq (le_antisymm hbelow habove)

/-! ### Any number of steps -/

theorem iterate_step_target (c : FadeContext) (n : Nat) :
    (FadeContext.step^[n] c).target = c.target :=
  Function.Iterate.rec (fun x : FadeContext => x.target = c.target) rfl
    (fun x h => x.step_target.trans h) n

theorem iterate_step_remaining (c : FadeContext) (n : Nat) :
    (FadeContext.step^[n] c).remaining = c.remaining - n := by
  induction n with
  | zero => rfl
  | succ n ih => rw [Function.iterate_succ_apply', step_remaining, ih, Nat.sub_sub]

theorem iterate_step_le_target {c : FadeContext} (h : c.level.toNat ≤ c.target.toNat) (n : Nat) :
    (FadeContext.step^[n] c).level.toNat ≤ (FadeContext.step^[n] c).target.toNat :=
  Function.Iterate.rec (fun x : FadeContext => x.level.toNat ≤ x.target.toNat) h
    (fun _ => step_le_target) n

theorem target_le_iterate_step {c : FadeContext} (h : c.target.toNat ≤ c.level.toNat) (n : Nat) :
    (FadeContext.step^[n] c).target.toNat ≤ (FadeContext.step^[n] c).level.toNat :=
  Function.Iterate.rec (fun x : FadeContext => x.target.toNat ≤ x.level.toNat) h
    (fun _ => target_le_step) n

/-! ### The way of n steps (R79) -/

theorem iterate_step_distance (c : FadeContext) (n : Nat) (h : n ≤ c.remaining) :
    (FadeContext.step^[n] c).distance + wayGone c.distance c.remaining n = c.distance := by
  induction n with
  | zero => simp [wayGone]
  | succ n ih =>
    have hbefore := ih (by omega)
    have hstep := (FadeContext.step^[n] c).step_distance_add_stepSize
    have hleft : (FadeContext.step^[n] c).distance =
        c.distance - wayGone c.distance c.remaining n := by omega
    have hsize : (FadeContext.step^[n] c).stepSize =
        (c.distance - wayGone c.distance c.remaining n + (c.remaining - n) - 1) /
          (c.remaining - n) := by
      rw [FadeContext.stepSize, hleft, iterate_step_remaining]
    rw [Function.iterate_succ_apply', wayGone_succ _ _ _ h, ← hsize]
    omega

theorem iterate_step_level_of_le_target {c : FadeContext} {n : Nat}
    (h : c.level.toNat ≤ c.target.toNat) (hn : n ≤ c.remaining) :
    (FadeContext.step^[n] c).level.toNat =
      c.level.toNat + wayGone c.distance c.remaining n := by
  have hstart := level_add_distance h
  have hend := level_add_distance (iterate_step_le_target h n)
  have hgone := c.iterate_step_distance n hn
  rw [iterate_step_target] at hend
  omega

theorem iterate_step_level_of_target_le {c : FadeContext} {n : Nat}
    (h : c.target.toNat ≤ c.level.toNat) (hn : n ≤ c.remaining) :
    (FadeContext.step^[n] c).level.toNat + wayGone c.distance c.remaining n =
      c.level.toNat := by
  have hstart := target_add_distance h
  have hend := target_add_distance (target_le_iterate_step h n)
  have hgone := c.iterate_step_distance n hn
  rw [iterate_step_target] at hend
  omega

/-! ### A retarget and the steps after it (R75, R80) -/

theorem retarget_snap (c : FadeContext) (t : Word) :
    c.retarget t 0 = { level := t, target := t, remaining := 0 } := if_pos rfl

theorem retarget_fading (c : FadeContext) (t : Word) {code : Byte} (h : code ≠ 0) :
    c.retarget t code = { c with target := t, remaining := code.toNat * 100 } := if_neg h

@[simp] theorem retarget_target (c : FadeContext) (t : Word) (code : Byte) :
    (c.retarget t code).target = t := by
  unfold FadeContext.retarget; split <;> rfl

/-- Whatever a retarget began, a context whose count has run out stands at its target. -/
theorem iterate_step_at_target (c : FadeContext) (t : Word) (code : Byte) (n : Nat)
    (h : (FadeContext.step^[n] (c.retarget t code)).remaining = 0) :
    (FadeContext.step^[n] (c.retarget t code)).level =
      (FadeContext.step^[n] (c.retarget t code)).target :=
  (Function.Iterate.rec
    (fun x : FadeContext => x.remaining ≤ 25500 ∧ (x.remaining = 0 → x.level = x.target))
    (retarget_fadeBounded c t code) step_fadeBounded n).2 h

theorem iterate_step_mono {c : FadeContext} (h : c.level.toNat ≤ c.target.toNat) (n : Nat) :
    (FadeContext.step^[n] c).level.toNat ≤ (FadeContext.step^[n + 1] c).level.toNat := by
  rw [Function.iterate_succ_apply', step_level_of_le_target (iterate_step_le_target h n)]
  exact Nat.le_add_right _ _

theorem iterate_step_anti {c : FadeContext} (h : c.target.toNat ≤ c.level.toNat) (n : Nat) :
    (FadeContext.step^[n + 1] c).level.toNat ≤ (FadeContext.step^[n] c).level.toNat := by
  rw [Function.iterate_succ_apply']
  exact Nat.le.intro (step_level_of_target_le (target_le_iterate_step h n))

/-- A level going up does not fall below where it began. -/
theorem le_iterate_step {c : FadeContext} (h : c.level.toNat ≤ c.target.toNat) (n : Nat) :
    c.level.toNat ≤ (FadeContext.step^[n] c).level.toNat :=
  monotone_nat_of_le_succ (iterate_step_mono h) (Nat.zero_le n)

/-- A level going down does not rise above where it began. -/
theorem iterate_step_le {c : FadeContext} (h : c.target.toNat ≤ c.level.toNat) (n : Nat) :
    (FadeContext.step^[n] c).level.toNat ≤ c.level.toNat :=
  antitone_nat_of_succ_le (f := fun n => (FadeContext.step^[n] c).level.toNat)
    (iterate_step_anti h) (Nat.zero_le n)

theorem iterate_step_between (c : FadeContext) (n : Nat) :
    min c.level.toNat c.target.toNat ≤ (FadeContext.step^[n] c).level.toNat ∧
      (FadeContext.step^[n] c).level.toNat ≤ max c.level.toNat c.target.toNat := by
  have htarget := c.iterate_step_target n
  rcases Nat.le_total c.level.toNat c.target.toNat with h | h
  · have hlow := le_iterate_step h n
    have hhigh := iterate_step_le_target h n
    rw [htarget] at hhigh
    omega
  · have hhigh := iterate_step_le h n
    have hlow := target_le_iterate_step h n
    rw [htarget] at hlow
    omega

end FadeContext

/-! ## The statements about fades -/

/-- Settles O35: one step by the direction of the fade, and n steps by the way gone after n. -/
theorem fadeStepsReachTheTarget : Obligations.FadeStepsReachTheTarget := by
  refine ⟨fun _ => FadeContext.step_of_rest, fun c hr => ?_⟩
  intro d size
  have hsize : size = c.stepSize :=
    congrArg (· / c.remaining) (Nat.add_sub_assoc hr c.distance).symm
  rw [hsize]
  refine ⟨fun h => FadeContext.step_level_of_le_target h.le,
    fun h => FadeContext.step_level_of_target_le h.le, FadeContext.step_level_of_at_target,
    ?_, c.step_target, c.stepSize_le_distance,
    fun h => ⟨FadeContext.stepSize_of_last h, FadeContext.step_level_of_last h⟩,
    fun n hn => ⟨fun h => FadeContext.iterate_step_level_of_le_target h hn,
      fun h => FadeContext.iterate_step_level_of_target_le h hn⟩⟩
  rw [FadeContext.step_remaining, Nat.sub_add_cancel hr]

/-- Settles O36: a retarget fixes the target and the side from which the level comes to it, and every
step keeps both. -/
theorem levelStaysBetweenRetargetAndTarget : Obligations.LevelStaysBetweenRetargetAndTarget := by
  refine ⟨fun c => c.retarget_snap 0, fun c t code n => ?_⟩
  intro start x y
  have hstart : start.target = t := c.retarget_target t code
  have htarget : x.target = t := (start.iterate_step_target n).trans hstart
  obtain ⟨hlow, hhigh⟩ := start.iterate_step_between n
  rw [hstart] at hlow hhigh
  refine ⟨htarget, fun h => (c.iterate_step_at_target t code n h).trans htarget, hlow, hhigh,
    ?snap, ?fading, fun h => FadeContext.iterate_step_mono (by rwa [hstart]) n,
    fun h => FadeContext.iterate_step_anti (by rwa [hstart]) n⟩
  case snap =>
    rintro rfl
    rw [show start = _ from c.retarget_snap t]
    exact ⟨rfl, rfl⟩
  case fading =>
    intro h
    rw [show start = _ from c.retarget_fading t h]
    exact ⟨rfl, rfl⟩

end Sys2Proof.Machine

namespace Sys2Proof.Machine

/-! ## A word scaled by a factor of at most 1: the master, trim and ceiling stages (R89, R94, R96) -/

theorem scaled_toNat (x : Word) {n d : Nat} (h : n ≤ d) :
    (natWord (x.toNat * n / d)).toNat = x.toNat * n / d := by
  have hword := x.isLt
  have hscaled : x.toNat * n / d ≤ 65535 := Nat.div_le_of_le_mul <| by
    rw [Nat.mul_comm d]
    exact Nat.mul_le_mul (by omega) h
  exact natWord_toNat (by omega)

theorem scaled_full (x : Word) {d : Nat} (h : 0 < d) : natWord (x.toNat * d / d) = x := by
  rw [Nat.mul_div_cancel _ h, natWord, BitVec.ofNat_toNat, BitVec.setWidth_eq]

theorem masterStage_toNat (level master : Word) :
    (masterStage level master).toNat = level.toNat * master.toNat / 65535 :=
  scaled_toNat level (Nat.le_of_lt_succ master.isLt)

theorem masterStage_full (level : Word) : masterStage level 0xFFFF = level :=
  scaled_full level (by decide)

theorem masterStage_zero (level : Word) : masterStage level 0 = 0 := by simp [masterStage, natWord]

theorem trimStage_toNat (y : Word) (trim : Byte) :
    (trimStage y trim).toNat = y.toNat * trim.toNat / 255 :=
  scaled_toNat y (Nat.le_of_lt_succ trim.isLt)

theorem trimStage_full (y : Word) : trimStage y 255 = y := scaled_full y (by decide)

theorem trimStage_zero (y : Word) : trimStage y 0 = 0 := by simp [trimStage, natWord]

theorem trimStage_ne_zero_iff (y : Word) (trim : Byte) :
    trimStage y trim ≠ 0 ↔ 255 ≤ y.toNat * trim.toNat := by
  rw [Ne, ← BitVec.toNat_inj, trimStage_toNat, show (0 : Word).toNat = 0 from rfl]
  omega

theorem ceilingStage_toNat (z : Word) {ceiling : Nat} (h : ceiling ≤ 64) :
    (ceilingStage z ceiling).toNat = z.toNat * ceiling / 64 := scaled_toNat z h

theorem ceilingStage_full (z : Word) : ceilingStage z 64 = z := scaled_full z (by decide)

/-! ## The inputs of a channel (R49, R88, R89, R100) -/

theorem masterLevel_of_no_master (s : State) {e : PatchEntry} (h : e.master = none) :
    s.masterLevel e = 0xFFFF := by rw [State.masterLevel, h]

theorem masterLevel_of_group_without_slot (s : State) {e : PatchEntry} {g : Fin 4}
    (he : e.master = some g) (hg : (s.group g.val).kind = .none) : s.masterLevel e = 0xFFFF := by
  simp only [State.masterLevel, he, hg]

theorem masterLevel_of_group_slot (s : State) {e : PatchEntry} {g : Fin 4} {o}
    (he : e.master = some g) (hg : (s.group g.val).kind = .slot o) :
    s.masterLevel e = (s.context (24 + g.val)).level := by
  simp only [State.masterLevel, he, hg]

theorem computedDuty_of_inactive (s : State) {ch : Nat}
    (h : s.os.forces.getD ch .inactive = .inactive) : s.computedDuty ch = s.shapedDuty ch := by
  rw [State.computedDuty, h]

theorem computedDuty_of_active (s : State) {ch : Nat} {level left}
    (h : s.os.forces.getD ch .inactive = .active level left) :
    s.computedDuty ch = ceilingStage level s.mon.ceiling := by
  rw [State.computedDuty, h]

/-! ## Interpolation between two points (R91), in numbers -/

/-- The y at f steps of 2048 from the point p towards the point q. -/
def blend (p q f : Nat) : Nat := ((p : Int) + (((q : Int) - p) * f).tdiv 2048).toNat

/-- Going up, rounding toward zero is the floor of the way gone. -/
theorem blend_of_le {p q : Nat} (f : Nat) (h : p ≤ q) : blend p q f = p + (q - p) * f / 2048 := by
  have hway : ((q : Int) - p) * f = ((q - p) * f : Nat) := by push_cast [h]; rfl
  rw [blend, hway, Int.tdiv_eq_ediv_of_nonneg (Int.natCast_nonneg _)]
  omega

/-- Going down, rounding toward zero takes the floor of the way gone off the point p. -/
theorem blend_of_ge {p q : Nat} (f : Nat) (h : q ≤ p) : blend p q f = p - (p - q) * f / 2048 := by
  have hway : ((q : Int) - p) * f = -((p - q) * f : Nat) := by push_cast [h]; ring
  rw [blend, hway, Int.neg_tdiv, Int.tdiv_eq_ediv_of_nonneg (Int.natCast_nonneg _)]
  omega

theorem blend_self (p f : Nat) : blend p p f = p := by
  rw [blend_of_le f le_rfl, Nat.sub_self, Nat.zero_mul, Nat.zero_div, Nat.add_zero]

/-- Fewer than 2048 of 2048 steps do not go the whole of a way. -/
theorem way_lt {d f : Nat} (hd : 0 < d) (hf : f < 2048) : d * f / 2048 < d :=
  Nat.div_lt_of_lt_mul (by rw [Nat.mul_comm 2048]; exact Nat.mul_lt_mul_of_pos_left hf hd)

/-- The second point is reached only where it is the first. -/
theorem blend_eq_right_iff {p q f : Nat} (hf : f < 2048) : blend p q f = q ↔ p = q := by
  refine ⟨fun h => ?_, fun h => h ▸ blend_self p f⟩
  rcases Nat.lt_trichotomy p q with hlt | heq | hgt
  · have hway := way_lt (Nat.sub_pos_of_lt hlt) hf
    rw [blend_of_le f hlt.le] at h
    omega
  · exact heq
  · have hway := way_lt (Nat.sub_pos_of_lt hgt) hf
    rw [blend_of_ge f hgt.le] at h
    omega

theorem blend_between {p q f : Nat} (hf : f < 2048) :
    min p q ≤ blend p q f ∧ blend p q f ≤ max p q := by
  rcases Nat.lt_trichotomy p q with hlt | rfl | hgt
  · have hway := way_lt (Nat.sub_pos_of_lt hlt) hf
    rw [blend_of_le f hlt.le]
    omega
  · rw [blend_self]
    omega
  · have hway := way_lt (Nat.sub_pos_of_lt hgt) hf
    rw [blend_of_ge f hgt.le]
    omega

/-! ## Interpolation in a table (R91) -/

/-- The y lies between two words, so it is one. -/
theorem interpolate_toNat (points : List Word) (x : Word) :
    (interpolate points x).toNat =
      blend (points.getD (x.toNat / 2048) 0).toNat (points.getD (x.toNat / 2048 + 1) 0).toNat
        (x.toNat % 2048) := by
  refine natWord_toNat (Nat.lt_of_le_of_lt (blend_between (Nat.mod_lt _ (by decide))).2 ?_)
  exact max_lt (BitVec.isLt _) (BitVec.isLt _)

theorem interpolate_last_eq_iff (points : List Word) :
    interpolate points 0xFFFF = points.getD 32 0 ↔ points.getD 31 0 = points.getD 32 0 := by
  rw [← BitVec.toNat_inj, interpolate_toNat, ← BitVec.toNat_inj]
  exact blend_eq_right_iff (by decide)

/-! ## The LOG table (R92) -/

/-- Point k is 257 × (2^(k/4) − 1) rounded: twice the point plus 514 is within 1 of 514 × 2^(k/4),
compared in fourth powers. -/
theorem logTable_rounded : ∀ k, k < 33 →
    (2 * (logTable.getD k 0).toNat + 513) ^ 4 ≤ 514 ^ 4 * 2 ^ k ∧
      514 ^ 4 * 2 ^ k ≤ (2 * (logTable.getD k 0).toNat + 515) ^ 4 := by
  decide

/-- Each fourth point doubles the value plus one step of 257, to within the rounding. -/
theorem logTable_doubles : ∀ k, k + 4 < 33 →
    (logTable.getD (k + 4) 0).toNat ≤ 2 * (logTable.getD k 0).toNat + 258 ∧
      2 * (logTable.getD k 0).toNat + 256 ≤ (logTable.getD (k + 4) 0).toNat := by
  have h : ∀ k, k < 29 →
      (logTable.getD (k + 4) 0).toNat ≤ 2 * (logTable.getD k 0).toNat + 258 ∧
        2 * (logTable.getD k 0).toNat + 256 ≤ (logTable.getD (k + 4) 0).toNat := by decide
  exact fun k hk => h k (by omega)

/-- In the first segment, from 0 to 49, the LOG curve is the floor of 49 x / 2048. -/
theorem interpolate_logTable_first {x : Word} (h : x.toNat < 2048) :
    (interpolate logTable x).toNat = 49 * x.toNat / 2048 := by
  rw [interpolate_toNat, Nat.div_eq_of_lt h, Nat.mod_eq_of_lt h]
  exact (blend_of_le _ (Nat.zero_le 49)).trans (Nat.zero_add _)

theorem interpolate_logTable_of_le {x : Word} (h : x.toNat ≤ 41) : interpolate logTable x = 0 := by
  apply BitVec.eq_of_toNat_eq
  rw [interpolate_logTable_first (by omega)]
  exact Nat.div_eq_of_lt (by omega)

/-! ## The statements about shaping -/

/-- Settles O41: each stage by its value on words, and a channel's duty16 by the state of its force. -/
theorem shapingStages : Obligations.ShapingStages :=
  ⟨fun level master =>
      ⟨masterStage_toNat level master, masterStage_full level, masterStage_zero level⟩,
    fun s _ =>
      ⟨masterLevel_of_no_master s, fun _ => masterLevel_of_group_without_slot s,
        fun _ _ => masterLevel_of_group_slot s⟩,
    fun _ _ => ⟨rfl, rfl, fun _ => rfl⟩,
    fun y trim =>
      ⟨trimStage_toNat y trim, trimStage_full y, trimStage_zero y, trimStage_ne_zero_iff y trim⟩,
    fun z _ hceiling => ⟨ceilingStage_toNat z hceiling, ceilingStage_full z⟩,
    fun s _ => ⟨computedDuty_of_inactive s, fun _ _ => computedDuty_of_active s⟩⟩

/-- Settles O42: a table's y is the blend of its segment's two points, and the LOG table's points are
compared one by one. -/
theorem interpolationAndTheLogTable : Obligations.InterpolationAndTheLogTable := by
  refine ⟨?table, fun points _ => interpolate_last_eq_iff points, by decide, logTable_rounded,
    logTable_doubles, ?last, fun _ => interpolate_logTable_of_le, ?first⟩
  case table =>
    intro points x _ i f p q
    have hx := x.isLt
    have hf : f < 2048 := Nat.mod_lt _ (by decide)
    rw [show (interpolate points x).toNat = blend p q f from interpolate_toNat points x]
    exact ⟨by omega, Nat.le_of_lt_succ hf, blend_of_le f, blend_of_ge f,
      fun h => h ▸ blend_self p f, blend_between hf⟩
  case last => decide
  case first => decide

end Sys2Proof.Machine

namespace Sys2Proof.Machine

/-! ## The on-count of a duty (R105)

The base and the residue are the quotient and the remainder by 8 of one number, the on-time in eighths
of a count; the dither spreads the remainder over the eight phases. -/

/-- The bits of the residue and those dropped below it: each code drops one bit more. -/
theorem thirteen_sub_periodBits (code : Fin 4) : 13 - periodBits code = code.val := by
  rw [periodBits]
  omega

theorem sixteen_sub_periodBits (code : Fin 4) : 16 - periodBits code = code.val + 3 := by
  rw [periodBits]
  omega

/-- The bits of a duty16: those of the base, three of the residue, and those dropped. -/
theorem periodCounts_mul (code : Fin 4) : 2 ^ (16 - periodBits code) * periodCounts code = 2 ^ 16 := by
  rw [periodCounts, ← pow_add, sixteen_sub_periodBits, periodBits]
  congr 1
  omega

/-- The whole counts of a duty16 and its eighths left over. -/
theorem eight_mul_base_add_residue (d : Word) (code : Fin 4) :
    8 * (d.toNat / 2 ^ (16 - periodBits code)) + d.toNat / 2 ^ (13 - periodBits code) % 8 =
      d.toNat / 2 ^ (13 - periodBits code) := by
  have hbase : d.toNat / 2 ^ (16 - periodBits code) = d.toNat / 2 ^ (13 - periodBits code) / 8 := by
    rw [Nat.div_div_eq_div_mul, thirteen_sub_periodBits, sixteen_sub_periodBits, pow_add]
    rfl
  rw [hbase, Nat.div_add_mod]

theorem base_lt_periodCounts (d : Word) (code : Fin 4) :
    d.toNat / 2 ^ (16 - periodBits code) < periodCounts code :=
  Nat.div_lt_of_lt_mul (periodCounts_mul code ▸ d.isLt)

section
variable {d : Word} {code : Fin 4} {dither : Bool} {j : Nat}

theorem onCountOf_full (hd : d = 0xFFFF) : onCountOf d code dither j = periodCounts code :=
  if_pos hd

theorem onCountOf_of_ne_full (hd : d ≠ 0xFFFF) :
    onCountOf d code dither j = d.toNat / 2 ^ (16 - periodBits code) +
      if dither && decide (j < d.toNat / 2 ^ (13 - periodBits code) % 8) then 1 else 0 :=
  (if_neg hd).trans (apply_ite _ _ 1 0).symm

theorem onCountOf_of_lt_residue (hd : d ≠ 0xFFFF)
    (hj : j < d.toNat / 2 ^ (13 - periodBits code) % 8) :
    onCountOf d code true j = d.toNat / 2 ^ (16 - periodBits code) + 1 := by
  simp [onCountOf_of_ne_full hd, hj]

theorem onCountOf_of_residue_le (hd : d ≠ 0xFFFF)
    (hj : d.toNat / 2 ^ (13 - periodBits code) % 8 ≤ j) :
    onCountOf d code true j = d.toNat / 2 ^ (16 - periodBits code) := by
  simp [onCountOf_of_ne_full hd, hj.not_gt]

theorem onCountOf_no_dither (hd : d ≠ 0xFFFF) :
    onCountOf d code false j = d.toNat / 2 ^ (16 - periodBits code) :=
  onCountOf_of_ne_full hd

theorem onCountOf_le_periodCounts (d : Word) (code : Fin 4) (dither : Bool) (j : Nat) :
    onCountOf d code dither j ≤ periodCounts code := by
  by_cases hd : d = 0xFFFF
  · exact (onCountOf_full hd).le
  · have hbase := base_lt_periodCounts d code
    rw [onCountOf_of_ne_full hd]
    split <;> omega

/-- Below one count a channel stays dark; the full duty is not below one count at any code. -/
theorem onCountOf_eq_zero (h : d.toNat < 2 ^ (16 - periodBits code)) :
    onCountOf d code false j = 0 := by
  have hd : d ≠ 0xFFFF := by
    rintro rfl
    have hpow : 2 ^ (16 - periodBits code) ≤ 2 ^ 6 :=
      Nat.pow_le_pow_right two_pos (by rw [sixteen_sub_periodBits]; omega)
    exact absurd (h.trans_le hpow) (by decide)
  rw [onCountOf_no_dither hd, Nat.div_eq_of_lt h]

end

/-- Over the first n phases, each below the residue adds one count. -/
theorem sum_range_dither (base residue n : Nat) :
    ((List.range n).map fun j => base + if j < residue then 1 else 0).sum =
      n * base + min n residue := by
  induction n with
  | zero => simp
  | succ n ih =>
    rw [List.range_succ, List.map_append, List.sum_append, ih, Nat.succ_mul, List.map_singleton,
      List.sum_singleton]
    split <;> omega

/-- A dither cycle is on for the base in all eight periods, and one count more in `residue` of them. -/
theorem sum_onCountOf_cycle {d : Word} (code : Fin 4) (hd : d ≠ 0xFFFF) :
    ((List.range 8).map (onCountOf d code true)).sum =
      8 * (d.toNat / 2 ^ (16 - periodBits code)) + d.toNat / 2 ^ (13 - periodBits code) % 8 := by
  have hresidue : d.toNat / 2 ^ (13 - periodBits code) % 8 ≤ 8 := (Nat.mod_lt _ (by decide)).le
  have hcount : onCountOf d code true = fun j => d.toNat / 2 ^ (16 - periodBits code) +
      if j < d.toNat / 2 ^ (13 - periodBits code) % 8 then 1 else 0 := by
    funext j
    simp [onCountOf_of_ne_full hd]
  rw [hcount, sum_range_dither, Nat.min_eq_right hresidue]

/-! ## The statement about the on-count -/

/-- Settles O43: the on-count by the duty, the dither setting and the phase, and its sum over a cycle. -/
theorem onCountOfADuty : Obligations.OnCountOfADuty := by
  intro d code dither j _
  refine ⟨?full, ?above, ?below, ?off, onCountOf_le_periodCounts d code dither j,
    fun hd => ⟨sum_onCountOf_cycle code hd, eight_mul_base_add_residue d code⟩, ?dark⟩
  case full => exact onCountOf_full
  case above => exact fun hd hdither hj => hdither ▸ onCountOf_of_lt_residue hd hj
  case below => exact fun hd hdither hj => hdither ▸ onCountOf_of_residue_le hd hj
  case off => exact fun hd hdither => hdither ▸ onCountOf_no_dither hd
  case dark => exact fun hdither h => hdither ▸ onCountOf_eq_zero h

end Sys2Proof.Machine

namespace Sys2Proof.Machine

/-! ## What one command can do

`Effect s t`: t is what some command of the block makes of s, with the guard under which it does so.
Every statement about all commands is a case split over these. -/

/-- What a command can make of the state. -/
inductive Effect (s : State) : State → Prop
  | idle : Effect s s
  | frame (kind body tail) : Effect s (s.passFrame kind body tail)
  | received (c) : Effect s (s.receive c)
  | transmit : Effect s s.transmit
  | sent : Effect s s.charSent
  | forwarded (rate) : Effect s (s.setPins { s.pins with rate := rate }).charSent
  | stalls : Effect s s.stall
  | bypassOpens : s.mc.mode.operating = true →
      Effect s (s.setLpu { s.lpu with bypass := false, rx := .hunting, tx := none, tracker := .idle })
  | receiver (rx timer) : Effect s (s.setLpu { s.lpu with rx := rx, stallTimer := timer })
  | ticks : s.fe.timebase = true → Effect s s.timebaseTick.reshape
  | lossExpires : s.ss.lossTimer = .running 0 → Effect s s.lossExpires
  | holdOffEnds : Effect s (s.setAl { s.al with holdOff := none })
  | forceEnds (ch : Nat) :
      Effect s (s.setOs { s.os with forces := s.os.forces.set ch .inactive }).reshape
  | quiet : s.mc.quietTimer = some 0 → Effect s s.enterQuiet
  | wakes : s.pwu.drivers = .powering → Effect s s.counterStart
  | wraps : s.pwu.running = true → Effect s s.wrapPeriod
  | phaseEnds (ch mv) : Effect s ((s.markEnd ch).evaluateChannel ch mv)
  | rotationDue : Effect s (s.setMon s.mon.rotationFallsDue)
  | temperature (raw) : Effect s (s.takeTemperature raw)
  | supply (raw) : Effect s (s.takeSupply raw)
  | aux (raw) : Effect s (s.takeAux raw)
  | written (p : Fin 23) : s.stc.activity = .running (.page p) →
      Effect s ((s.setStc { s.stc with
        pages := s.stc.pages.set p.val (.bytes (s.stc.pageBuffer.getD [])) }).pageEnded p)
  | storeFails (w cause) : s.stc.activity = .running w → Effect s (s.storeFails w cause)
  | erased : s.stc.activity = .running .erase →
      Effect s (s.setStc { s.stc with
        pages := List.replicate 23 blankPage
        lock := false
        shadow := List.replicate 16 invalidScene
        loadFaults := 0 }).endEntry
  | pinsMove (pins timing long) :
      Effect s { s with pins := pins, mc := { s.mc with timingLow := timing, longReached := long } }
  | longPulse : Effect s s.longPulse
  | released (rate us) : Effect s ((s.setPins { s.pins with rate := rate }).releaseRstn us)
  | pulseReleased (rate us) :
      Effect s ((s.setPins { s.pins with rate := rate }).longPulse.releaseRstn us)
  | supplyLost : Effect s
      ({ s with
          pins := { s.pins with vddOk := false }
          mc := { s.mc with timingLow := false, longReached := false } } : State).resetNode
  | supplyReached (rate) : Effect s
      ({ s with
          pins := { s.pins with vddOk := true, rate := rate }
          mc := { s.mc with timingLow := s.pins.rstnLow, longReached := false } } : State).leaveReset

/-- The outcome of a command is a next state with its effect. -/
def Completes (s : State) (o : Host.Outcome State Fault Refusal) : Prop :=
  ∃ t, o = .next t ∧ Effect s t

theorem completes_next {s t : State} (h : Effect s t) : Completes s (.next t) := ⟨t, rfl, h⟩

/-- A guarded command: its effect where the guard holds, else nothing. -/
theorem completes_ite {s t : State} {p : Prop} [Decidable p] (h : p → Effect s t) :
    Completes s (.next (if p then t else s)) := by
  split
  · next hp => exact completes_next (h hp)
  · exact completes_next .idle

theorem completes_frameForwarded (rate : BitVec 2) (s : State) :
    Completes s (execFrameForwarded rate s) := by
  unfold execFrameForwarded
  split
  · exact completes_next .idle
  · exact completes_ite fun _ => .forwarded rate

theorem completes_forceExpiry (ch : Fin 24) (s : State) : Completes s (execForceExpiry ch s) := by
  unfold execForceExpiry
  split
  · exact completes_next (.forceEnds ch.val)
  · exact completes_next .idle

theorem completes_pageWriteCompletion (late : Bool) (rb : ReadBack) (s : State) :
    Completes s (execPageWriteCompletion late rb s) := by
  unfold execPageWriteCompletion
  split
  · next p ha =>
    split
    · exact completes_next (.written p ha)
    · exact completes_next (.storeFails _ _ ha)
  · exact completes_next .idle

theorem completes_pageWriteTimeout (s : State) : Completes s (execPageWriteTimeout s) := by
  unfold execPageWriteTimeout
  split
  · next p ha => exact completes_next (.storeFails _ _ ha)
  · exact completes_next .idle

theorem completes_eraseCompletion (late : Bool) (s : State) :
    Completes s (execEraseCompletion late s) := by
  unfold execEraseCompletion
  split
  · next ha => exact completes_next (.erased ha)
  · exact completes_next .idle

theorem completes_eraseTimeout (s : State) : Completes s (execEraseTimeout s) := by
  unfold execEraseTimeout
  split
  · next ha => exact completes_next (.storeFails _ _ ha)
  · exact completes_next .idle

theorem completes_rstnFall (s : State) : Completes s (execRstnFall s) := by
  unfold execRstnFall
  split
  · exact completes_next .idle
  · exact completes_next (.pinsMove _ _ _)

theorem completes_rstnRise (us : Nat) (rate : BitVec 2) (s : State) :
    Completes s (execRstnRise us rate s) := by
  unfold execRstnRise
  refine completes_ite fun _ => ?_
  dsimp only
  split
  · exact .pulseReleased rate us
  · exact .released rate us

theorem completes_vddReachesThreshold (rate : BitVec 2) (s : State) :
    Completes s (execVddReachesThreshold rate s) := by
  unfold execVddReachesThreshold
  split
  · exact completes_next .idle
  · exact completes_next (.supplyReached rate)

/-- Every command completes, with one of the effects: the records and whole frames pass as frames. -/
theorem completes_exec (i : Instr) (s : State) : Completes s (exec i s) := by
  cases i with
  | characterReceived c => exact completes_next (.received c)
  | characterTransmit => exact completes_next .transmit
  | characterSent => exact completes_next .sent
  | frameForwarded rate => exact completes_frameForwarded rate s
  | stallTimeout => exact completes_next .stalls
  | bypassOpen => exact completes_ite fun h => .bypassOpens h.2
  | startBitConfirmed low => exact completes_ite fun _ => .receiver .sampling false
  | stopLevelRegained => exact completes_ite fun _ => .receiver .hunting s.lpu.stallTimer
  | tick => exact completes_ite .ticks
  | lossTimerExpiry => exact completes_ite .lossExpires
  | holdOffExpiry => exact completes_ite fun _ => .holdOffEnds
  | forceExpiry ch => exact completes_forceExpiry ch s
  | quietTimerExpiry => exact completes_ite .quiet
  | wakeComplete => exact completes_ite .wakes
  | periodStart => exact completes_ite .wraps
  | onPhaseEnd ch mv => exact completes_ite fun _ => .phaseEnds ch.val mv
  | rotationDue => exact completes_ite fun _ => .rotationDue
  | temperatureResult raw => exact completes_ite fun _ => .temperature raw
  | supplyResult raw => exact completes_ite fun _ => .supply raw
  | auxResult raw => exact completes_ite fun _ => .aux raw
  | pageWriteCompletion late rb => exact completes_pageWriteCompletion late rb s
  | pageWriteTimeout => exact completes_pageWriteTimeout s
  | eraseCompletion late => exact completes_eraseCompletion late s
  | eraseTimeout => exact completes_eraseTimeout s
  | rstnFall => exact completes_rstnFall s
  | rstnRise us rate => exact completes_rstnRise us rate s
  | rstnLongPulse => exact completes_next .longPulse
  | powerOn => exact completes_next .supplyLost
  | vddReachesThreshold rate => exact completes_vddReachesThreshold rate s
  | brownOut => exact completes_ite fun _ => .supplyLost
  | _ => exact completes_next (.frame _ _ _)

theorem effect_of_exec {i : Instr} {s t : State} (h : exec i s = .next t) : Effect s t := by
  obtain ⟨t', ht', he⟩ := completes_exec i s
  obtain rfl := Host.Outcome.next.inj (h.symm.trans ht')
  exact he

/-! ## Steps -/

theorem step_of_cons {s : State} {c : Instr} {rest : List Instr} (h : s.pending = c :: rest) :
    step s = exec c { s with pending := rest } := by
  rw [step, h]

theorem step_of_nil {s : State} (h : s.pending = []) : step s = .next s := by
  rw [step, h]

/-- What does not read the queue and is kept by every effect is kept by every step. -/
theorem step_keeps {P : State → Prop} (hq : ∀ s rest, P s → P { s with pending := rest })
    (he : ∀ s t, P s → Effect s t → P t) {s t : State} (hs : P s) (h : step s = .next t) : P t := by
  rcases hp : s.pending with _ | ⟨c, rest⟩
  · obtain rfl := Host.Outcome.next.inj ((step_of_nil hp).symm.trans h)
    exact hs
  · exact he _ _ (hq s rest hs) (effect_of_exec ((step_of_cons hp).symm.trans h))

/-- Settles O1. -/
theorem stepRunsTheFrontCommand : Obligations.StepRunsTheFrontCommand :=
  ⟨fun _ _ _ => step_of_cons rfl, fun _ => step_of_nil⟩

end Sys2Proof.Machine

namespace Sys2Proof.Machine

/-! ## The lengths of the lists (`WellShaped`) through every effect -/

theorem wellShaped_pending {s : State} (h : WellShaped s) (rest : List Instr) :
    WellShaped { s with pending := rest } :=
  wellShaped_of h rfl rfl rfl rfl rfl rfl rfl rfl rfl rfl rfl h.buffer

theorem wellShaped_timebaseTick {s : State} (h : WellShaped s) : WellShaped s.timebaseTick :=
  wellShaped_of h rfl rfl rfl (List.length_map _) rfl (List.length_map _) rfl rfl rfl rfl rfl
    h.buffer

theorem wellShaped_lossAction {s : State} (h : WellShaped s) : WellShaped s.lossAction := by
  have hblack : WellShaped ((List.range 24).foldl (fun s i => s.retarget i 0 s.node.lossFade)
      (s.setSs { s.ss with source := .lossBlack })) :=
    wellShaped_foldl _ (fun _ i hs => wellShaped_retarget hs i _ _) _ (wellShaped_setSs h _)
  unfold State.lossAction
  split
  · split
    · exact wellShaped_setSs h _
    · exact hblack
    · split
      · exact wellShaped_retargetAll (wellShaped_setSs h _) _ _
      · exact wellShaped_setSs h _
  all_goals exact h

theorem wellShaped_lossExpires {s : State} (h : WellShaped s) : WellShaped s.lossExpires :=
  wellShaped_reshape (wellShaped_lossAction (wellShaped_raise (wellShaped_setSs h _) _))

theorem wellShaped_forceEnds {s : State} (h : WellShaped s) (ch : Nat) :
    WellShaped (s.setOs { s.os with forces := s.os.forces.set ch .inactive }) :=
  wellShaped_setOs h _ (List.length_set.trans h.forces) h.duty h.tables h.points

theorem wellShaped_markEnd {s : State} (h : WellShaped s) (ch : Nat) : WellShaped (s.markEnd ch) :=
  wellShaped_setPwu h _ (List.length_set.trans h.channels)

theorem wellShaped_evaluateChannel {s : State} (h : WellShaped s) (ch mv : Nat) :
    WellShaped (s.evaluateChannel ch mv) := by
  unfold State.evaluateChannel
  split
  · exact wellShaped_evaluateShort (wellShaped_evaluateOpen h _ _) _ _
  · exact h

theorem wellShaped_stall {s : State} (h : WellShaped s) : WellShaped s.stall := by
  unfold State.stall
  split
  · split
    · exact wellShaped_endsEarly h _
    · exact h
  all_goals exact h

theorem wellShaped_takeAux {s : State} (h : WellShaped s) (raw : BitVec 12) :
    WellShaped (s.takeAux raw) := by
  unfold State.takeAux
  dsimp only
  split
  · exact wellShaped_completeStart (wellShaped_setMon (wellShaped_setMon h _) _)
  · exact wellShaped_setMon (wellShaped_setMon h _) _

/-- The page buffer holds 128 bytes while a page is written, and they become the page. -/
theorem wellShaped_written {s : State} (h : WellShaped s) {p : Fin 23}
    (hp : s.stc.activity = .running (.page p)) :
    WellShaped (s.setStc { s.stc with
      pages := s.stc.pages.set p.val (.bytes (s.stc.pageBuffer.getD [])) }) := by
  have hbytes : ∀ b, Page.bytes (s.stc.pageBuffer.getD []) = .bytes b → b.length = 128 := by
    rintro b ⟨⟩
    obtain ⟨image, himage⟩ := Option.ne_none_iff_exists'.mp (h.writing p hp)
    rw [himage]
    exact h.pageBuffer image himage
  have hs := wellShaped_store h
  exact wellShaped_setStc h _
    ⟨List.length_set.trans hs.pages, set_pageBytes hs.pageBytes _ _ hbytes, hs.pageBuffer,
      hs.writing, hs.snapshot, hs.shadow, hs.targets⟩

theorem wellShaped_erased {s : State} (h : WellShaped s)
    : WellShaped (s.setStc { s.stc with
        pages := List.replicate 23 blankPage
        lock := false
        shadow := List.replicate 16 invalidScene
        loadFaults := 0 }) := by
  have hs := wellShaped_store h
  refine wellShaped_setStc h _ ⟨rfl, ?_, hs.pageBuffer, hs.writing, hs.snapshot, rfl, ?_⟩
  · intro b hb
    obtain rfl : b = _ := Page.bytes.inj (List.eq_of_mem_replicate hb)
    rfl
  · intro r hr
    rw [List.eq_of_mem_replicate hr]
    rfl

theorem wellShaped_effect {s t : State} (h : WellShaped s) (he : Effect s t) : WellShaped t := by
  cases he with
  | idle => exact h
  | frame kind body tail => exact wellShaped_passFrame h kind body tail
  | received c => exact wellShaped_receive h c
  | transmit => exact wellShaped_transmit h
  | sent => exact wellShaped_charSent h
  | forwarded rate => exact wellShaped_charSent (wellShaped_setPins h _)
  | stalls => exact wellShaped_stall h
  | bypassOpens _ => exact wellShaped_setLpu h _ h.buffer
  | receiver rx timer => exact wellShaped_setLpu h _ h.buffer
  | ticks _ => exact wellShaped_reshape (wellShaped_timebaseTick h)
  | lossExpires _ => exact wellShaped_lossExpires h
  | holdOffEnds => exact wellShaped_setAl h _
  | forceEnds ch => exact wellShaped_reshape (wellShaped_forceEnds h ch)
  | quiet _ => exact wellShaped_enterQuiet h
  | wakes _ => exact wellShaped_counterStart h
  | wraps _ => exact wellShaped_beginPeriod h _
  | phaseEnds ch mv => exact wellShaped_evaluateChannel (wellShaped_markEnd h ch) ch mv
  | rotationDue => exact wellShaped_setMon h _
  | temperature raw =>
    exact wellShaped_evaluateThermal (wellShaped_reshape (wellShaped_setMon h _)) _
  | supply raw => exact wellShaped_evaluateSupply (wellShaped_setMon h _) _
  | aux raw => exact wellShaped_takeAux h raw
  | written p ha => exact wellShaped_pageEnded (wellShaped_written h ha) p
  | storeFails w cause _ => exact wellShaped_storeFails h w cause
  | erased _ => exact wellShaped_endEntry (wellShaped_erased h)
  | pinsMove _ _ _ => exact wellShaped_pinsMode h _ _
  | longPulse => exact wellShaped_longPulse h
  | released rate us => exact wellShaped_releaseRstn (wellShaped_setPins h _) us
  | pulseReleased rate us =>
    exact wellShaped_releaseRstn (wellShaped_longPulse (wellShaped_setPins h _)) us
  | supplyLost => exact wellShaped_resetNode (wellShaped_pinsMode h _ _)
  | supplyReached rate => exact wellShaped_leaveReset (wellShaped_pinsMode h _ _)

/-! ## The law of the store queue and of the frame in passage (`StoreLaw`) through every effect -/

theorem storeLaw_setPins {s : State} (h : StoreLaw s) (x : Pins) : StoreLaw (s.setPins x) :=
  storeLaw_of h rfl

theorem storeLaw_setMon {s : State} (h : StoreLaw s) (x : Monitor) : StoreLaw (s.setMon x) :=
  storeLaw_of h rfl

theorem storeLaw_pinsMode {s : State} (h : StoreLaw s) (p : Pins) (m : ModeController) :
    StoreLaw { s with pins := p, mc := m } :=
  storeLaw_of h rfl

/-- What the law reads of the Store Controller is its queue and what it does. -/
theorem storeLaw_setStc {s : State} (h : StoreLaw s) {x : Store} (hq : x.queue = s.stc.queue)
    (ha : x.activity = s.stc.activity) : StoreLaw (s.setStc x) :=
  storeLaw_keep h hq ha rfl

theorem storeLaw_takeAux {s : State} (h : StoreLaw s) (raw : BitVec 12) :
    StoreLaw (s.takeAux raw) := by
  refine storeLaw_of h ?_
  unfold State.takeAux
  dsimp only
  split
  · exact storeSide_completeStart _
  · rfl

theorem storeLaw_takeTemperature {s : State} (h : StoreLaw s) (raw : BitVec 12) :
    StoreLaw (s.takeTemperature raw) :=
  storeLaw_of h ((storeSide_evaluateThermal _ _).trans (storeSide_reshape _))

theorem storeLaw_effect {s t : State} (h : StoreLaw s) (he : Effect s t) : StoreLaw t := by
  cases he with
  | idle => exact h
  | frame kind body tail => exact storeLaw_passFrame h kind body tail
  | received c => exact storeLaw_receive h c
  | transmit => exact storeLaw_transmit h
  | sent => exact storeLaw_charSent h
  | forwarded rate => exact storeLaw_charSent (storeLaw_setPins h _)
  | stalls => exact storeLaw_stall h
  | bypassOpens _ => exact storeLaw_of h rfl
  | receiver rx timer => exact storeLaw_of h rfl
  | ticks _ => exact storeLaw_of h (storeSide_reshape _)
  | lossExpires _ => exact storeLaw_of h (storeSide_lossExpires s)
  | holdOffEnds => exact storeLaw_of h rfl
  | forceEnds ch => exact storeLaw_of h (storeSide_reshape _)
  | quiet _ => exact storeLaw_of h (storeSide_enterMode _ _)
  | wakes _ => exact storeLaw_of h rfl
  | wraps _ => exact storeLaw_of h rfl
  | phaseEnds ch mv => exact storeLaw_of h (storeSide_evaluateChannel _ ch mv)
  | rotationDue => exact storeLaw_of h rfl
  | temperature raw => exact storeLaw_takeTemperature h raw
  | supply raw => exact storeLaw_evaluateSupply (storeLaw_setMon h _) _
  | aux raw => exact storeLaw_takeAux h raw
  | written p ha =>
    have hqueue : s.stc.queue ≠ [] := h.busy (by rw [ha]; simp)
    refine storeLaw_pageEnded (storeLaw_setStc h ?_ ?_) p hqueue <;> rfl
  | storeFails w cause _ => exact storeLaw_storeFails h w cause
  | erased _ => refine storeLaw_endEntry (storeLaw_setStc h ?_ ?_) <;> rfl
  | pinsMove _ _ _ => exact storeLaw_of h rfl
  | longPulse => exact storeLaw_longPulse h
  | released rate us => exact storeLaw_releaseRstn (storeLaw_setPins h _) us
  | pulseReleased rate us =>
    exact storeLaw_releaseRstn (storeLaw_longPulse (storeLaw_setPins h _)) us
  | supplyLost => exact storeLaw_resetNode _
  | supplyReached rate => exact storeLaw_leaveReset (storeLaw_pinsMode h _ _)

/-- Settles O60: the lengths and the two laws of the store go through every effect. -/
theorem everyStepKeepsTheShapes : Obligations.EveryStepKeepsTheShapes := by
  refine ⟨fun s t hs h => ?shapes, fun s t hq hf h => ?laws⟩
  case shapes =>
    exact step_keeps (fun _ rest h => wellShaped_pending h rest) (fun _ _ => wellShaped_effect) hs h
  case laws =>
    obtain ⟨hqueue, hframe⟩ := step_keeps (P := StoreLaw) (fun _ _ h => storeLaw_of h rfl)
      (fun _ _ => storeLaw_effect) ⟨hq, hf⟩ h
    exact ⟨hqueue, hframe⟩

/-! ## The node invariant (`NodeInv`) through every effect -/

theorem nodeInv_pending {s : State} (h : NodeInv s) (rest : List Instr) :
    NodeInv { s with pending := rest } :=
  nodeInv_same h rfl rfl rfl rfl (.inr ⟨rfl, rfl, rfl, rfl⟩) rfl rfl rfl rfl rfl

/-- The timers that run stand in an operating mode: in RESET and START they are held. -/
theorem NodeInv.operating_of_quietTimer {s : State} (h : NodeInv s) {n : Nat}
    (hq : s.mc.quietTimer = some n) : s.mc.mode.operating = true := by
  by_contra ho
  rw [(h.held (Bool.eq_false_of_not_eq_true ho)).quietTimer] at hq
  cases hq

theorem NodeInv.operating_of_lossTimer {s : State} (h : NodeInv s) {n : Nat}
    (hl : s.ss.lossTimer = .running n) : s.mc.mode.operating = true := by
  by_contra ho
  rw [(h.held (Bool.eq_false_of_not_eq_true ho)).lossTimer] at hl
  cases hl

theorem operatingInv_lossAction {s : State} (h : OperatingInv s)
    (hl : ∀ n, s.ss.lossTimer ≠ .running n) : OperatingInv s.lossAction := by
  have hsource : ∀ src, OperatingInv (s.setSs { s.ss with source := src }) :=
    fun src => operatingInv_setSs h _ fun _ => hl
  unfold State.lossAction
  split
  · split
    · exact hsource _
    · exact foldl_preserves (P := OperatingInv) (fun s i => s.retarget i 0 s.node.lossFade)
        (fun s i hs => operatingInv_retarget hs i 0 s.node.lossFade) _ (hsource _)
    · split
      · exact operatingInv_retargetAll (hsource _) _ _
      · exact hsource _
  all_goals exact h

theorem operatingInv_raise {s : State} (h : OperatingInv s) (r : Reason) :
    OperatingInv (s.raise r) :=
  operatingInv_same h rfl rfl rfl rfl rfl rfl rfl rfl

theorem nodeInv_lossExpires {s : State} (h : NodeInv s) (hl : s.ss.lossTimer = .running 0) :
    NodeInv s.lossExpires := by
  have hop := h.operating (h.operating_of_lossTimer hl)
  have hexpired : OperatingInv (s.setSs { s.ss with lossTimer := .expired, live := false }) :=
    operatingInv_setSs hop _ fun _ _ => nofun
  have hraised := operatingInv_raise hexpired .loss
  exact (operatingInv_reshape (operatingInv_lossAction hraised fun _ => nofun)).nodeInv

theorem nodeInv_bypassOpens {s : State} (h : NodeInv s) (ho : s.mc.mode.operating = true)
    (l : Lpu) : NodeInv (s.setLpu l) :=
  (operatingInv_setLpu (h.operating ho) l).nodeInv

/-- While the counter starts from a wake the node is in an operating mode other than QUIET. -/
theorem nodeInv_wakes {s : State} (h : NodeInv s) (hd : s.pwu.drivers = .powering) :
    NodeInv s.counterStart := by
  have ho : s.mc.mode.operating = true := by
    by_contra ho
    rw [h.counter.held (Bool.eq_false_of_not_eq_true ho)] at hd
    cases hd
  have hq : s.mc.mode ≠ .quiet := fun hq => by
    rw [h.counter.down.mpr hq] at hd
    cases hd
  exact (operatingInv_counterStart ho hq h.blocks h.ceiling h.fades h.loss).nodeInv

theorem nodeInv_wraps {s : State} (h : NodeInv s) (hr : s.pwu.running = true) :
    NodeInv s.wrapPeriod :=
  (operatingInv_beginPeriod (h.operating (h.counter.running.mp hr).1) _).nodeInv

theorem nodeInv_evaluateChannel {s : State} (h : NodeInv s) (ch mv : Nat) :
    NodeInv (s.evaluateChannel ch mv) := by
  unfold State.evaluateChannel
  split
  · exact nodeInv_evaluateShort (nodeInv_evaluateOpen h _ _) _ _
  · exact h

theorem nodeInv_stall {s : State} (h : NodeInv s) : NodeInv s.stall := by
  unfold State.stall
  split
  · next hf =>
    split
    · have ho : s.mc.mode.operating = true := by
        by_contra ho
        rw [(h.held (Bool.eq_false_of_not_eq_true ho)).tracker] at hf
        cases hf
      exact (operatingInv_endsEarly (h.operating ho) _).nodeInv
    · exact h
  all_goals exact h

theorem endRotation_keeps (m : Monitor) :
    m.endRotation.ceiling = m.ceiling ∧ m.endRotation.thermal = m.thermal := by
  unfold Monitor.endRotation
  dsimp only
  split <;> exact ⟨rfl, rfl⟩

theorem nodeInv_takeAux {s : State} (h : NodeInv s) (raw : BitVec 12) : NodeInv (s.takeAux raw) := by
  have hread : NodeInv (s.setMon { s.mon with aux := raw }) := nodeInv_setMon h _ rfl rfl
  obtain ⟨hceiling, hthermal⟩ := endRotation_keeps (s.setMon { s.mon with aux := raw }).mon
  have hended := nodeInv_setMon hread _ hceiling hthermal
  unfold State.takeAux
  dsimp only
  split
  · next hm => exact nodeInv_completeStart hended hm
  · exact hended

theorem nodeInv_evaluateSupply {s : State} (h : NodeInv s) (mv : Nat) :
    NodeInv (s.evaluateSupply mv) := by
  unfold State.evaluateSupply
  split
  · split
    · refine nodeInv_setAl (nodeInv_setMon h _ ?_ ?_) _ <;> rfl
    · exact h
  · split
    · have hnormal : NodeInv (s.setMon { s.mon with supplyState := .normal }) :=
        nodeInv_setMon h _ rfl rfl
      unfold State.preUvEnded
      split
      · exact nodeInv_startWork hnormal _
      all_goals exact hnormal
    · exact h

theorem nodeInv_takeSupply {s : State} (h : NodeInv s) (raw : BitVec 12) :
    NodeInv (s.takeSupply raw) := by
  refine nodeInv_evaluateSupply (nodeInv_setMon h _ ?_ ?_) _ <;> rfl

theorem nodeInv_pageEnded {s : State} (h : NodeInv s) (p : Fin 23) : NodeInv (s.pageEnded p) := by
  unfold State.pageEnded
  split
  · exact nodeInv_startWork h _
  · exact nodeInv_endEntry h

theorem nodeInv_setPins {s : State} (h : NodeInv s) (x : Pins) : NodeInv (s.setPins x) :=
  nodeInv_pinsMode h x s.mc rfl rfl

theorem nodeInv_effect {s t : State} (h : NodeInv s) (he : Effect s t) : NodeInv t := by
  cases he with
  | idle => exact h
  | frame kind body tail => exact nodeInv_passFrame h kind body tail
  | received c => exact nodeInv_receive h c
  | transmit => exact nodeInv_transmit h
  | sent => exact nodeInv_charSent h
  | forwarded rate => exact nodeInv_charSent (nodeInv_setPins h _)
  | stalls => exact nodeInv_stall h
  | bypassOpens ho => exact nodeInv_bypassOpens h ho _
  | receiver rx timer =>
    exact nodeInv_same h rfl rfl rfl rfl (.inr ⟨rfl, rfl, rfl, rfl⟩) rfl rfl rfl rfl rfl
  | ticks ht => exact nodeInv_reshape (nodeInv_timebaseTick h ht)
  | lossExpires hl => exact nodeInv_lossExpires h hl
  | holdOffEnds => exact nodeInv_setAl h _
  | forceEnds ch => exact nodeInv_reshape (nodeInv_setOs h _)
  | quiet hq =>
    exact (operatingInv_enterQuiet (h.operating (h.operating_of_quietTimer hq))).nodeInv
  | wakes hd => exact nodeInv_wakes h hd
  | wraps hr => exact nodeInv_wraps h hr
  | phaseEnds ch mv => exact nodeInv_evaluateChannel (nodeInv_markEnd h ch) ch mv
  | rotationDue =>
    obtain ⟨hceiling, hthermal⟩ := rotationFallsDue_keeps s.mon
    exact nodeInv_setMon h _ hceiling hthermal
  | temperature raw => exact nodeInv_takeTemperature h raw
  | supply raw => exact nodeInv_takeSupply h raw
  | aux raw => exact nodeInv_takeAux h raw
  | written p _ => exact nodeInv_pageEnded (nodeInv_setStc h _) p
  | storeFails w cause _ => exact nodeInv_storeFails h w cause
  | erased _ => exact nodeInv_endEntry (nodeInv_setStc h _)
  | pinsMove _ _ _ => exact nodeInv_pinsMode h _ _ rfl rfl
  | longPulse => exact nodeInv_longPulse h
  | released rate us => exact nodeInv_releaseRstn (nodeInv_setPins h _) us
  | pulseReleased rate us =>
    exact nodeInv_releaseRstn (nodeInv_longPulse (nodeInv_setPins h _)) us
  | supplyLost => exact nodeInv_resetNode _
  | supplyReached rate => exact nodeInv_leaveReset (nodeInv_pinsMode h _ _ rfl rfl)

/-- Settles O58: the node invariant goes through every effect. -/
theorem everyStepKeepsTheNodeInvariant : Obligations.EveryStepKeepsTheNodeInvariant :=
  fun _ _ hs h => step_keeps (fun _ rest h => nodeInv_pending h rest)
    (fun _ _ => nodeInv_effect) hs h

/-! ## Every duty16 the one its inputs give (`DutiesCurrent`) through every effect -/

theorem dutiesCurrent_setPwu {s : State} (h : DutiesCurrent s) (x : Pwu) :
    DutiesCurrent (s.setPwu x) :=
  dutiesCurrent_of h rfl rfl rfl rfl rfl rfl

theorem dutiesCurrent_setStc {s : State} (h : DutiesCurrent s) (x : Store) :
    DutiesCurrent (s.setStc x) :=
  dutiesCurrent_of h rfl rfl rfl rfl rfl rfl

theorem dutiesCurrent_setPins {s : State} (h : DutiesCurrent s) (x : Pins) :
    DutiesCurrent (s.setPins x) :=
  dutiesCurrent_of h rfl rfl rfl rfl rfl rfl

theorem dutiesCurrent_pinsMode {s : State} (h : DutiesCurrent s) (p : Pins) (m : ModeController)
    (hm : m.mode = s.mc.mode) : DutiesCurrent { s with pins := p, mc := m } :=
  dutiesCurrent_of h rfl rfl rfl rfl rfl hm

theorem dutiesCurrent_enterQuiet {s : State} (h : DutiesCurrent s)
    (ho : s.mc.mode.operating = true) : DutiesCurrent s.enterQuiet := by
  have hstopped :=
    dutiesCurrent_setPwu h { s.pwu with running := false, count := 0, drivers := .down }
  exact dutiesCurrent_enterMode hstopped ho .quiet

theorem dutiesCurrent_setMon {s : State} (h : DutiesCurrent s) (m : Monitor)
    (hc : m.ceiling = s.mon.ceiling) : DutiesCurrent (s.setMon m) :=
  dutiesCurrent_of h rfl rfl rfl rfl hc rfl

theorem dutiesCurrent_evaluateChannel {s : State} (h : DutiesCurrent s) (ch mv : Nat) :
    DutiesCurrent (s.evaluateChannel ch mv) := by
  unfold State.evaluateChannel
  split
  · have hopen : ∀ b, DutiesCurrent (s.evaluateOpen ch b) := fun b => by
      rw [evaluateOpen_eq]
      exact dutiesCurrent_of h rfl rfl rfl rfl rfl rfl
    rw [evaluateShort_eq]
    exact dutiesCurrent_of (hopen _) rfl rfl rfl rfl rfl rfl
  · exact h

theorem dutiesCurrent_stall {s : State} (h : DutiesCurrent s) : DutiesCurrent s.stall := by
  unfold State.stall
  split
  · split
    · exact dutiesCurrent_endsEarly h _
    · exact h
  all_goals exact h

theorem dutiesCurrent_evaluateSupply {s : State} (h : DutiesCurrent s) (mv : Nat) :
    DutiesCurrent (s.evaluateSupply mv) := by
  unfold State.evaluateSupply
  split
  · split
    · exact dutiesCurrent_of h rfl rfl rfl rfl rfl rfl
    · exact h
  · split
    · have hnormal := dutiesCurrent_setMon h { s.mon with supplyState := .normal } rfl
      unfold State.preUvEnded
      split
      · exact dutiesCurrent_startWork hnormal _
      all_goals exact hnormal
    · exact h

theorem dutiesCurrent_takeAux {s : State} (h : DutiesCurrent s) (raw : BitVec 12) :
    DutiesCurrent (s.takeAux raw) := by
  have hread := dutiesCurrent_setMon h { s.mon with aux := raw } rfl
  have hended := dutiesCurrent_setMon hread _ (endRotation_keeps _).1
  unfold State.takeAux
  dsimp only
  split
  · next hm => exact dutiesCurrent_completeStart _ hm
  · exact hended

theorem dutiesCurrent_pageEnded {s : State} (h : DutiesCurrent s) (p : Fin 23) :
    DutiesCurrent (s.pageEnded p) := by
  unfold State.pageEnded
  split
  · exact dutiesCurrent_startWork h _
  · exact dutiesCurrent_endEntry h

theorem dutiesCurrent_effect {s t : State} (hn : NodeInv s) (h : DutiesCurrent s)
    (he : Effect s t) : DutiesCurrent t := by
  cases he with
  | idle => exact h
  | frame kind body tail => exact dutiesCurrent_passFrame h kind body tail
  | received c => exact dutiesCurrent_receive h c
  | transmit => exact dutiesCurrent_transmit h
  | sent => exact dutiesCurrent_charSent h
  | forwarded rate => exact dutiesCurrent_charSent (dutiesCurrent_setPins h _)
  | stalls => exact dutiesCurrent_stall h
  | bypassOpens _ => exact dutiesCurrent_setLpu h _
  | receiver rx timer => exact dutiesCurrent_setLpu h _
  | ticks _ => exact dutiesCurrent_reshape _
  | lossExpires _ => exact dutiesCurrent_reshape _
  | holdOffEnds => exact dutiesCurrent_of h rfl rfl rfl rfl rfl rfl
  | forceEnds ch => exact dutiesCurrent_reshape _
  | quiet hq => exact dutiesCurrent_enterQuiet h (hn.operating_of_quietTimer hq)
  | wakes _ => exact dutiesCurrent_counterStart h
  | wraps _ => exact dutiesCurrent_of h rfl rfl rfl rfl rfl rfl
  | phaseEnds ch mv =>
    exact dutiesCurrent_evaluateChannel (dutiesCurrent_setPwu h _) ch mv
  | rotationDue => exact dutiesCurrent_setMon h _ (rotationFallsDue_keeps s.mon).1
  | temperature raw => exact dutiesCurrent_evaluateThermal (dutiesCurrent_reshape _) _
  | supply raw =>
    refine dutiesCurrent_evaluateSupply (dutiesCurrent_setMon h _ ?_) _
    rfl
  | aux raw => exact dutiesCurrent_takeAux h raw
  | written p _ => exact dutiesCurrent_pageEnded (dutiesCurrent_setStc h _) p
  | storeFails w cause _ => exact dutiesCurrent_storeFails h w cause
  | erased _ => exact dutiesCurrent_endEntry (dutiesCurrent_setStc h _)
  | pinsMove _ _ _ => exact dutiesCurrent_of h rfl rfl rfl rfl rfl rfl
  | longPulse => exact dutiesCurrent_longPulse h
  | released rate us => exact dutiesCurrent_releaseRstn (dutiesCurrent_setPins h _) us
  | pulseReleased rate us =>
    exact dutiesCurrent_releaseRstn (dutiesCurrent_longPulse (dutiesCurrent_setPins h _)) us
  | supplyLost => exact dutiesCurrent_resetNode _
  | supplyReached rate => exact dutiesCurrent_leaveReset (dutiesCurrent_pinsMode h _ _ rfl)

/-- Settles O59: every effect keeps the duties current, with the node invariant beside it. -/
theorem everyStepKeepsTheDutiesCurrent : Obligations.EveryStepKeepsTheDutiesCurrent := by
  intro s t hn hd h
  obtain ⟨_, hduties⟩ := step_keeps (P := fun s => NodeInv s ∧ DutiesCurrent s)
    (fun _ rest h => ⟨nodeInv_pending h.1 rest, dutiesCurrent_of h.2 rfl rfl rfl rfl rfl rfl⟩)
    (fun _ _ h he => ⟨nodeInv_effect h.1 he, dutiesCurrent_effect h.1 h.2 he⟩) ⟨hn, hd⟩ h
  exact hduties

end Sys2Proof.Machine

namespace Sys2Proof.Machine

/-! ## The queue of waiting commands through every operation -/

variable (s : State)

@[simp] theorem retargetAll_pending (targets : List Word) (code : Byte) :
    (s.retargetAll targets code).pending = s.pending :=
  foldl_keeps (fun s i => s.retarget i (targets.getD i 0) code) State.pending (fun _ _ => rfl) _ s

@[simp] theorem retargetItems_pending (items : List Item) :
    (s.retargetItems items).pending = s.pending :=
  foldl_keeps (fun s (i : Item) => s.retarget i.place i.value i.code) State.pending (fun _ _ => rfl) _ s

@[simp] theorem retargetPark_pending (code : Byte) : (s.retargetPark code).pending = s.pending := by
  rw [retargetPark_eq, retargetEach_only]

@[simp] theorem quietReview_pending : s.quietReview.pending = s.pending := by rw [quietReview_eq]

@[simp] theorem leaveQuiet_pending : s.leaveQuiet.pending = s.pending := by rw [leaveQuiet_eq]

@[simp] theorem enterMode_pending (m : Mode) : (s.enterMode m).pending = s.pending := by
  unfold State.enterMode
  dsimp only
  rw [quietReview_pending]
  split
  · exact leaveQuiet_pending _
  · rfl

@[simp] theorem reshape_pending : s.reshape.pending = s.pending := by
  unfold State.reshape State.dutiesHandedOn
  split
  · split
    · exact enterMode_pending _ _
    · exact quietReview_pending _
  · rfl

@[simp] theorem startWork_pending (w : StoreWork) : (s.startWork w).pending = s.pending := by
  rw [startWork_fields]

@[simp] theorem startHead_pending : s.startHead.pending = s.pending := by rw [startHead_fields]

@[simp] theorem endEntry_pending : s.endEntry.pending = s.pending := by rw [endEntry_fields]

@[simp] theorem pageEnded_pending (p : Fin 23) : (s.pageEnded p).pending = s.pending := by
  unfold State.pageEnded
  split
  · exact startWork_pending _ _
  · exact endEntry_pending _

@[simp] theorem storeFails_pending (w : StoreWork) (cause : FailureCause) :
    (s.storeFails w cause).pending = s.pending := by
  unfold State.storeFails
  dsimp only
  rw [endEntry_pending]
  cases w <;> rfl

/-! ### Commits -/

theorem commitWritePatch_pending (first : Nat) (es : List PatchEntry) :
    (s.commitWritePatch first es).pending = s.pending := by
  rw [commitWritePatch_eq]

theorem commitWriteNode_pending (w : NodeWrite) : (s.commitWriteNode w).pending = s.pending :=
  quietReview_pending _

theorem recall_pending (n : Fin 16) (fade : Option Byte) :
    (s.recall n fade).pending = s.pending := by
  unfold State.recall
  dsimp only
  split
  · exact retargetAll_pending _ _ _
  · rfl

theorem commitSaveConfig_pending (how : Admission) :
    (s.commitSaveConfig how).pending = s.pending := by
  cases how with
  | coalesce =>
    unfold State.commitSaveConfig
    dsimp only
    split
    · rfl
    · split <;> rfl
  | _ => rfl

theorem commitCapture_pending (n : Fin 16) (fade : Byte) (how : Admission) :
    (s.commitCapture n fade how).pending = s.pending := by
  cases how with
  | coalesce =>
    unfold State.commitCapture
    dsimp only
    split
    · rfl
    · split <;> rfl
  | _ => rfl

theorem commitStandby_pending : s.commitStandby.pending = s.pending := by
  unfold State.commitStandby
  split
  · exact enterMode_pending _ _
  · exact enterMode_pending _ _
  all_goals rfl

theorem commitWake_pending : s.commitWake.pending = s.pending := by
  unfold State.commitWake
  split
  · exact enterMode_pending _ _
  all_goals rfl

theorem apply_pending (e : Staged) : (s.apply e).pending = s.pending := by
  cases e with
  | writePatch first es => exact commitWritePatch_pending s first es
  | writeNode w => exact commitWriteNode_pending s w
  | recallScene n fade => exact recall_pending s n fade
  | capture n fade how => exact commitCapture_pending s n fade how
  | saveConfig how => exact commitSaveConfig_pending s how
  | setLock how => cases how <;> rfl
  | standby => exact commitStandby_pending s
  | wake => exact commitWake_pending s
  | enumerate v => cases v <;> rfl
  | _ => rfl

@[simp] theorem commitAll_pending (l : List Staged) : (s.commitAll l).pending = s.pending := by
  have happlied : (l.foldl State.apply s).pending = s.pending :=
    foldl_keeps State.apply State.pending apply_pending l s
  have hshaped : (if l.any Staged.shapes then (l.foldl State.apply s).reshape
      else l.foldl State.apply s).pending = s.pending := by
    split
    · rw [reshape_pending, happlied]
    · exact happlied
  unfold State.commitAll
  dsimp only
  split
  · rw [startHead_pending, hshaped]
  · exact hshaped

/-! ### Level frames and the loss timer -/

theorem toStream_pending (items : List Item) (code : Byte) :
    (s.toStream items code).pending = s.pending := by
  unfold State.toStream
  rw [retargetItems_pending, retargetPark_pending, State.setSs_pending]

theorem takeCapturedSet_pending (items : List Item) (code : Byte) (seize : Bool) :
    (s.takeCapturedSet items code seize).pending = s.pending := by
  unfold State.takeCapturedSet
  split
  · rfl
  · dsimp only
    split
    · exact retargetItems_pending _ _
    · split
      · exact toStream_pending _ _ _
      · rfl
    all_goals exact toStream_pending _ _ _

@[simp] theorem handOver_pending : s.handOver.pending = s.pending := by
  unfold State.handOver
  split
  · rfl
  · rw [reshape_pending, takeCapturedSet_pending]

theorem lossAction_pending : s.lossAction.pending = s.pending := by
  unfold State.lossAction
  split
  · split
    · rfl
    · exact foldl_keeps (fun s i => s.retarget i 0 s.node.lossFade) State.pending
        (fun _ _ => rfl) _ _
    · split
      · exact retargetAll_pending _ _ _
      · rfl
  all_goals rfl

theorem lossExpires_pending : s.lossExpires.pending = s.pending := by
  unfold State.lossExpires
  rw [reshape_pending, lossAction_pending]
  rfl

/-! ### Resets, START and the pins -/

theorem loadStore_pending : s.loadStore.pending = s.pending := by
  unfold State.loadStore
  exact retargetPark_pending _ _

theorem nodeReset_pending : s.nodeReset.pending = s.pending := by
  unfold State.nodeReset
  dsimp only
  rw [cutOffStore_fields]

theorem leaveReset_pending : s.leaveReset.pending = s.pending := by
  unfold State.leaveReset State.enterStart
  split
  · dsimp only
    rw [State.setMon_pending, loadStore_pending]
    rfl
  · rfl

@[simp] theorem resetNode_pending : s.resetNode.pending = s.pending :=
  (leaveReset_pending _).trans (nodeReset_pending s)

theorem completeStart_pending : s.completeStart.pending = s.pending := by
  have hbegun : s.blocksBegun.pending = s.pending := by
    unfold State.blocksBegun
    dsimp only
    split <;> rfl
  have hcounter : ∀ x : State, x.counterStart.pending = x.pending := fun _ => rfl
  rw [completeStart_eq, hcounter, enterMode_pending]
  exact hbegun

theorem linkReset_pending : s.linkReset.pending = s.pending := by
  unfold State.linkReset
  dsimp only
  split
  · exact resetNode_pending _
  · rfl

theorem longPulse_pending : s.longPulse.pending = s.pending := by
  unfold State.longPulse
  dsimp only
  split
  · split
    · rfl
    · rw [resetNode_pending, State.setMc_pending]
  · rfl

theorem releaseRstn_pending (us : Nat) : (s.releaseRstn us).pending = s.pending := by
  unfold State.releaseRstn
  dsimp only
  split
  · split
    · exact linkReset_pending _
    · rfl
  · exact leaveReset_pending _

/-! ### Monitoring -/

theorem evaluateThermal_pending (t : Int) : (s.evaluateThermal t).pending = s.pending := by
  have hrequest : ∀ x : State, x.requestHot.pending = x.pending := fun x => by
    unfold State.requestHot
    split
    iterate 3 exact enterMode_pending _ _
    all_goals rfl
  have hend : ∀ x : State, x.endHot.pending = x.pending := fun x => by
    unfold State.endHot
    split
    · exact enterMode_pending _ _
    · rfl
  unfold State.evaluateThermal
  dsimp only
  generalize s.mon.thermal.after s.mon.ceiling t = new
  have hraised : (if s.mon.thermal.raises new then
      (s.setMon { s.mon with thermal := new }).raise .thermal
      else s.setMon { s.mon with thermal := new }).pending = s.pending := by
    split <;> rfl
  split
  · rw [hrequest, hraised]
  · split
    · rw [hend, hraised]
    · exact hraised

theorem takeTemperature_pending (raw : BitVec 12) :
    (s.takeTemperature raw).pending = s.pending :=
  (evaluateThermal_pending _ _).trans (reshape_pending _)

theorem evaluateSupply_pending (mv : Nat) : (s.evaluateSupply mv).pending = s.pending := by
  unfold State.evaluateSupply State.preUvEnded
  split
  · split <;> rfl
  · split
    · split
      · exact startWork_pending _ _
      all_goals rfl
    · rfl

theorem takeSupply_pending (raw : BitVec 12) : (s.takeSupply raw).pending = s.pending :=
  evaluateSupply_pending _ _

theorem takeAux_pending (raw : BitVec 12) : (s.takeAux raw).pending = s.pending := by
  unfold State.takeAux
  dsimp only
  split
  · exact completeStart_pending _
  · rfl

theorem evaluateChannel_pending (ch mv : Nat) : (s.evaluateChannel ch mv).pending = s.pending := by
  unfold State.evaluateChannel
  split
  · rw [evaluateShort_eq, evaluateOpen_eq]
  · rfl

/-! ### Characters and frames -/

@[simp] theorem frameEnds_pending (o : FrameOutcome) : (s.frameEnds o).pending = s.pending := by
  unfold State.frameEnds
  dsimp only
  split
  · exact (commitAll_pending _ _).trans (handOver_pending s)
  · rfl

theorem endsEarly_pending (o : FrameOutcome) : (s.endsEarly o).pending = s.pending :=
  frameEnds_pending _ o

theorem bodyEnds_pending (f : FrameCtx) : (s.bodyEnds f).1.pending = s.pending := by
  unfold State.bodyEnds
  split
  · rfl
  · split
    · split <;> rfl
    · split
      · split <;> rfl
      · rfl

theorem consume_pending (f : FrameCtx) (data : Byte) : (s.consume f data).1.pending = s.pending := by
  unfold State.consume
  split
  · rfl
  · split
    · split <;> rfl
    · split
      · split <;> rfl
      · rfl

theorem takeHead_pending (f : FrameCtx) (data : Byte) (full : Bool) :
    (s.takeHead f data full).pending = s.pending := by
  unfold State.takeHead
  dsimp only
  split
  · rfl
  · split
    · exact endsEarly_pending _ _
    · split
      · exact bodyEnds_pending _ _
      · rfl

theorem takeBody_pending (f : FrameCtx) (data : Byte) (full : Bool) :
    (s.takeBody f data full).pending = s.pending := by
  unfold State.takeBody
  dsimp only
  split
  · exact (bodyEnds_pending _ _).trans (consume_pending _ _ _)
  · exact consume_pending _ _ _

theorem takeTrail_pending (f : FrameCtx) (data : Byte) (full : Bool) :
    (s.takeTrail f data full).pending = s.pending := by
  unfold State.takeTrail State.takeAttention
  split
  · dsimp only
    split <;> rfl
  · split
    · rfl
    · exact frameEnds_pending _ _

theorem takeOpener_pending (data : Byte) (err full : Bool) :
    (s.takeOpener data err full).pending = s.pending := by
  unfold State.takeOpener
  dsimp only
  split
  · exact endsEarly_pending _ _
  all_goals rfl

theorem receive_pending (c : LineChar) : (s.receive c).pending = s.pending := by
  unfold State.receive State.takeChar State.takeFrameChar
  split
  · rfl
  · split
    · rfl
    · dsimp only
      split
      · exact takeOpener_pending _ _ _ _
      · split
        · rfl
        · rfl
        · split
          · exact takeHead_pending _ _ _ _
          · exact takeBody_pending _ _ _ _
          · exact takeTrail_pending _ _ _ _

theorem transmit_pending : s.transmit.pending = s.pending := by
  unfold State.transmit
  split
  · split <;> rfl
  · rfl

theorem charSent_pending : s.charSent.pending = s.pending := by
  unfold State.charSent State.frameForwarded
  split
  · rfl
  · split
    · exact resetNode_pending _
    · rfl

theorem keepPaceN_pending (n : Nat) : (s.keepPaceN n).pending = s.pending := by
  induction n generalizing s with
  | zero => rfl
  | succ n ih => exact (ih _).trans ((charSent_pending _).trans (transmit_pending s))

theorem pass_pending (c : LineChar) : (s.pass c).pending = s.pending :=
  (receive_pending _ c).trans ((keepPaceN_pending _ _).trans (charSent_pending s))

theorem passFrame_pending (kind : Byte) (body : List Byte) (tail : FrameTail) :
    (s.passFrame kind body tail).pending = s.pending :=
  foldl_keeps State.pass State.pending pass_pending _ s

theorem stall_pending : s.stall.pending = s.pending := by
  unfold State.stall
  split
  · split
    · exact endsEarly_pending _ _
    · rfl
  all_goals rfl

theorem effect_pending {s t : State} (h : Effect s t) : t.pending = s.pending := by
  cases h with
  | frame kind body tail => exact passFrame_pending s kind body tail
  | received c => exact receive_pending s c
  | transmit => exact transmit_pending s
  | sent => exact charSent_pending s
  | forwarded rate => exact charSent_pending _
  | stalls => exact stall_pending s
  | ticks _ => exact reshape_pending _
  | lossExpires _ => exact lossExpires_pending s
  | forceEnds ch => exact reshape_pending _
  | quiet _ => exact enterMode_pending _ _
  | phaseEnds ch mv => exact evaluateChannel_pending _ ch mv
  | temperature raw => exact takeTemperature_pending s raw
  | supply raw => exact takeSupply_pending s raw
  | aux raw => exact takeAux_pending s raw
  | written p _ => exact pageEnded_pending _ p
  | storeFails w cause _ => exact storeFails_pending s w cause
  | erased _ => exact endEntry_pending _
  | longPulse => exact longPulse_pending s
  | released rate us => exact releaseRstn_pending _ us
  | pulseReleased rate us => exact (releaseRstn_pending _ us).trans (longPulse_pending _)
  | supplyLost => exact resetNode_pending _
  | supplyReached rate => exact leaveReset_pending _
  | _ => rfl

/-- Settles O2: every command has an effect, and no effect touches the queue. -/
theorem everyCommandCompletesAndKeepsTheQueue :
    Obligations.EveryCommandCompletesAndKeepsTheQueue := by
  intro i s
  obtain ⟨t, ht, he⟩ := completes_exec i s
  exact ⟨t, ht, effect_pending he⟩

end Sys2Proof.Machine

namespace Sys2Proof.Machine

/-! ## Characters and counters (R1, R2, R19) -/

/-- A fold of exclusive ors holds whether the count of ones is odd. -/
theorem foldl_xor_eq_odd (f : Nat → Bool) (l : List Nat) (b : Bool) :
    l.foldl (fun acc k => acc ^^ f k) b = decide ((l.countP f + b.toNat) % 2 = 1) := by
  induction l generalizing b with
  | nil => cases b <;> rfl
  | cons k l ih =>
    rw [List.foldl_cons, ih, List.countP_cons]
    cases b <;> cases f k <;> simp
    all_goals omega

/-- The parity bit makes the count of ones among the data, the mark and itself odd. -/
theorem oddParity_eq (data : Byte) (mark : Bool) :
    oddParity data mark =
      decide (((List.range 8).countP (fun k => data.getLsbD k) + mark.toNat) % 2 = 0) := by
  rw [oddParity, foldl_xor_eq_odd (fun k => data.getLsbD k),
    show [0, 1, 2, 3, 4, 5, 6, 7] = List.range 8 from rfl, ← decide_not, decide_eq_decide]
  omega

theorem charError_iff (c : LineChar) : charError c = true ↔ onesOf c % 2 = 0 ∨ c.stop = false := by
  have hparity : c.parity ≠ oddParity c.data c.mark ↔ onesOf c % 2 = 0 := by
    rw [oddParity_eq, onesOf]
    cases c.parity <;> simp
    all_goals omega
  rw [charError, Bool.or_eq_true, decide_eq_true_iff, hparity, Bool.not_eq_true']

theorem countUp_toNat {c : Word} (h : c ≠ 0xFFFF) : (countUp c).toNat = c.toNat + 1 := by
  rw [countUp, if_neg h]
  bv_omega

theorem countOutcome_eq (c : LinkCounters) :
    c.countOutcome .good = { c with good := countUp c.good } ∧
    c.countOutcome .damaged = { c with damaged := countUp c.damaged } ∧
    c.countOutcome .format = { c with damaged := countUp c.damaged } ∧
    c.countOutcome .overlong = { c with damaged := countUp c.damaged } ∧
    c.countOutcome .poisoned = { c with poisoned := countUp c.poisoned } ∧
    c.countOutcome .stalled = { c with stalls := countUp c.stalls } ∧
    c.countOutcome .truncated = { c with truncated := countUp c.truncated } :=
  ⟨rfl, rfl, rfl, rfl, rfl, rfl, rfl⟩

/-! ## The CRC and the outcome (R15, R17, R18) -/

theorem crcBit_eq (crc : Word) (bit : Bool) :
    crcBit crc bit = if crc.getLsbD 15 = bit then crc <<< 1 else (crc <<< 1) ^^^ 0x1021 := by
  rw [crcBit, BitVec.msb_eq_getLsbD_last]
  cases crc.getLsbD 15 <;> cases bit <;> rfl

/-- An arriving CRC that is neither the frame's nor its complement. -/
theorem arrivalOutcome_other {crc w : Word} (h : w ≠ crc) (hc : w ≠ ~~~crc) :
    arrivalOutcome false (.other w) crc = .damaged := by
  simp [arrivalOutcome, arrivingWord, outcomeOf, h, hc]

/-- The check value of the CRC's parameters (R15): the CRC of the nine digits. -/
theorem crc16_digits :
    crc16 [0x31, 0x32, 0x33, 0x34, 0x35, 0x36, 0x37, 0x38, 0x39] = 0x29B1 := by
  decide +kernel

/-- Settles O3. -/
theorem linkArithmetic : Obligations.LinkArithmetic := by
  refine ⟨⟨charError_iff, charError_freshChar⟩, ⟨rfl, fun _ => countUp_toNat, countOutcome_eq⟩,
    ⟨crc16_digits, crcBit_eq⟩, fun kind body d => ?outcome⟩
  case outcome =>
    intro crc
    exact ⟨arrivalOutcome_correct crc, arrivalOutcome_complement crc,
      fun _ => arrivalOutcome_other, fun _ _ => rfl⟩

/-! ## The receiver and the stall timer (R1, R7, R8, R14) -/

/-- Settles O8. -/
theorem receiverEvents : Obligations.ReceiverEvents := by
  intro s
  refine ⟨fun hb hr => ?confirmed, rfl, fun hr => ?regained, fun hb ho => ?opens, fun _ ho => ?closed⟩
  case confirmed => exact congrArg _ (if_pos ⟨rfl, hb, hr⟩)
  case regained => exact congrArg _ (if_pos hr)
  case opens => exact congrArg _ (if_pos ⟨hb, ho⟩)
  case closed =>
    refine congrArg _ (if_neg fun h => ?_)
    rw [h.2] at ho
    cases ho

/-- A frame that ends before its CRC (R4, R10, R13, R14). -/
theorem endsEarly_eq (s : State) (o : FrameOutcome) (ho : o ≠ .good) :
    s.endsEarly o =
      { s with
        lpu := { s.lpu with
          buffer := releaseAsReceived s.lpu.buffer
          tracker := .idle
          stallTimer := false
          counters := s.lpu.counters.countOutcome o }
        si := clearIntake
        me := emptyExecutor
        al := { s.al with claim := false } } :=
  frameEnds_notGood _ o ho

/-- Settles O9: a frame in passage ends STALLED by `endsEarly_eq`. -/
theorem stallEndsTheFrame : Obligations.StallEndsTheFrame := by
  intro s
  have hexec : exec .stallTimeout s = .next s.stall := rfl
  rw [hexec]
  unfold State.stall
  refine ⟨fun f hf ht => ?frame, fun h => ?none⟩
  case frame =>
    simp only [hf, ht, ↓reduceIte]
    rw [endsEarly_eq s .stalled (by decide)]
    rfl
  case none =>
    obtain h | h := h <;> rw [h]

/-! ## The transmitter (R4, R16, R145) -/

theorem transmit_of_released {s : State} {p : Place} {rest : List Place} (ht : s.lpu.tx = none)
    (hb : s.lpu.buffer = p :: rest) (hr : p.released = true) :
    s.transmit = s.setLpu { s.lpu with tx := some p, buffer := rest } := by
  simp only [State.transmit, ht, hb, hr, ↓reduceIte]

theorem transmit_of_held {s : State} {p : Place} {rest : List Place}
    (hb : s.lpu.buffer = p :: rest) (hr : p.released = false) : s.transmit = s := by
  cases ht : s.lpu.tx <;> simp [State.transmit, ht, hb, hr]

theorem transmit_of_empty {s : State} (hb : s.lpu.buffer = []) : s.transmit = s := by
  cases ht : s.lpu.tx <;> simp [State.transmit, ht, hb]

theorem transmit_of_sending {s : State} {p : Place} (ht : s.lpu.tx = some p) : s.transmit = s := by
  simp [State.transmit, ht]

theorem charSent_of_idle {s : State} (ht : s.lpu.tx = none) : s.charSent = s := by
  simp only [State.charSent, ht]

/-- The state with the transmitter's character sent (R4). -/
def State.afterSending (s : State) (p : Place) : State :=
  s.setLpu { s.lpu with tx := none, lout := s.lpu.lout ++ [freshChar p.sent p.mark] }

theorem charSent_of_sending {s : State} {p : Place} (ht : s.lpu.tx = some p) :
    s.charSent = (s.afterSending p).frameForwarded p := by
  simp only [State.charSent, ht]
  rfl

theorem frameForwarded_of_pending {s : State} {p : Place} (hf : p.forwards = true)
    (hr : p.restarts = true) (hm : s.mc.restartPending = true) : s.frameForwarded p = s.resetNode := by
  simp only [State.frameForwarded, hf, hr, hm, Bool.and_self, ↓reduceIte]

theorem frameForwarded_of_not {s : State} {p : Place}
    (h : s.mc.restartPending = false ∨ p.forwards = false ∨ p.restarts = false) :
    s.frameForwarded p = s := by
  obtain h | h | h := h <;> simp [State.frameForwarded, h]

/-- Settles O10: the transmitter by what it holds and by the head, the end of a character by the marks
on its place. -/
theorem transmitterSendsReleasedHead : Obligations.TransmitterSendsReleasedHead := by
  intro s p rest
  refine ⟨fun ht hb hr => congrArg _ (transmit_of_released ht hb hr),
    fun hb hr => congrArg _ (transmit_of_held hb hr), fun hb => congrArg _ (transmit_of_empty hb),
    fun ht => congrArg _ (transmit_of_sending ht), fun ht => ?_⟩
  have hexec : exec .characterSent s = .next ((s.afterSending p).frameForwarded p) :=
    congrArg _ (charSent_of_sending ht)
  rw [hexec]
  exact ⟨fun h => congrArg _ (frameForwarded_of_not h),
    fun hm hf hr => congrArg _ (frameForwarded_of_pending hf hr hm)⟩

/-! ## The frame-forwarded event (R16, R133, R145) -/

theorem exec_frameForwarded {s : State} {p : Place} (rate : BitVec 2) (ht : s.lpu.tx = some p)
    (hf : p.forwards = true) :
    exec (.frameForwarded rate) s =
      .next (((s.setPins { s.pins with rate := rate }).afterSending p).frameForwarded p) := by
  have hsent := charSent_of_sending (s := s.setPins { s.pins with rate := rate }) ht
  rw [← hsent]
  show execFrameForwarded rate s = _
  unfold execFrameForwarded
  simp only [ht, hf, ↓reduceIte]

/-- What a node reset leaves: RESET, with the bypass closed, no pending restart, the pins as they are. -/
theorem nodeReset_link (s : State) :
    s.nodeReset.mc.mode = .reset ∧ s.nodeReset.mc.restartPending = false ∧
      s.nodeReset.lpu.bypass = true ∧ s.nodeReset.pins = s.pins := by
  unfold State.nodeReset
  dsimp only
  rw [cutOffStore_fields]
  exact ⟨rfl, rfl, rfl, rfl⟩

/-- START begins: the rate is sampled, and nothing else of the link or of MC moves but the mode. -/
theorem enterStart_link (s : State) :
    s.enterStart.mc = { s.mc with mode := .start } ∧
      s.enterStart.lpu = { s.lpu with rate := s.pins.rate } := by
  unfold State.enterStart
  dsimp only
  obtain ⟨hmc, hlpu, -, -⟩ := loadStore_keeps
    ((s.setMc { s.mc with mode := .start }).setLpu
      { (s.setMc { s.mc with mode := .start }).lpu with
        rate := (s.setMc { s.mc with mode := .start }).pins.rate })
  rw [State.setMon_mc, State.setMon_lpu, hmc, hlpu]
  exact ⟨rfl, rfl⟩

theorem leaveReset_of_ready {s : State} (hm : s.mc.mode = .reset) (hv : s.pins.vddOk = true)
    (hr : s.pins.rstnLow = false) : s.leaveReset = s.enterStart := by
  rw [State.leaveReset, if_pos ⟨hm, hv, hr⟩]

/-- A node reset that nothing holds goes on into START. -/
theorem resetNode_starts {s : State} (hv : s.pins.vddOk = true) (hr : s.pins.rstnLow = false) :
    s.resetNode.mc.mode = .start ∧ s.resetNode.lpu.rate = s.pins.rate ∧
      s.resetNode.lpu.bypass = true ∧ s.resetNode.mc.restartPending = false := by
  obtain ⟨hmode, hpending, hbypass, hpins⟩ := nodeReset_link s
  have hstart : s.resetNode = s.nodeReset.enterStart :=
    leaveReset_of_ready hmode (by rw [hpins, hv]) (by rw [hpins, hr])
  obtain ⟨hmc, hlpu⟩ := enterStart_link s.nodeReset
  rw [hstart, hmc, hlpu, hpins]
  exact ⟨rfl, rfl, hbypass, hpending⟩

/-- Settles O11. -/
theorem frameForwardedBeginsAPendingRestart : Obligations.FrameForwardedBeginsAPendingRestart := by
  intro rate s p ht hf sent
  rw [exec_frameForwarded rate ht hf]
  have hreset (hr : p.restarts = true) (hm : s.mc.restartPending = true) :=
    frameForwarded_of_pending (s := (s.setPins { s.pins with rate := rate }).afterSending p) hf hr hm
  refine ⟨fun h => congrArg _ (frameForwarded_of_not ?_), fun hr hm => congrArg _ (hreset hr hm),
    fun hr hm hv hl => ⟨_, congrArg _ (hreset hr hm), resetNode_starts hv hl⟩⟩
  exact h.elim (fun h => .inr (.inr h)) .inl

end Sys2Proof.Machine

namespace Sys2Proof.Machine

/-! ## A character that completes (R1, R2, R6) -/

/-- The node with a character counted, before the tracker sees it. -/
def State.seen (s : State) (c : LineChar) : State := s.setLpu (s.arrived c)

/-- The repeat buffer is full when the character completes (R6). -/
def State.full (s : State) : Bool := decide (8 ≤ s.lpu.buffer.length)

theorem countArrival_eq (s : State) (c : LineChar) :
    (s.arrived c).counters = s.lpu.counters.countArrival (charError c) s.full := by
  simp only [State.arrived, LinkCounters.countArrival, State.full, decide_eq_true_eq]

theorem receive_eq {s : State} (h : s.receives) (c : LineChar) : s.receive c = s.takeChar c := by
  obtain ⟨hbypass, hrx⟩ := h
  simp only [State.receive, hbypass, hrx, Bool.false_eq_true, ↓reduceIte]

theorem takeChar_eq (s : State) (c : LineChar) :
    s.takeChar c =
      if c.mark then (s.seen c).takeOpener c.data (charError c) s.full
      else
        match s.lpu.tracker with
        | .idle => (s.seen c).takeStray c.data s.full
        | .pass => (s.seen c).takeStray c.data s.full
        | .frame f => (s.seen c).takeFrameChar f c.data (charError c) s.full := by
  have hseen : s.seen c = s.setLpu { s.lpu with
      rx := if c.stop then .hunting else .awaitStop
      counters := s.lpu.counters.countArrival (charError c) s.full } := by
    rw [← countArrival_eq]
    rfl
  rw [hseen]
  rfl

theorem exec_opener {s : State} {c : LineChar} (h : s.receives) (hm : c.mark = true) :
    exec (.characterReceived c) s = .next ((s.seen c).takeOpener c.data (charError c) s.full) := by
  show Host.Outcome.next (s.receive c) = _
  rw [receive_eq h, takeChar_eq, if_pos hm]

theorem exec_stray {s : State} {c : LineChar} (h : s.receives) (hm : c.mark = false)
    (ht : s.lpu.tracker = .idle ∨ s.lpu.tracker = .pass) :
    exec (.characterReceived c) s = .next ((s.seen c).takeStray c.data s.full) := by
  show Host.Outcome.next (s.receive c) = _
  rw [receive_eq h, takeChar_eq, hm]
  obtain ht | ht := ht <;> rw [ht] <;> rfl

theorem exec_frameChar {s : State} {c : LineChar} {f : FrameCtx} (h : s.receives)
    (hm : c.mark = false) (ht : s.lpu.tracker = .frame f) :
    exec (.characterReceived c) s =
      .next (match f.phase with
        | .head => (s.seen c).takeHead (f.counted c s.full) c.data s.full
        | .body => (s.seen c).takeBody (f.counted c s.full) c.data s.full
        | .trail => (s.seen c).takeTrail (f.counted c s.full) c.data s.full) := by
  show Host.Outcome.next (s.receive c) = _
  rw [receive_eq h, takeChar_eq, hm, ht]
  rfl

/-- The frame goes on, with the place held before as `held` has it. -/
theorem holdChar_seen (s : State) (c : LineChar) (f : FrameCtx) (held : List Place)
    (covered : Bool) (sub : Option Byte) :
    ((s.seen c).setBuffer held).holdChar f (Place.of c.data false false covered sub) s.full =
      s.goesOn c f held covered sub := by
  unfold State.goesOn State.holdChar joinBuffer State.full
  simp only [decide_eq_true_eq]
  rfl

/-! ## Body bytes and their consumers (R11, R24 to R26, R41) -/

/-- A body byte from what its consumer makes of it, and at the end of the body from what the consumer
makes of that. -/
theorem takeBody_eq {s x y : State} {f : FrameCtx} {data : Byte} {full fault ends : Bool}
    {sub : Option Byte} (hphase : f.phase = .body)
    (hc : s.consume { f with rxCrc := crcByte f.rxCrc data } data = (x, sub, fault))
    (he : f.position = f.length + 2 →
      x.bodyEnds { f with rxCrc := crcByte f.rxCrc data, format := fault, phase := .trail } =
        (y, { f with rxCrc := crcByte f.rxCrc data, format := ends, phase := .trail }))
    (hn : f.position ≠ f.length + 2 → y = x ∧ ends = fault) :
    s.takeBody f data full =
      y.holdChar (({ f with rxCrc := crcByte f.rxCrc data } : FrameCtx).afterBody ends)
        (Place.of data false false true sub) full := by
  unfold State.takeBody FrameCtx.afterBody
  dsimp only
  rw [hc]
  dsimp only
  by_cases hp : f.position = f.length + 2
  · simp only [if_pos hp, he hp]
  · obtain ⟨rfl, rfl⟩ := hn hp
    simp only [if_neg hp, hphase]

theorem bodyEnds_marked (s : State) {f : FrameCtx} (h : f.format = true) : s.bodyEnds f = (s, f) := by
  rw [State.bodyEnds, if_pos h]

theorem bodyEnds_foreign (s : State) {f : FrameCtx} (h : Foreign f.kind) : s.bodyEnds f = (s, f) := by
  obtain ⟨hl, hm⟩ := h
  simp only [State.bodyEnds, hl, hm, ↓reduceIte, ite_self]

theorem bodyEnds_level (s : State) {f : FrameCtx} {t : Intake} (hf : f.format = false)
    (hk : f.kind = levelKind) (ht : s.si.intake = some t) :
    s.bodyEnds f = (s.setSi (s.si.bodyEnd t).1, { f with format := (s.si.bodyEnd t).2 }) := by
  simp only [State.bodyEnds, hf, hk, ht, Bool.false_eq_true, ↓reduceIte]

theorem bodyEnds_management (s : State) {f : FrameCtx} {p : Parser} (hf : f.format = false)
    (hk : f.kind = managementKind) (hp : s.me.parser = some p) :
    s.bodyEnds f = (s, { f with format := p.bodyEndFault }) := by
  simp only [State.bodyEnds, hf, hk, hp, Bool.false_eq_true, ↓reduceIte,
    show managementKind ≠ levelKind by decide]

theorem bodyEnds_noParser (s : State) {f : FrameCtx} (hf : f.format = false)
    (hk : f.kind = managementKind) (hp : s.me.parser = none) : s.bodyEnds f = (s, f) := by
  simp only [State.bodyEnds, hf, hk, hp, Bool.false_eq_true, ↓reduceIte,
    show managementKind ≠ levelKind by decide]

theorem consume_none (s : State) {f : FrameCtx} (data : Byte)
    (h : f.format = true ∨ Foreign f.kind) : s.consume f data = (s, none, f.format) := by
  cases hf : f.format with
  | true => simp only [State.consume, hf, ↓reduceIte]
  | false =>
    obtain ⟨hl, hm⟩ := h.resolve_left (by simp [hf])
    simp only [State.consume, hf, hl, hm, Bool.false_eq_true, ↓reduceIte]

theorem consume_level (s : State) {f : FrameCtx} {t : Intake} (data : Byte) (hf : f.format = false)
    (hk : f.kind = levelKind) (ht : s.si.intake = some t) :
    s.consume f data =
      (s.setSi (s.si.takeByte t (f.position - 2) f.length data).1, none,
        (s.si.takeByte t (f.position - 2) f.length data).2) := by
  simp only [State.consume, hf, hk, ht, Bool.false_eq_true, ↓reduceIte]

theorem consume_management (s : State) {f : FrameCtx} {p : Parser} (data : Byte)
    (hf : f.format = false) (hk : f.kind = managementKind) (hp : s.me.parser = some p) {k : Taken}
    (htaken : takeBodyByte s s.me p f.address (f.length + 2 - f.position) data = k) :
    s.consume f data =
      ((s.setMe k.me).setBuffer (resubstitute s.lpu.buffer k.heldSub), k.sub, k.fault) := by
  simp only [State.consume, hf, hk, hp, htaken, Bool.false_eq_true, ↓reduceIte,
    show managementKind ≠ levelKind by decide]

/-! ### The three consumers of a body byte -/

/-- The context of a frame in BODY once a byte has been counted and fed into the CRC. -/
def State.fed (s : State) (f : FrameCtx) (c : LineChar) : FrameCtx :=
  { f.counted c s.full with rxCrc := crcByte f.rxCrc c.data }

/-- The parts that every body byte has in common. -/
structure InBodyOf (s : State) (c : LineChar) (f : FrameCtx) : Prop where
  receives : s.receives
  data : c.mark = false
  tracker : s.lpu.tracker = .frame f
  phase : f.phase = .body

/-- A body byte of the frame in passage: y is what the consumer, and at its end the body, make of the
node. -/
theorem exec_body_eq {s x y : State} {c : LineChar} {f : FrameCtx} {fault ends : Bool}
    {sub : Option Byte} (h : InBodyOf s c f)
    (hc : (s.seen c).consume (s.fed f c) c.data = (x, sub, fault))
    (he : f.position + 1 = f.length + 2 →
      x.bodyEnds { s.fed f c with format := fault, phase := .trail } =
        (y, { s.fed f c with format := ends, phase := .trail }))
    (hn : f.position + 1 ≠ f.length + 2 → y = x ∧ ends = fault) :
    exec (.characterReceived c) s =
      .next (y.holdChar ((s.fed f c).afterBody ends) (Place.of c.data false false true sub)
        s.full) := by
  rw [exec_frameChar h.receives h.data h.tracker, h.phase]
  exact congrArg _ (takeBody_eq (f := f.counted c s.full) h.phase hc he hn)

theorem exec_body_unread {s : State} {c : LineChar} {f : FrameCtx} (h : InBodyOf s c f)
    (hu : f.format = true ∨ Foreign f.kind) :
    exec (.characterReceived c) s =
      .next (s.goesOn c ((s.fed f c).afterBody f.format) s.lpu.buffer true none) := by
  rw [exec_body_eq (y := s.seen c) (ends := f.format) h (consume_none _ _ hu) (fun _ => ?_)
    (fun _ => ⟨rfl, rfl⟩)]
  · exact congrArg _ (holdChar_seen s c _ s.lpu.buffer true none)
  · obtain hf | hk := hu
    · exact bodyEnds_marked _ hf
    · exact bodyEnds_foreign _ hk

theorem exec_body_level {s : State} {c : LineChar} {f : FrameCtx} (h : InBodyOf s c f) {t : Intake}
    (hf : f.format = false) (hk : f.kind = levelKind) (ht : s.si.intake = some t)
    {si : SlotIntake} {fault : Bool}
    (hbyte : s.si.takeByte t (f.position - 1) f.length c.data = (si, fault))
    (hmore : fault = true ∨ f.position + 1 ≠ f.length + 2) :
    exec (.characterReceived c) s =
      .next (({ s with si := si } : State).goesOn c ((s.fed f c).afterBody fault)
        s.lpu.buffer true none) := by
  have hconsume := consume_level (s.seen c) (f := s.fed f c) c.data hf hk ht
  rw [show (s.fed f c).position - 2 = f.position - 1 by
    show f.position + 1 - 2 = _
    omega] at hconsume
  rw [exec_body_eq (x := (s.seen c).setSi si) (y := (s.seen c).setSi si) (fault := fault)
    (ends := fault) (sub := none) h (hconsume.trans ?_) (fun hp => ?_) (fun _ => ⟨rfl, rfl⟩)]
  · exact congrArg _ (holdChar_seen { s with si := si } c _ s.lpu.buffer true none)
  · show ((s.seen c).setSi (s.si.takeByte t (f.position - 1) f.length c.data).1, none,
      (s.si.takeByte t (f.position - 1) f.length c.data).2) = _
    rw [hbyte]
  · exact bodyEnds_marked _ (hmore.resolve_right fun hne => hne hp)

theorem exec_body_level_last {s : State} {c : LineChar} {f : FrameCtx} (h : InBodyOf s c f)
    {t : Intake} (hf : f.format = false) (hk : f.kind = levelKind) (ht : s.si.intake = some t)
    {si : SlotIntake} {u : Intake}
    (hbyte : s.si.takeByte t (f.position - 1) f.length c.data = (si, false))
    (hlast : f.position + 1 = f.length + 2) (hu : si.intake = some u) :
    exec (.characterReceived c) s =
      .next (({ s with si := (si.bodyEnd u).1 } : State).goesOn c
        ((s.fed f c).afterBody (si.bodyEnd u).2) s.lpu.buffer true none) := by
  have hconsume := consume_level (s.seen c) (f := s.fed f c) c.data hf hk ht
  rw [show (s.fed f c).position - 2 = f.position - 1 by
    show f.position + 1 - 2 = _
    omega] at hconsume
  rw [exec_body_eq (x := (s.seen c).setSi si) (y := (s.seen c).setSi (si.bodyEnd u).1)
    (fault := false) (ends := (si.bodyEnd u).2) (sub := none) h (hconsume.trans ?_) (fun _ => ?_)
    (fun hp => absurd hlast hp)]
  · exact congrArg _ (holdChar_seen { s with si := (si.bodyEnd u).1 } c _ s.lpu.buffer true none)
  · show ((s.seen c).setSi (s.si.takeByte t (f.position - 1) f.length c.data).1, none,
      (s.si.takeByte t (f.position - 1) f.length c.data).2) = _
    rw [hbyte]
  · exact bodyEnds_level _ rfl hk hu

/-- The body ends at this byte and the parser is not at its end (R26, condition 6). -/
def Taken.short (k : Taken) (f : FrameCtx) : Bool :=
  decide (f.position + 1 = f.length + 2 ∧ ∃ q, k.me.parser = some q ∧ q.field ≠ .done)

theorem BodyByte.inBody {s : State} {c : LineChar} {f : FrameCtx} {p : Parser}
    (h : BodyByte s c f p) : InBodyOf s c f := ⟨h.receives, h.data, h.tracker, h.body⟩

theorem exec_body_management {s : State} {c : LineChar} {f : FrameCtx} {p : Parser}
    (h : BodyByte s c f p) {k : Taken}
    (hk : takeBodyByte (s.seen c) s.me p f.address (f.length + 1 - f.position) c.data = k) :
    exec (.characterReceived c) s =
      .next (({ s with me := k.me } : State).goesOn c ((s.fed f c).afterBody (k.fault || k.short f))
        (resubstitute s.lpu.buffer k.heldSub) true k.sub) := by
  have hleft : (s.fed f c).length + 2 - (s.fed f c).position = f.length + 1 - f.position := by
    show f.length + 2 - (f.position + 1) = _
    omega
  have hconsume := consume_management (s.seen c) (f := s.fed f c) c.data h.sound h.kind h.parser
    (k := k) (by rw [hleft]; exact hk)
  let x : State := ((s.seen c).setMe k.me).setBuffer (resubstitute s.lpu.buffer k.heldSub)
  rw [exec_body_eq (x := x) (y := x) (fault := k.fault) (ends := k.fault || k.short f)
    (sub := k.sub) h.inBody hconsume (fun hlast => ?_) (fun hmore => ⟨rfl, ?_⟩)]
  · exact congrArg _ (holdChar_seen { s with me := k.me } c _ _ true k.sub)
  · cases hfault : k.fault with
    | true => exact bodyEnds_marked _ rfl
    | false =>
      rcases hq : k.me.parser with _ | q
      · rw [show k.short f = false by simp [Taken.short, hq]]
        exact bodyEnds_noParser _ rfl h.kind hq
      · rw [show k.short f = q.bodyEndFault by
          simp [Taken.short, hq, hlast, Parser.bodyEndFault]]
        exact bodyEnds_management _ rfl h.kind hq
  · rw [Taken.short, decide_eq_false fun hshort => hmore hshort.1, Bool.or_false]

/-! ### The intake's own steps (R24, R41 to R45) -/

theorem levelConsistent_iff (length n : Nat) (wide : Bool) :
    levelConsistent length n wide = true ↔
      (wide = true ∧ length = 4 + 2 * n ∧ n ≤ 512) ∨
      (wide = false ∧ length = 4 + n ∧ n ≤ 1024) := by
  cases wide <;> simp [levelConsistent]

section IntakeSteps
variable (si : SlotIntake) (t : Intake) (pos length : Nat) (b : Byte)

theorem bodyEnd_short (h : t.state = .flags ∨ t.state = .fade ∨ t.state = .count) :
    si.bodyEnd t = ({ si with intake := some { t with state := .stopped } }, true) := by
  obtain h | h | h := h <;> simp only [SlotIntake.bodyEnd, h]

theorem bodyEnd_slots (h : t.state = .slots) :
    si.bodyEnd t = ({ si with intake := some { t with state := .ended } }, false) := by
  simp only [SlotIntake.bodyEnd, h]

theorem takeByte_flags (h : t.state = .flags) :
    si.takeByte t pos length b =
      ({ si with intake := some { t with wide := has b 0, seize := has b 1, state := .fade } },
        false) := by
  simp only [SlotIntake.takeByte, h]

theorem takeByte_fade (h : t.state = .fade) :
    si.takeByte t pos length b =
      ({ si with intake := some { t with fade := b, state := .count } }, false) := by
  simp only [SlotIntake.takeByte, h]

theorem takeByte_countHigh (h : t.state = .count) :
    si.takeByte t 3 length b =
      ({ si with intake := some { t with count := b.toNat * 256 } }, false) := by
  simp only [SlotIntake.takeByte, h, ↓reduceIte]

variable {pos length}

theorem takeByte_countLow (h : t.state = .count) (hp : pos ≠ 3)
    (hc : levelConsistent length (t.count + b.toNat) t.wide = true) :
    si.takeByte t pos length b =
      ({ si with intake := some { t with
        count := t.count + b.toNat, state := .slots, slot := 0 } }, false) := by
  simp only [SlotIntake.takeByte, h, hp, hc, ↓reduceIte]

theorem takeByte_countLow_fault (h : t.state = .count) (hp : pos ≠ 3)
    (hc : ¬ levelConsistent length (t.count + b.toNat) t.wide = true) :
    si.takeByte t pos length b =
      ({ si with intake := some { t with count := t.count + b.toNat, state := .stopped } },
        true) := by
  simp only [SlotIntake.takeByte, h, hp, hc, ↓reduceIte, Bool.false_eq_true]

/-- A slot byte leaves the intake in SLOTS. -/
theorem takeByte_slots (h : t.state = .slots) :
    ∃ x u, si.takeByte t pos length b = (x, false) ∧ x.intake = some u ∧ u.state = .slots := by
  simp only [SlotIntake.takeByte, h]
  split
  · split <;> exact ⟨_, _, rfl, rfl, rfl⟩
  · exact ⟨_, _, rfl, rfl, rfl⟩

/-- A byte before SLOTS, unless it is the last of the count, leaves the intake before SLOTS. -/
theorem takeByte_beforeSlots
    (h : t.state = .flags ∨ t.state = .fade ∨ (t.state = .count ∧ pos = 3)) :
    ∃ x u, si.takeByte t pos length b = (x, false) ∧ x.intake = some u ∧
      (u.state = .flags ∨ u.state = .fade ∨ u.state = .count) := by
  obtain h | h | ⟨h, rfl⟩ := h
  · exact ⟨_, _, takeByte_flags si t pos length b h, rfl, .inr (.inl rfl)⟩
  · exact ⟨_, _, takeByte_fade si t pos length b h, rfl, .inr (.inr rfl)⟩
  · exact ⟨_, _, takeByte_countHigh si t length b h, rfl, .inr (.inr h)⟩

end IntakeSteps

/-- Settles O5: the stray, the three consumers of a body byte, the intake's steps, and the ends of a
level body. -/
theorem strayAndBodyCharacters : Obligations.StrayAndBodyCharacters := by
  refine ⟨fun c s hs ht hm => ?stray, fun c s f hs hm ht hb => ?body, fun si t pos length b => ?intake,
    fun c s f t hs hm ht hb hk hf hlast hi => ?ends⟩
  case stray =>
    rw [exec_stray hs hm ht]
    unfold State.takeStray joinBuffer State.full
    simp only [decide_eq_true_eq]
    rfl
  case body =>
    have h : InBodyOf s c f := ⟨hs, hm, ht, hb⟩
    refine ⟨exec_body_unread h, fun t hf hk hi => ⟨exec_body_level h hf hk hi rfl,
      fun u hsound hlast hu => exec_body_level_last h hf hk hi (Prod.ext rfl hsound) hlast hu⟩,
      fun p hp => exec_body_management hp rfl⟩
  case intake =>
    refine ⟨bodyEnd_short si t, bodyEnd_slots si t, takeByte_flags si t pos length b,
      takeByte_fade si t pos length b, fun hs => ⟨?_, fun hp hc => ?_, fun hp hc => ?_⟩⟩
    · rintro rfl
      exact takeByte_countHigh si t length b hs
    · exact takeByte_countLow si t b hs hp ((levelConsistent_iff _ _ _).mpr hc)
    · exact takeByte_countLow_fault si t b hs hp (mt (levelConsistent_iff _ _ _).mp hc)
  case ends =>
    have h : InBodyOf s c f := ⟨hs, hm, ht, hb⟩
    have hpos : f.position - 1 = f.length := by omega
    refine ⟨fun hstate => ?short, fun hstate => ?complete⟩
    case short =>
      obtain ⟨x, u, hbyte, hu, hbefore⟩ := takeByte_beforeSlots s.si t c.data
        (pos := f.position - 1) (length := f.length) (by rwa [hpos])
      refine ⟨{ x with intake := some { u with state := .stopped } }, _, rfl, rfl, ?_⟩
      rw [exec_body_level_last h hf hk hi hbyte (by omega) hu, bodyEnd_short x u hbefore]
      rfl
    case complete =>
      have hslots : ∃ x u, s.si.takeByte t (f.position - 1) f.length c.data = (x, false) ∧
          x.intake = some u ∧ u.state = .slots := by
        obtain hstate | ⟨hcount, hlength, hnone⟩ := hstate
        · exact takeByte_slots s.si t c.data hstate
        · refine ⟨_, _, takeByte_countLow s.si t c.data hcount (by omega) ?_, rfl, rfl⟩
          rw [levelConsistent_iff]
          cases t.wide <;> simp <;> omega
      obtain ⟨x, u, hbyte, hu, hslot⟩ := hslots
      refine ⟨{ x with intake := some { u with state := .ended } }, _, rfl, rfl, ?_⟩
      rw [exec_body_level_last h hf hk hi hbyte (by omega) hu, bodyEnd_slots x u hslot]
      rfl

/-! ## Openers and length bytes (R9, R10, R13) -/

/-- The opener's own part: it joins the buffer b, and the frame's context begins. -/
theorem startFrame_begun (s : State) (c : LineChar) (b : List Place) :
    ((s.seen c).setBuffer
      (joinBuffer b (Place.of c.data true false false none) s.full)).startFrame c.data
        (charError c) s.full =
      s.begun c b (s.arrived c).counters := by
  unfold joinBuffer
  rfl

theorem takeOpener_between {s : State} (c : LineChar)
    (ht : s.lpu.tracker = .idle ∨ s.lpu.tracker = .pass) :
    (s.seen c).takeOpener c.data (charError c) s.full =
      s.begun c s.lpu.buffer (s.arrived c).counters := by
  rw [← startFrame_begun]
  unfold State.takeOpener
  have hseen : (s.seen c).lpu.tracker = s.lpu.tracker := rfl
  obtain ht | ht := ht <;> rw [hseen, ht] <;> rfl

theorem takeOpener_inFrame {s : State} (c : LineChar) {f : FrameCtx}
    (ht : s.lpu.tracker = .frame f) :
    (s.seen c).takeOpener c.data (charError c) s.full =
      { s.begun c (releaseAsReceived s.lpu.buffer)
          { (s.arrived c).counters with
            truncated := countUp (s.arrived c).counters.truncated } with
        al := { s.al with claim := false } } := by
  unfold State.takeOpener
  have hseen : (s.seen c).lpu.tracker = .frame f := ht
  rw [hseen]
  dsimp only
  rw [endsEarly_eq _ .truncated (by decide)]
  unfold joinBuffer
  rfl

/-- The first length byte (R10). -/
theorem takeHead_first {s : State} {f : FrameCtx} (data : Byte) (full : Bool)
    (hp : f.position = 1) :
    s.takeHead f data full =
      s.holdChar { f.feedLength data full with length := data.toNat * 256 }
        (Place.of data false false false none) full := by
  unfold State.takeHead
  exact if_pos hp

section SecondLengthByte
variable {s : State} {f : FrameCtx} {data : Byte} {full : Bool}

theorem takeHead_overlong (hp : f.position ≠ 1) (hn : 1040 < f.length + data.toNat) :
    s.takeHead f data full =
      (s.endsEarly .overlong).setLpu { (s.endsEarly .overlong).lpu with
        buffer := joinBuffer (s.endsEarly .overlong).lpu.buffer
          (Place.of data false true false none) full
        tracker := .pass } := by
  unfold State.takeHead
  exact (if_neg hp).trans (if_pos hn)

theorem takeHead_body (hp : f.position ≠ 1) (h1 : 1 ≤ f.length + data.toNat)
    (hn : f.length + data.toNat ≤ 1040) :
    s.takeHead f data full =
      s.holdChar { f.feedLength data full with length := f.length + data.toNat, phase := .body }
        (Place.of data false false false none) full := by
  unfold State.takeHead
  exact (if_neg hp).trans ((if_neg (Nat.not_lt.mpr hn)).trans (if_neg (Nat.ne_of_gt h1)))

theorem takeHead_empty (hp : f.position ≠ 1) (hn : f.length + data.toNat = 0) {y : State}
    {g : FrameCtx}
    (he : s.bodyEnds { f.feedLength data full with length := 0, phase := .trail } = (y, g)) :
    s.takeHead f data full = y.holdChar g (Place.of data false false false none) full := by
  unfold State.takeHead
  refine (if_neg hp).trans ((if_neg (Nat.not_lt.mpr ?_)).trans ((if_pos hn).trans ?_))
  · exact (Nat.le_of_eq hn).trans (Nat.zero_le _)
  · have hlength : (f.feedLength data full).length + data.toNat = 0 := hn
    dsimp only
    rw [hlength, he]

end SecondLengthByte

/-- Settles O6: the opener between frames and in a frame, and the length bytes by what they make of L. -/
theorem openerAndLengthCharacters : Obligations.OpenerAndLengthCharacters := by
  refine ⟨fun c s hs hm => ⟨fun ht => ?between, fun f ht => ?inFrame⟩,
    fun c s f hs hm ht hphase => ?length⟩
  case between => rw [exec_opener hs hm, takeOpener_between c ht]
  case inFrame => rw [exec_opener hs hm, takeOpener_inFrame c ht]
  case length =>
    intro held full g n
    have hexec : exec (.characterReceived c) s =
        .next ((s.seen c).takeHead (f.counted c s.full) c.data s.full) := by
      rw [exec_frameChar hs hm ht, hphase]
    rw [hexec]
    have hheld (x : State) (h : FrameCtx) :
        (x.seen c).holdChar h (Place.of c.data false false false none) x.full =
          x.goesOn c h x.lpu.buffer false none := holdChar_seen x c h x.lpu.buffer false none
    refine ⟨fun hp => ?first, fun hp => ?second⟩
    case first =>
      rw [takeHead_first _ _ (congrArg (· + 1) hp), hheld]
      rfl
    case second =>
      have hp : (f.counted c s.full).position ≠ 1 := by
        show f.position + 1 ≠ 1
        omega
      refine ⟨fun hn => ?overlong, fun h1 hn => ?body, fun hn hf => ?empty⟩
      case overlong =>
        rw [takeHead_overlong hp hn, endsEarly_eq _ .overlong (by decide)]
        unfold joinBuffer
        rfl
      case body =>
        rw [takeHead_body hp h1 hn, hheld]
        rfl
      case empty =>
        refine ⟨fun hk => ?foreign, fun t hk hi hstate => ?level, fun p hk hparser hdone => ?management⟩
        case foreign =>
          rw [takeHead_empty hp hn (bodyEnds_foreign _ hk), hheld]
          rfl
        case level =>
          rw [takeHead_empty hp hn (bodyEnds_level (s.seen c) hf hk hi)]
          have hend := bodyEnd_short s.si t (.inl hstate)
          have hseen : (s.seen c).si = s.si := rfl
          rw [hseen, hend]
          exact congrArg _ (hheld { s with
            si := { s.si with intake := some { t with state := .stopped } } } _)
        case management =>
          rw [takeHead_empty hp hn (bodyEnds_management (s.seen c) hf hk hparser), hheld,
            show p.bodyEndFault = true from decide_eq_true hdone]
          rfl

/-! ## The characters of TRAIL (R12, R16 to R18, R127 to R129) -/

theorem exec_trail {s : State} {c : LineChar} {f : FrameCtx} (h : s.receives) (hm : c.mark = false)
    (ht : s.lpu.tracker = .frame f) (hphase : f.phase = .trail) :
    exec (.characterReceived c) s =
      .next ((s.seen c).takeTrail (f.counted c s.full) c.data s.full) := by
  rw [exec_frameChar h hm ht, hphase]

/-- Attention is active (R127), as a proposition. -/
theorem attentionActive_iff (s : State) (address : Fin 251) :
    s.attentionActive address = true ↔
      s.al.reasons &&& ~~~s.al.mask ≠ 0 ∧ address ≠ 0 ∧ s.al.holdOff = none := by
  simp only [State.attentionActive, Bool.and_eq_true, decide_eq_true_eq, and_assoc]

/-- The attention byte: y is the node with its claim, where it claims. -/
theorem takeTrail_attention {s : State} {f : FrameCtx} {data : Byte} {full : Bool}
    (hp : f.position = f.length + 3) : s.takeTrail f data full = s.takeAttention f data full := by
  rw [State.takeTrail, if_pos hp]

theorem takeTrail_crcHigh {s : State} {f : FrameCtx} {data : Byte} {full : Bool}
    (hp : f.position = f.length + 4) :
    s.takeTrail f data full =
      s.holdChar { f with crcIn := natWord (data.toNat * 256) }
        (Place.of data false false false none) full := by
  rw [State.takeTrail, if_neg (by omega), if_pos hp]

theorem takeTrail_crcLow {s : State} {f : FrameCtx} {data : Byte} {full : Bool}
    (hp : f.position = f.length + 5) : s.takeTrail f data full = s.takeLastCrc f data full := by
  rw [State.takeTrail, if_neg (by omega), if_neg (by omega)]

theorem takeAttention_claims {s : State} {f : FrameCtx} {data : Byte} {full : Bool}
    (h : data = 0 ∧ s.attentionActive f.address = true) :
    s.takeAttention f data full =
      (s.setAl { s.al with claim := true }).holdChar { f with rxCrc := crcByte f.rxCrc data }
        (Place.of data false false true (some (natByte f.address.val))) full := by
  unfold State.takeAttention
  exact if_pos h

theorem takeAttention_passes {s : State} {f : FrameCtx} {data : Byte} {full : Bool}
    (h : ¬(data = 0 ∧ s.attentionActive f.address = true)) :
    s.takeAttention f data full =
      s.holdChar { f with rxCrc := crcByte f.rxCrc data } (Place.of data false false true none)
        full := by
  unfold State.takeAttention
  exact if_neg h

/-- R17's five tests at the last CRC character, with the marks that this character itself adds. -/
theorem classify_counted (f : FrameCtx) (c : LineChar) (full : Bool) (crc : Word) :
    FrameCtx.classify { f.counted c full with crcIn := crc } =
      if charError c = true ∨ f.charError = true ∨ f.overrun = true ∨ full = true then .damaged
      else if f.format = true then .format
      else if crc = f.rxCrc then .good
      else if crc = ~~~f.rxCrc then .poisoned
      else .damaged := by
  have hmarks : (({ f.counted c full with crcIn := crc } : FrameCtx).charError ||
      ({ f.counted c full with crcIn := crc } : FrameCtx).overrun) = true ↔
      charError c = true ∨ f.charError = true ∨ f.overrun = true ∨ full = true := by
    simp only [FrameCtx.counted, Bool.or_eq_true]
    tauto
  unfold FrameCtx.classify
  exact ite_congr (propext hmarks) (fun _ => rfl) fun _ => rfl

/-- The node before the outcome is handed on: the CRC characters in the buffer with their
substitutes. -/
def State.crcJoined (s : State) (c : LineChar) (o : FrameOutcome) (tx : Word) : State :=
  let sent := if o = .good then tx else ~~~tx
  let last : Place := { Place.of c.data false true false (some (loByte sent)) with
    forwards := true
    restarts := decide (o = .good ∧ Staged.restart ∈ s.me.commits) }
  let released := releaseHeld (resubstitute s.lpu.buffer (some (hiByte sent)))
  (s.seen c).setBuffer (joinBuffer released last s.full)

theorem takeLastCrc_seen {s : State} {c : LineChar} {f : FrameCtx} {o : FrameOutcome}
    (ho : FrameCtx.classify { f with crcIn := f.crcIn + natWord c.data.toNat } = o) :
    (s.seen c).takeLastCrc f c.data s.full = (s.crcJoined c o f.txCrc).frameEnds o := by
  have hrestarts : (decide (o = .good) && commitsRestart s.me.commits) =
      decide (o = .good ∧ Staged.restart ∈ s.me.commits) := by
    rw [commitsRestart, List.contains_eq_mem, Bool.decide_and]
  unfold State.takeLastCrc State.crcJoined FrameCtx.crcSent
  dsimp only
  rw [ho, ← hrestarts]
  rfl

/-- The outcome of a GOOD frame: its captured set and its commit list are taken. -/
theorem frameEnds_good (s : State) :
    s.frameEnds .good =
      (let x := s.handOver.commitAll s.me.commits
       { x with
         lpu := { x.lpu with
           tracker := .idle, stallTimer := false, counters := x.lpu.counters.countOutcome .good }
         si := clearIntake
         me := emptyExecutor
         al := { x.al with
           claim := false
           holdOff := if x.al.claim = true then some 100 else x.al.holdOff } }) := by
  have hal : ∀ a : Attention, a.atOutcome true =
      { a with claim := false, holdOff := if a.claim = true then some 100 else a.holdOff } := by
    rintro ⟨reasons, mask, holdOff, _ | _⟩ <;> rfl
  unfold State.frameEnds
  simp only [decide_true, ↓reduceIte, hal]
  rfl

theorem commitAll_eq (s : State) (l : List Staged) :
    s.commitAll l =
      (let applied := l.foldl State.apply s
       let shaped := if ∃ e ∈ l, e.shapes = true then applied.reshape else applied
       if ∃ e ∈ l, e.queues = true then shaped.startHead else shaped) := by
  simp only [State.commitAll, List.any_eq_true]

/-- Settles O7: the attention byte, the CRC high character and the last CRC character by their places,
and the commit list as one group. -/
theorem trailCharactersDecideTheFrame : Obligations.TrailCharactersDecideTheFrame := by
  refine ⟨fun c s f hs hm ht hphase => ?trail, fun s l => ?commits⟩
  case trail =>
    rw [exec_trail hs hm ht hphase]
    refine ⟨fun hp => ⟨fun hactive => ?claims, fun hactive => ?passes⟩, fun hp => ?high, fun hp => ?low⟩
    case claims =>
      have hclaims : c.data = 0 ∧ (s.seen c).attentionActive (f.counted c s.full).address = true :=
        hactive.imp_right (attentionActive_iff _ _).mpr
      rw [takeTrail_attention (congrArg (· + 1) hp), takeAttention_claims hclaims]
      exact congrArg _ (holdChar_seen { s with al := { s.al with claim := true } } c _
        s.lpu.buffer true _)
    case passes =>
      have hpasses :
          ¬(c.data = 0 ∧ (s.seen c).attentionActive (f.counted c s.full).address = true) :=
        mt (And.imp_right (attentionActive_iff _ _).mp) hactive
      rw [takeTrail_attention (congrArg (· + 1) hp), takeAttention_passes hpasses]
      exact congrArg _ (holdChar_seen s c _ s.lpu.buffer true none)
    case high =>
      rw [takeTrail_crcHigh (congrArg (· + 1) hp)]
      exact congrArg _ (holdChar_seen s c _ s.lpu.buffer false none)
    case low =>
      intro crc o sent last released arrived ended
      rw [takeTrail_crcLow (congrArg (· + 1) hp), takeLastCrc_seen (classify_counted f c s.full _)]
      have harrived : s.crcJoined c o f.txCrc = arrived := by
        unfold State.crcJoined joinBuffer
        rfl
      have hjoined : (s.crcJoined c o (f.counted c s.full).txCrc).frameEnds o =
          arrived.frameEnds o := congrArg (State.frameEnds · o) harrived
      refine ⟨fun ho => ?_, fun ho => ?_⟩
      · refine congrArg _ (hjoined.trans ?_)
        rw [frameEnds_notGood _ _ ho]
      · refine congrArg _ (hjoined.trans ?_)
        rw [show arrived.frameEnds o = arrived.frameEnds .good from congrArg _ ho, frameEnds_good]
        show _ = ended _ _
        simp only [ended, ho]
        rfl
  case commits =>
    intro applied shaped
    rw [commitAll_eq]
    refine ⟨fun hq => if_pos hq, fun hq => if_neg ?_⟩
    rintro ⟨e, he, hqueues⟩
    rw [hq e he] at hqueues
    cases hqueues

end Sys2Proof.Machine

namespace Sys2Proof.Machine

/-! ## A byte that the parser finds inconsistent (R26) -/

section
variable {s : State} {m : Executor} {p : Parser} {address : Fin 251} {remaining : Nat} {b : Byte}

theorem takeBodyByte_faulty (h : p.faultyByte remaining b) :
    takeBodyByte s m p address remaining b = Taken.faulty m := by
  obtain ⟨hfield, hb⟩ | ⟨hfield, hb⟩ | ⟨hfield, hb⟩ | hfield := h
  case inl | inr.inl | inr.inr.inl => simp only [takeBodyByte, hfield, hb, ↓reduceIte]
  case inr.inr.inr => simp only [takeBodyByte, hfield]

theorem takeStatus_fault : (takeStatus s m p address b).fault = false := by
  unfold takeStatus
  dsimp only
  split <;> rfl

theorem takeRoom_fault (n : Nat) : (takeRoom m p address n).fault = false := by
  unfold takeRoom
  split
  · rfl
  · rfl
  · split <;> rfl

theorem takeRunning_fault (n : Nat) : (takeRunning m p n b).fault = false := by
  unfold takeRunning
  dsimp only
  split
  · split <;> rfl
  · rfl

theorem takeReply_fault (n : Nat) : (takeReply m p n b).fault = false := by
  unfold takeReply
  split
  · exact takeRunning_fault n
  · split <;> rfl

/-! ## The parser's moves (R25, R27) -/

theorem takeBodyByte_count (hf : p.field = .count) (h : ¬ p.faultyByte remaining b) :
    takeBodyByte s m p address remaining b =
      Taken.move m { p with total := b.toNat, index := 1, field := .target } := by
  have hb : ¬(b.toNat = 0 ∨ 8 < b.toNat) := fun hb => h (.inl ⟨hf, hb⟩)
  simp only [takeBodyByte, hf, hb, ↓reduceIte]

theorem takeBodyByte_target (hf : p.field = .target) :
    takeBodyByte s m p address remaining b =
      Taken.move m { p with target := b, field := .command } := by
  simp only [takeBodyByte, hf]

theorem takeBodyByte_command (hf : p.field = .command) :
    takeBodyByte s m p address remaining b =
      Taken.move m { p with command := b, field := .plen } := by
  simp only [takeBodyByte, hf]

theorem takeBodyByte_plen (hf : p.field = .plen) (h : ¬ p.faultyByte remaining b) :
    takeBodyByte s m p address remaining b =
      Taken.move m { p with params := [], field := if b = 0 then .status else .params b.toNat } := by
  have hb : ¬(32 < b.toNat ∨ remaining < b.toNat + 2) := fun hb => h (.inr (.inl ⟨hf, hb⟩))
  simp only [takeBodyByte, hf, hb, ↓reduceIte]
  have hzero : b.toNat = 0 ↔ b = 0 := by rw [← BitVec.toNat_inj]; rfl
  by_cases hb0 : b = 0
  · rw [if_pos (hzero.mpr hb0), if_pos hb0]
  · rw [if_neg (mt hzero.mp hb0), if_neg hb0]

theorem takeBodyByte_params {n : Nat} (hf : p.field = .params n) :
    takeBodyByte s m p address remaining b =
      Taken.move m { p with
        params := p.params ++ [b], field := if n = 1 then .status else .params (n - 1) } := by
  simp only [takeBodyByte, hf]

theorem takeBodyByte_status (hf : p.field = .status) :
    takeBodyByte s m p address remaining b = takeStatus s m p address b := by
  simp only [takeBodyByte, hf]

theorem takeBodyByte_rlen (hf : p.field = .rlen) (h : ¬ p.faultyByte remaining b) :
    takeBodyByte s m p address remaining b = takeRoom m p address b.toNat := by
  have hb : ¬(48 < b.toNat ∨ remaining < b.toNat) := fun hb => h (.inr (.inr (.inl ⟨hf, hb⟩)))
  simp only [takeBodyByte, hf, hb, ↓reduceIte]

theorem takeBodyByte_reply {n : Nat} (hf : p.field = .reply n) :
    takeBodyByte s m p address remaining b = takeReply m p n b := by
  simp only [takeBodyByte, hf]

theorem takeBodyByte_sound (h : ¬ p.faultyByte remaining b) :
    (takeBodyByte s m p address remaining b).fault = false := by
  cases hf : p.field with
  | count => rw [takeBodyByte_count hf h]; rfl
  | target => rw [takeBodyByte_target hf]; rfl
  | command => rw [takeBodyByte_command hf]; rfl
  | plen => rw [takeBodyByte_plen hf h]; rfl
  | params n => rw [takeBodyByte_params hf]; rfl
  | status => rw [takeBodyByte_status hf]; exact takeStatus_fault
  | rlen => rw [takeBodyByte_rlen hf h]; exact takeRoom_fault _
  | reply n => rw [takeBodyByte_reply hf]; exact takeReply_fault n
  | done => exact absurd (.inr (.inr (.inr hf))) h

/-! ## The status byte (R27) -/

/-- The Executor when the answer to the record at hand has been decided. -/
def Executor.decides (m : Executor) (p : Parser) (b : Byte) (a : Answer) : Executor :=
  { m with parser := some { p with field := .rlen, status := b, answer := a } }

section
variable {a : Answer} (ha : answerRecord s address p.target p.command p.params b = a)
include ha

theorem takeStatus_untouched (hv : a.verdict = .untouched) :
    takeStatus s m p address b =
      { me := m.decides p b a, sub := none, heldSub := none, fault := false } := by
  unfold takeStatus
  simp only [ha, hv]
  rfl

theorem takeStatus_refuse {st : Status} (hv : a.verdict = .refuse st) :
    takeStatus s m p address b =
      { me := m.decides p b a, sub := if a.writes then some st.code else none, heldSub := none,
        fault := false } := by
  unfold takeStatus
  simp only [ha, hv]
  rfl

theorem takeStatus_accept_none {out : List Byte} (hv : a.verdict = .accept out none) :
    takeStatus s m p address b =
      { me := m.decides p b a, sub := if a.writes then some 0x01 else none, heldSub := none,
        fault := false } := by
  unfold takeStatus
  simp only [ha, hv]
  rfl

theorem takeStatus_accept_some {out : List Byte} {e : Staged}
    (hv : a.verdict = .accept out (some e)) :
    takeStatus s m p address b =
      { me := (m.decides p b a).reserve s e, sub := if a.writes then some 0x01 else none,
        heldSub := none, fault := false } := by
  unfold takeStatus
  simp only [ha, hv]
  rfl

end

/-- A staged write that asks for no place and restarts nothing reserves nothing. -/
theorem reserve_of_storeless (m : Executor) (s : State) {e : Staged} (hk : e.storeKind = none)
    (hr : e ≠ .restart) : m.reserve s e = m := by
  cases e with
  | restart => exact absurd rfl hr
  | capture n fade how => cases hk
  | saveConfig how => cases hk
  | setLock how => cases hk
  | eraseStore => cases hk
  | _ => rfl

/-- What the status byte gives, from the answer a decided at it. -/
theorem takeStatus_spec {a : Answer} (ha : answerRecord s address p.target p.command p.params b = a)
    {k : Taken} (hk : takeStatus s m p address b = k) :
    k.fault = false ∧ k.heldSub = none ∧ k.me.commits = m.commits ∧
      k.me.parser = some { p with field := .rlen, status := b, answer := a } ∧
      (a.verdict = .untouched ∨ a.writes = false → k.sub = none) ∧
      (∀ st, a.verdict = .refuse st → a.writes = true → k.sub = some st.code) ∧
      (∀ out e, a.verdict = .accept out e → a.writes = true → k.sub = some 0x01) ∧
      ((∀ out e, a.verdict = .accept out (some e) → e.storeKind = none ∧ e ≠ .restart) →
        k.me = m.decides p b a) := by
  cases hv : a.verdict with
  | untouched =>
    rw [takeStatus_untouched ha hv] at hk
    subst hk
    exact ⟨rfl, rfl, rfl, rfl, fun _ => rfl, fun _ h => (nomatch h), fun _ _ h => (nomatch h),
      fun _ => rfl⟩
  | refuse st =>
    rw [takeStatus_refuse ha hv] at hk
    subst hk
    refine ⟨rfl, rfl, rfl, rfl, fun h => ?_, ?_, fun _ _ h => (nomatch h), fun _ => rfl⟩
    · exact if_neg (by simpa using h)
    · rintro _ ⟨⟩ hw
      exact if_pos hw
  | accept out staged =>
    cases staged with
    | none =>
      rw [takeStatus_accept_none ha hv] at hk
      subst hk
      refine ⟨rfl, rfl, rfl, rfl, fun h => if_neg (by simpa using h), fun _ h => (nomatch h),
        fun _ _ _ hw => if_pos hw, fun _ => rfl⟩
    | some e =>
      rw [takeStatus_accept_some ha hv] at hk
      subst hk
      refine ⟨rfl, rfl, reserve_commits _ s e, reserve_parser _ s e,
        fun h => if_neg (by simpa using h), fun _ h => (nomatch h),
        fun _ _ _ hw => if_pos hw, fun h => ?_⟩
      obtain ⟨hkind, hrestart⟩ := h out e rfl
      exact reserve_of_storeless _ s hkind hrestart

/-! ## The rlen byte (R27, R36) -/

/-- The reply area of b bytes, or the next record where it is empty. -/
theorem enterReply_byte (p : Parser) (b : Byte) (out : List Byte) (run : Bool) :
    p.enterReply b.toNat out run =
      if b = 0 then { p.nextRecord with rlen := 0 }
      else { p with rlen := b.toNat, field := .reply b.toNat, out := out, running := run } := by
  have hzero : b.toNat = 0 ↔ b = 0 := by rw [← BitVec.toNat_inj]; rfl
  unfold Parser.enterReply
  by_cases hb : b = 0
  · rw [if_pos hb, if_pos (hzero.mpr hb), hzero.mpr hb]
    unfold Parser.nextRecord
    dsimp only
    split <;> rfl
  · rw [if_neg hb, if_neg (mt hzero.mp hb)]

theorem refusalReply_eq (p : Parser) (address : Fin 251) :
    refusalReply p address =
      if p.target = 0xFF ∧ p.answer.writes = true ∧ p.command ≠ 0x30 then [natByte address.val]
      else [] := by
  rw [refusalReply]
  simp only [ne_eq, ofCode_enumerate]
  rfl

theorem replyLength_of_ne {out : List Byte} {staged : Option Staged}
    (h : ∀ v, staged ≠ some (.enumerate v)) : replyLength out staged = out.length := by
  unfold replyLength
  split
  · exact absurd rfl (h _)
  · rfl

theorem takeRoom_untouched {n : Nat} (hv : p.answer.verdict = .untouched) :
    takeRoom m p address n = Taken.move m (p.enterReply n [] false) := by
  simp only [takeRoom, hv]

theorem takeRoom_refuse {n : Nat} {st : Status} (hv : p.answer.verdict = .refuse st) :
    takeRoom m p address n =
      Taken.move m (p.enterReply n (refusalReply p address) false) := by
  simp only [takeRoom, hv]

theorem takeRoom_accept {n : Nat} {out : List Byte} {staged : Option Staged}
    (hv : p.answer.verdict = .accept out staged) (he : ∀ v, staged ≠ some (.enumerate v))
    (hn : out.length ≤ n) :
    takeRoom m p address n =
      Taken.move { m with commits := m.commits ++ staged.toList }
        (p.enterReply n (if p.answer.writes then out else []) false) := by
  have hroom : ¬ n < replyLength out staged := by rw [replyLength_of_ne he]; omega
  simp only [takeRoom, hv, hroom, ↓reduceIte]

theorem takeRoom_enumerate {n : Nat} {out : List Byte} {v : Option (Fin 251)}
    (hv : p.answer.verdict = .accept out (some (.enumerate v))) (hn : 1 ≤ n) :
    takeRoom m p address n =
      Taken.move { m with commits := m.commits ++ [.enumerate v] }
        (p.enterReply n (if p.answer.writes then out else []) true) := by
  have hroom : ¬ n < replyLength out (some (.enumerate v)) := Nat.not_lt.mpr hn
  simp only [takeRoom, hv, hroom, ↓reduceIte]
  rfl

theorem takeRoom_noRoom {n : Nat} {out : List Byte} {staged : Option Staged}
    (hv : p.answer.verdict = .accept out staged) (hn : n < replyLength out staged) :
    ∃ x : Executor, x.commits = m.commits ∧ takeRoom m p address n =
      { Taken.move x (p.enterReply n [] false) with
        heldSub := if p.answer.writes then some 0x06 else none } := by
  cases staged with
  | none =>
    refine ⟨m, rfl, ?_⟩
    simp only [takeRoom, hv, hn, ↓reduceIte]
    rfl
  | some e =>
    refine ⟨m.withdraw e, withdraw_commits m e, ?_⟩
    simp only [takeRoom, hv, hn, ↓reduceIte]
    rfl

/-! ## A reply byte (R27, R166) -/

theorem takeReply_plain {n : Nat} (hr : p.running = false) :
    takeReply m p n b =
      { Taken.move m (if n = 1 then p.nextRecord
          else { p with field := .reply (n - 1), out := p.out.tail, running := false }) with
        sub := p.out.head? } := by
  unfold takeReply
  rw [if_neg (by simp [hr])]
  cases hout : p.out with
  | nil => rfl
  | cons x xs => rfl

theorem takeReply_running {n : Nat} (hr : p.running = true) :
    takeReply m p n b = takeRunning m p n b := by
  rw [takeReply, if_pos hr]

/-- A running address that is given out. -/
theorem takeRunning_given {n : Nat} {before : List Staged} {v : Option (Fin 251)}
    (hm : m.commits = before ++ [.enumerate v]) (x : Fin 251) (hx : x.val = b.toNat)
    (hb : 1 ≤ b.toNat) :
    takeRunning m p n b =
      { Taken.move { m with commits := before ++ [.enumerate (some x)] } (p.replyTaken n []) with
        sub := some (b + 1) } := by
  have hfin : finOf? 251 b.toNat = some x := by
    rw [← hx]
    exact dif_pos x.isLt
  have hne : x ≠ 0 := by
    rintro rfl
    rw [← hx] at hb
    exact absurd hb (by decide)
  unfold takeRunning
  simp only [hfin, hm, List.dropLast_concat, hne, ↓reduceIte]

/-- A byte that is no running address: the entry is withdrawn. -/
theorem takeRunning_withdrawn {n : Nat} {before : List Staged} {v : Option (Fin 251)}
    (hm : m.commits = before ++ [.enumerate v]) (hb : b = 0 ∨ 250 < b.toNat) :
    takeRunning m p n b = Taken.move { m with commits := before } (p.replyTaken n []) := by
  unfold takeRunning
  simp only [hm, List.dropLast_concat]
  obtain rfl | hb := hb
  · rfl
  · have hfin : finOf? 251 b.toNat = none := dif_neg (by omega)
    rw [hfin]

end

/-- Settles O16: the whole frame by `passRecord_after`, a byte of several records by the parser's field. -/
theorem recordFrameCarriesTheAnswerAndCommitsWhenGood :
    Obligations.RecordFrameCarriesTheAnswerAndCommitsWhenGood := by
  refine ⟨fun c r s hl hw => ?whole, fun s m p address remaining b hb => ?bytes⟩
  case whole =>
    intro commits sent
    rw [exec_cmd, passRecord_after hl c.code r hw]
    exact ⟨fun ho => congrArg _ (if_pos ho), fun ho => congrArg _ (if_neg ho)⟩
  case bytes =>
    intro taken moved after reply
    have hreply (out : List Byte) : p.enterReply b.toNat out false = reply out :=
      enterReply_byte p b out false
    refine ⟨fun hf => takeBodyByte_count hf hb, fun hf => takeBodyByte_target hf,
      fun hf => takeBodyByte_command hf, fun hf => takeBodyByte_plen hf hb,
      fun n hf => takeBodyByte_params hf, fun hf => ?status, fun hf => ?rlen,
      fun n hf hrun => ?reply, fun n before v hf hrun hm => ?running⟩
    case status => exact takeStatus_spec rfl (takeBodyByte_status hf).symm
    case rlen =>
      have htaken : taken = takeRoom m p address b.toNat := takeBodyByte_rlen hf hb
      refine ⟨fun hv => ?_, fun st hv => ?_, fun out hv hn => ?_, fun out e hv he hn => ?_,
        fun out v hv hn => ?_, fun out e hv hn => ?_⟩
      · rw [htaken, takeRoom_untouched hv, hreply]
        rfl
      · rw [htaken, takeRoom_refuse hv, hreply, refusalReply_eq]
        rfl
      · rw [htaken, takeRoom_accept hv nofun hn, hreply]
        exact congrArg (moved · _) (by simp)
      · rw [htaken, takeRoom_accept hv (fun v h => he v (Option.some.inj h)) hn, hreply]
        rfl
      · have hne : b ≠ 0 := by rintro rfl; exact absurd hn (by decide)
        rw [htaken, takeRoom_enumerate hv hn, enterReply_byte, if_neg hne]
        simp only [reply, hne, ↓reduceIte]
        rfl
      · obtain ⟨x, hx, hroom⟩ := takeRoom_noRoom (m := m) (address := address) hv hn
        refine ⟨x, hx, ?_⟩
        rw [htaken, hroom, hreply]
        rfl
    case reply =>
      exact (takeBodyByte_reply hf).trans (takeReply_plain hrun)
    case running =>
      intro next
      have htaken : taken = takeRunning m p n b :=
        (takeBodyByte_reply hf).trans (takeReply_running hrun)
      exact ⟨fun x hx h1 => htaken.trans (takeRunning_given hm x hx h1),
        fun hout => htaken.trans (takeRunning_withdrawn hm hout)⟩

end Sys2Proof.Machine

namespace Sys2Proof.Machine

/-! ## Lists by their places -/

theorem getElem?_eq_some_getD {α : Type} {m : List α} {d : α} {i : Nat} (h : i < m.length) :
    m[i]? = some (m.getD i d) := by
  rw [List.getD_eq_getElem _ _ h, List.getElem?_eq_getElem h]

/-- A list that is another one changed place by place, written over the range of the places. -/
theorem eq_map_range {α β : Type} {n : Nat} {l : List β} {m : List α} (d : α)
    {g : Nat → α → β} (hn : m.length = n) (h : ∀ i : Nat, l[i]? = m[i]?.map (g i)) :
    l = (List.range n).map fun i => g i (m.getD i d) := by
  subst hn
  refine List.ext_getElem? fun i => ?_
  rw [h i, List.getElem?_map]
  by_cases hi : i < m.length
  · rw [getElem?_eq_some_getD (d := d) hi, List.getElem?_range hi]
    rfl
  · rw [List.getElem?_eq_none (Nat.not_lt.mp hi),
      List.getElem?_eq_none (by simpa using Nat.not_lt.mp hi)]
    rfl

theorem getD_map_range {α : Type} (g : Nat → α) (d : α) {n i : Nat} (hi : i < n) :
    ((List.range n).map g).getD i d = g i := by
  rw [List.getD_eq_getElem _ _ (by simpa using hi), List.getElem_map, List.getElem_range]

/-! ## The contexts after a run of retargets (R57, R58, R61, R64) -/

section
variable {α : Type} (place : α → Nat) (value : α → Word) (code : α → Byte)

/-- What a run of retargets makes of context i. -/
def retargeted (l : List α) (i : Nat) (c : FadeContext) : FadeContext :=
  match l.find? (fun a => decide (place a = i)) with
  | none => c
  | some a => c.retarget (value a) (code a)

theorem retargetEach_contexts {s : State} (hs : s.fe.contexts.length = 28) {l : List α}
    (hd : (l.map place).Nodup) :
    (s.retargetEach place value code l).fe.contexts =
      (List.range 28).map fun i => retargeted place value code l i (s.context i) :=
  eq_map_range restContext hs (retargetEach_getElem? place value code l hd s)

theorem retargetEach_context {s : State} {l : List α} (hd : (l.map place).Nodup) {i : Nat}
    (hi : i < s.fe.contexts.length) :
    (s.retargetEach place value code l).context i =
      retargeted place value code l i (s.context i) := by
  rw [State.context, List.getD_eq_getElem?_getD, retargetEach_getElem? place value code l hd s i,
    getElem?_eq_some_getD (d := restContext) hi]
  rfl

/-- The state after a run of retargets, from what it makes of each context. -/
theorem retargetEach_state {s : State} (hs : s.fe.contexts.length = 28) {l : List α}
    (hd : (l.map place).Nodup) {g : Nat → FadeContext}
    (hg : ∀ i, i < 28 → retargeted place value code l i (s.context i) = g i) :
    s.retargetEach place value code l =
      { s with fe := { s.fe with contexts := (List.range 28).map g } } := by
  have hmap := (retargetEach_contexts place value code hs hd).trans
    (List.map_congr_left fun i hi => hg i (List.mem_range.mp hi))
  rw [← hmap]
  exact retargetEach_only place value code l s

end

theorem find_range {n i : Nat} (hi : i < n) :
    (List.range n).find? (fun k => decide (k = i)) = some i := by
  rw [List.find?_range_eq_some]
  refine ⟨by simp, by simpa using hi, fun j hj => ?_⟩
  simpa using Nat.ne_of_lt hj

theorem retargetAll_state {s : State} (hs : s.fe.contexts.length = 28) (targets : List Word)
    (code : Byte) :
    s.retargetAll targets code =
      { s with fe := { s.fe with
        contexts := (List.range 28).map fun i => (s.context i).retarget (targets.getD i 0) code } } := by
  refine retargetEach_state _ _ _ hs (by simpa using List.nodup_range) fun i hi => ?_
  rw [retargeted, find_range hi]

/-! ## The captured set, place by place (R39, R42 to R46, R60 to R63) -/

theorem feed_channel (s : State) {i : Nat} (hi : i < 24) :
    s.feed i =
      { offset := (match (s.entry i).source with | .slot o => some o | .park _ => none),
        fade := (s.entry i).fade } := if_pos hi

theorem feed_group (s : State) (g : Nat) :
    s.feed (24 + g) =
      { offset := (match (s.group g).kind with | .slot o => some o | .none => none),
        fade := (s.group g).fade } := by
  have hg : ¬ 24 + g < 24 := by omega
  rw [State.feed, if_neg hg, Nat.add_sub_cancel_left] <;> rfl

theorem slotFor_of_no_feed (s : State) (values : List Word) {i : Nat}
    (h : (s.feed i).offset = none) : s.slotFor values i = none := by
  simp only [State.slotFor, h]

/-- The item of a place in a captured set. -/
def State.itemAt (s : State) (flags fade : Byte) (slots : List Byte) (i : Nat) : Option Item :=
  (s.slotFor (levelValues flags slots) i).map fun v =>
    { place := i, value := v, code := (s.feed i).fade.resolve fade }

theorem capturedSet_eq (s : State) (flags fade : Byte) (slots : List Byte) :
    s.capturedSet flags fade slots = (List.range 28).filterMap (s.itemAt flags fade slots) := rfl

theorem itemAt_place {s : State} {flags fade : Byte} {slots : List Byte} {i : Nat} {x : Item}
    (h : s.itemAt flags fade slots i = some x) : x.place = i := by
  obtain ⟨v, -, rfl⟩ := Option.map_eq_some_iff.mp h
  rfl

theorem places_of_filterMap {f : Nat → Option Item} (hf : ∀ i x, f i = some x → x.place = i)
    (l : List Nat) : ((l.filterMap f).map Item.place).Sublist l := by
  induction l with
  | nil => exact List.Sublist.refl _
  | cons i l ih =>
    cases hi : f i with
    | none =>
      rw [List.filterMap_cons_none hi]
      exact ih.cons i
    | some x =>
      rw [List.filterMap_cons_some hi, List.map_cons, hf i x hi]
      exact ih.cons_cons i

theorem capturedSet_nodup (s : State) (flags fade : Byte) (slots : List Byte) :
    ((s.capturedSet flags fade slots).map Item.place).Nodup :=
  (places_of_filterMap (fun _ _ => itemAt_place) _).nodup List.nodup_range

theorem find_filterMap {f : Nat → Option Item} (hf : ∀ i x, f i = some x → x.place = i) {i : Nat}
    (l : List Nat) (hi : i ∈ l) :
    (l.filterMap f).find? (fun x => decide (x.place = i)) = f i := by
  induction l with
  | nil => cases hi
  | cons k l ih =>
    by_cases hk : k = i
    · subst hk
      cases hfk : f k with
      | some x => rw [List.filterMap_cons_some hfk, List.find?_cons_of_pos (by simp [hf k x hfk])]
      | none =>
        rw [List.filterMap_cons_none hfk, List.find?_eq_none]
        intro x hx hplace
        obtain ⟨j, -, hj⟩ := List.mem_filterMap.mp hx
        have hjk : j = k := (hf j x hj).symm.trans (of_decide_eq_true hplace)
        rw [hjk, hfk] at hj
        cases hj
    · have hmem : i ∈ l := (List.mem_cons.mp hi).resolve_left (Ne.symm hk)
      cases hfk : f k with
      | none => rw [List.filterMap_cons_none hfk, ih hmem]
      | some x =>
        rw [List.filterMap_cons_some hfk, List.find?_cons_of_neg (by simp [hf k x hfk, hk]), ih hmem]

theorem capturedSet_find (s : State) (flags fade : Byte) (slots : List Byte) {i : Nat} (hi : i < 28) :
    (s.capturedSet flags fade slots).find? (fun x => decide (x.place = i)) =
      s.itemAt flags fade slots i :=
  find_filterMap (fun _ _ => itemAt_place) _ (List.mem_range.mpr hi)

/-- A place that the frame has a value for is retargeted to it, any other stays. -/
theorem retargetItems_state (s : State) {t : State} (ht : t.fe.contexts.length = 28)
    (flags fade : Byte) (slots : List Byte) :
    t.retargetItems (s.capturedSet flags fade slots) =
      { t with fe := { t.fe with
        contexts := (List.range 28).map fun i =>
          match s.slotFor (levelValues flags slots) i with
          | some v => (t.context i).retarget v ((s.feed i).fade.resolve fade)
          | none => t.context i } } := by
  rw [retargetItems_eq]
  refine retargetEach_state _ _ _ ht (capturedSet_nodup s flags fade slots) fun i hi => ?_
  rw [retargeted, capturedSet_find s flags fade slots hi, State.itemAt]
  cases s.slotFor (levelValues flags slots) i <;> rfl

theorem retargetPark_state {s : State} (hs : s.fe.contexts.length = 28) (code : Byte) :
    s.retargetPark code =
      { s with fe := { s.fe with
        contexts := (List.range 28).map fun i =>
          match (if i < 24 then some (s.entry i).source else none) with
          | some (.park b) => (s.context i).retarget (parkLevel b) code
          | some (.slot _) => s.context i
          | none => s.context i } } := by
  rw [retargetPark_eq]
  refine retargetEach_state _ _ _ hs (parks_nodup s) fun i _ => ?_
  rw [retargeted, parks_find]
  by_cases hi : i < 24
  · simp only [hi, ↓reduceIte]
    cases (s.entry i).source <;> rfl
  · simp only [hi, ↓reduceIte]

end Sys2Proof.Machine

namespace Sys2Proof.Machine

/-! ## Bypass (R7, R8) -/

theorem receive_bypass {s : State} (hb : s.lpu.bypass = true) (c : LineChar) :
    s.receive c = { s with lpu := { s.lpu with lout := s.lpu.lout ++ [c] } } := by
  rw [State.receive, if_pos hb]
  rfl

theorem keepPace_of_idle {s : State} (ht : s.lpu.tx = none) (hb : s.lpu.buffer = []) :
    s.keepPace = s := by
  have hturn (n : Nat) : State.keepPaceN n s = s := by
    induction n with
    | zero => rfl
    | succ n ih => rw [State.keepPaceN, transmit_of_empty hb, charSent_of_idle ht, ih]
  rw [State.keepPace, charSent_of_idle ht, hturn]

theorem foldl_pass_bypass (cs : List LineChar) {s : State} (hb : s.lpu.bypass = true)
    (ht : s.lpu.tx = none) (hempty : s.lpu.buffer = []) :
    cs.foldl State.pass s = { s with lpu := { s.lpu with lout := s.lpu.lout ++ cs } } := by
  induction cs generalizing s with
  | nil => rw [List.append_nil]; rfl
  | cons c cs ih =>
    rw [List.foldl_cons, State.pass, keepPace_of_idle ht hempty, receive_bypass hb]
    refine (ih (s := s.setLpu { s.lpu with lout := s.lpu.lout ++ [c] }) hb ht hempty).trans ?_
    rw [State.setLpu_lpu, List.append_assoc, List.singleton_append]
    rfl

/-- Settles O4: character by character, and a whole frame by induction over its characters. -/
theorem bypassPassesEverythingUnchanged : Obligations.BypassPassesEverythingUnchanged := by
  intro s hb
  refine ⟨fun c => congrArg _ (receive_bypass hb c), fun ht hempty => ?frames⟩
  have hframe (kind : Byte) (body : List Byte) (tail : FrameTail) :
      s.passFrame kind body tail =
        { s with lpu := { s.lpu with lout := s.lpu.lout ++ frameChars kind body tail } } :=
    foldl_pass_bypass _ hb ht hempty
  refine ⟨fun kind body tail => congrArg _ (hframe kind body tail),
    fun flags fade count slots tail => congrArg _ (hframe _ _ tail), fun c r => ?_,
    fun code r => congrArg _ (hframe _ _ r.tail)⟩
  rw [exec_cmd]
  exact congrArg _ (hframe _ _ r.tail)

/-! ## Frames that change only the link (R10, R17, R22, R24, R26) -/

/-- Settles O12. -/
theorem framesThatChangeOnlyTheLink : Obligations.FramesThatChangeOnlyTheLink := by
  refine ⟨fun kind body tail s hl hk hn => congrArg _ (passForeign_after hl hk body tail hn),
    fun s hl => ⟨fun kind body tail hn hm => congrArg _ (passFrame_overlong hl kind body tail hn hm),
      fun flags fade count slots tail hn hm => congrArg _ (passFrame_overlong hl _ _ tail ?_ ?_)⟩,
    fun flags fade count slots tail s hl => ⟨fun hc ho => ?consistent, fun hc hn => ?inconsistent⟩,
    fun s m p address remaining b => ⟨takeBodyByte_faulty, takeBodyByte_sound⟩,
    fun c s f p h => ?body⟩
  case consistent =>
    exact congrArg _ ((passLevel_after hl flags fade count slots tail hc).trans (if_neg ho))
  case inconsistent =>
    exact congrArg _ (passLevel_inconsistent hl flags fade count slots tail hc hn)
  case body =>
    intro remaining held g taken
    refine ⟨fun hfault => exec_body_management h (takeBodyByte_faulty hfault),
      fun q hlast hsound hq hshort => ?_⟩
    have htaken : takeBodyByte (s.seen c) s.me p f.address (f.length + 1 - f.position) c.data = taken :=
      rfl
    have hmark : taken.short f = true := decide_eq_true ⟨hlast, q, hq, hshort⟩
    rw [exec_body_management h htaken, hmark, Bool.or_true]
    rfl
  · have hlen : (wordBytes count).length = 2 := rfl
    simp only [List.length_cons, List.length_append, hlen]
    omega
  · have hlen : (wordBytes count).length = 2 := rfl
    simp only [List.length_cons, List.length_append, hlen]
    omega

/-- Settles O13: by `passLevel_after`, the outcome being GOOD. -/
theorem goodLevelFrameHandsOverItsCapturedSet : Obligations.GoodLevelFrameHandsOverItsCapturedSet := by
  intro flags fade count slots tail s hl hc hcrc
  have hgood (kind : Byte) (body : List Byte) : frameOutcome false kind body tail = .good := by
    rw [frameOutcome, hcrc, arrivalOutcome_correct]
  exact congrArg _ ((passLevel_after hl flags fade count slots tail hc).trans (if_pos (hgood _ _)))

/-! ## The captured set by the source state (R60 to R63) -/

/-- A GOOD level frame with items has come: the loss timer restarts, the stream is there (R60). -/
def State.streamSeen (s : State) : State :=
  s.setSs { s.ss with lossTimer := s.ss.lossTimer.restarted s.node.lossTimeout, live := true }

theorem restarted_eq (t : LossTimer) (code : Byte) :
    t.restarted code = if t = .off then .off else .running (code.toNat * 100) := by
  cases t <;> rfl

theorem takeCapturedSet_of_ne {s : State} {items : List Item} (h : items ≠ []) (code : Byte)
    (seize : Bool) :
    s.takeCapturedSet items code seize =
      match s.ss.source with
      | .stream => s.streamSeen.retargetItems items
      | .cue _ => if seize then s.streamSeen.toStream items code else s.streamSeen
      | .lossHold => s.streamSeen.toStream items code
      | .lossCue _ => s.streamSeen.toStream items code
      | .lossBlack => s.streamSeen.toStream items code := by
  cases items with
  | nil => exact absurd rfl h
  | cons x xs => rfl

theorem takeCapturedSet_ignored {s : State} {items : List Item} (h : items ≠ []) (code : Byte)
    {seize : Bool} (hi : ∃ n, s.ss.source = .cue n ∧ seize = false) :
    s.takeCapturedSet items code seize = s.streamSeen := by
  obtain ⟨n, hn, rfl⟩ := hi
  rw [takeCapturedSet_of_ne h, hn]
  rfl

theorem takeCapturedSet_toStream {s : State} {items : List Item} (h : items ≠ []) (code : Byte)
    {seize : Bool} (hi : ¬∃ n, s.ss.source = .cue n ∧ seize = false) (hs : s.ss.source ≠ .stream) :
    s.takeCapturedSet items code seize = s.streamSeen.toStream items code := by
  rw [takeCapturedSet_of_ne h]
  cases hsrc : s.ss.source with
  | stream => exact absurd hsrc hs
  | cue n =>
    have hseize : seize = true := by
      by_contra hno
      exact hi ⟨n, hsrc, Bool.eq_false_iff.mpr hno⟩
    exact if_pos hseize
  | lossHold => rfl
  | lossCue n => rfl
  | lossBlack => rfl

/-- A place that a slot feeds is no PARK channel. -/
theorem entry_of_slotFor {s : State} {values : List Word} {i : Nat} {v : Word}
    (h : s.slotFor values i = some v) (hi : i < 24) : ∃ o, (s.entry i).source = .slot o := by
  cases he : (s.entry i).source with
  | slot o => exact ⟨o, rfl⟩
  | park b =>
    have hfeed : (s.feed i).offset = none := by rw [feed_channel s hi, he]
    rw [slotFor_of_no_feed s values hfeed] at h
    cases h

/-- Where the source becomes STREAM, the PARK channels retarget with the frame's fade code, then the
captured places (R58, R62, R63). -/
theorem toStream_state (s : State) {t : State} (ht : t.fe.contexts.length = 28) (hpt : t.pt = s.pt)
    (flags fade : Byte) (slots : List Byte) :
    t.toStream (s.capturedSet flags fade slots) fade =
      { t with
        ss := { t.ss with source := .stream }
        fe := { t.fe with
          contexts := (List.range 28).map fun i =>
            match s.slotFor (levelValues flags slots) i with
            | some v => (t.context i).retarget v ((s.feed i).fade.resolve fade)
            | none =>
              match (if i < 24 then some (s.entry i).source else none) with
              | some (.park b) => (t.context i).retarget (parkLevel b) fade
              | some (.slot _) => t.context i
              | none => t.context i } } := by
  have hentry (i : Nat) : t.entry i = s.entry i := by rw [State.entry, State.entry, hpt]
  rw [State.toStream, retargetPark_state (s := t.setSs { t.ss with source := .stream }) ht,
    retargetItems_state s (by simp)]
  refine congrArg (fun l => ({ t with
    ss := { t.ss with source := .stream }, fe := { t.fe with contexts := l } } : State))
    (List.map_congr_left fun i hi => ?_)
  rw [State.context, getD_map_range _ _ (List.mem_range.mp hi)]
  have hcontext : (t.setSs { t.ss with source := .stream }).context i = t.context i := rfl
  rw [show (t.setSs { t.ss with source := .stream }).entry i = s.entry i from hentry i, hcontext]
  cases hv : s.slotFor (levelValues flags slots) i with
  | none => rfl
  | some v =>
    by_cases h24 : i < 24
    · obtain ⟨o, ho⟩ := entry_of_slotFor hv h24
      rw [if_pos h24, ho]
    · rw [if_neg h24]

/-- Settles O14: the feeds by their definition, the captured set by whether the source changes. -/
theorem capturedSetBySourceState : Obligations.CapturedSetBySourceState := by
  refine ⟨fun s => ⟨fun i hi o ho => ?slot, fun i hi b hb => ?park, fun g _ o ho => ?master,
    fun g _ ho => ?noMaster, fun i hi flags fade slots x hx => ?noItem⟩,
    fun flags fade slots seize s hs => ?set⟩
  case slot => rw [feed_channel s hi, ho]
  case park => rw [feed_channel s hi, hb]
  case master => rw [feed_group, ho]
  case noMaster => rw [feed_group, ho]
  case noItem =>
    rw [capturedSet_eq] at hx
    obtain ⟨j, -, hj⟩ := List.mem_filterMap.mp hx
    rw [itemAt_place hj]
    rintro rfl
    rw [State.itemAt, slotFor_of_no_feed s _ hi] at hj
    cases hj
  case set =>
    intro items values timer ignored
    have hseen : s.streamSeen = { s with ss := { s.ss with lossTimer := timer, live := true } } :=
      congrArg (fun x => s.setSs { s.ss with lossTimer := x, live := true }) (restarted_eq _ _)
    refine ⟨fun h => ?empty, fun h hi => ?kept, fun h hi => ?taken⟩
    case empty => rw [h]; rfl
    case kept => rw [takeCapturedSet_ignored h fade hi, hseen]
    case taken =>
      by_cases hsrc : s.ss.source = .stream
      · have htaken : s.takeCapturedSet items fade seize = s.streamSeen.retargetItems items := by
          rw [takeCapturedSet_of_ne h, hsrc]
        rw [htaken]
        refine (retargetItems_state s (t := s.streamSeen) hs.contexts flags fade slots).trans ?_
        rw [hseen]
        simp only [hsrc, ne_eq, not_true_eq_false, and_false, ↓reduceIte]
        rfl
      · rw [takeCapturedSet_toStream h fade hi hsrc]
        refine (toStream_state s (t := s.streamSeen) hs.contexts rfl flags fade slots).trans ?_
        rw [hseen]
        simp only [ne_eq, hsrc, not_false_eq_true, and_true]
        rfl

/-! ## Frames back to back (R4, R9, R10) -/

theorem keepPace_keepPace {s : State} (h : LinkRest s.keepPace) :
    s.keepPace.keepPace = s.keepPace := keepPace_rest h

/-- A frame sees the node only when what waited has been sent. -/
theorem passFrame_keepPace {s : State} (h : LinkRest s.keepPace) (kind : Byte) (body : List Byte)
    (tail : FrameTail) : s.passFrame kind body tail = s.keepPace.passFrame kind body tail := by
  have hopener (c : LineChar) : s.pass c = s.keepPace.pass c := by
    rw [State.pass, State.pass, keepPace_keepPace h]
  rw [State.passFrame, State.passFrame, frameChars, List.foldl_cons, List.foldl_cons, hopener]

/-- The node with its tracker in IDLE. -/
def State.asIdle (s : State) : State := { s with lpu := { s.lpu with tracker := .idle } }

/-- The tracker is in IDLE, or in PASS on a link that receives. -/
def State.betweenFrames (s : State) : Prop :=
  s.lpu.tracker = .idle ∨ (s.lpu.tracker = .pass ∧ s.receives)

theorem asIdle_of_idle {s : State} (h : s.lpu.tracker = .idle) : s.asIdle = s := by
  rw [State.asIdle, ← h]

theorem nodeReset_asIdle (s : State) : s.asIdle.nodeReset = s.nodeReset := by
  unfold State.nodeReset State.cutOffStore
  simp only [State.asIdle]
  split <;> rfl

theorem resetNode_tracker (s : State) : s.resetNode.lpu.tracker = .idle := by
  have hreset : s.nodeReset.lpu.tracker = .idle := rfl
  unfold State.resetNode State.leaveReset
  split
  · rw [(enterStart_link s.nodeReset).2]
    exact hreset
  · exact hreset

/-- What the transmitter does at the end of a character and at the head of the buffer does not depend on
the tracker. -/
theorem transmit_asIdle {s : State} (h : s.betweenFrames) :
    s.asIdle.transmit = s.transmit.asIdle ∧ s.transmit.betweenFrames := by
  have hcases : s.transmit = s ∨
      ∃ p rest, s.transmit = s.setLpu { s.lpu with tx := some p, buffer := rest } := by
    unfold State.transmit
    split
    · split
      · exact .inr ⟨_, _, rfl⟩
      · exact .inl rfl
    · exact .inl rfl
  refine ⟨?_, ?_⟩
  · unfold State.transmit
    simp only [State.asIdle]
    split
    · split <;> rfl
    · rfl
  · obtain hsame | ⟨p, rest, htaken⟩ := hcases
    · rwa [hsame]
    · rw [htaken]
      exact h

theorem frameForwarded_asIdle {s : State} (h : s.betweenFrames) (p : Place) :
    s.asIdle.frameForwarded p = (s.frameForwarded p).asIdle ∧
      (s.frameForwarded p).betweenFrames := by
  unfold State.frameForwarded
  have hmc : s.asIdle.mc = s.mc := rfl
  rw [hmc]
  split
  · have hreset : s.asIdle.resetNode = s.resetNode := by
      rw [State.resetNode, nodeReset_asIdle]
      rfl
    rw [hreset]
    exact ⟨(asIdle_of_idle (resetNode_tracker s)).symm, .inl (resetNode_tracker s)⟩
  · exact ⟨rfl, h⟩

theorem charSent_asIdle {s : State} (h : s.betweenFrames) :
    s.asIdle.charSent = s.charSent.asIdle ∧ s.charSent.betweenFrames := by
  cases ht : s.lpu.tx with
  | none =>
    rw [charSent_of_idle ht, charSent_of_idle (s := s.asIdle) ht]
    exact ⟨rfl, h⟩
  | some p =>
    rw [charSent_of_sending ht, charSent_of_sending (s := s.asIdle) ht]
    exact frameForwarded_asIdle (s := s.afterSending p) h p

theorem keepPace_asIdle {s : State} (h : s.betweenFrames) :
    s.asIdle.keepPace = s.keepPace.asIdle ∧ s.keepPace.betweenFrames := by
  have hturns (n : Nat) : ∀ {s : State}, s.betweenFrames →
      s.asIdle.keepPaceN n = (s.keepPaceN n).asIdle ∧ (s.keepPaceN n).betweenFrames := by
    induction n with
    | zero => exact fun h => ⟨rfl, h⟩
    | succ n ih =>
      intro s h
      obtain ⟨htaken, hbetween⟩ := transmit_asIdle h
      obtain ⟨hsent, hbetween⟩ := charSent_asIdle hbetween
      unfold State.keepPaceN
      rw [htaken, hsent]
      exact ih hbetween
  obtain ⟨hsent, hbetween⟩ := charSent_asIdle h
  rw [State.keepPace, hsent]
  exact hturns bufferPlaces hbetween

/-- An opener finds the tracker in PASS as in IDLE. -/
theorem receive_opener_asIdle {s : State} (h : s.betweenFrames) {c : LineChar} (hm : c.mark = true) :
    s.asIdle.receive c = s.receive c := by
  obtain hidle | ⟨hpass, hs⟩ := h
  · rw [asIdle_of_idle hidle]
  · have hs' : s.asIdle.receives := hs
    rw [receive_eq hs, receive_eq hs', takeChar_eq, takeChar_eq, if_pos hm, if_pos hm,
      takeOpener_between c (.inr hpass), takeOpener_between (s := s.asIdle) c (.inl rfl)]
    rfl

theorem passFrame_asIdle {s : State} (h : s.betweenFrames) (kind : Byte) (body : List Byte)
    (tail : FrameTail) : s.passFrame kind body tail = s.asIdle.passFrame kind body tail := by
  obtain ⟨hpace, hbetween⟩ := keepPace_asIdle h
  have hopener : s.asIdle.pass (freshChar kind true) = s.pass (freshChar kind true) := by
    rw [State.pass, hpace]
    exact receive_opener_asIdle hbetween rfl
  rw [State.passFrame, State.passFrame, frameChars, List.foldl_cons, List.foldl_cons, hopener]

/-- Nodes that every frame takes to the same state are the same for the commands of whole frames. -/
theorem exec_frames_congr {s t : State}
    (h : ∀ (kind : Byte) (body : List Byte) (tail : FrameTail),
      s.passFrame kind body tail = t.passFrame kind body tail) :
    (∀ (c : Cmd) (r : Record), exec (c.instr r) s = exec (c.instr r) t) ∧
    (∀ (code : Byte) (r : Record),
      exec (.unknownCommand code r) s = exec (.unknownCommand code r) t) ∧
    (∀ (flags fade : Byte) (count : Word) (slots : List Byte) (tail : FrameTail),
      exec (.levelFrame flags fade count slots tail) s =
        exec (.levelFrame flags fade count slots tail) t) ∧
    (∀ (kind : Byte) (body : List Byte) (tail : FrameTail),
      exec (.foreignKindFrame kind body tail) s = exec (.foreignKindFrame kind body tail) t) := by
  refine ⟨fun c r => ?_, fun code r => congrArg Host.Outcome.next (h _ _ _),
    fun flags fade count slots tail => congrArg Host.Outcome.next (h _ _ _),
    fun kind body tail => congrArg Host.Outcome.next (h _ _ _)⟩
  rw [exec_cmd, exec_cmd]
  exact congrArg Host.Outcome.next (h _ _ _)

/-- Settles O15: in both parts the frame's opener finds the two nodes in the same state. -/
theorem framesBackToBack : Obligations.FramesBackToBack :=
  ⟨fun _ h => exec_frames_congr (passFrame_keepPace h),
    fun _ hs hpass => exec_frames_congr (passFrame_asIdle (.inr ⟨hpass, hs⟩))⟩

end Sys2Proof.Machine

namespace Sys2Proof.Machine

/-! ## Numbers from bytes -/

theorem finOf_of_lt {n v : Nat} (h : v < n) : finOf? n v = some ⟨v, h⟩ := dif_pos h

theorem finOf_of_ge {n v : Nat} (h : n ≤ v) : finOf? n v = none := dif_neg (Nat.not_lt.mpr h)

theorem finOf_val {n : Nat} (x : Fin n) : finOf? n x.val = some x := finOf_of_lt x.isLt

theorem finOf_eq_some {n v : Nat} {x : Fin n} : finOf? n v = some x ↔ x.val = v := by
  constructor
  · intro h
    by_cases hv : v < n
    · rw [finOf_of_lt hv] at h
      rw [← Option.some.inj h]
    · rw [finOf_of_ge (Nat.not_lt.mp hv)] at h
      cases h
  · rintro rfl
    exact finOf_val x

theorem finOf_eq_none {n v : Nat} : finOf? n v = none ↔ n ≤ v := by
  constructor
  · intro h
    by_contra hv
    rw [finOf_of_lt (Nat.not_le.mp hv)] at h
    cases h
  · exact finOf_of_ge

theorem finOf_natByte {n : Nat} (x : Fin n) (hn : n ≤ 256) :
    finOf? n (natByte x.val).toNat = some x := by
  rw [natByte_toNat (x.isLt.trans_le hn), finOf_val]

/-! ## The bits and the bytes of a word (R28, R29) -/

theorem has_be16_low (hi lo : Byte) {k : Nat} (hk : k < 8) : has (be16 hi lo) k = has lo k := by
  unfold has be16
  rw [BitVec.getLsbD_append]
  simp [hk]

/-! ## WRITE_NODE's fields (R165, Table 2-12) -/

theorem selected_eq_some {α : Type} {mask : Word} {k : Nat} {v : Option α} {x : Option α} :
    selected mask k v = some x ↔
      if has mask k = true then ∃ a, v = some a ∧ x = some a else x = none := by
  unfold selected
  by_cases hk : has mask k = true
  · simp only [hk, ↓reduceIte, Option.map_eq_some_iff]
    exact exists_congr fun a => and_congr_right fun _ => eq_comm
  · simp only [hk, Bool.false_eq_true, ↓reduceIte, Option.some.injEq]
    exact eq_comm

theorem selected_eq_none {α : Type} {mask : Word} {k : Nat} {v : Option α} :
    selected mask k v = none ↔ has mask k = true ∧ v = none := by
  unfold selected
  by_cases hk : has mask k = true <;> simp [hk]

/-- The form of the eleven bytes that WRITE_NODE needs, field by field. -/
theorem nodeWrite_ofBytes_eq_some {mask : Word} {b1 b2 b3 b4 b5 b6 b7 b8 b9 b10 b11 : Byte}
    {w : NodeWrite} :
    NodeWrite.ofBytes? mask [b1, b2, b3, b4, b5, b6, b7, b8, b9, b10, b11] = some w ↔
      selected mask 0 (finOf? 251 b1.toNat) = some w.address ∧
      selected mask 1 (finOf? 1024 (be16 b2 b3).toNat) = some w.slotBase ∧
      selected mask 2 (some b4) = some w.lossTimeout ∧
      selected mask 3 (LossAction.ofByte? b5) = some w.lossAction ∧
      selected mask 4 (finOf? 16 b6.toNat) = some w.lossScene ∧
      selected mask 5 (some b7) = some w.lossFade ∧
      selected mask 6 (finOf? 65 b8.toNat) = some w.ceiling ∧
      selected mask 7 (finOf? 4 b9.toNat) = some w.periodCode ∧
      selected mask 8 (some (optionsOf b10)) = some w.options ∧
      selected mask 9 (finOf? 4 b11.toNat) = some w.confirmCode := by
  obtain ⟨address, slotBase, lossTimeout, lossAction, lossScene, lossFade, ceiling, periodCode,
    options, confirmCode⟩ := w
  simp only [NodeWrite.ofBytes?, Option.bind_eq_bind, Option.bind_eq_some_iff, Option.some.injEq,
    NodeWrite.mk.injEq]
  constructor
  · rintro ⟨_, h0, _, h1, _, h2, _, h3, _, h4, _, h5, _, h6, _, h7, _, h8, _, h9, rfl, rfl, rfl, rfl,
      rfl, rfl, rfl, rfl, rfl, rfl⟩
    exact ⟨h0, h1, h2, h3, h4, h5, h6, h7, h8, h9⟩
  · rintro ⟨h0, h1, h2, h3, h4, h5, h6, h7, h8, h9⟩
    exact ⟨_, h0, _, h1, _, h2, _, h3, _, h4, _, h5, _, h6, _, h7, _, h8, _, h9, rfl, rfl, rfl, rfl,
      rfl, rfl, rfl, rfl, rfl, rfl⟩

theorem nodeWrite_length {mask : Word} {bytes : List Byte} {w : NodeWrite}
    (h : NodeWrite.ofBytes? mask bytes = some w) :
    ∃ b1 b2 b3 b4 b5 b6 b7 b8 b9 b10 b11, bytes = [b1, b2, b3, b4, b5, b6, b7, b8, b9, b10, b11] := by
  unfold NodeWrite.ofBytes? at h
  split at h
  · exact ⟨_, _, _, _, _, _, _, _, _, _, _, rfl⟩
  · cases h

theorem selected_isSome {α : Type} {mask : Word} {k : Nat} {v x : Option α}
    (h : selected mask k v = some x) : x.isSome = has mask k := by
  rw [selected_eq_some] at h
  by_cases hk : has mask k = true
  · rw [if_pos hk] at h
    obtain ⟨a, -, rfl⟩ := h
    rw [hk]
    rfl
  · rw [if_neg hk] at h
    rw [h, Bool.eq_false_iff.mpr hk]
    rfl

/-- The mask alone says whether the address and the ceiling are written. -/
theorem nodeWrite_selects {mask : Word} {bytes : List Byte} {w : NodeWrite}
    (h : NodeWrite.ofBytes? mask bytes = some w) :
    w.address.isSome = has mask 0 ∧ w.ceiling.isSome = has mask 6 := by
  obtain ⟨b1, b2, b3, b4, b5, b6, b7, b8, b9, b10, b11, rfl⟩ := nodeWrite_length h
  obtain ⟨haddress, -, -, -, -, -, hceiling, -⟩ := nodeWrite_ofBytes_eq_some.mp h
  exact ⟨selected_isSome haddress, selected_isSome hceiling⟩

/-! ## Runs of entries and points -/

theorem patchEntries_cons_eq_some {a b c d : Byte} {rest : List Byte} {es : List PatchEntry} :
    patchEntries? (a :: b :: c :: d :: rest) = some es ↔
      ∃ e es', PatchEntry.ofBytes? a b c d = some e ∧ patchEntries? rest = some es' ∧
        es = e :: es' := by
  rw [patchEntries?]
  cases PatchEntry.ofBytes? a b c d with
  | none => simp
  | some e =>
    cases patchEntries? rest with
    | none => simp
    | some es' => simp [eq_comm]

theorem patchEntries_length : ∀ {bytes : List Byte} {es : List PatchEntry},
    patchEntries? bytes = some es → bytes.length = 4 * es.length
  | [], es, h => by
    cases h
    rfl
  | [_], _, h => by cases h
  | [_, _], _, h => by cases h
  | [_, _, _], _, h => by cases h
  | a :: b :: c :: d :: rest, es, h => by
    obtain ⟨e, es', -, hrest, rfl⟩ := patchEntries_cons_eq_some.mp h
    have ih := patchEntries_length hrest
    simp only [List.length_cons, ih]
    omega

theorem wordsOf_flatMap (points : List Word) : wordsOf (points.flatMap wordBytes) = points := by
  induction points with
  | nil => rfl
  | cons p ps ih =>
    have hbytes : (p :: ps).flatMap wordBytes = hiByte p :: loByte p :: ps.flatMap wordBytes := rfl
    rw [hbytes, wordsOf, be16_bytes, ih]

theorem length_flatMap_const {α β : Type} {f : α → List β} {k : Nat} (hf : ∀ x, (f x).length = k)
    (l : List α) : (l.flatMap f).length = k * l.length := by
  induction l with
  | nil => rfl
  | cons x xs ih => rw [List.flatMap_cons, List.length_append, hf, ih, List.length_cons]; ring

theorem patchEntry_toBytes_length (e : PatchEntry) : e.toBytes.length = 4 := by
  unfold PatchEntry.toBytes
  dsimp only
  split <;> rfl

theorem groupRecord_toBytes_length (r : GroupRecord) : r.toBytes.length = 3 := by
  unfold GroupRecord.toBytes
  split <;> rfl

end Sys2Proof.Machine

namespace Sys2Proof.Machine

/-! ## A record's frame from the verdict of its command (R158 to R162) -/

theorem directed_ne_broadcast {s : State} {r : Record} (h : s.directed r) :
    r.target ≠ broadcastTarget := address_ne_broadcast s r h.1

/-- The form of the command is right: a read is sent to the node alone, ENUMERATE and ADDRESS_BY_ID to
all. -/
structure RightForm (s : State) (c : Cmd) (r : Record) : Prop where
  read : c.isRead = true → r.target ≠ broadcastTarget
  all : c.onlyBroadcast = true → r.target = broadcastTarget

theorem RightForm.of_read {s : State} {c : Cmd} {r : Record} (h : s.directed r)
    (hc : c.onlyBroadcast = false) : RightForm s c r where
  read _ := directed_ne_broadcast h
  all h' := by rw [hc] at h'; cases h'

theorem RightForm.of_plain {s : State} {c : Cmd} {r : Record} (hr : c.isRead = false)
    (hc : c.onlyBroadcast = false) : RightForm s c r where
  read h := by rw [hr] at h; cases h
  all h := by rw [hc] at h; cases h

theorem RightForm.of_broadcast {s : State} {c : Cmd} {r : Record} (hr : c.isRead = false)
    (hb : r.target = broadcastTarget) : RightForm s c r where
  read h := by rw [hr] at h; cases h
  all _ := hb

/-- What the command's own checks say of the record. -/
def State.judged (s : State) (c : Cmd) (r : Record) : Verdict :=
  judgeCommand s s.node.address (decide (r.target = broadcastTarget)) c r.params

theorem verdict_eq_judged {s : State} {c : Cmd} {r : Record} (h : RightForm s c r) :
    s.verdict c.code r = s.judged c r := verdict_cmd s c r h.read h.all

section
variable {s : State} {c : Cmd} {r : Record} (hl : LinkRest s) (hw : r.wellFormed = true)
  (ht : s.takes r)
include hl hw ht

theorem exec_of_refusal {st : Status} (hv : s.verdict c.code r = .refuse st) :
    exec (c.instr r) s = .next (s.afterRefusal c.code r st) := by
  rw [exec_cmd, passRecord_refused hl c.code hw ht st hv]

theorem exec_refused {st : Status} (hf : RightForm s c r) (hj : s.judged c r = .refuse st) :
    exec (c.instr r) s = .next (s.afterRefusal c.code r st) :=
  exec_of_refusal hl hw ht ((verdict_eq_judged hf).trans hj)

end

theorem exec_untouched {s : State} {c : Cmd} {r : Record} (hl : LinkRest s)
    (hw : r.wellFormed = true) (hv : s.takes r → s.verdict c.code r = .untouched) :
    exec (c.instr r) s = .next (s.afterUntouched c.code r) := by
  rw [exec_cmd, passRecord_untouched hl c.code hw hv]

/-- An accepted record that stages nothing. -/
theorem exec_reply {s : State} {c : Cmd} {r : Record} (h : DirectedRecord s r)
    (hc : c.onlyBroadcast = false) {out : List Byte} (hj : s.judged c r = .accept out none)
    (hroom : out.length ≤ r.reply.length) :
    exec (c.instr r) s = .next (s.afterAccepted c.code r out s) := by
  rw [exec_cmd, passRecord_accepted h.rest c.code h.wf (.inr h.directed) h.crc out none
    ((verdict_eq_judged (.of_read h.directed hc)).trans hj) nofun hroom]
  rfl

/-- An accepted record that stages a write other than RESTART and ENUMERATE. -/
theorem exec_staged {s : State} {c : Cmd} {r : Record} (hl : LinkRest s) (hw : r.wellFormed = true)
    (ht : s.takes r) (hcrc : r.tail.crc = .correct) (hf : RightForm s c r) {out : List Byte}
    {e : Staged} (hj : s.judged c r = .accept out (some e)) (hroom : out.length ≤ r.reply.length)
    (he : ∀ v, e ≠ .enumerate v) (hr : e ≠ .restart) :
    exec (c.instr r) s = .next (s.afterAccepted c.code r out (s.commitAll [e])) := by
  have hrestart : commitsRestart [e] = false := by
    rw [commitsRestart, List.contains_eq_mem, decide_eq_false_iff_not, List.mem_singleton]
    exact hr.symm
  rw [exec_cmd, passRecord_accepted hl c.code hw ht hcrc out (some e)
    ((verdict_eq_judged hf).trans hj) (fun v h => he v (Option.some.inj h)) hroom]
  rw [Option.toList_some, hrestart]
  rfl

/-- The same with no reply, as every write answers. -/
theorem exec_write {s : State} {c : Cmd} {r : Record} (h : TakenRecord s r) (hf : RightForm s c r)
    {e : Staged} (hj : s.judged c r = .accept [] (some e)) (he : ∀ v, e ≠ .enumerate v)
    (hr : e ≠ .restart) :
    exec (c.instr r) s = .next (s.afterAccepted c.code r [] (s.commitAll [e])) :=
  exec_staged h.rest h.wf h.takes h.crc hf hj (Nat.zero_le _) he hr

/-! ## Records for others, and unknown codes (R158, R160) -/

theorem ofCode_of_unknown : ∀ code : Byte, code ∉ commandCodes → Cmd.ofCode? code = none := by
  decide

theorem verdict_unknown {s : State} {code : Byte} (h : code ∉ commandCodes) (r : Record) :
    s.verdict code r = .refuse .unknown := by
  simp only [State.verdict, judge, ofCode_of_unknown code h]

theorem ofCode_code (c : Cmd) : Cmd.ofCode? c.code = some c := by
  cases c <;> rfl

theorem verdict_broadcastRead {s : State} {c : Cmd} {r : Record} (hc : c.isRead = true)
    (hb : r.target = broadcastTarget) : s.verdict c.code r = .untouched := by
  simp only [State.verdict, judge, ofCode_code, hc, hb, decide_true, Bool.and_self, ↓reduceIte]

theorem verdict_directedBroadcast {s : State} {c : Cmd} {r : Record} (hc : c.onlyBroadcast = true)
    (hb : r.target ≠ broadcastTarget) : s.verdict c.code r = .refuse .badParam := by
  simp only [State.verdict, judge, ofCode_code, hc, hb, decide_false, Bool.and_false, Bool.not_false,
    Bool.and_self, Bool.false_eq_true, ↓reduceIte]

/-- Settles O17. -/
theorem foreignAndUnknownRecords : Obligations.ForeignAndUnknownRecords := by
  refine ⟨fun r s hl hw => ⟨fun c ht => ?foreign, fun code hcode ht => ?foreignUnknown,
    fun c hc hb => ?read⟩, fun code r s hl hw ht hcode => ?unknown⟩
  case foreign => exact exec_untouched hl hw fun h => absurd h ht
  case foreignUnknown =>
    exact congrArg Host.Outcome.next (passRecord_untouched hl code hw fun h => absurd h ht)
  case read => exact exec_untouched hl hw fun _ => verdict_broadcastRead hc hb
  case unknown =>
    exact congrArg Host.Outcome.next (passRecord_refused hl code hw ht _ (verdict_unknown hcode r))

/-! ## Wrong lengths (R160, Table 11-4) -/

theorem judgePlainRead_length {reply params : List Byte} (h : params.length ≠ 0) :
    judgePlainRead reply params = .refuse .badParam := by
  cases params with
  | nil => exact absurd rfl h
  | cons p ps => rfl

theorem judgeWritePatch_length {s : State} {params : List Byte}
    (h : ¬ Cmd.lengthOk .writePatch params) : judgeWritePatch s params = .refuse .badParam := by
  unfold judgeWritePatch
  split
  · next f c rest =>
    refine if_neg fun hn => h ?_
    simp only [Cmd.lengthOk, List.length_cons, List.getD_cons_succ, List.getD_cons_zero]
    omega
  · rfl

theorem judgeWriteCurve_length {s : State} {params : List Byte}
    (h : ¬ Cmd.lengthOk .writeCurve params) : judgeWriteCurve s params = .refuse .badParam := by
  unfold judgeWriteCurve
  split
  · next t f c rest =>
    split
    · refine if_neg fun hn => h ?_
      simp only [Cmd.lengthOk, List.length_cons, List.getD_cons_succ, List.getD_cons_zero]
      omega
    · rfl
  · rfl

theorem judgeWriteNode_length {s : State} {broadcast : Bool} {params : List Byte}
    (h : ¬ Cmd.lengthOk .writeNode params) :
    judgeWriteNode s broadcast params = .refuse .badParam := by
  unfold judgeWriteNode
  split
  · next hi lo rest =>
    split
    · next w hw =>
      obtain ⟨b1, b2, b3, b4, b5, b6, b7, b8, b9, b10, b11, rfl⟩ := nodeWrite_length hw
      exact absurd rfl h
    · rfl
  · rfl

theorem judgeRecall_length {s : State} {params : List Byte} (h : ¬ Cmd.lengthOk .recallScene params) :
    judgeRecall s params = .refuse .badParam := by
  unfold judgeRecall
  split
  · exact absurd (.inl rfl) h
  · exact absurd (.inr rfl) h
  · rfl

/-- Params of a length that the command does not have. -/
theorem judgeCommand_length {s : State} {address : Fin 251} {broadcast : Bool} {c : Cmd}
    {params : List Byte} (h : ¬ c.lengthOk params) :
    judgeCommand s address broadcast c params = .refuse .badParam := by
  cases c with
  | identify | readStatus | readFaults | readGroups | readNode | readStore =>
    exact judgePlainRead_length h
  | writePatch => exact judgeWritePatch_length h
  | writeCurve => exact judgeWriteCurve_length h
  | writeNode => exact judgeWriteNode_length h
  | recallScene => exact judgeRecall_length h
  | _ =>
    simp only [judgeCommand, judgeReadLink, judgeReadPatch, judgeWriteGroup, judgeReadCurve,
      judgeSetMasks, judgeCapture, judgeSaveConfig, judgeSetLock, judgeEraseStore, judgeForce,
      judgeRelease, judgeReadLevels, judgeClearFaults, judgeAck, judgeStandby, judgeWake,
      judgeRestart, judgeEnumerate, judgeAddressById]
    split
    · exact absurd rfl h
    · rfl

/-! ## Params out of range (R160, R163 to R167) -/

section
variable (s : State)

theorem judgeReadLink_range {k : Byte} (hk : 2 ≤ k.toNat) :
    judgeReadLink s [k] = .refuse .badParam := by
  have h0 : k ≠ 0x00 := by rintro rfl; exact absurd hk (by decide)
  have h1 : k ≠ 0x01 := by rintro rfl; exact absurd hk (by decide)
  exact (if_neg h0).trans (if_neg h1)

theorem judgeReadPatch_range {f n : Byte}
    (h : n.toNat = 0 ∨ 12 < n.toNat ∨ 24 < f.toNat + n.toNat) :
    judgeReadPatch s [f, n] = .refuse .badParam := if_neg (by omega)

theorem judgeReadCurve_range {t f n : Byte}
    (h : 3 < t.toNat ∨ n.toNat = 0 ∨ 24 < n.toNat ∨ 33 < f.toNat + n.toNat) :
    judgeReadCurve s [t, f, n] = .refuse .badParam := if_neg (by omega)

theorem judgeReadLevels_range {f n : Byte}
    (h : n.toNat = 0 ∨ 8 < n.toNat ∨ 24 < f.toNat + n.toNat) :
    judgeReadLevels s [f, n] = .refuse .badParam := if_neg (by omega)

theorem judgeWritePatch_range {f n : Byte} {bytes : List Byte}
    (h : n.toNat = 0 ∨ 7 < n.toNat ∨ 24 < f.toNat + n.toNat ∨ patchEntries? bytes = none) :
    judgeWritePatch s (f :: n :: bytes) = .refuse .badParam := by
  unfold judgeWritePatch
  by_cases hn : 1 ≤ n.toNat ∧ n.toNat ≤ 7 ∧ f.toNat + n.toNat ≤ 24 ∧ bytes.length = 4 * n.toNat
  · have hnone : patchEntries? bytes = none := by
      obtain h | h | h | h := h <;> first | exact h | omega
    simp only [hn, and_self, ↓reduceIte, hnone]
  · exact if_neg hn

theorem groupRecord_ofBytes_none {k o c : Byte} (h : 1 < k.toNat) :
    GroupRecord.ofBytes? k o c = none := by
  have h0 : k ≠ 0x00 := by rintro rfl; exact absurd h (by decide)
  have h1 : k ≠ 0x01 := by rintro rfl; exact absurd h (by decide)
  exact (if_neg h0).trans (if_neg h1)

theorem judgeWriteGroup_range {g k o c : Byte} (h : 3 < g.toNat ∨ 1 < k.toNat) :
    judgeWriteGroup s [g, k, o, c] = .refuse .badParam := by
  unfold judgeWriteGroup
  obtain hg | hk := h
  · simp only [finOf_of_ge (n := 4) hg]
  · simp only [groupRecord_ofBytes_none hk]
    cases finOf? 4 g.toNat <;> rfl

theorem judgeWriteCurve_range {t f n : Byte} {bytes : List Byte}
    (h : 3 < t.toNat ∨ n.toNat = 0 ∨ 14 < n.toNat ∨ 33 < f.toNat + n.toNat) :
    judgeWriteCurve s (t :: f :: n :: bytes) = .refuse .badParam := by
  unfold judgeWriteCurve
  by_cases ht : 3 < t.toNat
  · simp only [finOf_of_ge (n := 4) ht]
  · have hn : ¬(1 ≤ n.toNat ∧ n.toNat ≤ 14 ∧ f.toNat + n.toNat ≤ 33 ∧
        bytes.length = 2 * n.toNat) := by omega
    simp only [finOf_of_lt (n := 4) (Nat.lt_succ_iff.mpr (Nat.not_lt.mp ht)), hn, ↓reduceIte]

theorem judgeWriteNode_range {broadcast : Bool} {hi lo : Byte} {bytes : List Byte}
    (h : NodeWrite.ofBytes? (be16 hi lo) bytes = none ∨ (broadcast = true ∧ has lo 0 = true)) :
    judgeWriteNode s broadcast (hi :: lo :: bytes) = .refuse .badParam := by
  unfold judgeWriteNode
  cases hw : NodeWrite.ofBytes? (be16 hi lo) bytes with
  | none => simp only [hw]
  | some w =>
    obtain ⟨hbroadcast, haddress⟩ := h.resolve_left (by rw [hw]; exact Option.some_ne_none w)
    have hselected : w.address.isSome = true := by
      rw [(nodeWrite_selects hw).1, has_be16_low hi lo (by decide), haddress]
    simp only [hw, hbroadcast, hselected, Bool.and_self, ↓reduceIte]

theorem judgeRecall_range {n : Byte} {rest : List Byte} (h : 15 < n.toNat) :
    judgeRecall s (n :: rest) = .refuse .badParam := by
  unfold judgeRecall
  split
  · next heq =>
    cases heq
    rw [finOf_of_ge h]
  · next heq =>
    cases heq
    rw [finOf_of_ge h]
  · rfl

theorem judgeCapture_range {n : Byte} {rest : List Byte} (h : 15 < n.toNat) :
    judgeCapture s (n :: rest) = .refuse .badParam := by
  unfold judgeCapture
  split
  · next heq =>
    cases heq
    rw [finOf_of_ge h]
  · rfl

theorem judgeEnumerate_range {address : Fin 251} {k : Byte} (h : 1 < k.toNat) :
    judgeEnumerate s address [k] = .refuse .badParam := by
  have h0 : k ≠ 0x00 := by rintro rfl; exact absurd h (by decide)
  have h1 : k ≠ 0x01 := by rintro rfl; exact absurd h (by decide)
  have hnone : ¬(k = 0x00 ∨ (k = 0x01 ∧ address = 0)) := by
    rintro (hk | ⟨hk, -⟩)
    · exact h0 hk
    · exact h1 hk
  exact (if_neg hnone).trans (if_neg h1)

theorem judgeAddressById_range {id : List Byte} {a : Byte} (h : a.toNat = 0 ∨ 250 < a.toNat) :
    judgeAddressById s (id ++ [a]) = .refuse .badParam := by
  unfold judgeAddressById
  split
  · next i1 i2 i3 i4 i5 i6 b heq =>
    have hb : b = a := by
      have := congrArg List.getLast? heq
      simpa using this.symm
    subst hb
    obtain hzero | hbig := h
    · have hfin : finOf? 251 b.toNat = some 0 := by rw [hzero]; rfl
      simp only [hfin, ↓reduceIte]
    · simp only [finOf_of_ge hbig]
  · rfl

end

/-- A command of the form that only ENUMERATE and ADDRESS_BY_ID have, refused BAD_PARAM in either form. -/
theorem exec_onlyBroadcast_badParam {s : State} {c : Cmd} {r : Record} (hl : LinkRest s)
    (hw : r.wellFormed = true) (ht : s.takes r) (hc : c.onlyBroadcast = true)
    (hr : c.isRead = false) (hj : s.judged c r = .refuse .badParam) :
    exec (c.instr r) s = .next (s.afterRefusal c.code r .badParam) := by
  by_cases hb : r.target = broadcastTarget
  · exact exec_refused hl hw ht (.of_broadcast hr hb) hj
  · exact exec_of_refusal hl hw ht (verdict_directedBroadcast hc hb)

/-- Settles O18: each length and each range by the verdict of the command's own checks. -/
theorem wrongFormOrRangeIsBadParam : Obligations.WrongFormOrRangeIsBadParam := by
  refine ⟨fun c r s hl hw ht hread => ⟨fun hlen => ?length, fun hc hd => ?form⟩,
    fun r s hl hw ht => ?range⟩
  case length =>
    by_cases hform : c.onlyBroadcast = true ∧ r.target ≠ broadcastTarget
    · exact exec_of_refusal hl hw ht (verdict_directedBroadcast hform.1 hform.2)
    · refine exec_refused hl hw ht ⟨fun h => directed_ne_broadcast (hread h), fun h => ?_⟩
        (judgeCommand_length hlen)
      exact not_not.mp fun hb => hform ⟨h, hb⟩
  case form =>
    exact exec_of_refusal hl hw ht (verdict_directedBroadcast hc (directed_ne_broadcast hd))
  case range =>
    have hplain {c : Cmd} {params : List Byte} (hp : r.params = params) (hr : c.isRead = false)
        (hc : c.onlyBroadcast = false)
        (hj : judgeCommand s s.node.address (decide (r.target = broadcastTarget)) c params =
          .refuse .badParam) :
        exec (c.instr r) s = .next (s.afterRefusal c.code r .badParam) :=
      exec_refused hl hw ht (.of_plain hr hc) (by rw [State.judged, hp, hj])
    refine ⟨fun hd => ?reads, fun f n bytes hp h => ?_, fun g k o c hp h => ?_,
      fun t f n bytes hp h => ?_, fun hi lo bytes hp h => ?_, fun n rest hp h => ⟨?_, ?_⟩,
      fun k hp h => ?_, fun id a hp h => ?_⟩
    case reads =>
      have hread {c : Cmd} {params : List Byte} (hp : r.params = params)
          (hc : c.onlyBroadcast = false)
          (hj : judgeCommand s s.node.address (decide (r.target = broadcastTarget)) c params =
            .refuse .badParam) :
          exec (c.instr r) s = .next (s.afterRefusal c.code r .badParam) :=
        exec_refused hl hw ht (.of_read hd hc) (by rw [State.judged, hp, hj])
      exact ⟨fun k hp h => hread (c := .readLink) hp rfl (judgeReadLink_range s h),
        fun f n hp h => hread (c := .readPatch) hp rfl (judgeReadPatch_range s h),
        fun t f n hp h => hread (c := .readCurve) hp rfl (judgeReadCurve_range s h),
        fun f n hp h => hread (c := .readLevels) hp rfl (judgeReadLevels_range s h)⟩
    · exact hplain (c := .writePatch) hp rfl rfl (judgeWritePatch_range s h)
    · exact hplain (c := .writeGroup) hp rfl rfl (judgeWriteGroup_range s h)
    · exact hplain (c := .writeCurve) hp rfl rfl (judgeWriteCurve_range s h)
    · exact hplain (c := .writeNode) hp rfl rfl
        (judgeWriteNode_range s (h.imp_right fun h => ⟨decide_eq_true h.1, h.2⟩))
    · exact hplain (c := .recallScene) hp rfl rfl (judgeRecall_range s h)
    · exact hplain (c := .captureScene) hp rfl rfl (judgeCapture_range s h)
    · refine exec_onlyBroadcast_badParam (c := .enumerate) hl hw ht rfl rfl ?_
      rw [State.judged, hp]
      exact judgeEnumerate_range s h
    · refine exec_onlyBroadcast_badParam (c := .addressById) hl hw ht rfl rfl ?_
      rw [State.judged, hp]
      exact judgeAddressById_range s h

/-! ## Configuration writes in the right form and range (R164, R165) -/

section
variable {s : State}

theorem unlessLocked_locked (h : s.stc.lock = true) (e : Staged) :
    s.unlessLocked e = .refuse .locked := if_pos h

theorem unlessLocked_free (h : s.stc.lock = false) (e : Staged) :
    s.unlessLocked e = .accept [] (some e) := if_neg (by simp [h])

theorem judgeWritePatch_eq {f n : Byte} {bytes : List Byte} {es : List PatchEntry}
    (hes : patchEntries? bytes = some es) (hlen : es.length = n.toNat) (h1 : 1 ≤ n.toNat)
    (h7 : n.toNat ≤ 7) (h24 : f.toNat + n.toNat ≤ 24) :
    judgeWritePatch s (f :: n :: bytes) = s.unlessLocked (.writePatch f.toNat es) := by
  have hn : 1 ≤ n.toNat ∧ n.toNat ≤ 7 ∧ f.toNat + n.toNat ≤ 24 ∧ bytes.length = 4 * n.toNat :=
    ⟨h1, h7, h24, by rw [patchEntries_length hes, hlen]⟩
  unfold judgeWritePatch
  simp only [hn, and_self, ↓reduceIte, hes]

theorem judgeWriteGroup_eq {g k o c : Byte} {group : Fin 4} {rec : GroupRecord}
    (hg : finOf? 4 g.toNat = some group) (hrec : GroupRecord.ofBytes? k o c = some rec) :
    judgeWriteGroup s [g, k, o, c] = s.unlessLocked (.writeGroup group rec) := by
  unfold judgeWriteGroup
  simp only [hg, hrec]

theorem judgeWriteCurve_eq {t f n : Byte} {bytes : List Byte} {table : Fin 4}
    (ht : finOf? 4 t.toNat = some table) (hlen : bytes.length = 2 * n.toNat) (h1 : 1 ≤ n.toNat)
    (h14 : n.toNat ≤ 14) (h33 : f.toNat + n.toNat ≤ 33) :
    judgeWriteCurve s (t :: f :: n :: bytes) =
      s.unlessLocked (.writeCurve table f.toNat (wordsOf bytes)) := by
  unfold judgeWriteCurve
  simp only [ht]
  exact if_pos ⟨h1, h14, h33, hlen⟩

theorem judgeWriteNode_eq {broadcast : Bool} {hi lo : Byte} {bytes : List Byte} {w : NodeWrite}
    (hw : NodeWrite.ofBytes? (be16 hi lo) bytes = some w)
    (hb : broadcast = true → has lo 0 = false) :
    judgeWriteNode s broadcast (hi :: lo :: bytes) = s.unlessLocked (.writeNode w) := by
  have hselected : w.address.isSome = has lo 0 := by
    rw [(nodeWrite_selects hw).1, has_be16_low hi lo (by decide)]
  have hform : (broadcast && w.address.isSome) = false := by
    rw [hselected, Bool.and_eq_false_imp]
    exact hb
  unfold judgeWriteNode
  simp only [hw, hform, Bool.false_eq_true, ↓reduceIte]

theorem judgeAddressById_own {a : Byte} {v : Fin 251} (ha : finOf? 251 a.toNat = some v)
    (hv : v ≠ 0) :
    judgeAddressById s (uniqueIdBytes ++ [a]) = s.unlessLocked (.addressById v) := by
  show judgeAddressById s [_, _, _, _, _, _, a] = _
  unfold judgeAddressById
  simp only [ha, hv, ↓reduceIte]
  exact if_pos rfl

end

/-! ## NO_ROOM (R27) -/

theorem judgePlainRead_accept {reply params out : List Byte} {staged : Option Staged}
    (h : judgePlainRead reply params = .accept out staged) : staged = none := by
  cases params with
  | nil =>
    cases h
    rfl
  | cons p ps => cases h

/-- A read stages nothing but the clear of READ_LINK. -/
theorem judgeCommand_read {s : State} {address : Fin 251} {broadcast : Bool} {c : Cmd}
    {params out : List Byte} {staged : Option Staged} (hc : c.isRead = true)
    (h : judgeCommand s address broadcast c params = .accept out staged) :
    staged = none ∨ staged = some .linkClear := by
  cases c with
  | identify | readStatus | readFaults | readGroups | readNode | readStore =>
    exact .inl (judgePlainRead_accept h)
  | readLink | readPatch | readCurve | readLevels =>
    simp only [judgeCommand, judgeReadLink, judgeReadPatch, judgeReadCurve, judgeReadLevels] at h
    repeat' split at h
    all_goals cases h
    all_goals first | exact .inl rfl | exact .inr rfl
  | _ => cases hc

theorem onlyBroadcast_of_read {c : Cmd} (h : c.isRead = true) : c.onlyBroadcast = false := by
  cases c with
  | enumerate | addressById => cases h
  | _ => rfl

/-- Settles O20: the record as sent, and the commit list, of an answer that does not fit. -/
theorem replyThatDoesNotFitIsNoRoom : Obligations.ReplyThatDoesNotFitIsNoRoom := by
  intro c r s out staged hl hw hd hc hj hroom
  have hb := directed_ne_broadcast hd
  have hform : RightForm s c r := .of_read hd (onlyBroadcast_of_read hc)
  have hv : s.verdict c.code r = .accept out staged := by
    rw [verdict_eq_judged hform, State.judged, decide_eq_false hb, hj]
  have hanswer : s.recordAnswer c.code r = { verdict := .accept out staged, writes := true } := by
    rw [recordAnswer_takes c.code (.inr hd), hv, if_neg hb]
  have hne : ∀ v, staged ≠ some (.enumerate v) := by
    obtain rfl | rfl := judgeCommand_read hc hj
    · exact nofun
    · exact nofun
  have hlen : r.reply.length < replyLength out staged := by rwa [replyLength_of_ne hne]
  have hsent : s.recordSent c.code r = { r with status := Status.noRoom.code } := by
    rw [State.recordSent, hanswer]
    simp only [passedStatus, passedReply, hlen, ↓reduceIte]
  have hcommits : passedCommits (s.recordAnswer c.code r) r.reply = [] := by
    rw [hanswer]
    obtain rfl | rfl := judgeCommand_read hc hj
    · rfl
    · exact if_pos hlen
  rw [exec_cmd, passRecord_after hl c.code r hw, hsent, hcommits]
  split
  · next ho => rw [ho]; rfl
  · rfl

end Sys2Proof.Machine

namespace Sys2Proof.Machine

/-! ## What a command does to the live lock (R156) -/

/-- The live lock stands, or START has loaded it from page 0. -/
def LockKept (s t : State) : Prop := t.stc.lock = s.stc.lock ∨ LockLoaded t

theorem LockKept.next {s t x : State}
    (h : (Host.Outcome.next x : Host.Outcome State Fault Refusal) = .next t) (hx : LockKept s x) :
    LockKept s t := by
  obtain rfl := Host.Outcome.next.inj h
  exact hx

theorem LockKept.ite {s x : State} {p : Prop} [Decidable p] (hx : p → LockKept s x) :
    LockKept s (if p then x else s) := by
  split
  · next hp => exact hx hp
  · exact .inl rfl

theorem LockKept.of_storeSide {s t : State} (h : t.storeSide = s.storeSide) : LockKept s t :=
  .inl (lock_of h)

theorem lockKept_transmit (s : State) : LockKept s s.transmit := by
  left
  unfold State.transmit
  split
  · split <;> rfl
  · rfl

theorem lockKept_charSent (s : State) : LockKept s s.charSent := by
  unfold State.charSent
  split
  · exact .inl rfl
  · unfold State.frameForwarded
    split
    · exact lock_resetNode _
    · exact .inl rfl

theorem lockKept_forwarded (s : State) (rate : BitVec 2) :
    LockKept s (match s.lpu.tx with
      | none => s
      | some p => if p.forwards then (s.setPins { s.pins with rate := rate }).charSent else s) := by
  split
  · exact .inl rfl
  · exact .ite fun _ => lockKept_charSent (s.setPins { s.pins with rate := rate })

theorem lockKept_stall (s : State) : LockKept s s.stall := by
  unfold State.stall
  split
  · exact .ite fun _ => .inl (lock_endsEarly s .stalled (by decide))
  · exact .inl rfl
  · exact .inl rfl

theorem lockKept_takeTemperature (s : State) (raw : BitVec 12) : LockKept s (s.takeTemperature raw) :=
  .of_storeSide ((storeSide_evaluateThermal _ _).trans (storeSide_reshape _))

theorem lockKept_takeAux (s : State) (raw : BitVec 12) : LockKept s (s.takeAux raw) := by
  unfold State.takeAux
  dsimp only
  split
  · exact .of_storeSide (storeSide_completeStart _)
  · exact .inl rfl

theorem lockKept_forceExpiry (s : State) (ch : Fin 24) :
    LockKept s (match s.os.forces.getD ch.val .inactive with
      | .active _ (some 0) =>
        (s.setOs { s.os with forces := s.os.forces.set ch.val .inactive }).reshape
      | _ => s) := by
  split
  · exact .of_storeSide (storeSide_reshape _)
  · exact .inl rfl

theorem lockKept_pageWriteCompletion {late : Bool} {rb : ReadBack} {s t : State}
    (h : exec (.pageWriteCompletion late rb) s = .next t) : LockKept s t := by
  refine LockKept.next h ?_
  dsimp only
  split
  · split
    · exact .inl (lock_pageEnded _ _)
    · exact .inl (lock_storeFails _ _ _)
  · exact .inl rfl

theorem lockKept_pageWriteTimeout {s t : State} (h : exec .pageWriteTimeout s = .next t) :
    LockKept s t := by
  refine LockKept.next h ?_
  split
  · exact .inl (lock_storeFails _ _ _)
  · exact .inl rfl

theorem lockKept_eraseTimeout {s t : State} (h : exec .eraseTimeout s = .next t) :
    LockKept s t := by
  refine LockKept.next h ?_
  split
  · exact .inl (lock_storeFails _ _ _)
  · exact .inl rfl

theorem lock_eraseCompletion {late : Bool} {s t : State}
    (h : exec (.eraseCompletion late) s = .next t) :
    t.stc.lock = s.stc.lock ∨
      (t.stc.lock = false ∧ late = false ∧ s.stc.activity = .running .erase) := by
  obtain rfl := Host.Outcome.next.inj h
  dsimp only
  split
  · next ha => exact .inr ⟨lock_endEntry _, rfl, ha⟩
  · exact .inl rfl

theorem lockKept_rstnFall {s t : State} (h : exec .rstnFall s = .next t) : LockKept s t := by
  refine LockKept.next h ?_
  dsimp only
  split <;> exact .inl rfl

theorem lockKept_rstnRise {us : Nat} {rate : BitVec 2} {s t : State}
    (h : exec (.rstnRise us rate) s = .next t) : LockKept s t := by
  refine LockKept.next h (.ite fun _ => ?_)
  dsimp only
  split
  · have hreleased := lock_releaseRstn (s.setPins { s.pins with rate := rate }).longPulse us
    rwa [lock_longPulse] at hreleased
  · exact lock_releaseRstn (s.setPins { s.pins with rate := rate }) us

theorem lockKept_vddReachesThreshold {rate : BitVec 2} {s t : State}
    (h : exec (.vddReachesThreshold rate) s = .next t) : LockKept s t := by
  refine LockKept.next h ?_
  dsimp only
  split
  · exact .inl rfl
  · exact lock_leaveReset _

theorem lockKept_record {s t : State} {code : Byte} {r : Record} (hcode : code ≠ 0x13)
    (h : (Host.Outcome.next (s.passRecord code r) : Host.Outcome State Fault Refusal) = .next t) :
    LockKept s t := LockKept.next h (lock_passRecord s code r hcode)

/-- The commands other than a character, a SET_LOCK and the completion of an erase. -/
theorem lockKept_exec {i : Instr} {s t : State} (hw : i.wellFormed = true) (h : exec i s = .next t)
    (hchar : ∀ c, i ≠ .characterReceived c) (hset : ∀ r, i ≠ .setLock r)
    (herase : ∀ late, i ≠ .eraseCompletion late) : LockKept s t := by
  cases i with
  | characterReceived c => exact absurd rfl (hchar c)
  | setLock r => exact absurd rfl (hset r)
  | eraseCompletion late => exact absurd rfl (herase late)
  | levelFrame flags fade count slots tail =>
    exact .next h (lock_passFrame s _ _ tail (by decide))
  | foreignKindFrame kind body tail =>
    have hkind : kind ≠ managementKind := by
      simp only [Instr.wellFormed, Bool.and_eq_true, decide_eq_true_eq] at hw
      exact hw.1.2
    exact .next h (lock_passFrame s kind body tail hkind)
  | unknownCommand code r =>
    have hcode : code ≠ 0x13 := by
      rintro rfl
      simp only [Instr.wellFormed, Bool.and_eq_true, decide_eq_true_eq] at hw
      exact hw.1 (by decide)
    exact lockKept_record hcode h
  | characterTransmit => exact .next h (lockKept_transmit s)
  | characterSent => exact .next h (lockKept_charSent s)
  | frameForwarded rate => exact .next h (lockKept_forwarded s rate)
  | stallTimeout => exact .next h (lockKept_stall s)
  | bypassOpen => exact .next h (.ite fun _ => .inl rfl)
  | startBitConfirmed low => exact .next h (.ite fun _ => .inl rfl)
  | stopLevelRegained => exact .next h (.ite fun _ => .inl rfl)
  | tick => exact .next h (.ite fun _ => .of_storeSide (storeSide_reshape _))
  | lossTimerExpiry => exact .next h (.ite fun _ => .of_storeSide (storeSide_lossExpires _))
  | holdOffExpiry => exact .next h (.ite fun _ => .inl rfl)
  | forceExpiry ch => exact .next h (lockKept_forceExpiry s ch)
  | quietTimerExpiry => exact .next h (.ite fun _ => .of_storeSide (storeSide_enterMode _ _))
  | wakeComplete => exact .next h (.ite fun _ => .inl rfl)
  | periodStart => exact .next h (.ite fun _ => .inl rfl)
  | onPhaseEnd ch mv => exact .next h (.ite fun _ => .of_storeSide (storeSide_evaluateChannel _ _ _))
  | rotationDue => exact .next h (.ite fun _ => .inl rfl)
  | temperatureResult raw => exact .next h (.ite fun _ => lockKept_takeTemperature s raw)
  | supplyResult raw => exact .next h (.ite fun _ => .inl (lock_evaluateSupply _ _))
  | auxResult raw => exact .next h (.ite fun _ => lockKept_takeAux s raw)
  | pageWriteCompletion late rb => exact lockKept_pageWriteCompletion h
  | pageWriteTimeout => exact lockKept_pageWriteTimeout h
  | eraseTimeout => exact lockKept_eraseTimeout h
  | rstnFall => exact lockKept_rstnFall h
  | rstnRise us rate => exact lockKept_rstnRise h
  | rstnLongPulse => exact .next h (.inl (lock_longPulse s))
  | powerOn => exact .next h (lock_resetNode _)
  | vddReachesThreshold rate => exact lockKept_vddReachesThreshold h
  | brownOut => exact .next h (.ite fun _ => lock_resetNode _)
  | _ => exact lockKept_record (by decide) h

/-! ## Configuration writes on a locked node (R160) -/

theorem groupRecord_ofBytes_some {k : Byte} (hk : k.toNat ≤ 1) (o c : Byte) :
    ∃ rec, GroupRecord.ofBytes? k o c = some rec := by
  have hcases : k = 0x00 ∨ k = 0x01 := by bv_omega
  obtain rfl | rfl := hcases
  · exact ⟨_, rfl⟩
  · exact ⟨_, rfl⟩

/-- Settles O19: the writes by the lock check at the end of their checks, the lock by what each command
does to it. -/
theorem lockRefusesWritesAndChangesInThreeWays :
    Obligations.LockRefusesWritesAndChangesInThreeWays := by
  refine ⟨fun r s hl hw ht hlock => ?writes, fun i s t hi h hne => ?ways⟩
  case writes =>
    have hlocked := unlessLocked_locked hlock
    have hplain {c : Cmd} {params : List Byte} (hp : r.params = params) (hr : c.isRead = false)
        (hc : c.onlyBroadcast = false)
        (hj : judgeCommand s s.node.address (decide (r.target = broadcastTarget)) c params =
          .refuse .locked) :
        exec (c.instr r) s = .next (s.afterRefusal c.code r .locked) :=
      exec_refused hl hw ht (.of_plain hr hc) (by rw [State.judged, hp, hj])
    have hall {c : Cmd} {params : List Byte} (hp : r.params = params) (hr : c.isRead = false)
        (hb : r.target = 0xFF)
        (hj : judgeCommand s s.node.address (decide (r.target = broadcastTarget)) c params =
          .refuse .locked) :
        exec (c.instr r) s = .next (s.afterRefusal c.code r .locked) :=
      exec_refused hl hw ht (.of_broadcast hr hb) (by rw [State.judged, hp, hj])
    refine ⟨fun f n bytes es hp hes hlen h1 h7 h24 => ?_, fun g k o c hp hg hk => ?_,
      fun t f n bytes hp hlen ht3 h1 h14 h33 => ?_, fun hi lo bytes w hp hbytes hb => ?_,
      fun hlen => ?_, fun hp => ?_, fun k hp hb hk => ?_, fun a hp hb h1 h250 => ?_⟩
    · exact hplain (c := .writePatch) hp rfl rfl
        ((judgeWritePatch_eq hes hlen h1 h7 h24).trans (hlocked _))
    · obtain ⟨rec, hrec⟩ := groupRecord_ofBytes_some hk o c
      exact hplain (c := .writeGroup) hp rfl rfl
        ((judgeWriteGroup_eq (finOf_of_lt (Nat.lt_succ_iff.mpr hg)) hrec).trans (hlocked _))
    · exact hplain (c := .writeCurve) hp rfl rfl
        ((judgeWriteCurve_eq (finOf_of_lt (Nat.lt_succ_iff.mpr ht3)) hlen h1 h14 h33).trans
          (hlocked _))
    · exact hplain (c := .writeNode) hp rfl rfl
        ((judgeWriteNode_eq hbytes fun h => hb (of_decide_eq_true h)).trans (hlocked _))
    · match hp : r.params, hlen with
      | [o1, o2, o3, s1, s2, s3, m], _ => exact hplain (c := .setMasks) hp rfl rfl (hlocked _)
    · exact hplain (c := .saveConfig) hp rfl rfl (if_pos hlock)
    · exact hall (c := .enumerate) hp rfl hb ((if_pos hk).trans (hlocked _))
    · have ha : finOf? 251 a.toNat = some ⟨a.toNat, by omega⟩ := finOf_of_lt (by omega)
      refine hall (c := .addressById) hp rfl hb ((judgeAddressById_own ha ?_).trans (hlocked _))
      exact fun h => absurd (congrArg Fin.val h) (by simp; omega)
  case ways =>
    by_cases hchar : ∃ c, i = .characterReceived c
    · obtain ⟨c, rfl⟩ := hchar
      obtain rfl := Host.Outcome.next.inj h
      obtain hsame | ⟨hset, hstaged⟩ := lock_receive s c
      · exact absurd hsame hne
      · exact .inl ⟨hset, .inr ⟨c, rfl, hstaged⟩⟩
    by_cases hset : ∃ r, i = .setLock r
    · obtain ⟨r, rfl⟩ := hset
      obtain rfl := Host.Outcome.next.inj h
      obtain hsame | hset | hload := lock_passSetLock s r
      · exact absurd hsame hne
      · exact .inl ⟨hset, .inl ⟨r, rfl⟩⟩
      · exact .inr (.inr hload)
    by_cases herase : ∃ late, i = .eraseCompletion late
    · obtain ⟨late, rfl⟩ := herase
      obtain hsame | ⟨hclear, rfl, hactivity⟩ := lock_eraseCompletion h
      · exact absurd hsame hne
      · exact .inr (.inl ⟨hclear, rfl, hactivity⟩)
    obtain hsame | hload := lockKept_exec hi h (fun c hc => hchar ⟨c, hc⟩)
      (fun r hr => hset ⟨r, hr⟩) (fun late hlate => herase ⟨late, hlate⟩)
    · exact absurd hsame hne
    · exact .inr (.inr hload)

end Sys2Proof.Machine

namespace Sys2Proof.Machine

/-! ## The reads without params (R34, R35, R163) -/

theorem judged_directed {s : State} {c : Cmd} {r : Record} (h : s.directed r) {params : List Byte}
    (hp : r.params = params) :
    s.judged c r = judgeCommand s s.node.address false c params := by
  rw [State.judged, decide_eq_false (directed_ne_broadcast h), hp]

/-- A read that the node answers and that changes nothing. -/
theorem exec_read {s : State} {r : Record} (h : DirectedRecord s r) (c : Cmd)
    (hc : c.onlyBroadcast = false) {params out : List Byte} (hp : r.params = params)
    (hj : judgeCommand s s.node.address false c params = .accept out none)
    (hroom : out.length ≤ r.reply.length) :
    exec (c.instr r) s = .next (s.afterAccepted c.code r out s) :=
  exec_reply h hc ((judged_directed h.directed hp).trans hj) hroom

theorem groupsReply_eq (s : State) :
    s.groupsReply =
      (s.group 0).toBytes ++ (s.group 1).toBytes ++ (s.group 2).toBytes ++ (s.group 3).toBytes := by
  have hrange : List.range 4 = [0, 1, 2, 3] := rfl
  simp only [State.groupsReply, hrange, List.flatMap_cons, List.flatMap_nil, List.append_nil,
    List.append_assoc]

theorem optionsByte_eq (n : NodeSettings) :
    optionsByte n = natByte (n.stagger.toNat + 2 * n.dither.toNat + 4 * n.quiet.toNat) := by
  unfold optionsByte
  cases n.stagger <;> cases n.dither <;> cases n.quiet <;> rfl

theorem nodeReply_eq (n : NodeSettings) :
    n.toBytes =
      [natByte n.address.val] ++ wordBytes (natWord n.slotBase.val) ++
        [n.lossTimeout, n.lossAction.toByte, natByte n.lossScene.val, n.lossFade,
          natByte n.ceiling.val, natByte n.periodCode.val,
          natByte (n.stagger.toNat + 2 * n.dither.toNat + 4 * n.quiet.toNat),
          natByte n.confirmCode.val] := by
  rw [← optionsByte_eq]
  rfl

theorem failureBytes_length (f : Option StoreFailure) : (failureBytes f).length = 3 := by
  cases f <;> rfl

/-- Settles O21. -/
theorem wholeReadsReportTheLiveState : Obligations.WholeReadsReportTheLiveState := by
  intro r s h hp
  refine ⟨fun hroom => exec_read h .identify rfl hp rfl hroom,
    fun hroom => exec_read h .readStatus rfl hp rfl hroom,
    fun hroom => exec_read h .readFaults rfl hp rfl hroom, fun hroom => ?groups, fun hroom => ?node,
    fun hroom => ?store⟩
  case groups =>
    rw [← groupsReply_eq]
    refine exec_read h .readGroups rfl hp rfl ?_
    rwa [State.groupsReply, length_flatMap_const fun g => groupRecord_toBytes_length (s.group g)]
  case node =>
    rw [← nodeReply_eq]
    exact exec_read h .readNode rfl hp rfl hroom
  case store =>
    refine exec_read h .readStore rfl hp rfl (le_of_eq_of_le ?_ hroom)
    simp only [List.length_append, failureBytes_length]
    rfl

/-! ## The reads of a range (R74, R163) -/

theorem patchReply_length (s : State) (f n : Nat) : (s.patchReply f n).length = 4 * n := by
  rw [State.patchReply, length_flatMap_const fun k => patchEntry_toBytes_length (s.entry (f + k)),
    List.length_range]

theorem curveReply_length (s : State) (t f n : Nat) : (s.curveReply t f n).length = 2 * n := by
  exact (length_flatMap_const (k := 2) (fun _ => rfl) _).trans (by rw [List.length_range])

theorem levelsReply_length (s : State) (f n : Nat) : (s.levelsReply f n).length = 6 * n := by
  exact (length_flatMap_const (k := 6) (fun _ => rfl) _).trans (by rw [List.length_range])

/-- Settles O22. -/
theorem rangeReadsReportTheLiveState : Obligations.RangeReadsReportTheLiveState := by
  intro r s h
  refine ⟨fun f n hp h1 h12 h24 hroom => ?patch, fun t f n hp h3 h1 h24 h33 hroom => ?curve,
    fun f n hp h1 h8 h24 hroom => ?levels⟩
  case patch =>
    exact exec_read h .readPatch rfl hp (if_pos ⟨h1, h12, h24⟩)
      ((patchReply_length s f.toNat n.toNat).trans_le hroom)
  case curve =>
    exact exec_read h .readCurve rfl hp (if_pos ⟨h3, h1, h24, h33⟩)
      ((curveReply_length s t.toNat f.toNat n.toNat).trans_le hroom)
  case levels =>
    exact exec_read h .readLevels rfl hp (if_pos ⟨h1, h8, h24⟩)
      ((levelsReply_length s f.toNat n.toNat).trans_le hroom)

/-! ## READ_LINK (R20, R35) -/

/-- Settles O23: the clear is the record's staged write, the frame is counted after it. -/
theorem readLinkClearsBeforeItsFrameCounts : Obligations.ReadLinkClearsBeforeItsFrameCounts := by
  intro r s h hroom c out
  refine ⟨fun hp => exec_read h .readLink rfl hp rfl hroom, fun hp => ?clear⟩
  case clear =>
    have hexec : exec (.readLink r) s =
        .next (s.afterAccepted 0x04 r out { s with lpu := { s.lpu with counters := zeroCounters } }) :=
      exec_staged (c := .readLink) (e := .linkClear) h.rest h.wf (.inr h.directed) h.crc
        (.of_read h.directed rfl) (judged_directed h.directed hp) hroom nofun nofun
    exact ⟨hexec, _, hexec, rfl⟩

end Sys2Proof.Machine

namespace Sys2Proof.Machine

/-! ## One staged write (R77, R97, R162) -/

theorem commitAll_singleton (s : State) {e : Staged} (hq : e.queues = false) :
    s.commitAll [e] = if e.shapes = true then (s.apply e).reshape else s.apply e := by
  simp only [State.commitAll, List.foldl_cons, List.foldl_nil, List.any_cons, List.any_nil,
    Bool.or_false, hq, Bool.false_eq_true, ↓reduceIte]

/-- A write that changes an input of the Shaper and queues nothing. -/
theorem exec_shaping {s : State} {c : Cmd} {r : Record} (h : TakenRecord s r)
    (hr : c.isRead = false) (hc : c.onlyBroadcast = false) {e : Staged}
    (hj : s.judged c r = .accept [] (some e)) (hshapes : e.shapes = true) (hq : e.queues = false) :
    exec (c.instr r) s = .next (s.afterAccepted c.code r [] (s.apply e).reshape) := by
  have he : ∀ v, e ≠ .enumerate v := by rintro v rfl; cases hshapes
  have hrestart : e ≠ .restart := by rintro rfl; cases hshapes
  rw [exec_write h (.of_plain hr hc) hj he hrestart, commitAll_singleton s hq, if_pos hshapes]

/-- A write that neither shapes nor queues. -/
theorem exec_plain {s : State} {c : Cmd} {r : Record} (h : TakenRecord s r)
    (hr : c.isRead = false) (hc : c.onlyBroadcast = false) {e : Staged}
    (hj : s.judged c r = .accept [] (some e)) (he : ∀ v, e ≠ .enumerate v) (hrestart : e ≠ .restart)
    (hshapes : e.shapes = false) (hq : e.queues = false) :
    exec (c.instr r) s = .next (s.afterAccepted c.code r [] (s.apply e)) := by
  rw [exec_write h (.of_plain hr hc) hj he hrestart, commitAll_singleton s hq, hshapes]
  rfl

/-! ## Entries and points (R53, R56, R93) -/

theorem replaceFrom_getElem? {α : Type} (old new : List α) {k : Nat}
    (h : k + new.length ≤ old.length) (j : Nat) :
    (replaceFrom old k new)[j]? =
      old[j]?.map fun x => ((if k ≤ j then new[j - k]? else none).getD x) := by
  have htake : (old.take k).length = k := by rw [List.length_take]; omega
  unfold replaceFrom
  by_cases hj : j < k
  · have hk : ¬ k ≤ j := by omega
    rw [List.append_assoc, List.getElem?_append_left (by omega), List.getElem?_take_of_lt hj]
    simp [hk]
  · have hk : k ≤ j := by omega
    have hold (h' : j < old.length) : old[j]? = some old[j] := List.getElem?_eq_getElem h'
    rw [List.append_assoc, List.getElem?_append_right (by omega), htake, if_pos hk]
    by_cases hnew : j - k < new.length
    · rw [List.getElem?_append_left hnew, List.getElem?_eq_getElem hnew, hold (by omega)]
      rfl
    · rw [List.getElem?_append_right (by omega), List.getElem?_drop,
        List.getElem?_eq_none (l := new) (by omega)]
      have hplace : k + new.length + (j - k - new.length) = j := by omega
      rw [hplace]
      cases old[j]? <;> rfl

theorem commitWritePatch_replaced {s : State} {first : Nat} {es : List PatchEntry}
    (h : first + es.length ≤ s.pt.entries.length) :
    (s.commitWritePatch first es).pt.entries = replaceFrom s.pt.entries first es :=
  List.ext_getElem? fun j => by
    rw [commitWritePatch_entries, replaceFrom_getElem? _ _ h]

theorem replacePoints_eq {table points : List Word} {first : Nat}
    (h : first + points.length ≤ table.length) :
    replacePoints table first points = replaceFrom table first points :=
  List.ext_getElem? fun j => by
    rw [replacePoints_getElem?, replaceFrom_getElem? _ _ h]

/-- Settles O24: the entries and the contexts place by place. -/
theorem writePatchReplacesEntries : Obligations.WritePatchReplacesEntries := by
  intro r s f n bytes es h hs hlock hp hes hlen h1 h7 h24
  have hj : s.judged .writePatch r = .accept [] (some (.writePatch f.toNat es)) := by
    rw [State.judged, hp]
    exact (judgeWritePatch_eq hes hlen h1 h7 h24).trans (unlessLocked_free hlock _)
  refine (exec_shaping (c := .writePatch) h rfl rfl hj rfl rfl).trans ?_
  refine congrArg (fun x : State => Host.Outcome.next (s.afterAccepted 0x06 r [] x.reshape)) ?_
  have hentries := commitWritePatch_replaced (s := s) (first := f.toNat) (es := es)
    (by rw [hs.entries, hlen]; exact h24)
  have hcontexts := eq_map_range restContext hs.contexts (commitWritePatch_contexts es s f.toNat)
  show s.commitWritePatch f.toNat es = _
  rw [commitWritePatch_eq, hentries, hcontexts]
  rfl

theorem length_table {s : State} (hs : WellShaped s) (t : Fin 4) :
    (s.os.tables.getD t.val defaultTable).length = 33 := by
  have ht : t.val < s.os.tables.length := by rw [hs.tables]; exact t.isLt
  rw [List.getD_eq_getElem _ _ ht]
  exact hs.points _ (List.getElem_mem ht)

/-- Settles O25. -/
theorem writeGroupAndCurveReplaceTheirRecords :
    Obligations.WriteGroupAndCurveReplaceTheirRecords := by
  intro r s h hlock
  refine ⟨fun g k o c rec hp hrec => ?group, fun t f points hs hp h1 h14 h33 => ?curve⟩
  case group =>
    have hj : s.judged .writeGroup r = .accept [] (some (.writeGroup g rec)) := by
      rw [State.judged, hp]
      exact (judgeWriteGroup_eq (finOf_natByte g (by decide)) hrec).trans (unlessLocked_free hlock _)
    exact exec_shaping (c := .writeGroup) h rfl rfl hj rfl rfl
  case curve =>
    have hn : (natByte points.length).toNat = points.length := natByte_toNat (by omega)
    have hbytes : (points.flatMap wordBytes).length = 2 * points.length :=
      length_flatMap_const (k := 2) (fun _ => rfl) points
    have hj : s.judged .writeCurve r = .accept [] (some (.writeCurve t f.toNat points)) := by
      rw [State.judged, hp]
      refine (judgeWriteCurve_eq (finOf_natByte t (by decide)) (by rw [hbytes, hn])
        (by rwa [hn]) (by rwa [hn]) (by rwa [hn])).trans ?_
      rw [wordsOf_flatMap]
      exact unlessLocked_free hlock _
    have hpoints := replacePoints_eq (table := s.os.tables.getD t.val defaultTable)
      (points := points) (first := f.toNat) (by rwa [length_table hs t])
    rw [← hpoints]
    exact exec_shaping (c := .writeCurve) h rfl rfl hj rfl rfl

/-! ## The node settings (R70, R136, R165) -/

theorem commitWriteNode_eq (s : State) (w : NodeWrite) :
    s.commitWriteNode w =
      (let a : State := { s with
        node := s.node.write w
        ss := { s.ss with
          lossTimer := s.ss.lossTimer.recoded s.ss.source s.node.lossTimeout
            (s.node.write w).lossTimeout } }
       { a with mc := { s.mc with quietTimer := a.quietTimerNow } }) :=
  quietReview_eq _

theorem recoded_eq (t : LossTimer) (src : Source) (old new : Byte) :
    (new = old → t.recoded src old new = t) ∧
    (new ≠ old → new = 0 → t.recoded src old new = .off) ∧
    (new ≠ old → new ≠ 0 →
      (∀ n, (LossTimer.running n).recoded src old new = .running (new.toNat * 100)) ∧
      LossTimer.expired.recoded src old new = .expired ∧
      (src.isLoss = false → LossTimer.off.recoded src old new = .running (new.toNat * 100)) ∧
      (src.isLoss = true → LossTimer.off.recoded src old new = .expired)) := by
  unfold LossTimer.recoded
  refine ⟨fun h => if_pos h, fun h h0 => (if_neg h).trans (if_pos h0), fun h h0 => ?_⟩
  refine ⟨fun n => (if_neg h).trans (if_neg h0), (if_neg h).trans (if_neg h0),
    fun hs => (if_neg h).trans ((if_neg h0).trans (if_neg ?_)),
    fun hs => (if_neg h).trans ((if_neg h0).trans (if_pos hs))⟩
  rw [hs]
  decide

/-- Settles O26. -/
theorem writeNodeReplacesSelectedFields : Obligations.WriteNodeReplacesSelectedFields := by
  refine ⟨fun r s hi lo bytes w h hlock hp hw hb => ?write, recoded_eq⟩
  case write =>
    intro n a b
    have hj : s.judged .writeNode r = .accept [] (some (.writeNode w)) := by
      rw [State.judged, hp]
      exact (judgeWriteNode_eq hw fun h => hb (of_decide_eq_true h)).trans (unlessLocked_free hlock _)
    have hceiling : (Staged.writeNode w).shapes = has lo 6 :=
      (nodeWrite_selects hw).2.trans (has_be16_low hi lo (by decide))
    refine (exec_write (c := .writeNode) h (.of_plain rfl rfl) hj nofun nofun).trans ?_
    rw [commitAll_singleton s rfl, hceiling]
    have happly : s.apply (.writeNode w) = b := commitWriteNode_eq s w
    rw [happly]
    rfl

/-! ## Masks, faults and attention (R121, R122, R126, R127) -/

/-- With every channel blocked by its causes before it, a channel whose short latch goes in RUN resumes,
and no other channel moves. -/
theorem reblock_cleared {s : State} (h : BlockedByCause s) (shorts : ChannelSet) {i : Nat}
    (hi : i < 24) :
    (if has (s.fm.shortLatch &&& ~~~shorts) i = true ∨ s.mc.mode ≠ .run then
        ({ block := .blocked, onCount := 0, endDue := false } : PwmChannel)
      else if (s.channel i).block = .blocked then
        { block := .resuming, onCount := 0, endDue := false }
      else s.channel i) =
    if s.mc.mode = .run ∧ has s.fm.shortLatch i = true ∧ has shorts i = true then
      { block := .resuming, onCount := 0, endDue := false }
    else s.channel i := by
  obtain ⟨hblocked, hrest⟩ := h i hi
  have hcause : (s.channel i).block = .blocked ↔ has s.fm.shortLatch i = true ∨ s.mc.mode ≠ .run := by
    rw [hblocked, State.blockCause, Bool.or_eq_true, decide_eq_true_eq]
  have hstands (hb : (s.channel i).block = .blocked) :
      ({ block := .blocked, onCount := 0, endDue := false } : PwmChannel) = s.channel i := by
    obtain ⟨hcount, hend⟩ := hrest (by rw [hb]; decide)
    rw [← hb, ← hcount, ← hend]
  have hcleared : has (s.fm.shortLatch &&& ~~~shorts) i =
      (has s.fm.shortLatch i && !has shorts i) := by
    simp [has, hi]
  rw [hcleared]
  by_cases hmode : s.mc.mode = .run
  · cases hlatch : has s.fm.shortLatch i with
    | false =>
      have hfree : (s.channel i).block ≠ .blocked := by
        rw [ne_eq, hcause, hlatch]
        simp [hmode]
      simp [hmode, hfree]
    | true =>
      have hb := hcause.mpr (.inl hlatch)
      cases hshort : has shorts i with
      | false => simp [hmode, hstands hb]
      | true => simp [hmode, hb]
  · simp [hmode, hstands (hcause.mpr (.inr hmode))]

/-- Settles O27. -/
theorem masksFaultsAndAttentionWrites : Obligations.MasksFaultsAndAttentionWrites := by
  refine ⟨fun r s h => ⟨fun o1 o2 o3 s1 s2 s3 m hp hlock => ?masks, fun m hp => ?ack⟩,
    fun r s o1 o2 o3 s1 s2 s3 h hb hp => ?clear⟩
  case masks =>
    have hj : s.judged .setMasks r =
        .accept [] (some (.setMasks (channelSetOf o1 o2 o3) (channelSetOf s1 s2 s3) (reasonOf m))) := by
      rw [State.judged, hp]
      exact unlessLocked_free hlock _
    exact exec_plain (c := .setMasks) h rfl rfl hj nofun nofun rfl rfl
  case ack =>
    have hj : s.judged .ackAttention r = .accept [] (some (.ack (reasonOf m))) := by
      rw [State.judged, hp]
      rfl
    exact exec_plain (c := .ackAttention) h rfl rfl hj nofun nofun rfl rfl
  case clear =>
    intro opens shorts
    have hj : s.judged .clearFaults r = .accept [] (some (.clearFaults opens shorts)) := by
      rw [State.judged, hp]
      rfl
    refine (exec_plain (c := .clearFaults) h rfl rfl hj nofun nofun rfl rfl).trans ?_
    refine congrArg (fun x : State => Host.Outcome.next (s.afterAccepted 0x20 r [] x)) ?_
    let cleared : FaultMonitor := { s.fm with
      openCount := clearCounts s.fm.openCount opens
      shortCount := clearCounts s.fm.shortCount shorts
      openLatch := s.fm.openLatch &&& ~~~opens
      shortLatch := s.fm.shortLatch &&& ~~~shorts }
    refine (reblock_eq (s.setFm cleared) s.mc.mode rfl).trans ?_
    refine congrArg (fun l => ({ s with fm := cleared, pwu := { s.pwu with channels := l } } : State))
      (List.map_congr_left fun i hi => ?_)
    exact reblock_cleared hb shorts (List.mem_range.mp hi)

/-! ## Forces and scenes (R64, R65, R99, R168) -/

/-- Settles O28. -/
theorem forceAndRelease : Obligations.ForceAndRelease := by
  intro r s h
  refine ⟨fun c1 c2 c3 hi lo d hp => ?force, fun c1 c2 c3 hp => ?release⟩
  case force =>
    have hj : s.judged .force r =
        .accept [] (some (.force (channelSetOf c1 c2 c3) (be16 hi lo) d)) := by
      rw [State.judged, hp]
      rfl
    exact exec_shaping (c := .force) h rfl rfl hj rfl rfl
  case release =>
    have hj : s.judged .release r = .accept [] (some (.release (channelSetOf c1 c2 c3))) := by
      rw [State.judged, hp]
      rfl
    exact exec_shaping (c := .release) h rfl rfl hj rfl rfl

theorem judgeRecall_eq (s : State) (n : Fin 16) (fade : Option Byte) :
    judgeRecall s (natByte n.val :: fade.toList) = s.unlessEmpty n fade := by
  cases fade <;> simp only [judgeRecall, Option.toList, finOf_natByte n (by decide)]

theorem recall_valid {s : State} {n : Fin 16} (hs : WellShaped s) (h : (s.scene n).valid = true)
    (fade : Option Byte) :
    s.recall n fade =
      { s with
        ss := { s.ss with source := .cue n }
        fe := { s.fe with
          contexts := (List.range 28).map fun i =>
            (s.context i).retarget ((s.scene n).targets.getD i 0)
              (fade.getD (s.scene n).fade) } } := by
  have hall := retargetAll_state (s := s.setSs { s.ss with source := .cue n }) hs.contexts
    (s.scene n).targets (fade.getD (s.scene n).fade)
  exact (if_pos h).trans hall

/-- Settles O29. -/
theorem recallSceneRetargetsEveryContext : Obligations.RecallSceneRetargetsEveryContext := by
  intro r s n fade h hs hp
  have hjudged : s.judged .recallScene r = s.unlessEmpty n fade := by
    rw [State.judged, hp]
    exact judgeRecall_eq s n fade
  refine ⟨fun hvalid => ?valid, fun hvalid => ?empty⟩
  case valid =>
    rw [← recall_valid hs hvalid]
    exact exec_shaping (c := .recallScene) h rfl rfl (hjudged.trans (if_pos hvalid)) rfl rfl
  case empty =>
    refine exec_refused (c := .recallScene) h.rest h.wf h.takes (.of_plain rfl rfl)
      (hjudged.trans (if_neg ?_))
    rw [hvalid]
    decide

end Sys2Proof.Machine

namespace Sys2Proof.Machine

/-! ## Admission, with the places that the frame in passage has reserved (R151, Table 10-4) -/

/-- An ERASE is queued or reserved. -/
def State.eraseComing (s : State) : Prop := s.queuedKind .erase = true ∨ .erase ∈ s.me.reservations

/-- The queue and the reservations take up the four places. -/
def State.noPlace (s : State) : Prop := 4 ≤ s.stc.queue.length + s.me.reservations.length

/-- A SCENE n request is taken into an entry or a place that is there. -/
def State.sceneTaken (s : State) (n : Fin 16) : Prop :=
  s.sceneOpen n = true ∨ .scene n ∈ s.me.reservations

/-- A CONFIG entry is queued or a place reserved for one. -/
def State.configTaken (s : State) : Prop :=
  s.queuedKind .config = true ∨ .config ∈ s.me.reservations

section
variable {s : State}

theorem eraseBusy_iff : s.eraseBusy = true ↔ s.eraseComing := by
  rw [State.eraseBusy, State.reservedKind, Bool.or_eq_true, List.contains_iff_mem]
  rfl

theorem queueFull_iff : s.queueFull = true ↔ s.noPlace := decide_eq_true_iff

theorem acceptIfRoom_full (h : s.noPlace) : s.acceptIfRoom = .busy := if_pos (queueFull_iff.mpr h)

theorem acceptIfRoom_free (h : ¬ s.noPlace) : s.acceptIfRoom = .accept :=
  if_neg (mt queueFull_iff.mp h)

/-! ### A scene -/

variable {n : Fin 16}

theorem sceneTaken_iff :
    (s.sceneOpen n || s.reservedKind (.scene n)) = true ↔ s.sceneTaken n := by
  rw [State.reservedKind, Bool.or_eq_true, List.contains_iff_mem]
  rfl

theorem admitScene_busy (h : s.eraseComing ∨ (¬ s.sceneTaken n ∧ s.noPlace)) :
    s.admitScene n = .busy := by
  by_cases he : s.eraseComing
  · exact if_pos (eraseBusy_iff.mpr he)
  · obtain ⟨hscene, hfull⟩ := h.resolve_left he
    exact (if_neg (mt eraseBusy_iff.mp he)).trans
      ((if_neg (mt sceneTaken_iff.mp hscene)).trans (acceptIfRoom_full hfull))

theorem admitScene_coalesce (he : ¬ s.eraseComing) (h : s.sceneTaken n) :
    s.admitScene n = .coalesce :=
  (if_neg (mt eraseBusy_iff.mp he)).trans (if_pos (sceneTaken_iff.mpr h))

theorem admitScene_accept (he : ¬ s.eraseComing) (h : ¬ s.sceneTaken n) (hfree : ¬ s.noPlace) :
    s.admitScene n = .accept :=
  (if_neg (mt eraseBusy_iff.mp he)).trans
    ((if_neg (mt sceneTaken_iff.mp h)).trans (acceptIfRoom_free hfree))

/-! ### The configuration -/

theorem configTaken_iff :
    (s.queuedKind .config || s.reservedKind .config) = true ↔ s.configTaken := by
  rw [State.reservedKind, Bool.or_eq_true, List.contains_iff_mem]
  rfl

theorem configBusy_iff :
    (s.eraseBusy || s.configStarted) = true ↔ s.eraseComing ∨ s.configStarted = true := by
  rw [Bool.or_eq_true, eraseBusy_iff]

theorem admitConfig_busy
    (h : s.eraseComing ∨ s.configStarted = true ∨ (¬ s.configTaken ∧ s.noPlace)) :
    s.admitConfig = .busy := by
  rw [← or_assoc] at h
  by_cases he : s.eraseComing ∨ s.configStarted = true
  · exact if_pos (configBusy_iff.mpr he)
  · obtain ⟨hconfig, hfull⟩ := h.resolve_left he
    exact (if_neg (mt configBusy_iff.mp he)).trans
      ((if_neg (mt configTaken_iff.mp hconfig)).trans (acceptIfRoom_full hfull))

theorem configStarted_queued (h : s.configStarted = true) : s.queuedKind .config = true := by
  obtain ⟨e, he, hkind⟩ := List.any_eq_true.mp h
  exact List.any_eq_true.mpr ⟨e, he, (Bool.and_eq_true_iff.mp hkind).1⟩

theorem admitConfig_coalesce (he : ¬ s.eraseComing) (hstarted : s.configStarted = false)
    (h : s.configTaken) : s.admitConfig = .coalesce := by
  refine (if_neg (mt configBusy_iff.mp ?_)).trans (if_pos (configTaken_iff.mpr h))
  rw [hstarted]
  exact fun h => h.elim he (fun h => nomatch h)

theorem admitConfig_accept (he : ¬ s.eraseComing) (h : ¬ s.configTaken) (hfree : ¬ s.noPlace) :
    s.admitConfig = .accept := by
  refine (if_neg (mt configBusy_iff.mp ?_)).trans
    ((if_neg (mt configTaken_iff.mp h)).trans (acceptIfRoom_free hfree))
  exact fun hbusy => hbusy.elim he fun hstarted => h (.inl (configStarted_queued hstarted))

/-! ### The lock -/

theorem lockReserved_iff : s.reservedKind .lock = true ↔ .lock ∈ s.me.reservations := by
  rw [State.reservedKind, List.contains_iff_mem]

theorem admitLock_busy
    (h : s.eraseComing ∨ (s.stc.lock = false ∧ .lock ∉ s.me.reservations ∧ s.noPlace)) :
    s.admitLock = .busy := by
  by_cases he : s.eraseComing
  · exact if_pos (eraseBusy_iff.mpr he)
  · obtain ⟨hlock, hplace, hfull⟩ := h.resolve_left he
    exact (if_neg (mt eraseBusy_iff.mp he)).trans ((if_neg (by simp [hlock])).trans
      ((if_neg (mt lockReserved_iff.mp hplace)).trans (acceptIfRoom_full hfull)))

theorem admitLock_locked (he : ¬ s.eraseComing) (hlock : s.stc.lock = true) :
    s.admitLock = .alreadyLocked := (if_neg (mt eraseBusy_iff.mp he)).trans (if_pos hlock)

theorem admitLock_coalesce (he : ¬ s.eraseComing) (hlock : s.stc.lock = false)
    (h : .lock ∈ s.me.reservations) : s.admitLock = .coalesce :=
  (if_neg (mt eraseBusy_iff.mp he)).trans
    ((if_neg (by simp [hlock])).trans (if_pos (lockReserved_iff.mpr h)))

theorem admitLock_accept (he : ¬ s.eraseComing) (hlock : s.stc.lock = false)
    (h : .lock ∉ s.me.reservations) (hfree : ¬ s.noPlace) : s.admitLock = .accept :=
  (if_neg (mt eraseBusy_iff.mp he)).trans ((if_neg (by simp [hlock])).trans
    ((if_neg (mt lockReserved_iff.mp h)).trans (acceptIfRoom_free hfree)))

/-! ### The erase -/

theorem admitErase_busy (h : s.stc.queue ≠ [] ∨ s.me.reservations ≠ []) : s.admitErase = .busy := by
  unfold State.admitErase
  split
  · rfl
  · refine if_neg fun hempty => ?_
    obtain ⟨hqueue, hplaces⟩ := Bool.and_eq_true_iff.mp hempty
    exact h.elim (fun h => h (List.isEmpty_iff.mp hqueue)) fun h => h (List.isEmpty_iff.mp hplaces)

theorem admitErase_accept (hq : s.stc.queue = []) (hr : s.me.reservations = []) :
    s.admitErase = .accept := by
  simp [State.admitErase, State.eraseBusy, State.queuedKind, State.reservedKind, hq, hr]

/-! ## The answers (R151, R169, R170) -/

theorem unlessBusy_busy {how : Admission} {e : Staged}
    (h : s.me.restartMark = true ∨ how = .busy) : s.unlessBusy how e = .refuse .busy := by
  unfold State.unlessBusy
  split
  · rfl
  · next hmark => exact if_pos (h.resolve_left hmark)

theorem unlessBusy_take {how : Admission} {e : Staged} (hm : ¬ s.me.restartMark = true)
    (h : how ≠ .busy) : s.unlessBusy how e = .accept [] (some e) := (if_neg hm).trans (if_neg h)

theorem judgeCapture_eq (s : State) (n : Fin 16) (fade : Byte) :
    judgeCapture s [natByte n.val, fade] =
      s.unlessBusy (s.admitScene n) (.capture n fade (s.admitScene n)) := by
  unfold judgeCapture
  simp only [finOf_natByte n (by decide)]

theorem judgeCapture_busy (fade : Byte)
    (h : s.me.restartMark = true ∨ s.eraseComing ∨ (¬ s.sceneTaken n ∧ s.noPlace)) :
    judgeCapture s [natByte n.val, fade] = .refuse .busy := by
  rw [judgeCapture_eq]
  exact unlessBusy_busy (h.imp_right admitScene_busy)

theorem judgeCapture_take {how : Admission} (fade : Byte) (hm : ¬ s.me.restartMark = true)
    (h : s.admitScene n = how) (hne : how ≠ .busy) :
    judgeCapture s [natByte n.val, fade] = .accept [] (some (.capture n fade how)) := by
  rw [judgeCapture_eq, h]
  exact unlessBusy_take hm hne

theorem judgeSaveConfig_eq (h : s.stc.lock = false) :
    judgeSaveConfig s [] = s.unlessBusy s.admitConfig (.saveConfig s.admitConfig) :=
  if_neg (by simp [h])

theorem judgeSaveConfig_busy (hlock : s.stc.lock = false)
    (h : s.me.restartMark = true ∨ s.eraseComing ∨ s.configStarted = true ∨
      (¬ s.configTaken ∧ s.noPlace)) : judgeSaveConfig s [] = .refuse .busy := by
  rw [judgeSaveConfig_eq hlock]
  exact unlessBusy_busy (h.imp_right admitConfig_busy)

theorem judgeSaveConfig_take {how : Admission} (hlock : s.stc.lock = false)
    (hm : ¬ s.me.restartMark = true) (h : s.admitConfig = how) (hne : how ≠ .busy) :
    judgeSaveConfig s [] = .accept [] (some (.saveConfig how)) := by
  rw [judgeSaveConfig_eq hlock, h]
  exact unlessBusy_take hm hne

theorem judgeSetLock_busy
    (h : s.me.restartMark = true ∨ s.eraseComing ∨
      (s.stc.lock = false ∧ .lock ∉ s.me.reservations ∧ s.noPlace)) :
    judgeSetLock s [] = .refuse .busy := unlessBusy_busy (h.imp_right admitLock_busy)

theorem judgeSetLock_take {how : Admission} (hm : ¬ s.me.restartMark = true)
    (h : s.admitLock = how) (hne : how ≠ .busy) :
    judgeSetLock s [] = .accept [] (some (.setLock how)) := by
  show s.unlessBusy s.admitLock (.setLock s.admitLock) = _
  rw [h]
  exact unlessBusy_take hm hne

theorem judgeEraseStore_busy
    (h : s.me.restartMark = true ∨ s.stc.queue ≠ [] ∨ s.me.reservations ≠ []) :
    judgeEraseStore s [] = .refuse .busy := unlessBusy_busy (h.imp_right admitErase_busy)

theorem judgeEraseStore_take (hm : ¬ s.me.restartMark = true) (hq : s.stc.queue = [])
    (hr : s.me.reservations = []) : judgeEraseStore s [] = .accept [] (some .eraseStore) :=
  unlessBusy_take hm (by rw [admitErase_accept hq hr]; decide)

theorem judgeRestart_busy
    (h : s.stc.activity ≠ .idle ∨ s.stc.queue ≠ [] ∨ s.me.reservations ≠ []) :
    judgeRestart s [] = .refuse .busy := if_pos h

theorem judgeRestart_take (ha : s.stc.activity = .idle) (hq : s.stc.queue = [])
    (hr : s.me.reservations = []) : judgeRestart s [] = .accept [] (some .restart) :=
  if_neg (by simp [ha, hq, hr])

end

/-! ## The commits (R149, R151) -/

section
variable (s : State) (n : Fin 16) (fade : Byte)

/-- The scene that CAPTURE_SCENE takes. -/
def State.captured : SceneRecord :=
  { valid := true, targets := (List.range 28).map fun i => (s.context i).target, fade := fade }

theorem sceneOpen_queued {s : State} {n : Fin 16} (h : s.sceneOpen n = true) :
    s.queuedKind (.scene n) = true := by
  obtain ⟨e, he, hkind⟩ := List.any_eq_true.mp h
  exact List.any_eq_true.mpr ⟨e, he, (Bool.and_eq_true_iff.mp hkind).1⟩

theorem commitSaveConfig_new (h : s.queuedKind .config = false) :
    s.commitSaveConfig .coalesce = s.takeSnapshot.joinQueue .config := if_pos (by simp [h])

theorem commitSaveConfig_open (h : s.queuedKind .config = true) (hs : s.configStarted = false) :
    s.commitSaveConfig .coalesce = s.takeSnapshot :=
  (if_neg (by simp [h])).trans (if_neg (by simp [hs]))

theorem commitSaveConfig_started (h : s.configStarted = true) :
    s.commitSaveConfig .coalesce = s.markAgain .config :=
  (if_neg (by simp [configStarted_queued h])).trans (if_pos h)

theorem commitCapture_new (h : s.queuedKind (.scene n) = false) :
    s.commitCapture n fade .coalesce = (s.captureShadow n fade).joinQueue (.scene n) := by
  have hq : (s.captureShadow n fade).queuedKind (.scene n) = false := h
  exact if_pos (by simp [hq])

theorem commitCapture_open (h : s.sceneOpen n = true) :
    s.commitCapture n fade .coalesce = s.captureShadow n fade := by
  have hq : (s.captureShadow n fade).queuedKind (.scene n) = true := sceneOpen_queued h
  exact (if_neg (by simp [hq])).trans (if_pos h)

theorem commitCapture_started (h : s.queuedKind (.scene n) = true) (ho : s.sceneOpen n = false) :
    s.commitCapture n fade .coalesce = (s.captureShadow n fade).markAgain (.scene n) := by
  have hq : (s.captureShadow n fade).queuedKind (.scene n) = true := h
  have hopen : (s.captureShadow n fade).sceneOpen n = false := ho
  exact (if_neg (by simp [hq])).trans (if_neg (by simp [hopen]))

end

/-! ## The records (R151, R169) -/

theorem commitAll_queuing (s : State) {e : Staged} (hs : e.shapes = false) (hq : e.queues = true) :
    s.commitAll [e] = (s.apply e).startHead := by
  simp only [State.commitAll, List.foldl_cons, List.foldl_nil, List.any_cons, List.any_nil,
    Bool.or_false, hs, hq, Bool.false_eq_true, ↓reduceIte]

/-- An accepted store request. -/
theorem exec_request {s : State} {c : Cmd} {r : Record} (h : TakenRecord s r)
    (hr : c.isRead = false) (hc : c.onlyBroadcast = false) {params : List Byte}
    (hp : r.params = params) {e : Staged}
    (hj : judgeCommand s s.node.address (decide (r.target = broadcastTarget)) c params =
      .accept [] (some e)) (hs : e.shapes = false) (hq : e.queues = true) :
    exec (c.instr r) s = .next (s.afterAccepted c.code r [] (s.apply e).startHead) := by
  have he : ∀ v, e ≠ .enumerate v := by rintro v rfl; cases hq
  have hrestart : e ≠ .restart := by rintro rfl; cases hq
  have hjudged : s.judged c r = .accept [] (some e) := by rw [State.judged, hp, hj]
  rw [exec_write h (.of_plain hr hc) hjudged he hrestart, commitAll_queuing s hs hq]

/-- Between frames no place is reserved and no restart marked. -/
theorem LinkRest.reservations {s : State} (h : LinkRest s) : s.me.reservations = [] := by
  rw [h.me]
  rfl

theorem LinkRest.restartMark {s : State} (h : LinkRest s) : ¬ s.me.restartMark = true := by
  rw [h.me]
  decide

theorem LinkRest.eraseComing {s : State} (h : LinkRest s) :
    s.eraseComing ↔ s.queuedKind .erase = true := by
  rw [State.eraseComing, h.reservations]
  simp

theorem LinkRest.noPlace {s : State} (h : LinkRest s) :
    s.noPlace ↔ 4 ≤ s.stc.queue.length := by
  rw [State.noPlace, h.reservations, List.length_nil, Nat.add_zero]

theorem LinkRest.sceneTaken {s : State} (h : LinkRest s) (n : Fin 16) :
    s.sceneTaken n ↔ s.sceneOpen n = true := by
  rw [State.sceneTaken, h.reservations]
  simp

theorem LinkRest.configTaken {s : State} (h : LinkRest s) :
    s.configTaken ↔ s.queuedKind .config = true := by
  rw [State.configTaken, h.reservations]
  simp

/-- Settles O30. -/
theorem storeRequestsJoinTheQueue : Obligations.StoreRequestsJoinTheQueue := by
  intro r s h herase hdepth
  have hm := h.rest.restartMark
  have he : ¬ s.eraseComing := by
    rw [h.rest.eraseComing, herase]
    decide
  have hfree : ¬ s.noPlace := by
    rw [h.rest.noPlace]
    omega
  refine ⟨fun n fade hp ho => ?scene, fun hp hlock hc => ?config, fun hp hlock => ?lock,
    fun hp hq => ?erase⟩
  case scene =>
    have hnew : ¬ s.sceneTaken n := by
      rw [h.rest.sceneTaken, ho]
      decide
    exact exec_request (c := .captureScene) h rfl rfl hp
      (judgeCapture_take fade hm (admitScene_accept he hnew hfree) (by decide)) rfl rfl
  case config =>
    have hnew : ¬ s.configTaken := by
      rw [h.rest.configTaken, hc]
      decide
    exact exec_request (c := .saveConfig) h rfl rfl hp
      (judgeSaveConfig_take hlock hm (admitConfig_accept he hnew hfree) (by decide)) rfl rfl
  case lock =>
    have hnew : .lock ∉ s.me.reservations := by
      rw [h.rest.reservations]
      exact List.not_mem_nil
    exact exec_request (c := .setLock) h rfl rfl hp
      (judgeSetLock_take hm (admitLock_accept he hlock hnew hfree) (by decide)) rfl rfl
  case erase =>
    refine (exec_request (c := .eraseStore) h rfl rfl hp
      (judgeEraseStore_take hm hq h.rest.reservations) rfl rfl).trans ?_
    have hjoin : s.apply .eraseStore = s.setStc { s.stc with queue := [⟨.erase, false, false⟩] } := by
      show s.setStc { s.stc with queue := s.stc.queue ++ [⟨.erase, false, false⟩] } = _
      rw [hq]
      rfl
    rw [hjoin]
    rfl

end Sys2Proof.Machine

namespace Sys2Proof.Machine

/-! ## What an acceptance leaves in the frame's state (R151, R170) -/

theorem takeStatus_me {s : State} {m : Executor} {p : Parser} {address : Fin 251} {b : Byte}
    {a : Answer} (ha : answerRecord s address p.target p.command p.params b = a)
    (h : ∀ out e, a.verdict ≠ .accept out (some e)) :
    (takeStatus s m p address b).me = m.decides p b a := by
  cases hv : a.verdict with
  | untouched => rw [takeStatus_untouched ha hv]
  | refuse st => rw [takeStatus_refuse ha hv]
  | accept out staged =>
    cases staged with
    | none => rw [takeStatus_accept_none ha hv]
    | some e => exact absurd hv (h out e)

theorem takeStatus_commits (s : State) (m : Executor) (p : Parser) (address : Fin 251) (b : Byte) :
    (takeStatus s m p address b).me.commits = m.commits := by
  obtain ⟨-, -, hcommits, -⟩ := takeStatus_spec (s := s) (m := m) (b := b) (address := address) rfl rfl
  exact hcommits

/-- The places, the entries coalesced into and the restart mark after an acceptance, write by write. -/
theorem reserve_places (m : Executor) (s : State) (e : Staged) :
    let t := m.reserve s e
    let kept := t.reservations = m.reservations ∧ t.coalesced = m.coalesced ∧
      t.restartMark = m.restartMark
    let reserves (k : StoreKind) := t.reservations = m.reservations ++ [k] ∧
      t.coalesced = m.coalesced ∧ t.restartMark = m.restartMark
    let joinsEntry (k : StoreKind) := t.reservations = m.reservations ∧
      t.coalesced = m.coalesced ++ [k] ∧ t.restartMark = m.restartMark
    (∀ n fade, e = .capture n fade .accept → reserves (.scene n)) ∧
    (∀ n fade, e = .capture n fade .coalesce →
      (s.sceneOpen n = true → joinsEntry (.scene n)) ∧ (s.sceneOpen n = false → kept)) ∧
    (e = .saveConfig .accept → reserves .config) ∧
    (e = .saveConfig .coalesce →
      (s.queuedKind .config = true → joinsEntry .config) ∧
      (s.queuedKind .config = false → kept)) ∧
    (e = .setLock .accept → reserves .lock) ∧
    (e = .setLock .coalesce ∨ e = .setLock .alreadyLocked → kept) ∧
    (e = .eraseStore → reserves .erase) ∧
    (e = .restart → t.reservations = m.reservations ∧ t.coalesced = m.coalesced ∧
      t.restartMark = true) ∧
    (e.storeKind = none → e ≠ .restart → kept) := by
  intro t kept reserves joinsEntry
  have hif (c : Bool) (k : StoreKind)
      (ht : t = if c then { m with coalesced := m.coalesced ++ [k] } else m) :
      (c = true → joinsEntry k) ∧ (c = false → kept) := by
    clear_value t
    subst ht
    cases c
    · exact ⟨fun h => (nomatch h), fun _ => ⟨rfl, rfl, rfl⟩⟩
    · exact ⟨fun _ => ⟨rfl, rfl, rfl⟩, fun h => nomatch h⟩
  refine ⟨?_, ?_, ?_, ?_, ?_, ?_, ?_, ?_, fun hk hr => ?_⟩
  · rintro n fade rfl
    exact ⟨rfl, rfl, rfl⟩
  · rintro n fade rfl
    exact hif _ _ rfl
  · rintro rfl
    exact ⟨rfl, rfl, rfl⟩
  · rintro rfl
    exact hif _ _ rfl
  · rintro rfl
    exact ⟨rfl, rfl, rfl⟩
  · rintro (rfl | rfl)
    · exact ⟨rfl, rfl, rfl⟩
    · exact ⟨rfl, rfl, rfl⟩
  · rintro rfl
    exact ⟨rfl, rfl, rfl⟩
  · rintro rfl
    exact ⟨rfl, rfl, rfl⟩
  · have ht : t = m := reserve_of_storeless m s hk hr
    clear_value t
    subst ht
    exact ⟨rfl, rfl, rfl⟩

/-! ## A queued entry that leaves before the commit (R151, log 25) -/

theorem entryLeft_coalesced {m : Executor} {k : StoreKind} {queue : List QueueEntry}
    (hk : k ∈ m.coalesced) (hq : ∀ e ∈ queue, e.kind ≠ k) :
    m.entryLeft k queue =
      { m with reservations := m.reservations ++ [k], coalesced := m.coalesced.erase k } := by
  refine if_pos ?_
  rw [Bool.and_eq_true, List.contains_iff_mem, Bool.not_eq_true', List.any_eq_false]
  exact ⟨hk, fun e he => by simpa using hq e he⟩

theorem entryLeft_kept {m : Executor} {k : StoreKind} {queue : List QueueEntry}
    (h : k ∉ m.coalesced ∨ ∃ e ∈ queue, e.kind = k) : m.entryLeft k queue = m := by
  refine if_neg ?_
  rw [Bool.and_eq_true, List.contains_iff_mem, Bool.not_eq_true', List.any_eq_false]
  rintro ⟨hk, hq⟩
  obtain hno | ⟨e, he, hkind⟩ := h
  · exact hno hk
  · exact hq e he (decide_eq_true hkind)

/-- Settles O31: the coalescing records, the busy ones, Table 10-4, the frame's state after an acceptance,
an entry that leaves, and the commits. -/
theorem storeRequestsCoalesceOrAreBusy : Obligations.StoreRequestsCoalesceOrAreBusy := by
  refine ⟨fun r s h herase => ?coalesce, fun r s hl hw ht => ?busy,
    fun s address broadcast n fade => ?table, fun s p address remaining b hf => ?frame,
    fun m k queue => ⟨entryLeft_coalesced, entryLeft_kept⟩, fun s n fade => ?commits⟩
  case coalesce =>
    have hm := h.rest.restartMark
    have he : ¬ s.eraseComing := by
      rw [h.rest.eraseComing, herase]
      decide
    refine ⟨fun n fade hp ho => ?_, fun hp hlock hc hstarted => ?_, fun hp hlock => ?_⟩
    · have hj := judgeCapture_take fade hm
        (admitScene_coalesce he ((h.rest.sceneTaken n).mpr ho)) (by decide)
      refine (exec_request (c := .captureScene) h rfl rfl hp hj rfl rfl).trans ?_
      rw [show s.apply (.capture n fade .coalesce) = s.captureShadow n fade from
        commitCapture_open s n fade ho]
      rfl
    · have hj := judgeSaveConfig_take hlock hm
        (admitConfig_coalesce he hstarted (h.rest.configTaken.mpr hc)) (by decide)
      refine (exec_request (c := .saveConfig) h rfl rfl hp hj rfl rfl).trans ?_
      rw [show s.apply (.saveConfig .coalesce) = s.takeSnapshot from
        commitSaveConfig_open s hc hstarted]
      rfl
    · exact exec_request (c := .setLock) h rfl rfl hp
        (judgeSetLock_take hm (admitLock_locked he hlock) (by decide)) rfl rfl
  case busy =>
    have hbusy {c : Cmd} {params : List Byte} (hp : r.params = params) (hr : c.isRead = false)
        (hc : c.onlyBroadcast = false)
        (hj : judgeCommand s s.node.address (decide (r.target = broadcastTarget)) c params =
          .refuse .busy) :
        exec (c.instr r) s = .next (s.afterRefusal c.code r .busy) :=
      exec_refused hl hw ht (.of_plain hr hc) (by rw [State.judged, hp, hj])
    refine ⟨fun n fade hp h => ?_, fun hp => ⟨fun hlock h => ?_, fun h => ?_, fun h => ?_,
      fun h => ?_⟩⟩
    · refine hbusy (c := .captureScene) hp rfl rfl (judgeCapture_busy fade (.inr ?_))
      rw [hl.eraseComing, hl.sceneTaken, hl.noPlace, Bool.not_eq_true]
      exact h
    · refine hbusy (c := .saveConfig) hp rfl rfl (judgeSaveConfig_busy hlock (.inr ?_))
      rw [hl.eraseComing, hl.configTaken, hl.noPlace, Bool.not_eq_true]
      exact h
    · refine hbusy (c := .setLock) hp rfl rfl (judgeSetLock_busy (.inr ?_))
      rw [hl.eraseComing, hl.noPlace, hl.reservations]
      exact h.imp_right fun h => ⟨h.1, List.not_mem_nil, h.2⟩
    · exact hbusy (c := .eraseStore) hp rfl rfl (judgeEraseStore_busy (.inr (.inl h)))
    · exact hbusy (c := .restart) hp rfl rfl (judgeRestart_busy (h.imp_right .inl))
  case table =>
    intro answer after erase full scene config take
    exact ⟨judgeCapture_busy fade,
      fun hm he h => judgeCapture_take fade hm (admitScene_coalesce he h) (by decide),
      fun hm he h hfree => judgeCapture_take fade hm (admitScene_accept he h hfree) (by decide),
      fun hlock => ⟨judgeSaveConfig_busy hlock,
        fun hm he hs h => judgeSaveConfig_take hlock hm (admitConfig_coalesce he hs h) (by decide),
        fun hm he h hfree =>
          judgeSaveConfig_take hlock hm (admitConfig_accept he h hfree) (by decide)⟩,
      judgeSetLock_busy,
      fun hm he hlock => judgeSetLock_take hm (admitLock_locked he hlock) (by decide),
      fun hm he hlock h => judgeSetLock_take hm (admitLock_coalesce he hlock h) (by decide),
      fun hm he hlock h hfree => judgeSetLock_take hm (admitLock_accept he hlock h hfree) (by decide),
      judgeEraseStore_busy, judgeEraseStore_take, judgeRestart_busy, judgeRestart_take⟩
  case frame =>
    intro a t kept reserves joinsEntry
    have htaken : t = (takeStatus s s.me p address b).me :=
      congrArg Taken.me (takeBodyByte_status hf)
    refine ⟨by rw [htaken, takeStatus_commits], fun hnone => ?_, fun out e hv => ?_⟩
    · have ht : t = s.me.decides p b a := htaken.trans (takeStatus_me rfl hnone)
      clear_value t
      subst ht
      exact ⟨rfl, rfl, rfl⟩
    · have ht : t = (s.me.decides p b a).reserve s e :=
        htaken.trans (congrArg Taken.me (takeStatus_accept_some rfl hv))
      clear_value t
      subst ht
      exact reserve_places (s.me.decides p b a) s e
  case commits =>
    intro mark shadow snapshot
    exact ⟨commitSaveConfig_new s, commitSaveConfig_open s, commitSaveConfig_started s,
      commitCapture_new s n fade, commitCapture_open s n fade, commitCapture_started s n fade⟩

end Sys2Proof.Machine

namespace Sys2Proof.Machine

/-! ## STANDBY, WAKE and RESTART (R138, R145, R170) -/

theorem exec_standby {s : State} {r : Record} (h : TakenRecord s r) (hp : r.params = []) :
    exec (.standby r) s = .next (s.afterAccepted 0x22 r [] s.commitStandby) := by
  have hj : s.judged .standby r = .accept [] (some .standby) := by
    rw [State.judged, hp]
    rfl
  exact exec_plain (c := .standby) h rfl rfl hj nofun nofun rfl rfl

theorem exec_wake {s : State} {r : Record} (h : TakenRecord s r) (hp : r.params = []) :
    exec (.wake r) s = .next (s.afterAccepted 0x23 r [] s.commitWake) := by
  have hj : s.judged .wake r = .accept [] (some .wake) := by
    rw [State.judged, hp]
    rfl
  exact exec_plain (c := .wake) h rfl rfl hj nofun nofun rfl rfl

/-- Settles O32: the two mode records by the mode standing, the restart by its mark. -/
theorem standbyWakeAndRestart : Obligations.StandbyWakeAndRestart := by
  intro r s h hp
  rw [exec_standby h hp, exec_wake h hp]
  unfold State.commitStandby State.commitWake
  refine ⟨fun hm => ?_, fun hm => ?_, fun hm => ?_, fun ha hq => ?restart⟩
  case restart =>
    have hj : s.judged .restart r = .accept [] (some .restart) := by
      rw [State.judged, hp]
      exact judgeRestart_take ha hq h.rest.reservations
    exact congrArg Host.Outcome.next (passRecord_accepted h.rest 0x24 h.wf h.takes h.crc [] _
      ((verdict_eq_judged (.of_plain rfl rfl)).trans hj) nofun (Nat.zero_le _))
  · obtain hm | hm := hm <;> rw [hm] <;> exact ⟨rfl, rfl⟩
  · rw [hm]
    exact ⟨rfl, rfl⟩
  · rw [hm]
    exact ⟨rfl, rfl⟩

/-! ## ENUMERATE (R166) -/

theorem givesOut_iff (b : Byte) : givesOut b = true ↔ 1 ≤ b.toNat ∧ b.toNat ≤ 250 := by
  rw [givesOut, Bool.and_eq_true, decide_eq_true_eq, decide_eq_true_eq]

/-- The answer to an ENUMERATE that the node takes part in. -/
theorem recordAnswer_enumerate {s : State} {r : Record} {mode : Byte} (hb : r.target = 0xFF)
    (hlock : s.stc.lock = false) (hp : r.params = [mode])
    (hmode : mode = 0x00 ∨ (mode = 0x01 ∧ s.node.address = 0)) :
    s.recordAnswer 0x30 r =
      { verdict := .accept [] (some (.enumerate none)), writes := decide (r.status = 0x00) } := by
  have hv : s.verdict 0x30 r = .accept [] (some (.enumerate none)) := by
    refine (verdict_eq_judged (c := .enumerate) (.of_broadcast rfl hb)).trans ?_
    rw [State.judged, hp]
    exact (if_pos hmode).trans (unlessLocked_free hlock _)
  have hbroadcast : r.target = broadcastTarget := hb
  rw [recordAnswer_takes 0x30 (.inl hb), hv, if_pos hbroadcast]

/-- The record and the commits of an ENUMERATE that the node takes part in. -/
theorem exec_enumerate {s : State} {r : Record} (h : TakenRecord s r)
    (ha : s.recordAnswer 0x30 r =
      { verdict := .accept [] (some (.enumerate none)), writes := decide (r.status = 0x00) })
    {answered : Byte} {out : List Byte} {commits : List Staged} {t : State}
    (hstatus : (if r.reply.length < 1 then Status.noRoom.code else Status.done.code) = answered)
    (hout : runningReply r.reply = out)
    (hcommits : passedCommits
      { verdict := .accept [] (some (.enumerate none)), writes := decide (r.status = 0x00) }
        r.reply = commits)
    (hrestart : commitsRestart commits = false) (ht : s.commitAll commits = t) :
    exec (.enumerate r) s =
      .next (s.afterRecord .good 0x30 r
        { r with status := if r.status = 0x00 then answered else r.status, reply := out } false t) := by
  have hrecord : s.recordSent 0x30 r =
      { r with status := if r.status = 0x00 then answered else r.status, reply := out } := by
    rw [State.recordSent, ha, ← hstatus, ← hout]
    simp only [passedStatus, passedReply, decide_eq_true_eq]
    rfl
  have hpassed := passRecord_after h.rest 0x30 r h.wf
  rw [if_pos (recordOutcome_correct 0x30 r h.crc), ha, hcommits, hrestart, hrecord, ht] at hpassed
  exact congrArg Host.Outcome.next hpassed

/-- Settles O33: the running address by the reply's first byte. -/
theorem enumerateGivesOutAddresses : Obligations.EnumerateGivesOutAddresses := by
  intro r s mode h hb hlock hp st
  refine ⟨fun hmode => ?takesPart, fun hmode hne => ?addressed⟩
  case takesPart =>
    have ha := recordAnswer_enumerate hb hlock hp hmode
    refine ⟨fun v rest hv hreply => ?given, fun b rest hb hreply => ?other, fun hreply => ?noRoom⟩
    case given =>
      have hbyte : (natByte v.val).toNat = v.val := natByte_toNat (by omega)
      have hpos : v.val ≠ 0 := fun h0 => hv (Fin.ext h0)
      have hgives : givesOut (natByte v.val) = true := by
        rw [givesOut_iff, hbyte]
        omega
      have hnext : natByte v.val + 1 = natByte (v.val + 1) :=
        (BitVec.ofNat_add v.val 1).symm
      refine exec_enumerate h ha (answered := 0x01) (commits := [.enumerate (some v)]) ?_ ?_ ?_ rfl rfl
      · rw [hreply]
        rfl
      · rw [hreply]
        simp only [runningReply, hgives, ↓reduceIte, hnext]
      · rw [hreply]
        simp only [passedCommits, hgives, ↓reduceIte, finOf_natByte v (by decide)]
    case other =>
      have hgives : givesOut b = false := by
        rw [Bool.eq_false_iff, ne_eq, givesOut_iff]
        obtain rfl | hb := hb
        · decide
        · omega
      refine exec_enumerate h ha (answered := 0x01) (out := r.reply) (commits := []) ?_ ?_ ?_ rfl rfl
      · rw [hreply]
        rfl
      · rw [hreply]
        simp only [runningReply, hgives, Bool.false_eq_true, ↓reduceIte]
      · rw [hreply]
        simp only [passedCommits, hgives, Bool.false_eq_true, ↓reduceIte]
    case noRoom =>
      refine exec_enumerate h ha (answered := 0x06) (out := r.reply) (commits := []) ?_ ?_ ?_ rfl rfl
      · rw [hreply]
        rfl
      · rw [hreply]
        rfl
      · rw [hreply]
        rfl
  case addressed =>
    refine exec_untouched (c := .enumerate) h.rest h.wf fun _ => ?_
    refine (verdict_eq_judged (.of_broadcast rfl hb)).trans ?_
    rw [State.judged, hp, hmode]
    exact (if_neg (by simp [hne])).trans (if_pos rfl)

/-! ## ADDRESS_BY_ID (R167) -/

theorem judgeAddressById_other (s : State) {id : List Byte} {a : Byte} {v : Fin 251}
    (hlen : id.length = 6) (hid : id ≠ uniqueIdBytes) (ha : finOf? 251 a.toNat = some v)
    (hv : v ≠ 0) : judgeAddressById s (id ++ [a]) = .untouched := by
  match id, hlen with
  | [i1, i2, i3, i4, i5, i6], _ =>
    show judgeAddressById s [i1, i2, i3, i4, i5, i6, a] = _
    unfold judgeAddressById
    simp only [ha, hv, hid, ↓reduceIte]

/-- Settles O34. -/
theorem addressByIdSetsTheMatchingNode : Obligations.AddressByIdSetsTheMatchingNode := by
  intro r s id a h hb hlen ha hp
  have hfin : finOf? 251 (natByte a.val).toNat = some a := finOf_natByte a (by decide)
  refine ⟨fun hid hlock => ?own, fun hid => ?other⟩
  case own =>
    have hj : s.judged .addressById r = .accept [] (some (.addressById a)) := by
      rw [State.judged, hp, hid]
      exact (judgeAddressById_own hfin ha).trans (unlessLocked_free hlock _)
    exact exec_write (c := .addressById) h (.of_broadcast rfl hb) hj nofun nofun
  case other =>
    refine exec_untouched (c := .addressById) h.rest h.wf fun _ => ?_
    refine (verdict_eq_judged (.of_broadcast rfl hb)).trans ?_
    rw [State.judged, hp]
    exact judgeAddressById_other s hlen hid hfin ha

end Sys2Proof.Machine

namespace Sys2Proof.Machine

/-- A guarded command where the guard holds. -/
theorem next_if_pos {s t : State} {p : Prop} [Decidable p] (h : p) :
    (Host.Outcome.next (if p then t else s) : Host.Outcome State Fault Refusal) = .next t :=
  congrArg _ (if_pos h)

/-- A guarded command where the guard fails. -/
theorem next_if_neg {s t : State} {p : Prop} [Decidable p] (h : ¬ p) :
    (Host.Outcome.next (if p then t else s) : Host.Outcome State Fault Refusal) = .next s :=
  congrArg _ (if_neg h)

/-! ## The tick (R59, R78, R101, R129, R136, R140) -/

theorem force_tick_eq : Force.tick = fun f =>
    match f with
    | .inactive => .inactive
    | .active level left => .active level (left.map (· - 1)) := by
  funext f
  obtain _ | ⟨level, _ | n⟩ := f <;> rfl

theorem lossTimer_tick_eq (t : LossTimer) :
    t.tick = match t with
      | .running n => .running (n - 1)
      | .off => .off
      | .expired => .expired := by
  cases t <;> rfl

/-- Settles O37. -/
theorem tickStepsFadesAndTimers : Obligations.TickStepsFadesAndTimers := by
  intro s
  refine ⟨fun ht => ?runs, fun ht => ?stopped⟩
  case runs =>
    refine (next_if_pos ht).trans (congrArg (fun x : State => Host.Outcome.next x.reshape) ?_)
    unfold State.timebaseTick
    rw [force_tick_eq, lossTimer_tick_eq]
    rfl
  case stopped =>
    refine next_if_neg ?_
    rw [ht]
    decide

/-! ## The loss timer (R67, R68, Table 4-2) -/

/-- The timer EXPIRED, the stream flag ABSENT and LOSS raised, before the loss action. -/
def State.streamLost (s : State) : State :=
  (s.setSs { s.ss with lossTimer := .expired, live := false }).raise .loss

theorem streamLost_eq (s : State) :
    s.streamLost = { s with
      ss := { s.ss with lossTimer := .expired, live := false }
      al := { s.al with
        reasons := s.al.reasons ||| 0x20
        holdOff :=
          if has s.al.reasons 5 = true ∨ has s.al.mask 5 = true then s.al.holdOff else none } } :=
  congrArg (fun a => (s.setSs { s.ss with lossTimer := .expired, live := false }).setAl a)
    (raise_eq s.al .loss)

theorem lossAction_hold {s : State} (h : s.ss.source = .stream)
    (ha : s.node.lossAction = .hold ∨
      s.node.lossAction = .scene ∧ (s.scene s.node.lossScene).valid = false) :
    s.lossAction = s.setSs { s.ss with source := .lossHold } := by
  unfold State.lossAction
  obtain ha | ⟨ha, hv⟩ := ha
  · rw [h, ha]
  · rw [h, ha]
    exact if_neg (by simp [hv])

theorem lossAction_scene {s : State} (h : s.ss.source = .stream) (ha : s.node.lossAction = .scene)
    (hv : (s.scene s.node.lossScene).valid = true) :
    s.lossAction =
      (s.setSs { s.ss with source := .lossCue s.node.lossScene }).retargetAll
        (s.scene s.node.lossScene).targets s.node.lossFade := by
  unfold State.lossAction
  rw [h, ha]
  exact if_pos hv

theorem lossAction_black {s : State} (h : s.ss.source = .stream) (ha : s.node.lossAction = .black) :
    s.lossAction =
      (s.setSs { s.ss with source := .lossBlack }).retargetEach (fun i => i) (fun _ => 0)
        (fun _ => s.node.lossFade) (List.range 24) := by
  unfold State.lossAction
  rw [h, ha]
  rfl

theorem lossAction_cue {s : State} {n : Fin 16} (h : s.ss.source = .cue n) :
    s.lossAction = s := by
  unfold State.lossAction
  rw [h]

/-- The 24 channels retargeted with one code, the group contexts not. -/
theorem retargetChannels_state {s : State} (hs : s.fe.contexts.length = 28) (t : Word)
    (code : Byte) :
    s.retargetEach (fun i => i) (fun _ => t) (fun _ => code) (List.range 24) =
      { s with fe := { s.fe with
        contexts := (List.range 28).map fun i =>
          if i < 24 then (s.context i).retarget t code else s.context i } } := by
  refine retargetEach_state _ _ _ hs (by simpa using List.nodup_range) fun i _ => ?_
  by_cases hi : i < 24
  · rw [retargeted, find_range hi, if_pos hi]
  · have hnone : (List.range 24).find? (fun k => decide (k = i)) = none := by
      rw [List.find?_eq_none]
      intro k hk
      have := List.mem_range.mp hk
      simp only [decide_eq_true_eq]
      omega
    rw [retargeted, hnone, if_neg hi]

/-- Settles O38: the loss action by the source and the live settings. -/
theorem lossTimerExpiryTakesTheLossAction : Obligations.LossTimerExpiryTakesTheLossAction := by
  intro s hs a expired k
  refine ⟨fun ht => next_if_neg ht, fun ht => ?_⟩
  have hexec {x : State} (hx : s.streamLost.lossAction = x) :
      exec .lossTimerExpiry s = .next x.reshape := by
    rw [← hx]
    exact next_if_pos ht
  refine ⟨fun hsrc ha => hexec ?_, fun hsrc ha => hexec ?_, fun hsrc ha hv => hexec ?_,
    fun hsrc ha hv => hexec ?_, fun n hsrc => hexec ?_⟩
  · rw [lossAction_hold (s := s.streamLost) hsrc (.inl ha), streamLost_eq]
    rfl
  · rw [lossAction_black (s := s.streamLost) hsrc ha]
    refine (retargetChannels_state hs.contexts 0 s.node.lossFade
      (s := s.streamLost.setSs { s.streamLost.ss with source := .lossBlack })).trans ?_
    rw [streamLost_eq]
    rfl
  · rw [lossAction_scene (s := s.streamLost) hsrc ha hv]
    refine (retargetAll_state hs.contexts (s.scene k).targets s.node.lossFade
      (s := s.streamLost.setSs { s.streamLost.ss with source := .lossCue k })).trans ?_
    rw [streamLost_eq]
    rfl
  · rw [lossAction_hold (s := s.streamLost) hsrc (.inr ⟨ha, hv⟩), streamLost_eq]
    rfl
  · rw [lossAction_cue (s := s.streamLost) hsrc, streamLost_eq]
    simp only [expired, ← hsrc]
    rfl

/-! ## Modes (R110, R113, R131, R136, R137, R140) -/

theorem reblock_notRun {s : State} (h : s.mc.mode ≠ .run) :
    s.reblock = s.setPwu { s.pwu with
      channels := List.replicate 24 { block := .blocked, onCount := 0, endDue := false } } := by
  have hall : (List.range 24).map (fun i =>
      if has s.fm.shortLatch i = true ∨ s.mc.mode ≠ .run then
        ({ block := .blocked, onCount := 0, endDue := false } : PwmChannel)
      else if (s.channel i).block = .blocked then
        { block := .resuming, onCount := 0, endDue := false }
      else s.channel i) =
      List.replicate 24 { block := .blocked, onCount := 0, endDue := false } := by
    rw [List.eq_replicate_iff]
    refine ⟨by simp, fun c hc => ?_⟩
    obtain ⟨i, -, rfl⟩ := List.mem_map.mp hc
    exact if_pos (.inr h)
  rw [reblock_eq s s.mc.mode rfl, hall]
  rfl

theorem quietTimerNow_notRun {s : State} (h : s.mc.mode ≠ .run) : s.quietTimerNow = none :=
  if_neg fun hrun => h hrun.1

/-- A rotation that has fallen due by the 10 ms interval on the way out of QUIET (R140). -/
theorem leaveQuiet_into {s : State} (h : s.mc.mode ≠ .quiet) :
    s.leaveQuiet =
      { s with pwu := { s.pwu with drivers := .powering }, mon := s.mon.catchUp } := by
  have hinterval : rotationInterval s.mc.mode = 10 := by
    unfold rotationInterval
    split
    · next hq => exact absurd hq h
    · rfl
  rw [leaveQuiet_eq, hinterval]
  rfl

/-- What entering a mode makes of the wake and the rotation, before the block causes. -/
theorem enterMode_eq (s : State) (m : Mode) :
    s.enterMode m =
      State.quietReview (State.reblock { s with
        mc := { s.mc with mode := m }
        pwu := { s.pwu with
          drivers := if s.mc.mode = .quiet ∧ m ≠ .quiet then .powering else s.pwu.drivers }
        mon := if s.mc.mode = .quiet ∧ m ≠ .quiet then s.mon.catchUp else s.mon }) := by
  unfold State.enterMode
  by_cases h : s.mc.mode = .quiet ∧ m ≠ .quiet
  · have hleave := leaveQuiet_into (s := s.setMc { s.mc with mode := m }) h.2
    simp only [decide_true, h.1, h.2, ne_eq, not_false_eq_true, Bool.and_self, and_self, ↓reduceIte,
      hleave]
    rfl
  · have hstay : (decide (s.mc.mode = .quiet) && decide (m ≠ .quiet)) = false := by
      rwa [← Bool.decide_and, decide_eq_false_iff_not]
    simp only [hstay, Bool.false_eq_true, ↓reduceIte, h]
    rfl

/-- A mode entry that leaves no QUIET. -/
theorem enterMode_stay {s : State} {m : Mode} (h : ¬ (s.mc.mode = .quiet ∧ m ≠ .quiet)) :
    s.enterMode m = (s.setMc { s.mc with mode := m }).reblock.quietReview := by
  rw [enterMode_eq, if_neg h, if_neg h]
  rfl

theorem enterQuiet_eq (s : State) :
    s.enterQuiet =
      { s with
        pwu := { s.pwu with
          running := false, count := 0, drivers := .down,
          channels := List.replicate 24 { block := .blocked, onCount := 0, endDue := false } }
        mc := { s.mc with mode := .quiet, quietTimer := none } } := by
  have hmode : ∀ t : State, t.mc.mode = .quiet → t.mc.mode ≠ .run := fun t h hrun =>
    absurd (h.symm.trans hrun) (by decide)
  refine (enterMode_stay (s := s.setPwu { s.pwu with running := false, count := 0, drivers := .down })
    fun h => h.2 rfl).trans ?_
  rw [reblock_notRun (hmode _ rfl), quietReview_eq, quietTimerNow_notRun (hmode _ rfl)]
  rfl

/-- Settles O39. -/
theorem holdOffForceAndQuietRunOut : Obligations.HoldOffForceAndQuietRunOut := by
  intro s
  refine ⟨fun h => next_if_pos h, fun h => next_if_neg h,
    fun ch => ⟨fun level h => ?runsOut, fun h => ?counts⟩, fun h => ?quiet, fun h => next_if_neg h⟩
  case runsOut =>
    refine congrArg Host.Outcome.next ?_
    rw [h]
    rfl
  case counts =>
    refine congrArg Host.Outcome.next ?_
    split
    · next level hforce => exact absurd hforce (h level)
    · rfl
  case quiet =>
    rw [← enterQuiet_eq]
    exact next_if_pos h

theorem reshape_notOperating {s : State} (h : s.mc.mode.operating = false) : s.reshape = s := by
  refine if_neg ?_
  rw [h]
  decide

theorem reshape_operating {s : State} (h : s.mc.mode.operating = true) :
    s.reshape = s.shapeAll.dutiesHandedOn := if_pos h

/-- Settles O40: entering a mode by `enterMode_eq`, the Shaper's hand-on by the mode and the duties. -/
theorem modeEntryAndHandOn : Obligations.ModeEntryAndHandOn := by
  refine ⟨fun s m _ => ?enter, fun s => ?handOn⟩
  case enter =>
    rw [enterMode_eq, reblock_eq _ m rfl, quietReview_eq]
    rfl
  case handOn =>
    intro a
    refine ⟨fun ho => reshape_notOperating ho, fun ho hstay => ?_, fun hq hlit => ?_⟩
    · rw [reshape_operating ho, ← quietReview_eq]
      refine if_neg ?_
      rintro ⟨hquiet, hdark⟩
      obtain hne | hall := hstay
      · exact hne hquiet
      · exact absurd (hall.symm.trans hdark) (by decide)
    · have ho : s.mc.mode.operating = true := by rw [hq]; rfl
      rw [reshape_operating ho]
      exact if_pos ⟨hq, hlit⟩

end Sys2Proof.Machine

namespace Sys2Proof.Machine

/-! ## The on-phase (R108, R109) -/

theorem inOnPhase_iff {counts offset n pos : Nat} (ho : offset < counts) (hn : n ≤ counts)
    (hp : pos < counts) :
    inOnPhase counts offset n pos = true ↔
      (offset ≤ pos ∧ pos < offset + n) ∨ pos + counts < offset + n := by
  rw [inOnPhase, decide_eq_true_eq]
  by_cases hpos : offset ≤ pos
  · have hmod : (pos + counts - offset) % counts = pos - offset := by
      rw [Nat.sub_add_comm hpos, Nat.add_mod_right, Nat.mod_eq_of_lt (by omega)]
    omega
  · have hmod : (pos + counts - offset) % counts = pos + counts - offset :=
      Nat.mod_eq_of_lt (by omega)
    omega

theorem lastPosition_of_le {counts offset n : Nat} (h0 : 0 < n) (h : offset + n ≤ counts) :
    lastPosition counts offset n = offset + n - 1 := by
  have hsum : offset + n + counts - 1 = offset + n - 1 + counts := by omega
  rw [lastPosition, hsum, Nat.add_mod_right, Nat.mod_eq_of_lt (by omega)]

theorem lastPosition_of_gt {counts offset n : Nat} (ho : offset < counts) (hn : n ≤ counts)
    (h : counts < offset + n) : lastPosition counts offset n = offset + n - counts - 1 := by
  have hsum : offset + n + counts - 1 = offset + n - counts - 1 + counts + counts := by omega
  rw [lastPosition, hsum, Nat.add_mod_right, Nat.add_mod_right, Nat.mod_eq_of_lt (by omega)]

theorem lastPosition_inOnPhase {counts offset n : Nat} (ho : offset < counts) (hn : n ≤ counts)
    (h0 : 0 < n) :
    lastPosition counts offset n < counts ∧
      inOnPhase counts offset n (lastPosition counts offset n) = true := by
  rcases Nat.lt_or_ge counts (offset + n) with hwrap | hin
  · rw [lastPosition_of_gt ho hn hwrap]
    have hlt : offset + n - counts - 1 < counts := by omega
    exact ⟨hlt, (inOnPhase_iff ho hn hlt).mpr (by omega)⟩
  · rw [lastPosition_of_le h0 hin]
    have hlt : offset + n - 1 < counts := by omega
    exact ⟨hlt, (inOnPhase_iff ho hn hlt).mpr (by omega)⟩

/-- The period is eight cells. -/
theorem eight_cells (code : Fin 4) : 8 * (2 ^ (13 - code.val) / 8) = 2 ^ (13 - code.val) := by
  fin_cases code <;> rfl

/-- An on-phase of at most a cell stays in its own cell. -/
theorem inOnPhase_cell {cell a n pos : Nat} (ha : a < 8) (hn : n ≤ cell) (hp : pos < 8 * cell)
    (h : inOnPhase (8 * cell) (a * cell) n pos = true) : pos / cell = a := by
  have hcell : 0 < cell := by omega
  have hlast : (a + 1) * cell ≤ 8 * cell := Nat.mul_le_mul_right cell ha
  have hnext : (a + 1) * cell = a * cell + cell := Nat.succ_mul a cell
  obtain hin | hwrap := (inOnPhase_iff (by omega) (by omega) hp).mp h
  · exact Nat.div_eq_of_lt_le hin.1 (by omega)
  · omega

theorem sinkOn_iff (s : State) (ch pos : Nat) :
    s.sinkOn ch pos = true ↔
      s.pwu.running = true ∧
        inOnPhase (periodCounts s.pwu.code) (startOffset s.pwu.stagger s.pwu.code ch)
          (s.channel ch).onCount pos = true :=
  Bool.and_eq_true_iff

/-- Settles O44: two channels of different cells never share a position, since an on-phase no longer
than a cell stays in its own. -/
theorem onPhaseOfAChannel : Obligations.OnPhaseOfAChannel := by
  refine ⟨fun code ch _ => ⟨if_neg Bool.false_ne_true, if_pos rfl⟩,
    fun counts offset n pos ho hn hp => ⟨inOnPhase_iff ho hn hp, fun h0 => ?last⟩,
    fun code a b n pos ha hb hab hn hp hboth => ?cells, sinkOn_iff⟩
  case last =>
    obtain ⟨hlt, hon⟩ := lastPosition_inOnPhase ho hn h0
    exact ⟨hlt, hon, lastPosition_of_le h0, lastPosition_of_gt ho hn⟩
  case cells =>
    have hoffset : ∀ ch, startOffset true code ch = ch / 3 * (2 ^ (13 - code.val) / 8) :=
      fun ch => if_pos rfl
    obtain ⟨hona, honb⟩ := hboth
    rw [hoffset, ← eight_cells] at hona honb
    rw [← eight_cells] at hp
    rw [Nat.mul_div_cancel_left _ (by decide : 0 < 8)] at hona honb
    exact hab ((inOnPhase_cell (by omega) hn hp hona).symm.trans
      (inOnPhase_cell (by omega) hn hp honb))

/-! ## Period starts (R102, R104, R107) -/

theorem beginPeriod_eq (s : State) (phase : Fin 8) :
    s.beginPeriod phase =
      { s with pwu := { s.pwu with
          count := 0, code := s.node.periodCode, phase := phase, stagger := s.node.stagger,
          dither := s.node.dither
          channels := (List.range 24).map fun i =>
            if (s.channel i).block = .blocked then { block := .blocked, onCount := 0, endDue := false }
            else
              let n := onCountOf (s.os.duty.getD i 0) s.node.periodCode s.node.dither phase.val
              { block := .driving, onCount := n, endDue := decide (0 < n) } } } := by
  unfold State.beginPeriod perChannel
  simp only [latch_eq]
  rfl

/-- Settles O45. -/
theorem periodStartLatchesEveryChannel : Obligations.PeriodStartLatchesEveryChannel := by
  intro s latched phase
  refine ⟨fun h => ?starts, fun h => next_if_neg (by simp [h]), fun h => ?wakes,
    fun h => next_if_neg h⟩
  case starts =>
    refine (next_if_pos (s := s) h).trans (congrArg Host.Outcome.next ?_)
    exact beginPeriod_eq s phase
  case wakes =>
    refine (next_if_pos (s := s) h).trans (congrArg Host.Outcome.next ?_)
    exact beginPeriod_eq (s.setPwu { s.pwu with running := true, drivers := .up }) 0

/-! ## On-phase ends (R109, R117 to R120) -/

theorem latchesNow_iff (latched sense : Bool) (count confirm : Nat) :
    latchesNow latched sense count confirm = true ↔
      latched = false ∧ sense = true ∧ confirm ≤ countAfter latched sense count := by
  cases latched <;> cases sense <;> simp [latchesNow, countAfter]

theorem has_latched (set : ChannelSet) {i : Nat} (hi : i < 24) (now : Bool) (k : Nat) :
    has (if now then set ||| BitVec.ofNat 24 (2 ^ i) else set) k = true ↔
      has set k = true ∨ (k = i ∧ now = true) := by
  cases now
  · simp
  · simpa using has_or_single set i k hi

theorem channel_set {s : State} {i : Nat} (hi : i < s.pwu.channels.length) (c : PwmChannel)
    (k : Nat) :
    (s.pwu.channels.set i c).getD k blockedChannel = if k = i then c else s.channel k := by
  by_cases hk : k = i
  · simp [hk, hi]
  · simp [State.channel, hk, Ne.symm hk]

/-- The causes that a channel already answers to change nothing in it. -/
theorem reblock_of_blockedByCause {s : State} (h : BlockedByCause s) {k : Nat} (hk : k < 24) :
    (s.channel k).reblock (s.blockCause k) = s.channel k := by
  obtain ⟨hcause, hoff⟩ := h k hk
  generalize s.channel k = c at hcause hoff ⊢
  obtain ⟨block, onCount, endDue⟩ := c
  cases hb : s.blockCause k
  · cases block with
    | blocked => exact absurd (hcause.mp rfl) (by simp [hb])
    | driving => rfl
    | resuming => rfl
  · obtain rfl : block = .blocked := hcause.mpr hb
    obtain ⟨rfl, rfl⟩ := hoff (fun hd => nomatch hd)
    rfl

/-- A short latched on one channel blocks that channel, and no other. -/
theorem reblock_shortLatched {s t : State} {i : Nat} (hi : i < 24) (hs : WellShaped s)
    (hb : BlockedByCause s) {c : PwmChannel} (hc : t.pwu.channels = s.pwu.channels.set i c)
    (hcause : ∀ k, t.blockCause k = (s.blockCause k || decide (k = i))) :
    t.reblock.pwu = { t.pwu with
      channels := s.pwu.channels.set i { block := .blocked, onCount := 0, endDue := false } } := by
  refine congrArg (fun l => ({ t.pwu with channels := l } : Pwu)) ?_
  have hlen : i < s.pwu.channels.length := hs.channels ▸ hi
  have hchannel : ∀ k, t.channel k = if k = i then c else s.channel k := fun k => by
    rw [← channel_set hlen, ← hc]
    rfl
  refine List.ext_getElem (by simp [perChannel, hs.channels]) fun k hk _ => ?_
  replace hk : k < 24 := by simpa [perChannel] using hk
  rw [List.getElem_set]
  simp only [perChannel, List.getElem_map, List.getElem_range, hchannel, hcause]
  by_cases hki : k = i
  · simp [hki, PwmChannel.reblock, blockedChannel]
  · rw [if_neg hki, if_neg (Ne.symm hki), decide_eq_false hki, Bool.or_false,
      reblock_of_blockedByCause hb hk]
    exact List.getD_eq_getElem _ _ (hs.channels ▸ hk)

theorem endCanCome_iff (s : State) (i : Nat) :
    s.endCanCome i = true ↔
      s.pwu.running = true ∧ (s.channel i).block = .driving ∧ (s.channel i).endDue = true ∧
        s.pwu.count ≤ s.endPosition i := by
  simp only [State.endCanCome, Bool.and_eq_true, decide_eq_true_eq, and_assoc]

theorem markEnd_channel {s : State} (hs : WellShaped s) {i : Nat} (hi : i < 24) :
    (s.markEnd i).channel i = { s.channel i with endDue := false } := by
  refine (channel_set (hs.channels ▸ hi) _ i).trans (if_pos rfl)

theorem evaluates_markEnd {s : State} (hs : WellShaped s) {i : Nat} (hi : i < 24) :
    (s.markEnd i).evaluates i = true ↔
      s.mc.mode = .run ∧ has s.fm.shortLatch i = false ∧
        2 ^ (13 - s.pwu.code.val) / 32 ≤ (s.channel i).onCount := by
  have hcause : (s.markEnd i).blockCause i =
      (has s.fm.shortLatch i || decide (s.mc.mode ≠ .run)) := rfl
  have hmode : (s.markEnd i).mc.mode = s.mc.mode := rfl
  have hcounts : periodCounts (s.markEnd i).pwu.code = 2 ^ (13 - s.pwu.code.val) := rfl
  rw [State.evaluates, hcause, hmode, hcounts, markEnd_channel hs hi]
  by_cases hrun : s.mc.mode = .run <;> simp [hrun]

/-- Both senses evaluated: neither's latch bears on the other's. -/
theorem evaluateBoth_eq (s : State) (i : Nat) (isOpen isShort : Bool) :
    let nowOpen := latchesNow (has s.fm.openLatch i) isOpen (s.fm.openCount.getD i 0)
      (confirmCount s.node.confirmCode)
    let nowShort := latchesNow (has s.fm.shortLatch i) isShort (s.fm.shortCount.getD i 0)
      (confirmCount s.node.confirmCode)
    let t : State := { s with fm := { s.fm with
      openCount :=
        s.fm.openCount.set i (countAfter (has s.fm.openLatch i) isOpen (s.fm.openCount.getD i 0))
      shortCount :=
        s.fm.shortCount.set i (countAfter (has s.fm.shortLatch i) isShort (s.fm.shortCount.getD i 0))
      openLatch := if nowOpen then s.fm.openLatch ||| BitVec.ofNat 24 (2 ^ i) else s.fm.openLatch
      shortLatch :=
        if nowShort then s.fm.shortLatch ||| BitVec.ofNat 24 (2 ^ i) else s.fm.shortLatch } }
    let al := if nowOpen && !has s.fm.openMask i then s.al.raise .fault else s.al
    (s.evaluateOpen i isOpen).evaluateShort i isShort =
      { t with
        pwu := if nowShort then t.reblock.pwu else s.pwu
        al := if nowShort && !has s.fm.shortMask i then al.raise .fault else al } := by
  intro nowOpen nowShort t al
  rw [evaluateShort_eq, evaluateOpen_eq]
  rfl

/-- Settles O46: both senses by `evaluateBoth_eq`; they never latch together, so FAULT is raised at most
once. -/
theorem onPhaseEndCountsAndLatches : Obligations.OnPhaseEndCountsAndLatches := by
  intro ch mv s hs hb i endAt can evaluated confirm count isOpen isShort nOpen nShort newOpen newShort
    ended
  have hi : i < 24 := ch.isLt
  have hexec {t : State} (hcan : can) (ht : (s.markEnd i).evaluateChannel i mv = t) :
      exec (.onPhaseEnd ch mv) s = .next t :=
    ht ▸ next_if_pos ((endCanCome_iff s i).mpr hcan)
  refine ⟨fun hcan => next_if_neg fun h => hcan ((endCanCome_iff s i).mp h),
    fun hcan heval => hexec hcan (if_neg fun h => heval ((evaluates_markEnd hs hi).mp h)),
    fun hcan heval => ⟨_, hexec hcan ((if_pos ((evaluates_markEnd hs hi).mpr heval)).trans
      (evaluateBoth_eq (s.markEnd i) i _ _)), rfl, rfl, rfl, rfl, ?_⟩⟩
  obtain ⟨hrun, hfree, -⟩ := heval
  have hnowOpen : latchesNow (has s.fm.openLatch i) isOpen (s.fm.openCount.getD i 0) confirm = true ↔
      newOpen := latchesNow_iff _ _ _ _
  have hcount : countAfter (has s.fm.shortLatch i) isShort (s.fm.shortCount.getD i 0) = nShort := by
    rw [hfree]
    rfl
  have hnowShort : latchesNow (has s.fm.shortLatch i) isShort (s.fm.shortCount.getD i 0) confirm =
      true ↔ newShort := by
    rw [latchesNow_iff, hcount]
    exact and_iff_right hfree
  have hexclusive : newOpen → ¬ newShort := fun ho hsh => by
    have hlow : mv < 300 := of_decide_eq_true ho.2.1
    have hhigh : 4000 < mv := of_decide_eq_true hsh.1
    omega
  have hraiseOpen : (latchesNow (has s.fm.openLatch i) isOpen (s.fm.openCount.getD i 0) confirm &&
      !has s.fm.openMask i) = true ↔ newOpen ∧ has s.fm.openMask i = false := by
    rw [Bool.and_eq_true, hnowOpen, Bool.not_eq_true']
  have hraiseShort : (latchesNow (has s.fm.shortLatch i) isShort (s.fm.shortCount.getD i 0) confirm &&
      !has s.fm.shortMask i) = true ↔ newShort ∧ has s.fm.shortMask i = false := by
    rw [Bool.and_eq_true, hnowShort, Bool.not_eq_true']
  have hraise : s.al.raise .fault = { s.al with
      reasons := s.al.reasons ||| 2
      holdOff := if has s.al.reasons 1 = true ∨ has s.al.mask 1 = true then s.al.holdOff
        else none } := raise_eq s.al .fault
  refine ⟨congrArg (s.fm.shortCount.set i) hcount, fun k => ?_, fun k => ?_, fun hn => ?_, fun hn => ?_,
    fun hr => ?_, fun hr => ?_⟩
  · exact (has_latched _ hi _ k).trans (or_congr_right (and_congr_right' hnowOpen))
  · exact (has_latched _ hi _ k).trans (or_congr_right (and_congr_right' hnowShort))
  · exact if_neg (mt hnowShort.mp hn)
  · refine (if_pos (hnowShort.mpr hn)).trans (reblock_shortLatched hi hs hb rfl fun k => ?_)
    have hlatch : has (if latchesNow (has s.fm.shortLatch i) isShort (s.fm.shortCount.getD i 0) confirm
        then s.fm.shortLatch ||| BitVec.ofNat 24 (2 ^ i) else s.fm.shortLatch) k =
        (has s.fm.shortLatch k || decide (k = i)) := by
      rw [Bool.eq_iff_iff, has_latched _ hi, hnowShort]
      simp [hn]
    exact (congrArg (· || decide (s.mc.mode ≠ .run)) hlatch).trans (Bool.or_right_comm _ _ _)
  · obtain ho | hsh := hr
    · exact (if_neg fun h => hexclusive ho.1 (hraiseShort.mp h).1).trans
        ((if_pos (hraiseOpen.mpr ho)).trans hraise)
    · exact (if_pos (hraiseShort.mpr hsh)).trans ((congrArg (Attention.raise · .fault)
        (if_neg fun h => hexclusive (hraiseOpen.mp h).1 hsh.1)).trans hraise)
  · exact (if_neg fun h => hr (.inr (hraiseShort.mp h))).trans
      (if_neg fun h => hr (.inl (hraiseOpen.mp h)))

end Sys2Proof.Machine

namespace Sys2Proof.Machine

/-! ## The rotation timer (R140) -/

theorem rotationInterval_eq (m : Mode) : rotationInterval m = if m = .quiet then 1000 else 10 := by
  cases m <;> rfl

theorem rotationDue_some {m : Monitor} {n : Nat} (h : m.sinceStart = some n) (interval : Nat) :
    m.rotationDue interval = true ↔ interval ≤ n := by
  rw [Monitor.rotationDue, h]
  exact decide_eq_true_iff

theorem rotationDue_none {m : Monitor} (h : m.sinceStart = none) (interval : Nat) :
    m.rotationDue interval = false := by
  rw [Monitor.rotationDue, h]

theorem rotationFallsDue_idle {m : Monitor} {n : Nat} (hc : m.converting = none)
    (hn : m.sinceStart = some n) :
    m.rotationFallsDue =
      { m with converting := some .temperature, sinceStart := some 0, dueAgain := false } := by
  rw [Monitor.rotationFallsDue, hc, Monitor.beginRotation, hn]
  rfl

theorem rotationFallsDue_converting {m : Monitor} {c : Conversion} (hc : m.converting = some c) :
    m.rotationFallsDue = { m with dueAgain := true } := by
  rw [Monitor.rotationFallsDue, hc]

/-! ## Temperature (R142, R143) -/

theorem stepCeiling_eq (c : Nat) (t : Int) :
    stepCeiling c t =
      if 135 ≤ t ∧ 16 < c then c - 1 else if t < 130 ∧ c < 64 then c + 1 else c := by
  unfold stepCeiling
  split_ifs <;> omega

theorem thermal_after_eq (old : Thermal) (c : Nat) (t : Int) :
    old.after c t = thermalAfter old c t := by
  cases old <;>
    simp only [Thermal.after, thermalAfter, reduceCtorEq, ne_eq, not_false_eq_true, not_true_eq_false,
      true_and, false_and, ↓reduceIte]

theorem raises_iff (old new : Thermal) :
    old.raises new = true ↔ new ≠ old ∧ new ≠ .normal := by
  rw [Thermal.raises, Bool.and_eq_true, decide_eq_true_eq, decide_eq_true_eq, ne_comm]

theorem enterMode_al (s : State) (m : Mode) : (s.enterMode m).al = s.al := by
  rw [enterMode_eq, quietReview_eq]
  rfl

theorem reshape_al (s : State) : s.reshape.al = s.al := by
  unfold State.reshape State.dutiesHandedOn
  split
  · split
    · exact enterMode_al _ _
    · rw [quietReview_eq]
      rfl
  · rfl

/-- The thermal state after a result, and the reason it raises, before MC is told (R143). -/
def State.thermalTaken (s : State) (new : Thermal) : State :=
  { s with
    mon := { s.mon with thermal := new }
    al := if new ≠ s.mon.thermal ∧ new ≠ .normal then s.al.raise .thermal else s.al }

theorem evaluateThermal_eq {s : State} {t : Int} {new : Thermal}
    (hnew : s.mon.thermal.after s.mon.ceiling t = new) :
    s.evaluateThermal t =
      if new = .hot ∧ s.mon.thermal ≠ .hot then (s.thermalTaken new).requestHot
      else if s.mon.thermal = .hot ∧ new ≠ .hot then (s.thermalTaken new).endHot
      else s.thermalTaken new := by
  have htaken : (if s.mon.thermal.raises new then
      (s.setMon { s.mon with thermal := new }).raise .thermal
      else s.setMon { s.mon with thermal := new }) = s.thermalTaken new := by
    by_cases h : new ≠ s.mon.thermal ∧ new ≠ .normal
    · rw [if_pos ((raises_iff _ _).mpr h), State.thermalTaken, if_pos h]
      rfl
    · rw [if_neg (mt (raises_iff _ _).mp h), State.thermalTaken, if_neg h]
      rfl
  rw [← htaken, ← hnew]
  rfl

theorem requestHot_powered {s : State} (h : s.mc.mode = .run ∨ s.mc.mode = .quiet) :
    s.requestHot = (s.setMc { s.mc with returnMode := .run }).enterMode .hot := by
  rcases h with h | h <;> rw [State.requestHot, h]

theorem requestHot_standby {s : State} (h : s.mc.mode = .standby) :
    s.requestHot = (s.setMc { s.mc with returnMode := .standby }).enterMode .hot := by
  rw [State.requestHot, h]

theorem requestHot_start {s : State} (h : s.mc.mode = .start) : s.requestHot = s := by
  rw [State.requestHot, h]

theorem temperatureResult_eq {s : State} (h : s.mon.converting = some .temperature)
    (raw : BitVec 12) :
    exec (.temperatureResult raw) s =
      .next ((State.reshape { s with mon := { s.mon with
        temperature := temperatureOf raw
        ceiling := stepCeiling s.mon.ceiling (temperatureOf raw)
        converting := some .supply } }).evaluateThermal (temperatureOf raw)) :=
  next_if_pos h

/-- Settles O47: the thermal state by `evaluateThermal_eq` on the state with the duties handed on. -/
theorem rotationAndTemperature : Obligations.RotationAndTemperature := by
  intro s interval
  have hinterval : rotationInterval s.mc.mode = interval := rotationInterval_eq s.mc.mode
  refine ⟨fun n hn hdue hc => ?begins, fun n c hn hdue hc => ?waits, fun n hn hlt => ?early,
    fun hn => ?stopped, fun raw => ⟨fun hc => next_if_neg hc, fun hc => ?temperature⟩⟩
  case begins =>
    refine (next_if_pos (s := s) ((rotationDue_some hn _).mpr (hinterval ▸ hdue))).trans ?_
    rw [rotationFallsDue_idle hc hn]
    rfl
  case waits =>
    refine (next_if_pos (s := s) ((rotationDue_some hn _).mpr (hinterval ▸ hdue))).trans ?_
    rw [rotationFallsDue_converting hc]
    rfl
  case early =>
    refine next_if_neg fun hdue => ?_
    have := (rotationDue_some hn _).mp hdue
    omega
  case stopped => exact next_if_neg (by simp [rotationDue_none hn])
  case temperature =>
    intro t c new a b
    have hc' : stepCeiling s.mon.ceiling t = c := stepCeiling_eq s.mon.ceiling t
    have hexec : exec (.temperatureResult raw) s = .next (a.evaluateThermal t) := by
      rw [temperatureResult_eq hc]
      refine congrArg (fun c => Host.Outcome.next ((State.reshape { s with mon := { s.mon with
        temperature := t, ceiling := c, converting := some .supply } }).evaluateThermal t)) hc'
    obtain ⟨hceiling, hthermal⟩ : a.mon.ceiling = c ∧ a.mon.thermal = s.mon.thermal := reshape_mon _
    have hb : a.thermalTaken new = b := by
      have hal : a.al = s.al := reshape_al _
      have hraise : s.al.raise .thermal = { s.al with
          reasons := s.al.reasons ||| 4
          holdOff := if has s.al.reasons 2 = true ∨ has s.al.mask 2 = true then s.al.holdOff
            else none } := raise_eq s.al .thermal
      rw [State.thermalTaken, hthermal, hal, hraise]
    have hval := evaluateThermal_eq (s := a) (t := t) (new := new)
      (by rw [hceiling, hthermal, thermal_after_eq])
    rw [hthermal, hb] at hval
    refine ⟨fun hold hnew hmode => ?_, fun hold hnew hmode => ?_, fun hold hnew hmode => ?_,
      fun hstays => ?_⟩
    · rw [hexec, hval, if_pos ⟨hnew, hold⟩]
      exact congrArg Host.Outcome.next (requestHot_powered (s := b) hmode)
    · rw [hexec, hval, if_pos ⟨hnew, hold⟩]
      exact congrArg Host.Outcome.next (requestHot_standby (s := b) hmode)
    · rw [hexec, hval, if_neg fun h => hnew h.1, if_pos ⟨hold, hnew⟩]
      exact congrArg Host.Outcome.next (if_pos hmode)
    · rw [hexec, hval]
      refine congrArg Host.Outcome.next ?_
      split
      · next hto =>
        refine requestHot_start (s := b) ?_
        obtain hsame | ⟨-, hcool⟩ | hstart := hstays
        · exact absurd (hsame.symm.trans hto.1) hto.2
        · exact absurd hto.1 hcool
        · exact hstart
      · split
        · next hfrom =>
          refine if_neg fun hmode => ?_
          obtain hsame | ⟨hcool, -⟩ | hstart := hstays
          · exact hfrom.2 (hsame.trans hfrom.1)
          · exact hcool hfrom.1
          · exact absurd (hstart.symm.trans hmode) (by decide)
        · rfl

/-! ## Supply (R144) -/

theorem evaluateSupply_normal {s : State} (h : s.mon.supplyState = .normal) (mv : Nat) :
    s.evaluateSupply mv =
      if mv < 4500 then (s.setMon { s.mon with supplyState := .preUv }).raise .supply else s := by
  rw [State.evaluateSupply, h]

theorem evaluateSupply_preUv {s : State} (h : s.mon.supplyState = .preUv) (mv : Nat) :
    s.evaluateSupply mv =
      if 4700 ≤ mv then (s.setMon { s.mon with supplyState := .normal }).preUvEnded else s := by
  rw [State.evaluateSupply, h]

theorem preUvEnded_waiting {s : State} {w : StoreWork} (h : s.stc.activity = .waiting w) :
    s.preUvEnded = s.startWork w := by
  rw [State.preUvEnded, h]

theorem preUvEnded_notWaiting {s : State} (h : ∀ w, s.stc.activity ≠ .waiting w) :
    s.preUvEnded = s := by
  unfold State.preUvEnded
  split
  · next w hw => exact absurd hw (h w)
  · rfl
  · rfl

theorem endRotation_eq (m : Monitor) :
    m.endRotation =
      if m.dueAgain then
        { m with converting := some .temperature, dueAgain := false,
                 sinceStart := m.sinceStart.map fun _ => 0 }
      else { m with converting := none } := rfl

/-- Settles O48. -/
theorem supplyAndAuxResults : Obligations.SupplyAndAuxResults := by
  intro raw s
  refine ⟨fun hc => next_if_neg hc, fun hc => ?supply, fun hc => next_if_neg hc,
    fun hc hstart => ?aux⟩
  case supply =>
    intro mv a
    have hexec {t : State} (ht : a.evaluateSupply mv = t) : exec (.supplyResult raw) s = .next t :=
      ht ▸ next_if_pos hc
    refine ⟨fun hn hlow => hexec ?_, fun hp hhigh => ?_, fun hstays => hexec ?_⟩
    · have hraise : s.al.raise .supply = { s.al with
          reasons := s.al.reasons ||| 8
          holdOff := if has s.al.reasons 3 = true ∨ has s.al.mask 3 = true then s.al.holdOff
            else none } := raise_eq s.al .supply
      rw [evaluateSupply_normal (s := a) hn, if_pos hlow, ← hraise]
      rfl
    · intro b
      have hended : a.evaluateSupply mv = b.preUvEnded := by
        rw [evaluateSupply_preUv (s := a) hp, if_pos hhigh]
        rfl
      exact ⟨fun w hw => hexec (hended.trans (preUvEnded_waiting (s := b) hw)),
        fun hw => hexec (hended.trans (preUvEnded_notWaiting (s := b) hw))⟩
    · obtain ⟨hn, hhigh⟩ | ⟨hp, hlow⟩ := hstays
      · rw [evaluateSupply_normal (s := a) hn, if_neg (by omega)]
      · rw [evaluateSupply_preUv (s := a) hp, if_neg (by omega)]
  case aux =>
    have hexec : exec (.auxResult raw) s =
        .next (s.setMon (Monitor.endRotation { s.mon with aux := raw })) :=
      (next_if_pos (s := s) hc).trans (congrArg Host.Outcome.next (if_neg hstart))
    rw [hexec, endRotation_eq]
    refine ⟨fun hdue => ?_, fun hdue => ?_⟩
    · exact congrArg (fun m => Host.Outcome.next (s.setMon m)) (if_neg (by simp [hdue]))
    · exact congrArg (fun m => Host.Outcome.next (s.setMon m)) (if_pos hdue)

/-! ## The end of START (R134, R135) -/

theorem blocksBegun_eq (s : State) :
    s.blocksBegun =
      { s with
        fe := { s.fe with timebase := true }
        mon := { s.mon with sinceStart := some 0 }
        ss := { s.ss with
          lossTimer := if s.node.lossTimeout = 0 then .off
            else .running (s.node.lossTimeout.toNat * 100) }
        al := if s.stc.loadFaults = 0 then s.al.raise .start
          else (s.al.raise .start).raise .store } := by
  unfold State.blocksBegun
  by_cases h : s.stc.loadFaults = 0
  · exact (if_pos h).trans (by rw [if_pos h]; rfl)
  · exact (if_neg h).trans (by rw [if_neg h]; rfl)

theorem reblock_blocked_iff (c : PwmChannel) (cause : Bool) :
    (c.reblock cause).block = .blocked ↔ cause = true := by
  cases cause
  · cases h : c.block <;> simp [PwmChannel.reblock, h]
  · simp [PwmChannel.reblock, blockedChannel]

/-- A mode entered from START, and the counter started. -/
theorem enterMode_counterStart {s : State} (hs : s.mc.mode = .start) (m : Mode)
    (hq : s.mc.quietTimer = none) :
    (s.enterMode m).counterStart =
      { s with
        pwu := { s.pwu with
          running := true, count := 0, code := s.node.periodCode, phase := 0,
          stagger := s.node.stagger, dither := s.node.dither, drivers := .up,
          channels := (List.range 24).map fun i =>
            if m ≠ .run ∨ has s.fm.shortLatch i = true then
              { block := .blocked, onCount := 0, endDue := false }
            else
              let n := onCountOf (s.os.duty.getD i 0) s.node.periodCode s.node.dither 0
              { block := .driving, onCount := n, endDue := decide (0 < n) } }
        mc := { s.mc with
          mode := m
          quietTimer :=
            if m = .run ∧ s.node.quiet = true ∧ s.os.duty.all (· = 0) = true then some 2000
            else none } } := by
  have hstay : ¬ (s.mc.mode = .quiet ∧ m ≠ .quiet) := fun h =>
    absurd (hs.symm.trans h.1) (by decide)
  have hblocked : ∀ i ∈ List.range 24,
      ((s.setMc { s.mc with mode := m }).reblock.channel i).block = .blocked ↔
        m ≠ .run ∨ has s.fm.shortLatch i = true := fun i hi => by
    rw [reblock_channel _ i (List.mem_range.mp hi), reblock_blocked_iff, or_comm]
    exact Bool.or_eq_true_iff.trans (or_congr_right decide_eq_true_iff)
  have hchannels : (List.range 24).map (fun i =>
      if ((s.setMc { s.mc with mode := m }).reblock.channel i).block = .blocked then
        ({ block := .blocked, onCount := 0, endDue := false } : PwmChannel)
      else
        let n := onCountOf (s.os.duty.getD i 0) s.node.periodCode s.node.dither 0
        { block := .driving, onCount := n, endDue := decide (0 < n) }) =
      (List.range 24).map fun i =>
        if m ≠ .run ∨ has s.fm.shortLatch i = true then
          { block := .blocked, onCount := 0, endDue := false }
        else
          let n := onCountOf (s.os.duty.getD i 0) s.node.periodCode s.node.dither 0
          { block := .driving, onCount := n, endDue := decide (0 < n) } :=
    List.map_congr_left fun i hi => if_congr (hblocked i hi) rfl rfl
  rw [enterMode_stay hstay, quietReview_eq, State.counterStart, beginPeriod_eq, ← hchannels]
  have hquiet : (s.setMc { s.mc with mode := m }).reblock.quietTimerNow =
      if m = .run ∧ s.node.quiet = true ∧ s.os.duty.all (· = 0) = true then some 2000 else none :=
    congrArg (fun q => if m = .run ∧ s.node.quiet = true ∧ s.os.duty.all (· = 0) = true
      then some (Option.getD q 2000) else none) hq
  rw [hquiet]
  rfl

/-- Settles O49: the blocks that begin, then the mode and the counter. -/
theorem startCompletion : Obligations.StartCompletion := by
  intro raw s hs hstart hc hdue duty hot
  have hheld := hs.held (by rw [hstart]; rfl)
  have htaken : exec (.auxResult raw) s =
      .next (s.setMon { s.mon with aux := raw, converting := none }).completeStart := by
    refine (next_if_pos (s := s) hc).trans (congrArg Host.Outcome.next ((if_pos hstart).trans ?_))
    refine congrArg (fun m => (s.setMon m).completeStart) ?_
    exact (endRotation_eq _).trans (if_neg (by simp [hdue]))
  let begun : State := { s with
    ss := { s.ss with
      lossTimer := if s.node.lossTimeout = 0 then .off
        else .running (s.node.lossTimeout.toNat * 100) }
    fe := { s.fe with timebase := true }
    os := { s.os with duty := duty }
    al := if s.stc.loadFaults = 0 then s.al.raise .start else (s.al.raise .start).raise .store
    mon := { s.mon with aux := raw, converting := none, sinceStart := some 0 }
    mc := { s.mc with returnMode := .run } }
  have hbegun : (s.setMon { s.mon with aux := raw, converting := none }).completeStart =
      (begun.enterMode (if s.mon.thermal = .hot then .hot else .run)).counterStart := by
    rw [completeStart_eq, blocksBegun_eq]
    rfl
  rw [htaken, hbegun, enterMode_counterStart (s := begun) hstart _ hheld.quietTimer]
  have hmode : (if s.mon.thermal = .hot then Mode.hot else .run) = .run ↔ ¬ hot := by
    by_cases hh : s.mon.thermal = .hot <;> simp [hot, hh]
  have hchannel : ∀ i, (if s.mon.thermal = .hot then Mode.hot else .run) ≠ .run ∨
      has s.fm.shortLatch i = true ↔ hot ∨ has s.fm.shortLatch i = true := fun i =>
    or_congr_left (hmode.not.trans not_not)
  have hchannels : ∀ i : Nat, (if (if s.mon.thermal = .hot then Mode.hot else .run) ≠ .run ∨
      has s.fm.shortLatch i = true then ({ block := .blocked, onCount := 0, endDue := false } : PwmChannel)
      else
        let n := onCountOf (duty.getD i 0) s.node.periodCode s.node.dither 0
        { block := .driving, onCount := n, endDue := decide (0 < n) }) =
      if hot ∨ has s.fm.shortLatch i = true then { block := .blocked, onCount := 0, endDue := false }
      else
        let n := onCountOf (duty.getD i 0) s.node.periodCode s.node.dither 0
        { block := .driving, onCount := n, endDue := decide (0 < n) } := fun i =>
    if_congr (hchannel i) rfl rfl
  have hquiet : (if (if s.mon.thermal = .hot then Mode.hot else .run) = .run ∧ s.node.quiet = true ∧
      duty.all (· = 0) = true then some 2000 else none) =
      if ¬hot ∧ s.node.quiet = true ∧ duty.all (· = 0) = true then some 2000 else none :=
    if_congr (and_congr_left' hmode) rfl rfl
  rw [← hquiet, ← funext hchannels]

end Sys2Proof.Machine

namespace Sys2Proof.Machine

/-! ## Starting and ending entries (R150 to R155) -/

section
variable {s : State} {e : QueueEntry} {rest : List QueueEntry}

theorem markHeadStarted_cons {t : Store} (h : t.queue = e :: rest) :
    t.markHeadStarted = { t with queue := { e with started := true } :: rest } := by
  rw [Store.markHeadStarted, h]

theorem startWork_preUv (h : s.mon.supplyState = .preUv) (w : StoreWork) :
    s.startWork w = { s with stc := { s.stc with activity := .waiting w } } := by
  rw [State.startWork, h]
  rfl

theorem startWork_page (hq : s.stc.queue = e :: rest) (h : s.mon.supplyState = .normal)
    (p : Fin 23) :
    s.startWork (.page p) =
      { s with stc := { s.stc with
        activity := .running (.page p)
        queue := { e with started := true } :: rest
        pageBuffer := some (pageImage (s.pageSource p.val)) } } := by
  rw [State.startWork, h, markHeadStarted_cons hq]
  rfl

theorem startWork_erase (hq : s.stc.queue = e :: rest) (h : s.mon.supplyState = .normal) :
    s.startWork .erase =
      { s with stc := { s.stc with
        activity := .running .erase, queue := { e with started := true } :: rest } } := by
  rw [State.startWork, h, markHeadStarted_cons hq]
  rfl

theorem startHead_idle (hq : s.stc.queue = e :: rest) (h : s.stc.activity = .idle) :
    s.startHead = s.startWork e.kind.firstWork := by
  rw [State.startHead, h, hq]

theorem startHead_busy (h : s.stc.activity ≠ .idle) : s.startHead = s := by
  unfold State.startHead
  split
  · next hidle _ => exact absurd hidle h
  · rfl

theorem startHead_empty (h : s.stc.queue = []) : s.startHead = s := by
  unfold State.startHead
  split
  · next hq => exact absurd (h.symm.trans hq) (List.cons_ne_nil _ _).symm
  · rfl

theorem endEntry_leaves (hq : s.stc.queue = e :: rest) (h : e.again = false) :
    s.endEntry =
      ({ s with
        stc := { s.stc with activity := .idle, queue := rest }
        me := s.me.entryLeft e.kind rest } : State).startHead := by
  rw [State.endEntry, hq]
  exact if_neg (by simp [h])

theorem endEntry_repeats (hq : s.stc.queue = e :: rest) (h : e.again = true) :
    s.endEntry =
      ({ s with stc := { s.stc with
          activity := .idle
          snapshot := if e.kind = .config then some s.liveSnapshot else s.stc.snapshot
          queue := { e with started := false, again := false } :: rest } } : State).startHead := by
  rw [State.endEntry, hq]
  exact if_pos h

end

/-- Settles O50. -/
theorem storeStartsAndEndsEntries : Obligations.StoreStartsAndEndsEntries := by
  refine ⟨fun s w e rest hq => ⟨fun h => startWork_preUv h w, fun h p hw => ?_, fun h hw => ?_,
    startHead_idle hq, startHead_busy, endEntry_leaves hq, endEntry_repeats hq⟩,
    fun s => startHead_empty, rfl, rfl, rfl, fun n => ⟨⟨7 + n.val, by omega⟩, rfl, rfl⟩⟩
  · subst hw
    exact startWork_page hq h p
  · subst hw
    exact startWork_erase hq h

/-! ## The ends of a page write and of an erase (R152, R153, R155) -/

/-- What a failure leaves before the entry's run ends (R153). -/
def State.failing (s : State) (cause : FailureCause) (page : Option (Fin 23)) (pages : List Page) :
    State :=
  { s with
    stc := { s.stc with lastFailure := some ⟨s.stc.headKind, page, cause⟩, pages := pages }
    al := s.al.raise .store
    freeCount := s.freeCount + 1 }

theorem storeFails_page (s : State) (p : Fin 23) (cause : FailureCause) :
    s.storeFails (.page p) cause =
      (s.failing cause (some p) (s.stc.pages.set p.val (freePage s.freeCount p.val))).endEntry := rfl

theorem storeFails_erase (s : State) (cause : FailureCause) :
    s.storeFails .erase cause =
      (s.failing cause none ((List.range 23).map (freePage s.freeCount))).endEntry := rfl

theorem pageEnded_next {s : State} {p q : Fin 23} (hp : 1 ≤ p.val) (hq : q.val = p.val + 1)
    (h6 : q.val ≤ 6) : s.pageEnded p = s.startWork (.page q) := by
  have hnext : q = ⟨p.val + 1, by omega⟩ := Fin.ext hq
  rw [hnext]
  exact dif_pos ⟨hp, by omega⟩

theorem pageEnded_last {s : State} {p : Fin 23} (h : p.val = 0 ∨ 6 ≤ p.val) :
    s.pageEnded p = s.endEntry := dif_neg (by omega)

section
variable {s : State}

theorem pageWriteCompletion_verified {p : Fin 23} {image : List Byte} {rb : ReadBack}
    (h : s.stc.activity = .running (.page p)) (hi : s.stc.pageBuffer = some image)
    (hv : s.verifies rb = true) :
    exec (.pageWriteCompletion false rb) s = .next (State.pageEnded
      { s with stc := { s.stc with pages := s.stc.pages.set p.val (.bytes image) } } p) := by
  refine congrArg Host.Outcome.next ?_
  rw [h]
  refine (if_pos hv).trans ?_
  rw [hi]
  rfl

theorem pageWriteCompletion_failed {p : Fin 23} {rb : ReadBack}
    (h : s.stc.activity = .running (.page p)) (hv : s.verifies rb = false) :
    exec (.pageWriteCompletion false rb) s = .next (s.storeFails (.page p) .verify) := by
  refine congrArg Host.Outcome.next ?_
  rw [h]
  exact if_neg (by simp [hv])

theorem pageWriteCompletion_late (rb : ReadBack) : exec (.pageWriteCompletion true rb) s = .next s :=
  rfl

theorem pageWriteTimeout_running {p : Fin 23} (h : s.stc.activity = .running (.page p)) :
    exec .pageWriteTimeout s = .next (s.storeFails (.page p) .timeout) := by
  refine congrArg Host.Outcome.next ?_
  rw [h]

theorem eraseCompletion_running (h : s.stc.activity = .running .erase) :
    exec (.eraseCompletion false) s = .next (State.endEntry
      { s with stc := { s.stc with
        pages := List.replicate 23 blankPage
        lock := false
        shadow := List.replicate 16 invalidScene
        loadFaults := 0 } }) := by
  refine congrArg Host.Outcome.next ?_
  rw [h]
  rfl

theorem eraseCompletion_late : exec (.eraseCompletion true) s = .next s := rfl

theorem eraseTimeout_running (h : s.stc.activity = .running .erase) :
    exec .eraseTimeout s = .next (s.storeFails .erase .timeout) := by
  refine congrArg Host.Outcome.next ?_
  rw [h]

end

theorem verifies_of_agrees {s : State} {image : List Byte} (h : s.stc.pageBuffer = some image)
    {rb : ReadBack} (hrb : rb = .asProgrammed ∨ rb = .holds image) : s.verifies rb = true := by
  obtain rfl | rfl := hrb
  · rfl
  · exact decide_eq_true h

theorem verifies_of_differs {s : State} {image bytes : List Byte}
    (h : s.stc.pageBuffer = some image) (hne : bytes ≠ image) : s.verifies (.holds bytes) = false :=
  decide_eq_false fun heq => hne (Option.some.inj (heq.symm.trans h))

/-- Settles O51. -/
theorem storeWorkEnds : Obligations.StoreWorkEnds := by
  intro s failed
  have hfailed : ∀ cause page pages, (s.failing cause page pages).endEntry = failed cause page pages :=
    fun cause page pages => by
      have hraise : s.al.raise .store = { s.al with
          reasons := s.al.reasons ||| 16
          holdOff := if has s.al.reasons 4 = true ∨ has s.al.mask 4 = true then s.al.holdOff
            else none } := raise_eq s.al .store
      rw [State.failing, hraise]
  refine ⟨fun p image hrun himage => ?writes, fun hrun => ?erases, pageWriteCompletion_late,
    eraseCompletion_late⟩
  case writes =>
    intro written
    have hspoiled : ∃ content, freePage s.freeCount p.val = .bytes content := ⟨_, rfl⟩
    obtain ⟨content, hcontent⟩ := hspoiled
    refine ⟨fun rb hrb => ?_, fun bytes hne => ⟨content, ?_⟩, content, ?_⟩
    · have hexec := pageWriteCompletion_verified hrun himage (verifies_of_agrees himage hrb)
      exact ⟨fun q hp hq h6 => hexec.trans (congrArg _ (pageEnded_next hp hq h6)),
        fun hp => hexec.trans (congrArg _ (pageEnded_last hp))⟩
    · rw [pageWriteCompletion_failed hrun (verifies_of_differs himage hne), storeFails_page, hfailed,
        hcontent]
    · rw [pageWriteTimeout_running hrun, storeFails_page, hfailed, hcontent]
  case erases =>
    refine ⟨eraseCompletion_running hrun, (List.range 23).map (freePage s.freeCount), by simp, ?_⟩
    rw [eraseTimeout_running hrun, storeFails_erase, hfailed]

end Sys2Proof.Machine

namespace Sys2Proof.Machine

/-! ## Node reset (R133, R157) -/

/-- What a node reset makes of the pages and of the count of free values. -/
theorem nodeReset_eq (s : State) :
    ∃ pages n, s.leavesPages pages n ∧ s.nodeReset = s.heldReset pages n := by
  unfold State.leavesPages State.nodeReset State.cutOffStore
  cases s.stc.activity with
  | idle => exact ⟨_, _, ⟨rfl, rfl⟩, rfl⟩
  | waiting w => exact ⟨_, _, ⟨rfl, rfl⟩, rfl⟩
  | running w =>
    cases w with
    | page p => exact ⟨_, _, ⟨rfl, rfl⟩, rfl⟩
    | erase => exact ⟨(List.range 23).map (freePage s.freeCount), _, ⟨by simp, rfl⟩, rfl⟩

/-- RESET is kept while VDD is out of range or RSTn is low. -/
theorem leaveReset_of_held {s : State} (h : s.pins.vddOk = false ∨ s.pins.rstnLow = true) :
    s.leaveReset = s :=
  if_neg fun ⟨_, hv, hr⟩ => by simp [hv, hr] at h

/-- A node reset goes no further than RESET while VDD is out of range or RSTn is low. -/
theorem resetNode_eq_nodeReset {s : State} (h : s.pins.vddOk = false ∨ s.pins.rstnLow = true) :
    s.resetNode = s.nodeReset :=
  leaveReset_of_held (by rwa [(nodeReset_link s).2.2.2])

theorem resetNode_held {s : State} (h : s.pins.vddOk = false ∨ s.pins.rstnLow = true) :
    ∃ pages n, s.leavesPages pages n ∧ s.resetNode = s.heldReset pages n :=
  resetNode_eq_nodeReset h ▸ nodeReset_eq s

theorem longPulse_ignored {s : State}
    (h : s.pins.rstnLow = false ∨ s.mc.timingLow = false ∨ s.mc.longReached = true) :
    s.longPulse = s :=
  if_neg fun ⟨hr, ht, hl⟩ => by simp [hr, ht, hl] at h

section
variable {s : State} (hr : s.pins.rstnLow = true) (ht : s.mc.timingLow = true)
  (hl : s.mc.longReached = false)
include hr ht hl

theorem longPulse_inReset (hm : s.mc.mode = .reset) :
    s.longPulse = s.setMc { s.mc with longReached := true } :=
  (if_pos ⟨hr, ht, hl⟩).trans (if_pos hm)

theorem longPulse_resets (hm : s.mc.mode ≠ .reset) :
    s.longPulse = (s.setMc { s.mc with longReached := true }).resetNode :=
  (if_pos ⟨hr, ht, hl⟩).trans (if_neg hm)

end

/-- Settles O52. -/
theorem nodeResetTakesTheNodeResetValues : Obligations.NodeResetTakesTheNodeResetValues := by
  intro s low pulse
  obtain ⟨pages, n, hleaves, hreset⟩ := resetNode_held (s := low) (.inl rfl)
  refine ⟨⟨pages, n, hleaves, congrArg Host.Outcome.next hreset,
      fun hv => (next_if_pos hv).trans (congrArg Host.Outcome.next hreset)⟩,
    fun hv => next_if_neg (by simp [hv]),
    fun hr ht hl => ⟨fun hm => ?_, fun hm => congrArg Host.Outcome.next (longPulse_inReset hr ht hl hm)⟩,
    fun h => congrArg Host.Outcome.next (longPulse_ignored h)⟩
  obtain ⟨pages, n, hleaves, hreset⟩ := resetNode_held (s := pulse) (.inr hr)
  exact ⟨pages, n, hleaves,
    congrArg Host.Outcome.next ((longPulse_resets hr ht hl hm).trans hreset)⟩

/-! ## The RSTn pin (R132) -/

/-- The pin released and the discriminator stopped. -/
def State.released (s : State) : State :=
  { s with
    pins := { s.pins with rstnLow := false }
    mc := { s.mc with timingLow := false, longReached := false } }

theorem releaseRstn_eq (s : State) (us : Nat) :
    s.releaseRstn us =
      if s.mc.mode.operating then
        (if s.mc.timingLow && !s.mc.longReached && decide (1000 ≤ us) then s.released.linkReset
          else s.released)
      else s.released.leaveReset := rfl

theorem releaseRstn_short {s : State} {us : Nat}
    (h : us < 1000 ∨ s.mc.timingLow = false ∨ s.mc.longReached = true) :
    s.releaseRstn us = if s.mc.mode.operating then s.released else s.released.leaveReset := by
  have hno : ¬ (s.mc.timingLow && !s.mc.longReached && decide (1000 ≤ us)) = true := by
    simp only [Bool.and_eq_true, Bool.not_eq_true', decide_eq_true_eq, not_and, not_le]
    rintro ⟨ht, hl⟩
    simpa [ht, hl] using h
  rw [releaseRstn_eq, if_neg hno]

theorem releaseRstn_start {s : State} (h : s.mc.mode = .start) (us : Nat) :
    s.releaseRstn us = s.released := by
  rw [releaseRstn_eq, if_neg (by simp [h, Mode.operating])]
  exact if_neg fun hreset => absurd (h.symm.trans hreset.1) (by decide)

theorem rstnRise_eq {s : State} (h : s.pins.rstnLow = true) (us : Nat) (rate : BitVec 2) :
    exec (.rstnRise us rate) s = .next
      ((if 20000 ≤ us then (s.setPins { s.pins with rate := rate }).longPulse
        else s.setPins { s.pins with rate := rate }).releaseRstn us) :=
  next_if_pos h

theorem nodeReset_setPins (s : State) (p : Pins) :
    (s.setPins p).nodeReset = s.nodeReset.setPins p := by
  unfold State.nodeReset State.cutOffStore
  dsimp only [State.setPins]
  cases s.stc.activity with
  | idle => rfl
  | waiting w => rfl
  | running w => cases w <;> rfl

section
variable {s : State} (hr : s.pins.rstnLow = true) (ht : s.mc.timingLow = true)
  (hl : s.mc.longReached = false)
include hr ht hl

/-- A long pulse on a pin still low: RESET, with the pins as they are. -/
theorem longPulse_holds : s.longPulse.mc.mode = .reset ∧ s.longPulse.pins = s.pins := by
  by_cases hm : s.mc.mode = .reset
  · rw [longPulse_inReset hr ht hl hm]
    exact ⟨hm, rfl⟩
  · obtain ⟨pages, n, -, hreset⟩ :=
      resetNode_held (s := s.setMc { s.mc with longReached := true }) (.inr hr)
    rw [longPulse_resets hr ht hl hm, hreset]
    exact ⟨rfl, rfl⟩

theorem longPulse_setPins {p : Pins} (hp : p.rstnLow = true) :
    (s.setPins p).longPulse = s.longPulse.setPins p := by
  by_cases hm : s.mc.mode = .reset
  · rw [longPulse_inReset hr ht hl hm, longPulse_inReset (s := s.setPins p) hp ht hl hm]
    rfl
  · rw [longPulse_resets hr ht hl hm, longPulse_resets (s := s.setPins p) hp ht hl hm]
    let t : State := s.setMc { s.mc with longReached := true }
    calc (t.setPins p).resetNode
      _ = (t.setPins p).nodeReset := resetNode_eq_nodeReset (.inr hp)
      _ = t.nodeReset.setPins p := nodeReset_setPins t p
      _ = t.resetNode.setPins p := by rw [resetNode_eq_nodeReset (s := t) (.inr hr)]

end

/-- Settles O53: what the pin does by the low time, the mode and the discriminator. -/
theorem rstnFallAndRise : Obligations.RstnFallAndRise := by
  intro s
  refine ⟨fun hr => congrArg Host.Outcome.next (if_pos hr),
    fun hr => congrArg Host.Outcome.next (if_neg (by simp [hr])),
    fun us rate => ⟨fun hr => next_if_neg (by simp [hr]), fun hr hus ht hl => ?long, fun hr => ?rise⟩⟩
  case long =>
    obtain ⟨hreset, hpins⟩ := longPulse_holds hr ht hl
    have hlow : s.longPulse.pins.rstnLow = true := hpins ▸ hr
    refine ⟨s.longPulse, rfl, hreset, hlow, ?_⟩
    rw [rstnRise_eq hr, rstnRise_eq hlow, if_pos hus, if_neg (by decide),
      longPulse_setPins hr ht hl (p := { s.pins with rate := rate }) hr, hpins]
    have hmode : ¬ (s.longPulse.setPins { s.pins with rate := rate }).mc.mode.operating = true := by
      rw [State.setPins_mc, hreset]
      decide
    rw [releaseRstn_eq, releaseRstn_eq, if_neg hmode, if_neg hmode]
  case rise =>
    intro up
    let sampled : State := s.setPins { s.pins with rate := rate }
    have hexec : exec (.rstnRise us rate) s =
        .next ((if 20000 ≤ us then sampled.longPulse else sampled).releaseRstn us) :=
      rstnRise_eq hr us rate
    refine ⟨fun hm h => ?_, fun hm hus => ?_, ?_⟩
    · have hignored : sampled.releaseRstn us = up := by
        obtain ho | hstart := hm
        · exact (releaseRstn_short (s := sampled) h).trans (if_pos ho)
        · exact releaseRstn_start (s := sampled) hstart us
      rw [hexec]
      split
      · next hus =>
        have hlong : sampled.longPulse = sampled :=
          longPulse_ignored (s := sampled) (.inr (h.resolve_left (by omega)))
        rw [hlong, hignored]
      · rw [hignored]
    · rw [hexec, if_neg (by omega), releaseRstn_start (s := sampled) hm]
      rfl
    · intro cut hm hlo hhi ht hl
      have htimed : (sampled.mc.timingLow && !sampled.mc.longReached && decide (1000 ≤ us)) = true := by
        rw [Bool.and_eq_true, Bool.and_eq_true, Bool.not_eq_true', decide_eq_true_eq]
        exact ⟨⟨ht, hl⟩, hlo⟩
      have hlink : exec (.rstnRise us rate) s = .next up.linkReset := by
        rw [hexec, if_neg (by omega)]
        exact congrArg Host.Outcome.next ((if_pos hm).trans (if_pos htimed))
      rw [hlink]
      exact ⟨fun hpending => congrArg Host.Outcome.next (if_neg (Bool.eq_false_iff.mp hpending)),
        fun hpending => congrArg Host.Outcome.next (if_pos hpending)⟩

end Sys2Proof.Machine

namespace Sys2Proof.Machine

/-! ## The load at START (R52, R93, R134, R147, R148) -/

section
variable {pg : Page} {p : Nat}

theorem settingsFromPage_valid (h : pg.classify 1 = .valid) :
    settingsFromPage pg = (NodeSettings.ofPage pg.content, masksOfPage pg.content) := by
  rw [settingsFromPage, h]

theorem settingsFromPage_notValid (h : pg.classify 1 ≠ .valid) :
    settingsFromPage pg = (defaultNode, 0, 0, 0) := by
  unfold settingsFromPage
  split
  · next hv => exact absurd hv h
  · rfl
  · rfl

theorem patchFromPage_valid (h : pg.classify 2 = .valid) :
    patchFromPage pg = PatchTable.ofPage pg.content := by
  rw [patchFromPage, h]

theorem patchFromPage_notValid (h : pg.classify 2 ≠ .valid) :
    patchFromPage pg = defaultPatchTable := by
  unfold patchFromPage
  split
  · next hv => exact absurd hv h
  · rfl
  · rfl

theorem tableFromPage_eq :
    tableFromPage pg p =
      if pg.classify p = .valid then tableOfPage pg.content else defaultTable := by
  unfold tableFromPage
  cases pg.classify p <;> rfl

theorem sceneFromPage_eq :
    sceneFromPage pg p =
      if pg.classify p = .valid then SceneRecord.ofPage pg.content else invalidScene := by
  unfold sceneFromPage
  cases pg.classify p <;> rfl

end

theorem has_single {w k : Nat} (hk : k < w) (p : Nat) :
    has (BitVec.ofNat w (2 ^ p)) k = decide (p = k) := by
  rw [has, BitVec.getLsbD_ofNat, Nat.testBit_two_pow, decide_eq_true hk, Bool.true_and]

/-- The set of the members that satisfy a condition. -/
theorem has_foldl_single {w k : Nat} (hk : k < w) (P : Nat → Prop) [DecidablePred P] (l : List Nat)
    (acc : BitVec w) :
    has (l.foldl (fun acc p => if P p then acc ||| BitVec.ofNat w (2 ^ p) else acc) acc) k = true ↔
      has acc k = true ∨ (k ∈ l ∧ P k) := by
  induction l generalizing acc with
  | nil => simp
  | cons p l ih =>
    rw [List.foldl_cons, ih, List.mem_cons]
    by_cases hp : P p
    · have hset : has (acc ||| BitVec.ofNat w (2 ^ p)) k = true ↔ has acc k = true ∨ p = k := by
        rw [← decide_eq_true_iff (p := p = k), ← has_single hk p, ← Bool.or_eq_true]
        exact iff_of_eq (congrArg (· = true) BitVec.getLsbD_or)
      rw [if_pos hp, hset]
      grind
    · rw [if_neg hp]
      grind

theorem has_corruptSet (pages : List Page) {p : Nat} (hp : p < 23) :
    has (corruptSet pages) p = true ↔ (pages.getD p blankPage).classify p = .corrupt := by
  refine (has_foldl_single hp (fun p => (pages.getD p blankPage).classify p = .corrupt) _ 0).trans ?_
  simp [has, hp]

/-- The node with its store loaded, before the PARK contexts are placed. -/
def State.loaded (s : State) : State :=
  { s with
    node := (settingsFromPage (s.page 1)).1
    fm := { s.fm with
      openMask := (settingsFromPage (s.page 1)).2.1
      shortMask := (settingsFromPage (s.page 1)).2.2.1 }
    al := { s.al with mask := (settingsFromPage (s.page 1)).2.2.2 }
    pt := patchFromPage (s.page 2)
    os := { s.os with
      tables := (List.range 4).map fun t => tableFromPage (s.page (3 + t)) (3 + t) }
    stc := { s.stc with
      lock := lockFromPage (s.page 0)
      shadow := (List.range 16).map fun n => sceneFromPage (s.page (7 + n)) (7 + n)
      loadFaults := corruptSet s.stc.pages } }

theorem loadStore_eq (s : State) : s.loadStore = s.loaded.retargetPark 0 := by
  unfold State.loadStore State.loaded
  rcases settingsFromPage (s.page 1) with ⟨node, opens, shorts, mask⟩
  rfl

/-- A context once the PARK channels are placed. -/
def State.placed (s : State) (i : Nat) : FadeContext :=
  match (if i < 24 then some (s.loaded.entry i).source else none) with
  | some (.park b) => { level := parkLevel b, target := parkLevel b, remaining := 0 }
  | some (.slot _) => s.context i
  | none => s.context i

section
variable {s : State} {i : Nat}

theorem placed_park {b : Byte} (hi : i < 24) (h : (s.loaded.entry i).source = .park b) :
    s.placed i = { level := parkLevel b, target := parkLevel b, remaining := 0 } := by
  rw [State.placed, if_pos hi, h]

theorem placed_slot {o : Byte} (hi : i < 24) (h : (s.loaded.entry i).source = .slot o) :
    s.placed i = s.context i := by
  rw [State.placed, if_pos hi, h]

end

/-- START as it begins: the rate sampled, the store loaded, the PARK contexts placed, one rotation
begun. -/
theorem enterStart_eq {s : State} (hs : s.fe.contexts.length = 28) :
    s.enterStart =
      { s.loaded with
        mc := { s.mc with mode := .start }
        lpu := { s.lpu with rate := s.pins.rate }
        mon := s.mon.beginRotation
        fe := { s.fe with contexts := (List.range 28).map s.placed } } := by
  let sampled : State := (s.setMc { s.mc with mode := .start }).setLpu { s.lpu with rate := s.pins.rate }
  have hload : sampled.loadStore = _ :=
    (loadStore_eq sampled).trans (retargetPark_state (s := sampled.loaded) hs 0)
  exact congrArg (fun t : State => t.setMon t.mon.beginRotation) hload

theorem vddReachesThreshold_below {s : State} (h : s.pins.vddOk = false) (rate : BitVec 2) :
    exec (.vddReachesThreshold rate) s = .next (State.leaveReset
      { s with
        pins := { s.pins with vddOk := true, rate := rate }
        mc := { s.mc with timingLow := s.pins.rstnLow, longReached := false } }) :=
  congrArg Host.Outcome.next (if_neg (by simp [h]))

/-- In RESET the 20 ms point is noted, and nothing else. -/
theorem longPulse_eq_setMc {s : State} (h : s.mc.mode = .reset) :
    ∃ m : ModeController, m.mode = .reset ∧ s.longPulse = s.setMc m := by
  unfold State.longPulse
  split
  · exact ⟨{ s.mc with longReached := true }, h, if_pos h⟩
  · exact ⟨s.mc, h, rfl⟩

/-- RSTn released in RESET. -/
theorem rstnRise_inReset {s : State} (hr : s.pins.rstnLow = true) (hm : s.mc.mode = .reset) (us : Nat)
    (rate : BitVec 2) :
    ∃ m : ModeController, m.mode = .reset ∧ exec (.rstnRise us rate) s =
      .next (((s.setPins { s.pins with rate := rate }).setMc m).released.leaveReset) := by
  have hrelease : ∀ x : State, x.mc.mode = .reset → x.releaseRstn us = x.released.leaveReset :=
    fun x hx => if_neg (by simp [hx, Mode.operating])
  rw [rstnRise_eq hr]
  split
  · obtain ⟨m, hreset, hlong⟩ := longPulse_eq_setMc (s := s.setPins { s.pins with rate := rate }) hm
    exact ⟨m, hreset, congrArg Host.Outcome.next (by rw [hlong, hrelease _ hreset])⟩
  · exact ⟨s.mc, hm, congrArg Host.Outcome.next (hrelease _ hm)⟩

/-- Settles O54: what START has loaded, by the pages as they stood. -/
theorem startLoadsTheStore : Obligations.StartLoadsTheStore := by
  intro rate us s hs hmode loads
  have hloads : ∀ u : State, u.stc = s.stc → u.fe = s.fe → u.pins.rate = rate →
      loads u.enterStart := by
    intro u hstc hfe hrate
    have hpage : ∀ p, u.page p = s.page p := fun p => congrArg (fun t => t.pages.getD p blankPage) hstc
    have hcontext : ∀ i, u.context i = s.context i := fun i =>
      congrArg (fun t => t.contexts.getD i restContext) hfe
    rw [enterStart_eq (hfe ▸ hs.contexts)]
    refine ⟨rfl, hrate, rfl, fun h1 => ?_, fun h1 => ?_, fun h2 => ?_, fun h2 => ?_, fun k hk => ?_,
      fun n => ?_, ?_, fun p hp => ?_, fun i hi b hb => ?_, fun i hi o ho => ?_⟩
    · have hval := (congrArg settingsFromPage (hpage 1)).trans (settingsFromPage_valid h1)
      exact Prod.mk.inj hval
    · have hval := (congrArg settingsFromPage (hpage 1)).trans (settingsFromPage_notValid h1)
      obtain ⟨hnode, hmasks⟩ := Prod.mk.inj hval
      obtain ⟨hopen, hmasks⟩ := Prod.mk.inj hmasks
      exact ⟨hnode, hopen, Prod.mk.inj hmasks⟩
    · exact (congrArg patchFromPage (hpage 2)).trans (patchFromPage_valid h2)
    · exact (congrArg patchFromPage (hpage 2)).trans (patchFromPage_notValid h2)
    · refine (getD_map_range (fun k => tableFromPage (u.page (3 + k)) (3 + k)) [] hk).trans ?_
      rw [hpage, tableFromPage_eq]
    · refine (getD_map_range (fun n => sceneFromPage (u.page (7 + n)) (7 + n)) invalidScene
        n.isLt).trans ?_
      rw [hpage, sceneFromPage_eq]
    · exact (iff_of_eq (congrArg (lockFromPage · = true) (hpage 0))).trans (lockFromPage_iff _)
    · refine (has_corruptSet _ hp).trans (iff_of_eq (congrArg (·.classify p = .corrupt) (hpage p)))
    · exact (getD_map_range u.placed restContext (by omega)).trans (placed_park hi hb)
    · exact (getD_map_range u.placed restContext (by omega)).trans
        ((placed_slot hi ho).trans (hcontext i))
  have hleave : ∀ u : State, u.mc.mode = .reset → u.pins.vddOk = true → u.pins.rstnLow = false →
      u.stc = s.stc → u.fe = s.fe → u.pins.rate = rate → loads u.leaveReset := by
    intro u hm hv hr hstc hfe hrate
    rw [leaveReset_of_ready hm hv hr]
    exact hloads u hstc hfe hrate
  refine ⟨fun hr hv => ⟨_, vddReachesThreshold_below hv rate, hleave _ hmode rfl hr rfl rfl rfl⟩,
    fun hr hv => ?_, fun hr hv => ?_,
    fun hv => congrArg Host.Outcome.next (if_pos hv)⟩
  · obtain ⟨m, hreset, hexec⟩ := rstnRise_inReset hr hmode us rate
    exact ⟨_, hexec, hleave _ hreset hv rfl rfl rfl rfl⟩
  · rw [vddReachesThreshold_below hv, hr]
    exact congrArg Host.Outcome.next (leaveReset_of_held (.inr hr))

end Sys2Proof.Machine

namespace Sys2Proof.Machine

/-! ## The state right after reset (R133) -/

theorem reset_eq_heldReset : State.reset = State.reset.heldReset State.reset.stc.pages 0 := rfl

/-- The state right after reset is one that a node reset leaves. -/
theorem nodeReset_reset : State.reset.nodeReset = State.reset := rfl

theorem wellShaped_reset : WellShaped State.reset where
  places := rfl
  entries := rfl
  groups := rfl
  contexts := rfl
  tables := rfl
  points t ht := by
    obtain ⟨-, rfl⟩ := List.mem_replicate.mp ht
    rfl
  forces := rfl
  duty := rfl
  channels := rfl
  openCount := rfl
  shortCount := rfl
  pages := rfl
  pageBytes b hb := by
    obtain ⟨-, hblank⟩ := List.mem_replicate.mp hb
    obtain rfl := Page.bytes.inj hblank
    rfl
  pageBuffer b hb := nomatch hb
  writing p hp := nomatch hp
  snapshot l hl := nomatch hl
  shadow := rfl
  targets r hr := by
    obtain ⟨-, rfl⟩ := List.mem_replicate.mp hr
    rfl
  buffer := Nat.zero_le 8

/-- Settles O57: the state right after reset is its own node reset. -/
theorem resetHoldsTheNodeResetValues : Obligations.ResetHoldsTheNodeResetValues := by
  obtain ⟨hqueue, hframe⟩ : StoreLaw State.reset := nodeReset_reset ▸ storeLaw_nodeReset State.reset
  exact ⟨⟨reset_eq_heldReset, rfl, rfl, rfl, rfl⟩,
    nodeReset_reset ▸ nodeInv_nodeReset State.reset,
    nodeReset_reset ▸ dutiesCurrent_nodeReset State.reset, wellShaped_reset, hqueue, hframe⟩

end Sys2Proof.Machine

namespace Sys2Proof.Machine

/-! ## Fade rules, curves and masters (Table 2-10) -/

theorem fadeRule_ofByte_own (code : Fin 255) : FadeRule.ofByte (natByte code.val) = .own code := by
  have hval : (natByte code.val).toNat = code.val := natByte_toNat (by omega)
  have hlt : (natByte code.val).toNat < 255 := by omega
  refine (dif_pos hlt).trans (congrArg FadeRule.own (Fin.ext hval))

theorem fadeRule_ofByte_toByte (f : FadeRule) : FadeRule.ofByte f.toByte = f := by
  cases f with
  | frame => rfl
  | own code => exact fadeRule_ofByte_own code

theorem curve_ofCode_toCode (c : Curve) : Curve.ofCode? c.toCode = some c := by
  cases c with
  | linear => rfl
  | log => rfl
  | table t => fin_cases t <;> rfl

theorem curve_toCode_lt (c : Curve) : c.toCode < 6 := by
  cases c with
  | linear => decide
  | log => decide
  | table t => exact Nat.add_lt_add_left t.isLt 2

theorem curve_ofCode_eq_some {n : Nat} {c : Curve} :
    Curve.ofCode? n = some c ↔ n = c.toCode := by
  constructor
  · intro h
    unfold Curve.ofCode? at h
    split at h <;> cases h <;> rfl
  · rintro rfl
    exact curve_ofCode_toCode c

theorem curve_ofCode_eq_none {n : Nat} : Curve.ofCode? n = none ↔ 6 ≤ n := by
  constructor
  · intro h
    by_contra hn
    have hlt : n < 6 := Nat.not_le.mp hn
    interval_cases n <;> cases h
  · intro h
    refine Option.eq_none_iff_forall_ne_some.mpr fun c hc => ?_
    have := curve_ofCode_eq_some.mp hc
    have := curve_toCode_lt c
    omega

theorem masterOfCode_toCode (m : Option (Fin 4)) : masterOfCode? (masterToCode m) = some m := by
  cases m with
  | none => rfl
  | some g => fin_cases g <;> rfl

theorem masterToCode_lt (m : Option (Fin 4)) : masterToCode m < 5 := by
  cases m with
  | none => decide
  | some g => exact Nat.add_lt_add_left g.isLt 1

theorem masterOfCode_eq_some {n : Nat} {m : Option (Fin 4)} :
    masterOfCode? n = some m ↔ n = masterToCode m := by
  constructor
  · intro h
    unfold masterOfCode? at h
    split at h <;> cases h <;> rfl
  · rintro rfl
    exact masterOfCode_toCode m

theorem masterOfCode_eq_none {n : Nat} : masterOfCode? n = none ↔ 5 ≤ n := by
  constructor
  · intro h
    by_contra hn
    have hlt : n < 5 := Nat.not_le.mp hn
    interval_cases n <;> cases h
  · intro h
    refine Option.eq_none_iff_forall_ne_some.mpr fun m hm => ?_
    have := masterOfCode_eq_some.mp hm
    have := masterToCode_lt m
    omega

/-! ## Patch entries -/

theorem has_seven_iff (b : Byte) : has b 7 = true ↔ 128 ≤ b.toNat := by
  have hmsb : has b 7 = b.msb := rfl
  rw [hmsb, BitVec.msb_eq_decide, decide_eq_true_eq]

theorem patchEntry_ofBytes_eq_some {a b c d : Byte} {e : PatchEntry} :
    PatchEntry.ofBytes? a b c d = some e ↔
      a.toNat / 16 % 8 = e.curve.toCode ∧ a.toNat % 16 = masterToCode e.master ∧
        e.source = (if has a 7 then .park b else .slot b) ∧ e.trim = c ∧
        e.fade = FadeRule.ofByte d := by
  rw [← curve_ofCode_eq_some, ← masterOfCode_eq_some, PatchEntry.ofBytes?]
  obtain ⟨source, master, curve, trim, fade⟩ := e
  cases Curve.ofCode? (a.toNat / 16 % 8) with
  | none => simp
  | some curve' =>
    cases masterOfCode? (a.toNat % 16) with
    | none => simp
    | some master' =>
      simp only [Option.some.injEq, PatchEntry.mk.injEq]
      constructor
      · rintro ⟨rfl, rfl, rfl, rfl, rfl⟩
        exact ⟨rfl, rfl, rfl, rfl, rfl⟩
      · rintro ⟨rfl, rfl, rfl, rfl, rfl⟩
        exact ⟨rfl, rfl, rfl, rfl, rfl⟩

theorem patchEntry_ofBytes_eq_none {a b c d : Byte} :
    PatchEntry.ofBytes? a b c d = none ↔ 6 ≤ a.toNat / 16 % 8 ∨ 5 ≤ a.toNat % 16 := by
  rw [← curve_ofCode_eq_none, ← masterOfCode_eq_none, PatchEntry.ofBytes?]
  cases Curve.ofCode? (a.toNat / 16 % 8) with
  | none => simp
  | some curve =>
    cases masterOfCode? (a.toNat % 16) with
    | none => simp
    | some master => simp

/-- The mode byte of an entry. -/
def PatchEntry.modeCode (e : PatchEntry) : Nat :=
  (match e.source with | .slot _ => 0 | .park _ => 128) +
    (e.curve.toCode * 16 + masterToCode e.master)

/-- The value byte of an entry. -/
def PatchEntry.value (e : PatchEntry) : Byte :=
  match e.source with
  | .slot o => o
  | .park b => b

theorem patchEntry_toBytes_eq (e : PatchEntry) :
    e.toBytes = [natByte e.modeCode, e.value, e.trim, e.fade.toByte] := by
  unfold PatchEntry.toBytes PatchEntry.modeCode PatchEntry.value
  cases e.source with
  | slot o => simp only [Nat.zero_add]
  | park b => rfl

theorem patchEntry_ofBytes_toBytes (e : PatchEntry) :
    PatchEntry.ofBytes? (natByte e.modeCode) e.value e.trim e.fade.toByte = some e := by
  have hcurve := curve_toCode_lt e.curve
  have hmaster := masterToCode_lt e.master
  rw [patchEntry_ofBytes_eq_some, fadeRule_ofByte_toByte]
  cases hsource : e.source with
  | slot o =>
    have hcode : e.modeCode = e.curve.toCode * 16 + masterToCode e.master := by
      rw [PatchEntry.modeCode, hsource, Nat.zero_add]
    have hval : (natByte e.modeCode).toNat = e.modeCode := natByte_toNat (by omega)
    have hslot : ¬ has (natByte e.modeCode) 7 = true := by
      rw [has_seven_iff]
      omega
    rw [if_neg hslot, PatchEntry.value, hsource]
    exact ⟨by omega, by omega, rfl, rfl, rfl⟩
  | park b =>
    have hcode : e.modeCode = 128 + (e.curve.toCode * 16 + masterToCode e.master) := by
      rw [PatchEntry.modeCode, hsource]
    have hval : (natByte e.modeCode).toNat = e.modeCode := natByte_toNat (by omega)
    have hpark : has (natByte e.modeCode) 7 = true := by
      rw [has_seven_iff]
      omega
    rw [if_pos hpark, PatchEntry.value, hsource]
    exact ⟨by omega, by omega, rfl, rfl, rfl⟩

theorem patchEntries_flatMap (es : List PatchEntry) :
    patchEntries? (es.flatMap PatchEntry.toBytes) = some es := by
  induction es with
  | nil => rfl
  | cons e es ih =>
    rw [List.flatMap_cons, patchEntry_toBytes_eq]
    exact patchEntries_cons_eq_some.mpr ⟨e, es, patchEntry_ofBytes_toBytes e, ih, rfl⟩

theorem patchEntries_cons_eq_none {a b c d : Byte} {rest : List Byte}
    (h : PatchEntry.ofBytes? a b c d = none ∨ patchEntries? rest = none) :
    patchEntries? (a :: b :: c :: d :: rest) = none := by
  refine Option.eq_none_iff_forall_ne_some.mpr fun es hes => ?_
  obtain ⟨e, es', he, hrest, -⟩ := patchEntries_cons_eq_some.mp hes
  rcases h with h | h
  · exact nomatch h.symm.trans he
  · exact nomatch h.symm.trans hrest

/-! ## Group records (Table 2-11) -/

theorem groupRecord_ofBytes_zero (o c : Byte) :
    GroupRecord.ofBytes? 0x00 o c = some { kind := .none, fade := FadeRule.ofByte c } := rfl

theorem groupRecord_ofBytes_one (o c : Byte) :
    GroupRecord.ofBytes? 0x01 o c = some { kind := .slot o, fade := FadeRule.ofByte c } := rfl

theorem groupRecord_ofBytes_toBytes (r : GroupRecord) :
    ∃ a b c, r.toBytes = [a, b, c] ∧ GroupRecord.ofBytes? a b c = some r := by
  obtain ⟨kind, fade⟩ := r
  cases kind with
  | none =>
    refine ⟨0x00, 0x00, fade.toByte, rfl, ?_⟩
    rw [groupRecord_ofBytes_zero, fadeRule_ofByte_toByte]
  | slot o =>
    refine ⟨0x01, o, fade.toByte, rfl, ?_⟩
    rw [groupRecord_ofBytes_one, fadeRule_ofByte_toByte]

end Sys2Proof.Machine

namespace Sys2Proof.Machine

/-! ## A settings record under a mask (R33, R165, Table 2-12) -/

theorem lossAction_ofByte_toByte (a : LossAction) : LossAction.ofByte? a.toByte = some a := by
  cases a <;> rfl

theorem lossAction_ofByte_eq_some {b : Byte} {a : LossAction} :
    LossAction.ofByte? b = some a ↔ a.toByte = b := by
  constructor
  · intro h
    unfold LossAction.ofByte? at h
    split_ifs at h with h0 h1 h2 <;> cases h
    exacts [h0.symm, h1.symm, h2.symm]
  · rintro rfl
    exact lossAction_ofByte_toByte a

theorem lossAction_ofByte_eq_none {b : Byte} : LossAction.ofByte? b = none ↔ 2 < b.toNat := by
  unfold LossAction.ofByte?
  split_ifs with h0 h1 h2
  · simp [h0]
  · simp [h1]
  · simp [h2]
  · refine iff_of_true rfl ?_
    bv_omega

/-- The fields of a record that a mask selects. -/
def NodeSettings.selectedBy (n : NodeSettings) (mask : Word) : NodeWrite where
  address := if has mask 0 then some n.address else none
  slotBase := if has mask 1 then some n.slotBase else none
  lossTimeout := if has mask 2 then some n.lossTimeout else none
  lossAction := if has mask 3 then some n.lossAction else none
  lossScene := if has mask 4 then some n.lossScene else none
  lossFade := if has mask 5 then some n.lossFade else none
  ceiling := if has mask 6 then some n.ceiling else none
  periodCode := if has mask 7 then some n.periodCode else none
  options := if has mask 8 then some (n.stagger, n.dither, n.quiet) else none
  confirmCode := if has mask 9 then some n.confirmCode else none

theorem selected_some {α : Type} {mask : Word} {k : Nat} {v : Option α} {a : α} (h : v = some a) :
    selected mask k v = some (if has mask k then some a else none) := by
  rw [selected, h]
  cases has mask k <;> rfl

theorem optionsOf_optionsByte (n : NodeSettings) :
    optionsOf (optionsByte n) = (n.stagger, n.dither, n.quiet) := by
  unfold optionsByte
  cases n.stagger <;> cases n.dither <;> cases n.quiet <;> rfl

theorem finOf_slotBase (base : Fin 1024) :
    finOf? 1024 (be16 (hiByte (natWord base.val)) (loByte (natWord base.val))).toNat = some base := by
  have hval : (natWord base.val).toNat = base.val := by
    rw [natWord, BitVec.toNat_ofNat, Nat.mod_eq_of_lt (by omega)]
  rw [be16_bytes, hval, finOf_val]

theorem nodeWrite_ofBytes_toBytes (n : NodeSettings) (mask : Word) :
    NodeWrite.ofBytes? mask n.toBytes = some (n.selectedBy mask) :=
  nodeWrite_ofBytes_eq_some.mpr
    ⟨selected_some (finOf_natByte n.address (by decide)), selected_some (finOf_slotBase n.slotBase),
      selected_some rfl, selected_some (lossAction_ofByte_toByte n.lossAction),
      selected_some (finOf_natByte n.lossScene (by decide)), selected_some rfl,
      selected_some (finOf_natByte n.ceiling (by decide)),
      selected_some (finOf_natByte n.periodCode (by decide)),
      selected_some (congrArg some (optionsOf_optionsByte n)),
      selected_some (finOf_natByte n.confirmCode (by decide))⟩

theorem write_selectedBy_all {n old : NodeSettings} {mask : Word}
    (h : ∀ k, k < 10 → has mask k = true) : old.write (n.selectedBy mask) = n := by
  unfold NodeSettings.write NodeSettings.selectedBy
  simp only [h 0 (by decide), h 1 (by decide), h 2 (by decide), h 3 (by decide), h 4 (by decide),
    h 5 (by decide), h 6 (by decide), h 7 (by decide), h 8 (by decide), h 9 (by decide), ↓reduceIte,
    Option.map_some, Option.getD_some]

theorem write_selectedBy_none {n old : NodeSettings} {mask : Word}
    (h : ∀ k, k < 10 → has mask k = false) : old.write (n.selectedBy mask) = old := by
  unfold NodeSettings.write NodeSettings.selectedBy
  simp only [h 0 (by decide), h 1 (by decide), h 2 (by decide), h 3 (by decide), h 4 (by decide),
    h 5 (by decide), h 6 (by decide), h 7 (by decide), h 8 (by decide), h 9 (by decide),
    Bool.false_eq_true, ↓reduceIte, Option.map_none, Option.getD_none]

/-- The ten selecting bits of a mask. -/
theorem has_of_extract {mask : Word} {bits : BitVec 10} (h : mask.extractLsb' 0 10 = bits) {k : Nat}
    (hk : k < 10) : has mask k = has bits k := by
  rw [← h, has, has, BitVec.getLsbD_extractLsb', decide_eq_true hk, Bool.true_and, Nat.zero_add]

/-! ## The record's ranges -/

/-- Eleven bytes are refused exactly where a selected field is. -/
theorem nodeWrite_ofBytes_eq_none {mask : Word} {b1 b2 b3 b4 b5 b6 b7 b8 b9 b10 b11 : Byte} :
    NodeWrite.ofBytes? mask [b1, b2, b3, b4, b5, b6, b7, b8, b9, b10, b11] = none ↔
      selected mask 0 (finOf? 251 b1.toNat) = none ∨
      selected mask 1 (finOf? 1024 (be16 b2 b3).toNat) = none ∨
      selected mask 3 (LossAction.ofByte? b5) = none ∨
      selected mask 4 (finOf? 16 b6.toNat) = none ∨
      selected mask 6 (finOf? 65 b8.toNat) = none ∨
      selected mask 7 (finOf? 4 b9.toNat) = none ∨
      selected mask 9 (finOf? 4 b11.toNat) = none := by
  constructor
  · intro hnone
    by_contra hall
    simp only [not_or, ← ne_eq, Option.ne_none_iff_exists'] at hall
    obtain ⟨⟨address, h0⟩, ⟨slotBase, h1⟩, ⟨lossAction, h3⟩, ⟨lossScene, h4⟩, ⟨ceiling, h6⟩,
      ⟨periodCode, h7⟩, ⟨confirmCode, h9⟩⟩ := hall
    have hsome := (nodeWrite_ofBytes_eq_some (w := ⟨address, slotBase, _, lossAction, lossScene, _,
      ceiling, periodCode, _, confirmCode⟩)).mpr
      ⟨h0, h1, selected_some (a := b4) rfl, h3, h4, selected_some (a := b7) rfl, h6, h7,
        selected_some (a := optionsOf b10) rfl, h9⟩
    exact nomatch hnone.symm.trans hsome
  · intro hany
    refine Option.eq_none_iff_forall_ne_some.mpr fun w hw => ?_
    obtain ⟨h0, h1, -, h3, h4, -, h6, h7, -, h9⟩ := nodeWrite_ofBytes_eq_some.mp hw
    simp [h0, h1, h3, h4, h6, h7, h9] at hany

/-- What a field becomes: the value read where it is selected, else the value it had. -/
theorem getD_selected {α : Type} {mask : Word} {k : Nat} {v x : Option α}
    (h : selected mask k v = some x) (old : α) :
    if has mask k then v = some (x.getD old) else x.getD old = old := by
  rw [selected_eq_some] at h
  split
  · next hk =>
    rw [if_pos hk] at h
    obtain ⟨a, rfl, rfl⟩ := h
    rfl
  · next hk =>
    rw [if_neg hk] at h
    rw [h]
    rfl

/-- A field that any value of its bytes fits. -/
theorem getD_selected_some {α : Type} {mask : Word} {k : Nat} {v : α} {x : Option α}
    (h : selected mask k (some v) = some x) (old : α) :
    x.getD old = if has mask k then v else old := by
  obtain rfl := Option.some.inj ((selected_some rfl).symm.trans h)
  cases has mask k <;> rfl

/-- One of the three options. -/
theorem getD_map_selected {α β : Type} {mask : Word} {k : Nat} {v : α} {x : Option α}
    (h : selected mask k (some v) = some x) (f : α → β) (old : β) :
    (x.map f).getD old = if has mask k then f v else old := by
  obtain rfl := Option.some.inj ((selected_some rfl).symm.trans h)
  cases has mask k <;> rfl

/-- A numbered field. -/
theorem getD_selected_finOf {n : Nat} {mask : Word} {k v : Nat} {x : Option (Fin n)}
    (h : selected mask k (finOf? n v) = some x) (old : Fin n) :
    if has mask k then (x.getD old).val = v else x.getD old = old := by
  have hval := getD_selected h old
  split at hval
  · next hk => rw [if_pos hk, finOf_eq_some.mp hval]
  · next hk => rw [if_neg hk, hval]

end Sys2Proof.Machine

namespace Sys2Proof.Machine

/-! ## Words and sets as bytes (R28 to R30, Table 2-9) -/

theorem word_toNat_bytes (w : Word) : w.toNat = (hiByte w).toNat * 256 + (loByte w).toNat := by
  have hhi : (hiByte w).toNat = w.toNat / 256 % 256 := by
    rw [hiByte, BitVec.extractLsb'_toNat, Nat.shiftRight_eq_div_pow]
  have hlo : (loByte w).toNat = w.toNat % 256 := by
    rw [loByte, BitVec.extractLsb'_toNat, Nat.shiftRight_zero]
  have := w.isLt
  omega

theorem temperature_toInt {t : Int} (hlo : -32768 ≤ t) (hhi : t < 32768) :
    (BitVec.ofInt 16 t).toInt = t := by
  rw [BitVec.toInt_ofInt, Int.bmod_eq_of_le] <;> omega

/-- A byte taken out of a set. -/
theorem has_extract {w k : Nat} (set : BitVec w) (start : Nat) (hk : k < 8) :
    has (set.extractLsb' start 8) k = has set (start + k) := by
  rw [has, has, BitVec.getLsbD_extractLsb', decide_eq_true hk, Bool.true_and]

theorem has_setWidth {w v k : Nat} (set : BitVec w) (hk : k < v) :
    has (set.setWidth v) k = has set k := by
  rw [has, has, BitVec.getLsbD_setWidth, decide_eq_true hk, Bool.true_and]

theorem has_setWidth_eq {w v : Nat} (set : BitVec w) (k : Nat) :
    has (set.setWidth v) k = (decide (k < v) && has set k) := by
  rw [has, has, BitVec.getLsbD_setWidth]

theorem has_of_le {w k : Nat} (set : BitVec w) (hk : w ≤ k) : has set k = false :=
  BitVec.getLsbD_of_ge set k hk

theorem channelSetOf_bytes (c : ChannelSet) :
    channelSetOf (c.extractLsb' 16 8) (c.extractLsb' 8 8) (c.extractLsb' 0 8) = c := by
  refine BitVec.eq_of_getLsbD_eq fun k hk => ?_
  rw [channelSetOf, BitVec.getLsbD_append, BitVec.getLsbD_append]
  split
  · next h0 => exact (has_extract c 0 h0).trans (by rw [Nat.zero_add]; rfl)
  · split
    · next h1 => exact (has_extract c 8 h1).trans (congrArg (has c) (by omega))
    · exact (has_extract c 16 (by omega)).trans (congrArg (has c) (by omega))

theorem channelSetBytes_read (c : ChannelSet) :
    ∃ h m l, channelSetBytes c = [h, m, l] ∧ channelSetOf h m l = c ∧
      ∀ k, k < 8 → has h k = has c (16 + k) ∧ has m k = has c (8 + k) ∧ has l k = has c k :=
  ⟨_, _, _, rfl, channelSetOf_bytes c, fun k hk =>
    ⟨has_extract c 16 hk, has_extract c 8 hk, (has_extract c 0 hk).trans (by rw [Nat.zero_add])⟩⟩

theorem pageSetBytes_read (p : BitVec 23) :
    ∃ h m l, pageSetBytes p = [h, m, l] ∧ has h 7 = false ∧
      (∀ k, k < 7 → has h k = has p (16 + k)) ∧
      (∀ k, k < 8 → has m k = has p (8 + k) ∧ has l k = has p k) := by
  have hwide : ∀ k, k < 24 → has (p.setWidth 24) k = has p k := fun k hk => has_setWidth p hk
  obtain ⟨h, m, l, hbytes, -, hbits⟩ := channelSetBytes_read (p.setWidth 24)
  refine ⟨h, m, l, hbytes, ?_, fun k hk => ?_, fun k hk => ?_⟩
  · rw [(hbits 7 (by decide)).1, hwide _ (by decide), has_of_le p (by decide)]
  · rw [(hbits k (by omega)).1, hwide _ (by omega)]
  · rw [(hbits k hk).2.1, (hbits k hk).2.2, hwide _ (by omega), hwide _ (by omega)]
    exact ⟨rfl, rfl⟩

theorem reasonOf_reasonByte (r : ReasonSet) : reasonOf (reasonByte r) = r :=
  BitVec.setWidth_setWidth_of_le r (by decide)

theorem reasonByte_read (r : ReasonSet) :
    reasonOf (reasonByte r) = r ∧ has (reasonByte r) 6 = false ∧ has (reasonByte r) 7 = false ∧
      ∀ k, k < 6 → has (reasonByte r) k = has r k := by
  have hwide : ∀ k, k < 8 → has (reasonByte r) k = has r k := fun k hk => has_setWidth r hk
  exact ⟨reasonOf_reasonByte r, (hwide 6 (by decide)).trans (has_of_le r (by decide)),
    (hwide 7 (by decide)).trans (has_of_le r (by decide)), fun k hk => hwide k (by omega)⟩

theorem has_sceneValidSet (s : State) (n : Fin 16) :
    has (sceneValidSet s.stc.shadow) n.val = (s.scene n).valid := by
  have hfold := has_foldl_single n.isLt
    (fun n => (s.stc.shadow.getD n invalidScene).valid = true) (List.range 16) 0
  rw [Bool.eq_iff_iff]
  refine hfold.trans ?_
  simp [has, State.scene]

/-! ## The codes of Tables 2-8, 2-15 and 2-18 -/

theorem source_code_cue (n : Fin 16) :
    (Source.cue n).code.toNat = 0x10 + n.val ∧ (Source.lossCue n).code.toNat = 0x30 + n.val := by
  revert n
  decide

theorem thermalSupplyByte_preUv (t : Thermal) :
    (thermalSupplyByte t .preUv).toNat = (thermalSupplyByte t .normal).toNat + 0x80 := by
  cases t <;> rfl

theorem failureCause_code (cause : FailureCause) :
    cause.code = if cause = .timeout then 0x01 else 0x02 := by
  cases cause <;> rfl

/-! ## The forms read back -/

theorem settings_read_back (n old : NodeSettings) (mask : Word) :
    ∃ w, NodeWrite.ofBytes? mask n.toBytes = some w ∧
      (mask.extractLsb' 0 10 = 0x3FF → old.write w = n) ∧
      (mask.extractLsb' 0 10 = 0 → old.write w = old) := by
  refine ⟨_, nodeWrite_ofBytes_toBytes n mask, fun hall => ?_, fun hnone => ?_⟩
  · refine write_selectedBy_all fun k hk => (has_of_extract hall hk).trans ?_
    interval_cases k <;> rfl
  · exact write_selectedBy_none fun k hk => (has_of_extract hnone hk).trans BitVec.getLsbD_zero

theorem curve_toCode_injective {c c' : Curve} (h : c.toCode = c'.toCode) : c = c' :=
  Option.some.inj ((curve_ofCode_toCode c).symm.trans (h ▸ curve_ofCode_toCode c'))

theorem masterToCode_injective {m m' : Option (Fin 4)} (h : masterToCode m = masterToCode m') :
    m = m' :=
  Option.some.inj ((masterOfCode_toCode m).symm.trans (h ▸ masterOfCode_toCode m'))

/-- Settles O55, form by form. -/
theorem wireFormsReadBack : Obligations.WireFormsReadBack := by
  refine ⟨fun e => ⟨_, _, _, _, patchEntry_toBytes_eq e, patchEntry_ofBytes_toBytes e⟩,
    patchEntries_flatMap, groupRecord_ofBytes_toBytes, settings_read_back, wordsOf_flatMap,
    fun a b c d => ⟨patchEntry_ofBytes_eq_none, fun e he => ?entry⟩, fun bytes => ⟨fun hmod => ?length,
      fun h => h ▸ rfl, fun a b c d rest h => ?run⟩,
    fun k o c => ⟨fun hk => groupRecord_ofBytes_none hk, groupRecord_ofBytes_zero o c,
      groupRecord_ofBytes_one o c⟩,
    ⟨rfl, fadeRule_ofByte_own⟩, ⟨fun mask bytes hlen => ?eleven,
      fun mask b1 b2 b3 b4 b5 b6 b7 b8 b9 b10 b11 => ?fields⟩,
    ⟨⟨rfl, rfl, rfl⟩, ⟨rfl, rfl, rfl, rfl, rfl, rfl, rfl⟩, ⟨rfl, rfl, rfl, rfl⟩,
      ⟨rfl, rfl, rfl, source_code_cue⟩, ⟨thermalSupplyByte_preUv, rfl, rfl, rfl, rfl⟩,
      ⟨rfl, fun _ => rfl, rfl, fun _ => rfl⟩, rfl, fun p cause => ?failures⟩,
    fun w => ⟨_, _, rfl, word_toNat_bytes w, be16_bytes w⟩,
    fun t hlo hhi => ⟨_, _, rfl, ?temperature⟩, ⟨rfl, rfl⟩, channelSetBytes_read, pageSetBytes_read,
    reasonByte_read, has_setWidth_eq, has_sceneValidSet⟩
  case entry =>
    obtain ⟨hcurve, hmaster, hsource, htrim, hfade⟩ := patchEntry_ofBytes_eq_some.mp he
    exact ⟨hsource, fun h => curve_toCode_injective (hcurve.symm.trans h),
      fun h => curve_toCode_injective (hcurve.symm.trans h),
      fun t h => curve_toCode_injective (hcurve.symm.trans h),
      fun h => masterToCode_injective (hmaster.symm.trans h),
      fun g h => masterToCode_injective (hmaster.symm.trans h), htrim, hfade⟩
  case length =>
    refine Option.eq_none_iff_forall_ne_some.mpr fun es hes => hmod ?_
    rw [patchEntries_length hes]
    exact Nat.mul_mod_right 4 es.length
  case run =>
    subst h
    exact ⟨patchEntries_cons_eq_none, fun e es he hes =>
      patchEntries_cons_eq_some.mpr ⟨e, es, he, hes, rfl⟩⟩
  case eleven =>
    refine Option.eq_none_iff_forall_ne_some.mpr fun w hw => hlen ?_
    obtain ⟨b1, b2, b3, b4, b5, b6, b7, b8, b9, b10, b11, rfl⟩ := nodeWrite_length hw
    rfl
  case fields =>
    intro bytes
    refine ⟨?_, fun w old hw => ?_⟩
    · simp only [bytes, nodeWrite_ofBytes_eq_none, selected_eq_none, finOf_eq_none,
        lossAction_ofByte_eq_none]
      rfl
    · intro new
      obtain ⟨h0, h1, h2, h3, h4, h5, h6, h7, h8, h9⟩ := nodeWrite_ofBytes_eq_some.mp hw
      refine ⟨getD_selected_finOf h0 _, getD_selected_finOf h1 _, getD_selected_some h2 _, ?action,
        getD_selected_finOf h4 _, getD_selected_some h5 _, getD_selected_finOf h6 _,
        getD_selected_finOf h7 _, getD_map_selected h8 _ _, getD_map_selected h8 _ _,
        getD_map_selected h8 _ _, getD_selected_finOf h9 _⟩
      case action =>
        have haction := getD_selected h3 old.lossAction
        rwa [lossAction_ofByte_eq_some] at haction
  case failures =>
    intro c
    rw [show c = cause.code from (failureCause_code cause).symm]
    exact ⟨rfl, fun _ => rfl, rfl, rfl⟩
  case temperature => rw [be16_bytes, temperature_toInt hlo hhi]

end Sys2Proof.Machine

namespace Sys2Proof.Machine

/-! ## Contents laid out in runs -/

/-- Place j of the i-th piece, in a list of pieces of one length. -/
theorem getElem?_flatMap_const {α β : Type} {f : α → List β} {k : Nat} (hf : ∀ x, (f x).length = k)
    {j : Nat} (hj : j < k) (l : List α) (i : Nat) :
    (l.flatMap f)[k * i + j]? = l[i]?.bind fun x => (f x)[j]? := by
  induction l generalizing i with
  | nil => rfl
  | cons x xs ih =>
    rw [List.flatMap_cons]
    cases i with
    | zero =>
      rw [Nat.mul_zero, Nat.zero_add, List.getElem?_append_left (by rw [hf]; exact hj)]
      rfl
    | succ i =>
      rw [Nat.mul_succ, List.getElem?_append_right (by rw [hf]; omega), hf,
        Nat.add_right_comm, Nat.add_sub_cancel, ih]
      rfl

theorem getD_flatMap_const {α β : Type} {f : α → List β} {k : Nat} (hf : ∀ x, (f x).length = k)
    {j : Nat} (hj : j < k) {l : List α} {i : Nat} (hi : i < l.length) (a : α) (b : β) :
    (l.flatMap f).getD (k * i + j) b = (f (l.getD i a)).getD j b := by
  rw [List.getD_eq_getElem?_getD, List.getD_eq_getElem?_getD, getElem?_flatMap_const hf hj,
    getElem?_eq_some_getD (d := a) hi]
  rfl

theorem wordsOf_flatMap_append (l : List Word) (rest : List Byte) :
    wordsOf (l.flatMap wordBytes ++ rest) = l ++ wordsOf rest := by
  induction l with
  | nil => rfl
  | cons w l ih =>
    have hbytes : (w :: l).flatMap wordBytes ++ rest =
        hiByte w :: loByte w :: (l.flatMap wordBytes ++ rest) := rfl
    rw [hbytes, wordsOf, be16_bytes, ih]
    rfl

/-- A list is its values over the range of its places. -/
theorem map_range_getD {α : Type} {l : List α} {n : Nat} (hl : l.length = n) (d : α) :
    (List.range n).map (fun i => l.getD i d) = l :=
  (eq_map_range (g := fun _ x => x) d hl fun _ => Option.map_id'.symm).symm

/-! ## The lengths of the contents -/

theorem settingsContent_length (n : NodeSettings) (opens shorts : ChannelSet) (mask : ReasonSet) :
    (settingsContent n opens shorts mask).length = 18 := rfl

theorem curveContent_length {points : List Word} (h : points.length = 33) :
    (curveContent points).length = 66 := by
  rw [curveContent, words_length, h]

section
variable {t : PatchTable}

theorem entryBytes_length (he : t.entries.length = 24) :
    (t.entries.flatMap PatchEntry.toBytes).length = 96 := by
  rw [length_flatMap_const patchEntry_toBytes_length, he]

theorem patchContent_length (he : t.entries.length = 24) (hg : t.groups.length = 4) :
    (patchContent t).length = 108 := by
  rw [patchContent, List.length_append, entryBytes_length he,
    length_flatMap_const groupRecord_toBytes_length, hg]

/-! ## What is loaded from what was saved -/

theorem patchContent_entry (he : t.entries.length = 24) {i j : Nat} (hi : i < 24) (hj : j < 4)
    (rest : List Byte) (d : Byte) (e : PatchEntry) :
    (patchContent t ++ rest).getD (4 * i + j) d = (t.entries.getD i e).toBytes.getD j d := by
  rw [patchContent, List.append_assoc, List.getD_append _ _ _ _ (by rw [entryBytes_length he]; omega)]
  exact getD_flatMap_const patchEntry_toBytes_length hj (he ▸ hi) _ _

theorem patchContent_group (he : t.entries.length = 24) (hg : t.groups.length = 4) {g j : Nat}
    (hi : g < 4) (hj : j < 3) (rest : List Byte) (d : Byte) :
    (patchContent t ++ rest).getD (96 + (3 * g + j)) d =
      (t.groups.getD g defaultGroup).toBytes.getD j d := by
  have hgroups := length_flatMap_const groupRecord_toBytes_length t.groups
  rw [patchContent, List.append_assoc,
    List.getD_append_right _ _ _ _ (by rw [entryBytes_length he]; omega), entryBytes_length he,
    Nat.add_sub_cancel_left, List.getD_append _ _ _ _ (by omega)]
  exact getD_flatMap_const groupRecord_toBytes_length hj (hg ▸ hi) _ _

theorem entries_ofPage (he : t.entries.length = 24) (rest : List Byte) :
    (PatchTable.ofPage (patchContent t ++ rest)).entries = t.entries := by
  let e : PatchEntry := defaultPatchEntry 0
  refine (List.map_congr_left fun i hi => ?_).trans (map_range_getD he e)
  have hbyte : ∀ j, j < 4 → (patchContent t ++ rest).getD (4 * i + j) 0xFF =
      [natByte (t.entries.getD i e).modeCode, (t.entries.getD i e).value, (t.entries.getD i e).trim,
        (t.entries.getD i e).fade.toByte].getD j 0xFF := fun j hj => by
    rw [patchContent_entry he (List.mem_range.mp hi) hj rest _ e, patchEntry_toBytes_eq]
  have hread : PatchEntry.ofBytes? ((patchContent t ++ rest).getD (4 * i + 0) 0xFF)
      ((patchContent t ++ rest).getD (4 * i + 1) 0xFF)
      ((patchContent t ++ rest).getD (4 * i + 2) 0xFF)
      ((patchContent t ++ rest).getD (4 * i + 3) 0xFF) = some (t.entries.getD i e) := by
    rw [hbyte 0 (by decide), hbyte 1 (by decide), hbyte 2 (by decide), hbyte 3 (by decide)]
    exact patchEntry_ofBytes_toBytes (t.entries.getD i e)
  exact congrArg (Option.getD · (defaultPatchEntry i)) hread

theorem groups_ofPage (he : t.entries.length = 24) (hg : t.groups.length = 4) (rest : List Byte) :
    (PatchTable.ofPage (patchContent t ++ rest)).groups = t.groups := by
  refine (List.map_congr_left fun g hi => ?_).trans (map_range_getD hg defaultGroup)
  obtain ⟨a, b, c, hbytes, hread⟩ := groupRecord_ofBytes_toBytes (t.groups.getD g defaultGroup)
  have hbyte : ∀ j, j < 3 → (patchContent t ++ rest).getD (96 + (3 * g + j)) 0xFF =
      [a, b, c].getD j 0xFF := fun j hj => by
    rw [patchContent_group he hg (List.mem_range.mp hi) hj, hbytes]
  have h0 : (patchContent t ++ rest).getD (96 + 3 * g) 0xFF = a := hbyte 0 (by decide)
  have h1 : (patchContent t ++ rest).getD (97 + 3 * g) 0xFF = b := by
    rw [← Nat.add_right_comm 96 (3 * g) 1, Nat.add_assoc]
    exact hbyte 1 (by decide)
  have h2 : (patchContent t ++ rest).getD (98 + 3 * g) 0xFF = c := by
    rw [← Nat.add_right_comm 96 (3 * g) 2, Nat.add_assoc]
    exact hbyte 2 (by decide)
  dsimp only
  rw [h0, h1, h2, hread]
  rfl

theorem patchTable_ofPage_patchContent (he : t.entries.length = 24) (hg : t.groups.length = 4)
    (rest : List Byte) : PatchTable.ofPage (patchContent t ++ rest) = t :=
  congrArg₂ PatchTable.mk (entries_ofPage he rest) (groups_ofPage he hg rest)

end

theorem settings_ofPage (n : NodeSettings) (opens shorts : ChannelSet) (mask : ReasonSet)
    (rest : List Byte) :
    NodeSettings.ofPage (settingsContent n opens shorts mask ++ rest) = n :=
  calc NodeSettings.ofPage (settingsContent n opens shorts mask ++ rest)
    _ = { address := (finOf? 251 (natByte n.address.val).toNat).getD defaultNode.address
          slotBase := (finOf? 1024 (be16 (hiByte (natWord n.slotBase.val))
            (loByte (natWord n.slotBase.val))).toNat).getD defaultNode.slotBase
          lossTimeout := n.lossTimeout
          lossAction := (LossAction.ofByte? n.lossAction.toByte).getD defaultNode.lossAction
          lossScene := (finOf? 16 (natByte n.lossScene.val).toNat).getD defaultNode.lossScene
          lossFade := n.lossFade
          ceiling := (finOf? 65 (natByte n.ceiling.val).toNat).getD defaultNode.ceiling
          periodCode := (finOf? 4 (natByte n.periodCode.val).toNat).getD defaultNode.periodCode
          stagger := (optionsOf (optionsByte n)).1
          dither := (optionsOf (optionsByte n)).2.1
          quiet := (optionsOf (optionsByte n)).2.2
          confirmCode :=
            (finOf? 4 (natByte n.confirmCode.val).toNat).getD defaultNode.confirmCode } := rfl
    _ = n := by
      rw [finOf_natByte n.address (by decide), finOf_slotBase, lossAction_ofByte_toByte,
        finOf_natByte n.lossScene (by decide), finOf_natByte n.ceiling (by decide),
        finOf_natByte n.periodCode (by decide), optionsOf_optionsByte,
        finOf_natByte n.confirmCode (by decide)]
      rfl

theorem masks_ofPage (n : NodeSettings) (opens shorts : ChannelSet) (mask : ReasonSet)
    (rest : List Byte) :
    masksOfPage (settingsContent n opens shorts mask ++ rest) = (opens, shorts, mask) :=
  congrArg₂ Prod.mk (channelSetOf_bytes opens)
    (congrArg₂ Prod.mk (channelSetOf_bytes shorts) (reasonOf_reasonByte mask))

theorem tableOfPage_curveContent {points : List Word} (h : points.length = 33) (rest : List Byte) :
    tableOfPage (curveContent points ++ rest) = points := by
  rw [tableOfPage, curveContent, wordsOf_flatMap_append]
  exact List.take_left' h

theorem scene_ofPage_sceneContent {r : SceneRecord} (hv : r.valid = true) (h : r.targets.length = 28)
    (rest : List Byte) : SceneRecord.ofPage (sceneContent r ++ rest) = r := by
  obtain ⟨valid, targets, fade⟩ := r
  obtain rfl : valid = true := hv
  have hlen : (targets.flatMap wordBytes).length = 56 := by rw [words_length, h]
  have htargets : (wordsOf (targets.flatMap wordBytes ++ ([fade] ++ rest))).take 28 = targets := by
    rw [wordsOf_flatMap_append]
    exact List.take_left' h
  have hfade : (targets.flatMap wordBytes ++ ([fade] ++ rest)).getD 56 0 = fade := by
    rw [List.getD_append_right _ _ _ _ hlen.le, hlen]
    rfl
  rw [sceneContent, List.append_assoc, SceneRecord.ofPage, htargets, hfade]

/-! ## The saved pages -/

/-- A page that was saved is loaded from its content, followed by padding. -/
theorem content_saved {c : List Byte} (h : c.length ≤ 126) :
    ∃ rest, (Page.bytes (pageImage c)).content = c ++ rest :=
  ⟨_, content_pageImage c h⟩

theorem table_length {s : State} (hs : WellShaped s) {t : Nat} (ht : t < 4) :
    (s.os.tables.getD t defaultTable).length = 33 := by
  have hlt : t < s.os.tables.length := hs.tables ▸ ht
  rw [List.getD_eq_getElem _ _ hlt]
  exact hs.points _ (List.getElem_mem hlt)

/-- Settles O56: each page is valid, and its content is what was saved, then padding. -/
theorem savedPagesLoadBack : Obligations.SavedPagesLoadBack := by
  intro s hs image settings
  have hsettings : settings.length ≤ 126 := (settingsContent_length _ _ _ _).le.trans (by decide)
  have hpatch : (patchContent s.pt).length ≤ 126 :=
    (patchContent_length hs.entries hs.groups).le.trans (by decide)
  have hcurve : ∀ t, t < 4 → (curveContent (s.os.tables.getD t defaultTable)).length ≤ 126 :=
    fun t ht => (curveContent_length (table_length hs ht)).le.trans (by decide)
  have hscene : ∀ r : SceneRecord, r.targets.length = 28 → (sceneContent r).length ≤ 126 :=
    fun r hr => (sceneContent_length hr).le.trans (by decide)
  have hlock : (image lockContent).classify 0 = .valid :=
    classify_pageImage lockContent 0 (by decide) (pageImage_notBlank 0x01 [] (by decide)) (.inr rfl)
  refine ⟨classify_saved _ 1 hsettings (by decide), classify_saved _ 2 hpatch (by decide),
    fun t p ht h3 h6 => classify_saved _ p (hcurve t ht) (by omega),
    fun r p hv hr h7 h22 => classify_saved _ p (hscene r hr) (by omega), ?_, ?_,
    fun t p ht h3 h6 => ?_, fun r p hv hr h7 => ?_,
    (lockFromPage_iff _).mpr (by rw [hlock]; decide), hlock, rfl⟩
  · obtain ⟨rest, hcontent⟩ := content_saved hsettings
    rw [settingsFromPage_valid (classify_saved _ 1 hsettings (by decide)), hcontent, settings_ofPage,
      masks_ofPage]
  · obtain ⟨rest, hcontent⟩ := content_saved hpatch
    rw [patchFromPage_valid (classify_saved _ 2 hpatch (by decide)), hcontent,
      patchTable_ofPage_patchContent hs.entries hs.groups]
  · obtain ⟨rest, hcontent⟩ := content_saved (hcurve t ht)
    rw [tableFromPage_eq, if_pos (classify_saved _ p (hcurve t ht) (by omega)), hcontent,
      tableOfPage_curveContent (table_length hs ht)]
  · obtain ⟨rest, hcontent⟩ := content_saved (hscene r hr)
    rw [sceneFromPage_eq, if_pos (classify_saved _ p (hscene r hr) (by omega)), hcontent,
      scene_ofPage_sceneContent hv hr]

end Sys2Proof.Machine
